-- ==== Sys2Proof/Word.lean ====
section
/-! DEFINITION. The word types of the block: bytes, byte strings and the two fixed value widths
(spec/00_scope.md R10, R11). -/

namespace Sys2Proof

/-- One byte. -/
abbrev Byte := BitVec 8

/-- A byte string, first byte first (00_scope.md R11, R14). -/
abbrev Bytes := List Byte

/-- `u16` of 00_scope.md R11. -/
abbrev U16 := BitVec 16

/-- `u32` of 00_scope.md R11. -/
abbrev U32 := BitVec 32

end Sys2Proof
end

