-- ==== Sys2Proof/Machine/Bytes.lean ====
section
/-! DEFINITION. Byte order and byte-string helpers (spec/00_scope.md R11, R14; 20_memory.md R74). -/

namespace Sys2Proof

/-- The `n` low bytes of `v`, least significant first: `le16(v)` is `leBytes 2 v`, `le32(v)` is
`leBytes 4 v` (00_scope.md R14). -/
def leBytes : Nat → Nat → Bytes
  | 0, _ => []
  | n + 1, v => BitVec.ofNat 8 v :: leBytes n (v / 256)

/-- The number a little-endian byte string stands for (00_scope.md R14). -/
def leNat : Bytes → Nat
  | [] => 0
  | b :: bs => b.toNat + 256 * leNat bs

/-- `n` zero bytes. -/
def zeros (n : Nat) : Bytes := List.replicate n 0

/-- `d[i .. i + n)` (00_scope.md R11). -/
def slice (d : Bytes) (i n : Nat) : Bytes := (d.drop i).take n

/-- `d` as exactly `n` bytes: cut at `n`, filled up with zeros. A block always has `B` bytes
(20_memory.md R71), so on a block it changes nothing (DESIGN CHOICE, log 20; safe). -/
def fit (n : Nat) (d : Bytes) : Bytes := d.take n ++ zeros (n - d.length)

/-- A `u32` field of a layout at byte `i` (30_encoding.md R110, R111). -/
def u32At (d : Bytes) (i : Nat) : U32 := BitVec.ofNat 32 (leNat (slice d i 4))

/-- `le32(v)` (00_scope.md R14). -/
def le32 (v : U32) : Bytes := leBytes 4 v.toNat

end Sys2Proof
end

