-- ==== Sys2Proof/Syntax.lean ====
section
/-! DEFINITION. The requests and commands of the block, one constructor of `Instr` for each row of
spec/opcode_table.json (30_encoding.md R104, R114, R115). -/

namespace Sys2Proof

/-- The thirteen host commands, in the order of the table of 30_encoding.md R104. -/
inductive Command where
  | init | reset | selfTest | readEeprom | gainSet | startStorage | startLink | readStorage
  | getSampleCount | getGitHash | getRtc | setRtc | getModePortable
  deriving DecidableEq, Repr

/-- One operation the block can be asked to perform.
The thirteen host commands carry both values of their message, also where the command ignores them
(30_encoding.md R100, R102, R103). -/
inductive Instr where
  -- host commands, 30_encoding.md R104
  | cmdInit (v1 v2 : U32)
  | cmdReset (v1 v2 : U32)
  | cmdSelfTest (v1 v2 : U32)
  | cmdReadEeprom (v1 v2 : U32)
  | cmdGainSet (v1 v2 : U32)
  | cmdStartStorage (v1 v2 : U32)
  | cmdStartLink (v1 v2 : U32)
  | cmdReadStorage (v1 v2 : U32)
  | cmdGetSampleCount (v1 v2 : U32)
  | cmdGetGitHash (v1 v2 : U32)
  | cmdGetRtc (v1 v2 : U32)
  | cmdSetRtc (v1 v2 : U32)
  | cmdGetModePortable (v1 v2 : U32)
  -- environment events, 30_encoding.md R114
  | btnPress
  | btnHold
  | rbWrite (data : Bytes)
  | tick
  | calDone
  | cpStep
  | extReset
  -- internal operations, 30_encoding.md R115
  | rbInit
  | rbRead (len : U16)
  | rbSelftest
  | fsFormat (portable : Bool)
  | fsOpen (create : Bool) (seq : U32)
  | fsSeek (pos : U32)
  | fsWrite (data : Bytes)
  | fsRead (len : U16)
  | fsRtcGet
  | fsRtcSet (seconds subseconds : U32)
  | fsClose
  | fsSizeGet
  | fsBeginWrite (data : Bytes)
  | fsContinue
  | fsSelftest
  | fsFlush
  | plBegin
  | plStop
  | plDrainLink
  | plDrainStorage
  | stopSampling
  deriving DecidableEq, Repr

/-- The operation of a host command with its two decoded values. -/
def Command.toInstr (c : Command) (v1 v2 : U32) : Instr :=
  match c with
  | .init => .cmdInit v1 v2
  | .reset => .cmdReset v1 v2
  | .selfTest => .cmdSelfTest v1 v2
  | .readEeprom => .cmdReadEeprom v1 v2
  | .gainSet => .cmdGainSet v1 v2
  | .startStorage => .cmdStartStorage v1 v2
  | .startLink => .cmdStartLink v1 v2
  | .readStorage => .cmdReadStorage v1 v2
  | .getSampleCount => .cmdGetSampleCount v1 v2
  | .getGitHash => .cmdGetGitHash v1 v2
  | .getRtc => .cmdGetRtc v1 v2
  | .setRtc => .cmdSetRtc v1 v2
  | .getModePortable => .cmdGetModePortable v1 v2

end Sys2Proof
end

