-- ==== Sys2Proof/Config.lean ====
section
/-! DEFINITION. The implementation parameters of spec/00_scope.md R9 with their spec defaults, the
names they range over, and the free values of the environment (opaque constants: nothing can be
proved about what they are). -/

namespace Sys2Proof

/-- The device mode `st.mode` (10_state.md R34). -/
inductive Mode where
  | usbIdle | usbStore | portIdle | portStore | stream
  deriving DecidableEq, Repr

/-- The error names of 60_exceptions.md R301, `NoError` included. -/
inductive Err where
  | noError | overflow | underflow | formatFailure | noExistingFile | seekPastEnd | fileNotOpen
  | sdRead | sdWrite | fileTooLong
  deriving DecidableEq, Repr

/-- An answer of `BlkStep` (20_memory.md R80). -/
inductive StepAnswer where
  | pending | done | err
  deriving DecidableEq, Repr, Inhabited

/-- What 00_scope.md R9 leaves open for one host command: its type byte `CMD_CODE`, and whether
`CMD_V1_BITS` and `CMD_V2_BITS` are 32 (true) or 16 (false). -/
structure CmdSpec where
  code : Byte
  v1Wide : Bool
  v2Wide : Bool
  deriving DecidableEq, Repr

/-- The implementation parameters of 00_scope.md R9 that a rule computes with. -/
structure Params where
  /-- `C`, the ring capacity in bytes. -/
  ringCapacity : Nat
  /-- `B`, the storage block size in bytes. -/
  blockBytes : Nat
  /-- `P`, the payload bytes of a host-link frame. -/
  linkPayload : Nat
  /-- `LINK_SEQ_BITS`. -/
  linkSeqBits : Nat
  /-- `BLK_IDX_BITS`. -/
  blkIdxBits : Nat
  /-- `MEDIUM_BLOCKS`. -/
  mediumBlocks : Nat
  /-- `SB_BLOCK`. -/
  sbBlock : Nat
  /-- `MAGIC`, 8 bytes. -/
  magic : Bytes
  /-- `FS_VERSION`. -/
  fsVersion : U32
  /-- `SIZE_BITS`. -/
  sizeBits : Nat
  /-- `CMD_CODE`, `CMD_V1_BITS`, `CMD_V2_BITS`, by command in the order of 30_encoding.md R104. -/
  cmds : Vector CmdSpec 13
  /-- `ERR_CODE`, by error name in the order of 60_exceptions.md R301. -/
  errCodes : Vector Byte 10
  /-- `GAIN_DEFAULT`. -/
  gainDefault : U16
  /-- `FS_SELFTEST_PORTABLE`. -/
  fsSelftestPortable : Bool
  /-- `FS_SELFTEST_BYTES`. -/
  fsSelftestBytes : Nat
  /-- `SELFTEST_MISMATCH`. -/
  selftestMismatch : Byte
  deriving DecidableEq, Repr

/-- The place of a command in the table of 30_encoding.md R104. -/
def Command.index (c : Command) : Fin 13 :=
  match c with
  | .init => 0
  | .reset => 1
  | .selfTest => 2
  | .readEeprom => 3
  | .gainSet => 4
  | .startStorage => 5
  | .startLink => 6
  | .readStorage => 7
  | .getSampleCount => 8
  | .getGitHash => 9
  | .getRtc => 10
  | .setRtc => 11
  | .getModePortable => 12

/-- The commands in the order of 30_encoding.md R104. -/
def Command.all : List Command :=
  [.init, .reset, .selfTest, .readEeprom, .gainSet, .startStorage, .startLink, .readStorage,
   .getSampleCount, .getGitHash, .getRtc, .setRtc, .getModePortable]

/-- The place of an error name in the table of 60_exceptions.md R301. -/
def Err.index (e : Err) : Fin 10 :=
  match e with
  | .noError => 0
  | .overflow => 1
  | .underflow => 2
  | .formatFailure => 3
  | .noExistingFile => 4
  | .seekPastEnd => 5
  | .fileNotOpen => 6
  | .sdRead => 7
  | .sdWrite => 8
  | .fileTooLong => 9

/-- `CMD_CODE(cmd)` (30_encoding.md R104). -/
def Params.cmdCode (p : Params) (c : Command) : Byte := (p.cmds.get c.index).code

/-- `CMD_V1_BITS(cmd)/8` (30_encoding.md R100). -/
def Params.v1Bytes (p : Params) (c : Command) : Nat := if (p.cmds.get c.index).v1Wide then 4 else 2

/-- `CMD_V2_BITS(cmd)/8` (30_encoding.md R100). -/
def Params.v2Bytes (p : Params) (c : Command) : Nat := if (p.cmds.get c.index).v2Wide then 4 else 2

/-- `ERR_CODE(e)` (60_exceptions.md R301). -/
def Params.errCode (p : Params) (e : Err) : Byte := p.errCodes.get e.index

/-- `FIRST_FILE_BLOCK` (20_memory.md R82). -/
def Params.firstFileBlock (p : Params) : Nat := p.sbBlock + 1

/-- The constraints of the table of 00_scope.md R9 (with 30_encoding.md R104 and
60_exceptions.md R301 for the codes).
The bound on `MEDIUM_BLOCKS` is the model's (DEDUCED, log 13; unsafe beyond it): a block index is
held in u32 registers and `0xFFFFFFFF` means no block (10_state.md R40, 30_encoding.md R111). -/
abbrev Params.Valid (p : Params) : Prop :=
  1 ≤ p.ringCapacity ∧ 24 ≤ p.blockBytes ∧ p.blockBytes ≤ p.ringCapacity ∧
  1 ≤ p.linkPayload ∧ p.linkPayload ≤ p.ringCapacity ∧
  (p.linkSeqBits = 8 ∨ p.linkSeqBits = 16 ∨ p.linkSeqBits = 32) ∧
  8 ≤ p.blkIdxBits ∧ p.blkIdxBits ≤ 32 ∧
  p.sbBlock + 2 ≤ p.mediumBlocks ∧ p.mediumBlocks ≤ 0xFFFFFFFF ∧
  p.magic.length = 8 ∧ p.sizeBits = 32 ∧
  (∀ c ∈ Command.all, (p.cmdCode c).toNat < 0x80) ∧
  (Command.all.map p.cmdCode).Nodup ∧
  (∀ c ∈ p.errCodes.toList, c.toNat < 0x80) ∧ p.errCodes.toList.Nodup ∧
  1 ≤ p.fsSelftestBytes ∧ 1 ≤ p.selftestMismatch.toNat ∧ p.selftestMismatch.toNat ≤ 127

/-- The spec defaults of 00_scope.md R9 (the spec's own choice for a concrete model, log 3). -/
def Params.default : Params where
  ringCapacity := 4096
  blockBytes := 512
  linkPayload := 64
  linkSeqBits := 16
  blkIdxBits := 32
  mediumBlocks := 4194304
  sbBlock := 0
  magic := [0x42, 0x41, 0x54, 0x54, 0x4F, 0x52, 0x46, 0x53]
  fsVersion := 1
  sizeBits := 32
  cmds := #v[⟨0x00, false, false⟩, ⟨0x01, false, false⟩, ⟨0x02, false, false⟩,
             ⟨0x03, false, false⟩, ⟨0x04, false, false⟩, ⟨0x05, false, false⟩,
             ⟨0x06, false, false⟩, ⟨0x07, false, false⟩, ⟨0x08, false, false⟩,
             ⟨0x09, false, false⟩, ⟨0x0A, false, false⟩, ⟨0x0B, false, false⟩,
             ⟨0x0C, false, false⟩]
  errCodes := #v[0, 1, 2, 3, 4, 5, 6, 7, 8, 9]
  gainDefault := 0
  fsSelftestPortable := false
  fsSelftestBytes := 512
  selftestMismatch := 0x7F

namespace Config

/-! The opaque parameters of 00_scope.md R9 (log 11). -/

/-- `MIN_GAIN`, the gain code meaning "minimum gain" (00_scope.md R9, 10_state.md R30).
DESIGN CHOICE (log 11), safe: a 16-bit code whose value nothing constrains. -/
opaque minGain : U16

/-- `GIT_HASH` (00_scope.md R9, 43_mode_arbiter.md R259). -/
opaque gitHash : Bytes

/-- `COLOR(mode)` (00_scope.md R9, 43_mode_arbiter.md R248). -/
opaque color : Mode → Nat

/-- `REPLY(type, payload)`, the opaque framing of a typed reply (30_encoding.md R107). -/
opaque reply : Byte → Bytes → Bytes

/-- `FILE_CHUNK(k, d)`, the opaque framing of chunk `k` of a stored file
(43_mode_arbiter.md R254). -/
opaque fileChunk : Nat → Bytes → Bytes

/-- What `le16(P)` of a host-link data frame holds when `P` does not fit 16 bits: no rule says
(00_scope.md R9 bounds `P` by `C` only, R11; 30_encoding.md R108). DESIGN CHOICE (log 27), safe: a
16-bit value that nothing constrains. -/
opaque freeFrameLength : Nat → U16

/-! The free values: memory contents that no rule gives, and the environment's draws, numbered
(log 2, log 7, log 8; safe). -/

/-- The byte of the backing store at an offset that nothing has written since POR
(20_memory.md R78). -/
opaque storePor : Nat → Byte

/-- The byte of the medium at a byte address that nothing has written (10_state.md R44). -/
opaque mediumPor : Nat → Byte

/-- Draw n of whether the medium answers `Ok` (20_memory.md R79, R80). -/
opaque freeMediumOk : Nat → Bool

/-- Draw n of the answer of `BlkStep` (20_memory.md R80). -/
opaque freeStep : Nat → StepAnswer

/-- Draw n of a block content left by a failed or abandoned write (20_memory.md R79 to R81). -/
opaque freeBlock : Nat → Bytes

/-- Draw n of `LinkReady()` (60_exceptions.md R330). -/
opaque freeLinkReady : Nat → Bool

/-- Draw n of `RtcNow()` (60_exceptions.md R332). -/
opaque freeRtc : Nat → U32 × U32

/-- Draw n of `EepromRead(a, b)` (60_exceptions.md R333). -/
opaque freeEeprom : U32 → U32 → Nat → Bytes

/-- Draw n of the GetSampleCount payload (43_mode_arbiter.md R258). -/
opaque freeSampleCount : Nat → Bytes

/-- Draw n of `DriverSelfTest()`, a result in 0 .. 127 (60_exceptions.md R334). -/
opaque freeDriverTest : Nat → BitVec 7

/-- Draw n of whether Reset acknowledges (43_mode_arbiter.md R255). -/
opaque freeResetAck : Nat → Bool

/-- Draw n of whether a mode change emits the mode colour (43_mode_arbiter.md R248). -/
opaque freeColor : Nat → Bool

/-- Draw n of the blink count after a read failure (43_mode_arbiter.md R246). -/
opaque freeSeq : Nat → U32

end Config

end Sys2Proof
end

