-- ==== Sys2Proof/WellFormed.lean ====
section
/-! DEFINITION. When an operation has an encoding: the operand widths of spec/30_encoding.md R100,
R102, R114 and R115. -/

namespace Sys2Proof

/-- The values of a host command fit the widths `CMD_V1_BITS` and `CMD_V2_BITS`
(30_encoding.md R100, R102). -/
def Command.valuesFit (p : Params) (c : Command) (v1 v2 : U32) : Bool :=
  decide (v1.toNat < 256 ^ p.v1Bytes c) && decide (v2.toNat < 256 ^ p.v2Bytes c)

/-- A data operand fits its `le16(len)` (30_encoding.md R114, R115). -/
def lengthFits16 (data : Bytes) : Bool := decide (data.length < 65536)

/-- The operands are ones the encoding of 30_encoding.md can carry. -/
def Instr.wellFormed (p : Params) (i : Instr) : Bool :=
  match i with
  | .cmdInit v1 v2 => Command.init.valuesFit p v1 v2
  | .cmdReset v1 v2 => Command.reset.valuesFit p v1 v2
  | .cmdSelfTest v1 v2 => Command.selfTest.valuesFit p v1 v2
  | .cmdReadEeprom v1 v2 => Command.readEeprom.valuesFit p v1 v2
  | .cmdGainSet v1 v2 => Command.gainSet.valuesFit p v1 v2
  | .cmdStartStorage v1 v2 => Command.startStorage.valuesFit p v1 v2
  | .cmdStartLink v1 v2 => Command.startLink.valuesFit p v1 v2
  | .cmdReadStorage v1 v2 => Command.readStorage.valuesFit p v1 v2
  | .cmdGetSampleCount v1 v2 => Command.getSampleCount.valuesFit p v1 v2
  | .cmdGetGitHash v1 v2 => Command.getGitHash.valuesFit p v1 v2
  | .cmdGetRtc v1 v2 => Command.getRtc.valuesFit p v1 v2
  | .cmdSetRtc v1 v2 => Command.setRtc.valuesFit p v1 v2
  | .cmdGetModePortable v1 v2 => Command.getModePortable.valuesFit p v1 v2
  | .btnPress => true
  | .btnHold => true
  | .rbWrite data => lengthFits16 data
  | .tick => true
  | .calDone => true
  | .cpStep => true
  | .extReset => true
  | .rbInit => true
  | .rbRead _ => true
  | .rbSelftest => true
  | .fsFormat _ => true
  | .fsOpen _ _ => true
  | .fsSeek _ => true
  | .fsWrite data => lengthFits16 data
  | .fsRead _ => true
  | .fsRtcGet => true
  | .fsRtcSet _ _ => true
  | .fsClose => true
  | .fsSizeGet => true
  | .fsBeginWrite data => decide (data.length = p.blockBytes)
  | .fsContinue => true
  | .fsSelftest => true
  | .fsFlush => true
  | .plBegin => true
  | .plStop => true
  | .plDrainLink => true
  | .plDrainStorage => true
  | .stopSampling => true

end Sys2Proof
end

