-- ==== Sys2Proof/Decode.lean ====
section
/-! DEFINITION. The decoder of host messages (spec/30_encoding.md R100 to R104) and of requests
(R113 to R118), total on any byte string, and the encoder. Both take the parameters of
00_scope.md R9, because `CMD_CODE`, the value widths and `B` are parameters. -/

namespace Sys2Proof

/-- Why a byte string is no operation of the block. -/
inductive Reject where
  /-- No byte 0 to read a code from (30_encoding.md R113). -/
  | empty
  /-- A byte string with a code below 0x80 that is no well-formed host message: unknown type byte
  or wrong length (30_encoding.md R101). -/
  | malformedMessage
  /-- A code in 0x80 .. 0xFF that no row lists (30_encoding.md R116). -/
  | reservedCode
  /-- Fewer or more operand bytes than the row requires (30_encoding.md R116). -/
  | wrongLength
  /-- A one-byte flag operand that is not 0 or 1 (30_encoding.md R116). -/
  | flagNotBinary
  deriving DecidableEq, Repr

/-! ### Host messages -/

/-- The command whose `CMD_CODE` is the type byte (30_encoding.md R101, R104). -/
def Params.commandOf (p : Params) (t : Byte) : Option Command :=
  Command.all.find? (fun c => p.cmdCode c == t)

/-- A well-formed host message as its command and two values, zero-extended to 32 bits
(30_encoding.md R101, R102). -/
def decodeMessage (p : Params) (m : Bytes) : Option (Command × U32 × U32) :=
  match m with
  | [] => none
  | t :: vs =>
    match p.commandOf t with
    | none => none
    | some c =>
      if vs.length = p.v1Bytes c + p.v2Bytes c then
        some (c, BitVec.ofNat 32 (leNat (vs.take (p.v1Bytes c))),
              BitVec.ofNat 32 (leNat (vs.drop (p.v1Bytes c))))
      else none

/-- The host message of a command (30_encoding.md R100). -/
def encodeMessage (p : Params) (c : Command) (v1 v2 : U32) : Bytes :=
  p.cmdCode c :: (leBytes (p.v1Bytes c) v1.toNat ++ leBytes (p.v2Bytes c) v2.toNat)

/-! ### Requests -/

/-- A row with no operands. -/
def noOperands (ops : Bytes) (i : Instr) : Except Reject Instr :=
  if ops.isEmpty then .ok i else .error .wrongLength

/-- A row whose operand is `le16`. -/
def operand16 (ops : Bytes) (k : U16 → Instr) : Except Reject Instr :=
  if ops.length = 2 then .ok (k (BitVec.ofNat 16 (leNat ops))) else .error .wrongLength

/-- A row whose operand is `le32`. -/
def operand32 (ops : Bytes) (k : U32 → Instr) : Except Reject Instr :=
  if ops.length = 4 then .ok (k (BitVec.ofNat 32 (leNat ops))) else .error .wrongLength

/-- A one-byte flag (30_encoding.md R116). -/
def flagOf (b : Byte) : Except Reject Bool :=
  if b = 0 then .ok false else if b = 1 then .ok true else .error .flagNotBinary

/-- A row whose operand is one flag byte. -/
def operandFlag (ops : Bytes) (k : Bool → Instr) : Except Reject Instr :=
  match ops with
  | [b] => (flagOf b).map k
  | _ => .error .wrongLength

/-- A row whose operands are a flag byte and `le32`. -/
def operandFlag32 (ops : Bytes) (k : Bool → U32 → Instr) : Except Reject Instr :=
  match ops with
  | b :: rest =>
    if rest.length = 4 then (flagOf b).map (fun f => k f (BitVec.ofNat 32 (leNat rest)))
    else .error .wrongLength
  | [] => .error .wrongLength

/-- A row whose operands are two `le32`. -/
def operand32x2 (ops : Bytes) (k : U32 → U32 → Instr) : Except Reject Instr :=
  if ops.length = 8 then
    .ok (k (BitVec.ofNat 32 (leNat (ops.take 4))) (BitVec.ofNat 32 (leNat (ops.drop 4))))
  else .error .wrongLength

/-- A row whose operands are `le16(len)` and `len` data bytes (30_encoding.md R114, R115). -/
def operandData (ops : Bytes) (k : Bytes → Instr) : Except Reject Instr :=
  if 2 ≤ ops.length ∧ (ops.drop 2).length = leNat (ops.take 2) then .ok (k (ops.drop 2))
  else .error .wrongLength

/-- A row whose operand is one block of `B` data bytes (30_encoding.md R115). -/
def operandBlock (p : Params) (ops : Bytes) (k : Bytes → Instr) : Except Reject Instr :=
  if ops.length = p.blockBytes then .ok (k ops) else .error .wrongLength

/-- The operation of a request with code `c` in 0x80 .. 0xFF and operand bytes `ops`
(30_encoding.md R114, R115, R116). -/
def decodeRequest (p : Params) (c : Byte) (ops : Bytes) : Except Reject Instr :=
  match c with
  | 0x80#8 => noOperands ops .btnPress
  | 0x81#8 => noOperands ops .btnHold
  | 0x88#8 => operandData ops .rbWrite
  | 0x89#8 => noOperands ops .tick
  | 0x8A#8 => noOperands ops .calDone
  | 0x8B#8 => noOperands ops .cpStep
  | 0x8F#8 => noOperands ops .extReset
  | 0x90#8 => noOperands ops .rbInit
  | 0x91#8 => operand16 ops .rbRead
  | 0x92#8 => noOperands ops .rbSelftest
  | 0xA0#8 => operandFlag ops .fsFormat
  | 0xA1#8 => operandFlag32 ops .fsOpen
  | 0xA2#8 => operand32 ops .fsSeek
  | 0xA3#8 => operandData ops .fsWrite
  | 0xA4#8 => operand16 ops .fsRead
  | 0xA5#8 => noOperands ops .fsRtcGet
  | 0xA6#8 => operand32x2 ops .fsRtcSet
  | 0xA7#8 => noOperands ops .fsClose
  | 0xA8#8 => noOperands ops .fsSizeGet
  | 0xA9#8 => operandBlock p ops .fsBeginWrite
  | 0xAA#8 => noOperands ops .fsContinue
  | 0xAB#8 => noOperands ops .fsSelftest
  | 0xAC#8 => noOperands ops .fsFlush
  | 0xB0#8 => noOperands ops .plBegin
  | 0xB1#8 => noOperands ops .plStop
  | 0xB2#8 => noOperands ops .plDrainLink
  | 0xB3#8 => noOperands ops .plDrainStorage
  | 0xB4#8 => noOperands ops .stopSampling
  | _ => .error .reservedCode

/-- The code is of the host-message space 0x00 .. 0x7F (30_encoding.md R113). -/
def isHostCode (c : Byte) : Bool := decide (c.toNat < 0x80)

/-- The operation a byte string stands for: a host message below 0x80, a request from 0x80 on
(30_encoding.md R113). -/
def decode (p : Params) (bs : Bytes) : Except Reject Instr :=
  match bs with
  | [] => .error .empty
  | c :: ops =>
    if isHostCode c then
      match decodeMessage p (c :: ops) with
      | some (cmd, v1, v2) => .ok (cmd.toInstr v1 v2)
      | none => .error .malformedMessage
    else decodeRequest p c ops

/-! ### The encoder -/

/-- A one-byte flag operand. -/
def flagByte (b : Bool) : Byte := if b then 1 else 0

/-- The byte string of an operation (30_encoding.md R100, R114, R115). -/
def encode (p : Params) (i : Instr) : Bytes :=
  match i with
  | .cmdInit v1 v2 => encodeMessage p .init v1 v2
  | .cmdReset v1 v2 => encodeMessage p .reset v1 v2
  | .cmdSelfTest v1 v2 => encodeMessage p .selfTest v1 v2
  | .cmdReadEeprom v1 v2 => encodeMessage p .readEeprom v1 v2
  | .cmdGainSet v1 v2 => encodeMessage p .gainSet v1 v2
  | .cmdStartStorage v1 v2 => encodeMessage p .startStorage v1 v2
  | .cmdStartLink v1 v2 => encodeMessage p .startLink v1 v2
  | .cmdReadStorage v1 v2 => encodeMessage p .readStorage v1 v2
  | .cmdGetSampleCount v1 v2 => encodeMessage p .getSampleCount v1 v2
  | .cmdGetGitHash v1 v2 => encodeMessage p .getGitHash v1 v2
  | .cmdGetRtc v1 v2 => encodeMessage p .getRtc v1 v2
  | .cmdSetRtc v1 v2 => encodeMessage p .setRtc v1 v2
  | .cmdGetModePortable v1 v2 => encodeMessage p .getModePortable v1 v2
  | .btnPress => [0x80]
  | .btnHold => [0x81]
  | .rbWrite data => 0x88 :: (leBytes 2 data.length ++ data)
  | .tick => [0x89]
  | .calDone => [0x8A]
  | .cpStep => [0x8B]
  | .extReset => [0x8F]
  | .rbInit => [0x90]
  | .rbRead len => 0x91 :: leBytes 2 len.toNat
  | .rbSelftest => [0x92]
  | .fsFormat portable => [0xA0, flagByte portable]
  | .fsOpen create seq => 0xA1 :: flagByte create :: le32 seq
  | .fsSeek pos => 0xA2 :: le32 pos
  | .fsWrite data => 0xA3 :: (leBytes 2 data.length ++ data)
  | .fsRead len => 0xA4 :: leBytes 2 len.toNat
  | .fsRtcGet => [0xA5]
  | .fsRtcSet s sub => 0xA6 :: (le32 s ++ le32 sub)
  | .fsClose => [0xA7]
  | .fsSizeGet => [0xA8]
  | .fsBeginWrite data => 0xA9 :: data
  | .fsContinue => [0xAA]
  | .fsSelftest => [0xAB]
  | .fsFlush => [0xAC]
  | .plBegin => [0xB0]
  | .plStop => [0xB1]
  | .plDrainLink => [0xB2]
  | .plDrainStorage => [0xB3]
  | .stopSampling => [0xB4]

/-! ### The opcode table's numbers -/

/-- How many bytes the operation that begins with these bytes has (30_encoding.md R101, R114, R115,
R118); 1 for a code that no row lists. -/
def requestLength (p : Params) (bs : Bytes) : Nat :=
  match bs with
  | [] => 0
  | c :: ops =>
    if isHostCode c then
      match p.commandOf c with
      | some cmd => 1 + p.v1Bytes cmd + p.v2Bytes cmd
      | none => 1
    else
      match c with
      | 0x88#8 => 3 + leNat (ops.take 2)
      | 0x91#8 => 3
      | 0xA0#8 => 2
      | 0xA1#8 => 6
      | 0xA2#8 => 5
      | 0xA3#8 => 3 + leNat (ops.take 2)
      | 0xA4#8 => 3
      | 0xA6#8 => 9
      | 0xA9#8 => 1 + p.blockBytes
      | _ => 1

/-- The byte string whose low `nbits` bits are `w`, byte 0 the least significant, every later byte
zero, cut at the operation's own length. -/
def tableBytes (p : Params) (nbits w : Nat) : Bytes :=
  let bs := leBytes (nbits / 8) w
  fit (requestLength p bs) bs

/-- The operation of an opcode-table row's number under the spec default parameters. -/
def decodeTableWord (nbits w : Nat) : Option Instr :=
  match decode Params.default (tableBytes Params.default nbits w) with
  | .ok i => some i
  | .error _ => none

end Sys2Proof
end

