-- ==== Sys2Proof/Machine/State.lean ====
section
/-! DEFINITION. The machine state as plain data: every state element of spec/10_state.md, the
environment state its rules read (section 6 there), the output history, and the model's own fields
(the parameters, the request list, the draws, the returned status). -/

namespace Sys2Proof.Machine

/-! ### Names -/

/-- `st.phase` (10_state.md R28). -/
inductive Phase where
  | calibrating | measuring
  deriving DecidableEq, Repr

/-- `st.sd_state`, the write sequencer (10_state.md R33). -/
inductive SdState where
  | idle | writeInProgress
  deriving DecidableEq, Repr

/-- `st.fs_kind` (10_state.md R39). -/
inductive FileKind where
  | created | reopened
  deriving DecidableEq, Repr

/-- `st.out_cur_in` (10_state.md R30). -/
inductive CurIn where
  | gnd | live
  deriving DecidableEq, Repr

/-- `st.out_volt_in` (10_state.md R30). -/
inductive VoltIn where
  | gndRef | live
  deriving DecidableEq, Repr

/-- The model fault reasons of 60_exceptions.md R320. An operation that says `fault F` records `F` in
the field `fault` of a next state, as the rule says; `step` raises it as `Outcome.fault` at the next
step, so no run goes on from a faulted state (log 4). Each is safe: it removes runs. -/
inductive Fault where
  /-- Raised by the ring write and read while `rb_bound = 0` (R141, R142). Safe. -/
  | rbUnbound
  /-- Raised by `FS_WRITE` and `FS_BEGIN_WRITE` on a file opened by sequence number
  (R169, R173). Safe. -/
  | appendToReopenedFile
  /-- Raised by `FS_BEGIN_WRITE` when the length is no whole number of blocks (R173). Safe. -/
  | misalignedAppend
  /-- Raised by a request that is none of R114 and R115 or has wrong operands (R116). Safe. -/
  | refusedRequest
  deriving DecidableEq, Repr

/-- Why the model gives an operation no meaning. -/
inductive Refusal where
  /-- Raised by `exec` for an operation without a meaning in the model; no operation is so. Safe. -/
  | notModelled (mnemonic : String)
  deriving DecidableEq, Repr

/-! ### The output history (10_state.md R47) -/

/-- An indicator event (60_exceptions.md R331). -/
inductive Indication where
  /-- `SET_COLOR(c)`. -/
  | setColor (c : Nat)
  /-- `BLINK(n)`. -/
  | blink (n : U32)
  /-- `PULSE`. -/
  | pulse
  deriving DecidableEq, Repr

/-- One event of `st.out`, with its arguments and answer (10_state.md R47). -/
inductive Event where
  /-- `LinkTx(bytes)` (60_exceptions.md R330). -/
  | linkTx (bytes : Bytes)
  /-- `Ind(e)` (60_exceptions.md R331). -/
  | ind (e : Indication)
  /-- `RtcSet(s)` (60_exceptions.md R332). -/
  | rtcSet (s : U32)
  /-- `EepromRead(a, b)` and its answer (60_exceptions.md R333; DEDUCED, log 12). -/
  | eepromRead (a b : U32) (answer : Bytes)
  /-- `MemWrite(addr, n, v)` with `n = len(v)` (20_memory.md R77). -/
  | memWrite (addr : Nat) (v : Bytes)
  /-- `MemRead(addr, n)` and its answer (20_memory.md R77). -/
  | memRead (addr n : Nat) (answer : Bytes)
  /-- `BlkRead(i)`: `none` is the answer `Err` (20_memory.md R79). -/
  | blkRead (i : Nat) (answer : Option Bytes)
  /-- `BlkWrite(i, d)` and whether it answered `Ok` (20_memory.md R79). -/
  | blkWrite (i : Nat) (d : Bytes) (ok : Bool)
  /-- `BlkBegin(i, d)` and whether it answered `Ok` (20_memory.md R80). -/
  | blkBegin (i : Nat) (d : Bytes) (ok : Bool)
  /-- `BlkStep()` and its answer (20_memory.md R80). -/
  | blkStep (answer : StepAnswer)
  deriving DecidableEq, Repr

/-! ### Requests and statuses -/

/-- One agent's step (00_scope.md R8, 30_encoding.md R113, R120). -/
inductive Input where
  /-- HOST appends a received message, any byte string (10_state.md R38, 60_exceptions.md R304). -/
  | host (message : Bytes)
  /-- A request in the encoding of 30_encoding.md R113. -/
  | request (bytes : Bytes)
  deriving DecidableEq, Repr

/-- The status an operation returns to the agent that asked (60_exceptions.md R300; the return
values of the pseudocode of 40_ring_buffer.md to 43_mode_arbiter.md). -/
inductive Status where
  /-- Nothing was returned: no request yet, a host append, or a halted block. -/
  | noAnswer
  /-- `Ok`. -/
  | ok
  /-- `Ok(d)` of `RB_READ` and `FS_READ`. -/
  | okBytes (d : Bytes)
  /-- `Ok(s)` of `FS_OPEN`. -/
  | okSeq (s : U32)
  /-- `Ok(n)` of `FS_SIZE_GET`. -/
  | okSize (n : Nat)
  /-- `Ok(s, sub)` of `FS_RTC_GET`. -/
  | okRtc (s sub : U32)
  /-- `Ok(Pending)` of `FS_CONTINUE`. -/
  | okPending
  /-- `Ok(Done)` of `FS_CONTINUE`. -/
  | okDone
  /-- The signed result byte of a self-test. -/
  | code (r : Byte)
  /-- `NoOp`, `Sent`, `Started`, `Pending`, `Completed`, `Failed` of the drains. -/
  | noOp | sent | started | pending | completed | failed
  /-- `Dropped`, `Halted`, `Done` of the command processor. -/
  | dropped | halted | done
  /-- `raise E`. -/
  | raised (e : Err)
  /-- `fault F`. -/
  | faulted (f : Fault)
  deriving DecidableEq, Repr

/-! ### The parts of the state -/

/-- Ring buffer controller (10_state.md R22 to R24). -/
structure Ring where
  /-- `rb_bound`. -/
  bound : Bool
  /-- `rb_w`. -/
  w : Nat
  /-- `rb_wp`. -/
  wp : Bool
  /-- `rb_r`. -/
  r : Nat
  /-- `rb_rp`. -/
  rp : Bool
  deriving DecidableEq, Repr

/-- Sample pipeline (10_state.md R27 to R33). -/
structure Pipeline where
  /-- `acq`. -/
  acq : Bool
  /-- `phase`. -/
  phase : Phase
  /-- `gain`. -/
  gain : U16
  /-- `out_cur_gain`. -/
  outCurGain : U16
  /-- `out_cur_in`. -/
  outCurIn : CurIn
  /-- `out_volt_in`. -/
  outVoltIn : VoltIn
  /-- `link_seq`, `LINK_SEQ_BITS` wide. -/
  linkSeq : Nat
  /-- `blk_idx`, `BLK_IDX_BITS` wide. -/
  blkIdx : Nat
  /-- `sd_state`. -/
  sdState : SdState
  deriving DecidableEq, Repr

/-- Mode arbiter (10_state.md R34 to R38). -/
structure Arbiter where
  /-- `mode`. -/
  mode : Mode
  /-- `initialized`. -/
  initialized : Bool
  /-- `last_error`. -/
  lastError : Err
  /-- `halted`. -/
  halted : Bool
  /-- `rx_q`, head first. -/
  rxQ : List Bytes
  deriving DecidableEq, Repr

/-- Log filesystem (10_state.md R39 to R42). -/
structure FileRegs where
  /-- `fs_open`. -/
  isOpen : Bool
  /-- `fs_kind`. -/
  kind : FileKind
  /-- `fs_iter`. -/
  iter : U32
  /-- `fs_seq`. -/
  seq : U32
  /-- `fs_start`. -/
  start : U32
  /-- `fs_len`. -/
  len : Nat
  /-- `fs_next`. -/
  next : U32
  /-- `fs_rtc_s`. -/
  rtcS : U32
  /-- `fs_rtc_sub`. -/
  rtcSub : U32
  /-- `fs_dirty`. -/
  dirty : Bool
  /-- `fs_rd_pos`. -/
  rdPos : Nat
  deriving DecidableEq, Repr

/-- A byte memory: the bytes written since POR, by address. An address that is not listed has no
value here; the port that reads it supplies a free value (20_memory.md R78, 10_state.md R44;
log 7, log 8). -/
abbrev Memory := List Host.Cell

/-- The canonical form of a memory of `size` bytes: addresses strictly rising and inside the memory.
An unlisted address has no value, so no entry can equal what it reads as. -/
abbrev Memory.wf (size : Nat) (m : Memory) : Prop :=
  m.Pairwise (fun x y => x.1 < y.1) ∧ ∀ c ∈ m, c.1 < size

/-- The medium and its pipelined write (10_state.md R44, R45). Byte `j` of block `i` is at address
`i * B + j` of `cells`. -/
structure Medium where
  /-- `M`. -/
  cells : Memory
  /-- `med.busy`. -/
  busy : Bool
  /-- `med.target`. -/
  target : Nat
  /-- `med.data`. -/
  data : Bytes
  deriving DecidableEq, Repr

/-- The draws of one kind: the answers the environment will give next, then, when the script is
used up, free values numbered by `taken` (log 2). -/
structure Tape (α : Type) where
  script : List α
  taken : Nat
  deriving DecidableEq, Repr

/-- A tape with nothing scripted: every draw is a free value. -/
def Tape.free (α : Type) : Tape α := ⟨[], 0⟩

/-- The environment's draws (10_state.md R46 and the `draw`s of the rules named). -/
structure Env where
  /-- Whether the medium answers `Ok` (20_memory.md R79, R80). -/
  mediumOk : Tape Bool
  /-- `BlkStep`'s answer (20_memory.md R80). -/
  stepAnswer : Tape StepAnswer
  /-- The block left by a failed or abandoned write (20_memory.md R79 to R81). -/
  block : Tape Bytes
  /-- `LinkReady()` (60_exceptions.md R330). -/
  linkReady : Tape Bool
  /-- `RtcNow()` (60_exceptions.md R332). -/
  rtc : Tape (U32 × U32)
  /-- `EepromRead(a, b)` (60_exceptions.md R333). -/
  eeprom : Tape Bytes
  /-- The GetSampleCount payload (43_mode_arbiter.md R258). -/
  sampleCount : Tape Bytes
  /-- `DriverSelfTest()`, 0 .. 127 (60_exceptions.md R334). -/
  driverTest : Tape (BitVec 7)
  /-- Reset's draw `a` (43_mode_arbiter.md R255). -/
  resetAck : Tape Bool
  /-- Whether a mode change emits the mode colour (43_mode_arbiter.md R248). -/
  color : Tape Bool
  /-- `NextSeq`'s draw `n` (43_mode_arbiter.md R246). -/
  seq : Tape U32
  deriving DecidableEq, Repr

/-- The state of the block and of the environment its rules read. -/
structure State where
  /-- The parameters of 00_scope.md R9 (the model's own field, log 3). -/
  params : Params
  /-- The requests still to come, in the order of the agents' steps (30_encoding.md R120; the
  model's own field, log 1). -/
  inputs : List Input
  /-- Ring buffer controller. -/
  ring : Ring
  /-- Sample pipeline. -/
  pl : Pipeline
  /-- Mode arbiter. -/
  ma : Arbiter
  /-- Log filesystem. -/
  fs : FileRegs
  /-- The backing store `S` (10_state.md R43). -/
  store : Memory
  /-- The medium (10_state.md R44, R45). -/
  med : Medium
  /-- The environment's draws (10_state.md R46; the model's own field, log 2). -/
  env : Env
  /-- The output history `st.out`, oldest first (10_state.md R47). -/
  out : List Event
  /-- The status the last request returned (60_exceptions.md R300; the model's own field, log 5). -/
  status : Status
  /-- `st.fault` (10_state.md R49). -/
  fault : Option Fault
  deriving DecidableEq, Repr

/-! ### Reset (10_state.md R50, 70_reset_and_hazards.md R341, R342) -/

/-- The file registers at power-on: no file open and not dirty (10_state.md R50); the registers the
spec gives no reset value hold zero (DESIGN CHOICE, log 6; unsafe). -/
def FileRegs.powerOn : FileRegs where
  isOpen := false
  kind := .created
  iter := 0
  seq := 0
  start := 0
  len := 0
  next := 0
  rtcS := 0
  rtcSub := 0
  dirty := false
  rdPos := 0

/-- Every draw free (DESIGN CHOICE, log 2; safe). -/
def Env.free : Env where
  mediumOk := Tape.free _
  stepAnswer := Tape.free _
  block := Tape.free _
  linkReady := Tape.free _
  rtc := Tape.free _
  eeprom := Tape.free _
  sampleCount := Tape.free _
  driverTest := Tape.free _
  resetAck := Tape.free _
  color := Tape.free _
  seq := Tape.free _

/-- The machine after power-on reset and boot under the spec default parameters
(10_state.md R50, 70_reset_and_hazards.md R341, log 24). Nothing is written in the backing store or
on the medium, so every byte there is a free value; `med.target` and `med.data` have no reset value
(DESIGN CHOICE, log 19; unsafe). -/
def State.reset : State where
  params := Params.default
  inputs := []
  ring :=
    { bound := true, w := 0, wp := false, r := 0, rp := false }
  pl :=
    { acq := false, phase := .calibrating, gain := Params.default.gainDefault,
      outCurGain := Config.minGain, outCurIn := .gnd, outVoltIn := .gndRef,
      linkSeq := 0, blkIdx := 0, sdState := .idle }
  ma :=
    { mode := .usbIdle, initialized := false, lastError := .noError, halted := false, rxQ := [] }
  fs := FileRegs.powerOn
  store := []
  med := { cells := [], busy := false, target := 0, data := [] }
  env := Env.free
  out := []
  status := .noAnswer
  fault := none

end Sys2Proof.Machine
end

