-- ==== Sys2Proof/Machine/Ops.lean ====
section
/-! DEFINITION. The named operations the meanings are built from: byte memories, the environment's
draws, the external transfer primitives of spec/00_scope.md R13 (20_memory.md R77 to R81,
60_exceptions.md R330 to R334), and what stands in for exceptions on this block: recording an
error, the fatal halt, a model fault, and the reset that leaves the halt
(60_exceptions.md R305, R310, R311, R320; 70_reset_and_hazards.md R342, R343). -/

namespace Sys2Proof.Machine

/-! ### Byte memories -/

/-- The byte written last at address `a`; `none` where nothing was written. -/
def Memory.read? : Memory → Nat → Option Byte
  | [], _ => none
  | (b, v) :: m, a => if a = b then some v else Memory.read? m a

/-- The cells of a byte string stored from address `a` on. -/
def cellsFrom : Nat → Bytes → Memory
  | _, [] => []
  | a, v :: vs => (a, v) :: cellsFrom (a + 1) vs

/-- The memory after storing `d` at address `a` and up. -/
def Memory.write (m : Memory) (a : Nat) (d : Bytes) : Memory :=
  m.filter (fun c => c.1 < a) ++ cellsFrom a d ++ m.filter (fun c => a + d.length ≤ c.1)

/-- The `n` bytes from address `a` on, a byte nothing has written being the free value `free`. -/
def Memory.readBytes (m : Memory) (free : Nat → Byte) (a n : Nat) : Bytes :=
  (List.range' a n).map (fun x => (m.read? x).getD (free x))

/-! ### The environment's draws -/

/-- The next draw of a kind and the tape after it: the scripted answer, or the free value of this
draw's number (log 2). -/
def Tape.next {α : Type} (t : Tape α) (free : Nat → α) : α × Tape α :=
  match t.script with
  | a :: rest => (a, ⟨rest, t.taken + 1⟩)
  | [] => (free t.taken, ⟨[], t.taken + 1⟩)

/-- Whether the medium answers `Ok` (20_memory.md R79, R80). -/
def drawMediumOk (s : State) : Bool × State :=
  let d := s.env.mediumOk.next Config.freeMediumOk
  (d.1, { s with env := { s.env with mediumOk := d.2 } })

/-- The answer of `BlkStep` while a write is outstanding (20_memory.md R80). -/
def drawStep (s : State) : StepAnswer × State :=
  let d := s.env.stepAnswer.next Config.freeStep
  (d.1, { s with env := { s.env with stepAnswer := d.2 } })

/-- A drawn block content of `B` bytes (20_memory.md R79 to R81). -/
def drawBlock (s : State) : Bytes × State :=
  let d := s.env.block.next Config.freeBlock
  (fit s.params.blockBytes d.1, { s with env := { s.env with block := d.2 } })

/-- `LinkReady()` (60_exceptions.md R330). -/
def drawLinkReady (s : State) : Bool × State :=
  let d := s.env.linkReady.next Config.freeLinkReady
  (d.1, { s with env := { s.env with linkReady := d.2 } })

/-- `RtcNow()` (60_exceptions.md R332). -/
def rtcNow (s : State) : (U32 × U32) × State :=
  let d := s.env.rtc.next Config.freeRtc
  (d.1, { s with env := { s.env with rtc := d.2 } })

/-- The GetSampleCount payload (43_mode_arbiter.md R258). -/
def drawSampleCount (s : State) : Bytes × State :=
  let d := s.env.sampleCount.next Config.freeSampleCount
  (d.1, { s with env := { s.env with sampleCount := d.2 } })

/-- `DriverSelfTest()`, a result in 0 .. 127 (60_exceptions.md R334). -/
def driverSelfTest (s : State) : Byte × State :=
  let d := s.env.driverTest.next Config.freeDriverTest
  (d.1.zeroExtend 8, { s with env := { s.env with driverTest := d.2 } })

/-- Reset's draw `a` (43_mode_arbiter.md R255). -/
def drawResetAck (s : State) : Bool × State :=
  let d := s.env.resetAck.next Config.freeResetAck
  (d.1, { s with env := { s.env with resetAck := d.2 } })

/-- Whether a mode change emits the mode colour (43_mode_arbiter.md R248). -/
def drawColor (s : State) : Bool × State :=
  let d := s.env.color.next Config.freeColor
  (d.1, { s with env := { s.env with color := d.2 } })

/-- `NextSeq`'s draw `n` (43_mode_arbiter.md R246). -/
def drawSeq (s : State) : U32 × State :=
  let d := s.env.seq.next Config.freeSeq
  (d.1, { s with env := { s.env with seq := d.2 } })

/-! ### Output ports (10_state.md R47) -/

/-- Append one event to the output history. -/
def emit (e : Event) (s : State) : State := { s with out := s.out ++ [e] }

/-- `LinkTx(bytes)` (60_exceptions.md R330). -/
def linkTx (d : Bytes) (s : State) : State := emit (.linkTx d) s

/-- `Ind(e)` (60_exceptions.md R331). -/
def indicate (e : Indication) (s : State) : State := emit (.ind e) s

/-- `RtcSet(v)` (60_exceptions.md R332). -/
def rtcSet (v : U32) (s : State) : State := emit (.rtcSet v) s

/-- `EepromRead(a, b)`: a drawn byte string, which may depend on the arguments
(60_exceptions.md R333; recorded, DEDUCED, log 12). -/
def eepromRead (a b : U32) (s : State) : Bytes × State :=
  let d := s.env.eeprom.next (Config.freeEeprom a b)
  (d.1, emit (.eepromRead a b d.1) { s with env := { s.env with eeprom := d.2 } })

/-- Return a status to the agent that asked (60_exceptions.md R300; log 5). -/
def answer (a : Status) (s : State) : State := { s with status := a }

/-! ### Backing store port (20_memory.md R77, R78) -/

/-- `MemWrite(addr, len(v), v)`; a transfer of zero bytes is not issued. -/
def memWrite (addr : Nat) (v : Bytes) (s : State) : State :=
  if v.isEmpty then s
  else emit (.memWrite addr v) { s with store := s.store.write addr v }

/-- `MemRead(addr, n)`; a transfer of zero bytes is not issued. -/
def memRead (addr n : Nat) (s : State) : Bytes × State :=
  if n = 0 then ([], s)
  else
    let d := s.store.readBytes Config.storePor addr n
    (d, emit (.memRead addr n d) s)

/-! ### Medium port (20_memory.md R79 to R81) -/

/-- `M[i]`. -/
def blockAt (s : State) (i : Nat) : Bytes :=
  s.med.cells.readBytes Config.mediumPor (i * s.params.blockBytes) s.params.blockBytes

/-- `M[i] <- d`. -/
def setBlock (i : Nat) (d : Bytes) (s : State) : State :=
  { s with med := { s.med with
      cells := s.med.cells.write (i * s.params.blockBytes) (fit s.params.blockBytes d) } }

/-- `med.busy <- 0`. -/
def clearBusy (s : State) : State := { s with med := { s.med with busy := false } }

/-- The medium ends an abandoned pipelined write before any other operation: its block becomes a
drawn value (20_memory.md R81). It is no event of the history (DEDUCED, log 23). -/
def endOutstanding (s : State) : State :=
  if s.med.busy then
    match drawBlock s with
    | (d, s1) => clearBusy (setBlock s1.med.target d s1)
  else s

/-- `BlkRead(i)`: `none` is `Err` (20_memory.md R79, R81). Out of range nothing is drawn (DEDUCED,
log 25; so for the two writes below). -/
def blkRead (i : Nat) (s : State) : Option Bytes × State :=
  let s0 := endOutstanding s
  if s0.params.mediumBlocks ≤ i then (none, emit (.blkRead i none) s0)
  else
    match drawMediumOk s0 with
    | (true, s1) => (some (blockAt s1 i), emit (.blkRead i (some (blockAt s1 i))) s1)
    | (false, s1) => (none, emit (.blkRead i none) s1)

/-- `BlkWrite(i, d)`: true is `Ok`; a failed write leaves a drawn block (20_memory.md R79, R81). -/
def blkWrite (i : Nat) (d : Bytes) (s : State) : Bool × State :=
  let s0 := endOutstanding s
  if s0.params.mediumBlocks ≤ i then (false, emit (.blkWrite i d false) s0)
  else
    match drawMediumOk s0 with
    | (true, s1) => (true, emit (.blkWrite i d true) (setBlock i d s1))
    | (false, s1) =>
      match drawBlock s1 with
      | (x, s2) => (false, emit (.blkWrite i d false) (setBlock i x s2))

/-- `BlkBegin(i, d)`: true is `Ok` (20_memory.md R80, R81). -/
def blkBegin (i : Nat) (d : Bytes) (s : State) : Bool × State :=
  let s0 := endOutstanding s
  if s0.params.mediumBlocks ≤ i then (false, emit (.blkBegin i d false) s0)
  else
    match drawMediumOk s0 with
    | (true, s1) =>
      (true, emit (.blkBegin i d true)
        { s1 with med := { s1.med with
            busy := true, target := i, data := fit s1.params.blockBytes d } })
    | (false, s1) => (false, emit (.blkBegin i d false) s1)

/-- `BlkStep()` (20_memory.md R80). -/
def blkStep (s : State) : StepAnswer × State :=
  if s.med.busy then
    match drawStep s with
    | (.pending, s1) => (.pending, emit (.blkStep .pending) s1)
    | (.done, s1) =>
      (.done, emit (.blkStep .done) (clearBusy (setBlock s1.med.target s1.med.data s1)))
    | (.err, s1) =>
      match drawBlock s1 with
      | (x, s2) => (.err, emit (.blkStep .err) (clearBusy (setBlock s2.med.target x s2)))
  else (.err, emit (.blkStep .err) s)

/-! ### Errors, halt, fault (the block has no traps, 60_exceptions.md R312) -/

/-- The outcome of an operation that may raise an error or a model fault
(00_scope.md R12: `return Ok(v)`, `raise E`, `fault F`). -/
inductive Res (α : Type) where
  | ok (a : α)
  | err (e : Err)
  | fault (f : Fault)
  deriving DecidableEq, Repr

/-- `fault F`: the block enters the model fault state (60_exceptions.md R320, 10_state.md R49). -/
def setFault (f : Fault) (s : State) : State := { s with fault := some f }

/-- The errors the last-error slot records (60_exceptions.md R305). -/
def recordable (e : Err) : Bool := e == .formatFailure || e == .sdRead || e == .sdWrite

/-- `RecordError(e)` (60_exceptions.md R305). -/
def recordError (e : Err) (s : State) : State :=
  if recordable e then { s with ma := { s.ma with lastError := e } } else s

/-- `HALT()` (60_exceptions.md R310). -/
def halt (s : State) : State :=
  let s1 := recordError .formatFailure s
  { s1 with ma := { s1.ma with halted := true } }

/-! ### The ring's binding and the reset -/

/-- `RB_INIT()` (40_ring_buffer.md R140). -/
def rbInit (s : State) : State :=
  { s with ring := { bound := true, w := 0, wp := false, r := 0, rp := false } }

/-- `BOOT()` (70_reset_and_hazards.md R342). -/
def boot (s : State) : State :=
  rbInit { s with
    pl := { acq := false, phase := .calibrating, gain := s.params.gainDefault,
            outCurGain := Config.minGain, outCurIn := .gnd, outVoltIn := .gndRef,
            linkSeq := 0, blkIdx := 0, sdState := .idle }
    ma := { s.ma with mode := .usbIdle, initialized := false, halted := false, rxQ := [] }
    fs := { s.fs with isOpen := false, dirty := false } }

/-- `WARM_RESET()` (70_reset_and_hazards.md R343): `BOOT()` with `last_error` kept. -/
def warmReset (s : State) : State :=
  let s1 := boot s
  { s1 with ma := { s1.ma with lastError := s.ma.lastError } }

/-! ### Serving a request -/

/-- A halted block performs no request: no effect, nothing emitted (60_exceptions.md R310). -/
def serve (body : State → Status × State) (s : State) : State :=
  if s.ma.halted then answer .noAnswer s
  else answer (body s).1 (body s).2

/-- After a step in which the mode changed from `before`, the block may emit the new mode's colour
as the last indicator event of the step (43_mode_arbiter.md R248). Its place among the step's other
outputs, after its replies, file chunks and transfers, is the model's (DESIGN CHOICE, log 9). -/
def showMode (before : Mode) (s : State) : State :=
  if s.ma.mode = before then s
  else
    match drawColor s with
    | (true, s1) => indicate (.setColor (Config.color s1.ma.mode)) s1
    | (false, s1) => s1

/-- `serve` for an operation that may change the mode. -/
def serveMode (body : State → Status × State) (s : State) : State :=
  if s.ma.halted then answer .noAnswer s
  else answer (body s).1 (showMode s.ma.mode (body s).2)

/-- The status an error-free result of one shape returns. -/
def Res.status {α : Type} (ok : α → Status) : Res α → Status
  | .ok a => ok a
  | .err e => .raised e
  | .fault f => .faulted f

end Sys2Proof.Machine
end

