-- ==== Sys2Proof/Machine/Flags.lean ====
section
/-! DEFINITION. The quantities the rules derive from the state and never store: the ring's extended
cursors and fill, the mode predicates, the outputs, the counter wraps (spec/10_state.md R23 to R25,
R27, R31, R32, R34, R37). The block has no condition codes (R48). -/

namespace Sys2Proof.Machine

/-- `W = rb_wp * C + rb_w` (10_state.md R23). -/
def extW (s : State) : Nat := (if s.ring.wp then s.params.ringCapacity else 0) + s.ring.w

/-- `Rx = rb_rp * C + rb_r` (10_state.md R24). -/
def extR (s : State) : Nat := (if s.ring.rp then s.params.ringCapacity else 0) + s.ring.r

/-- `used = (W - Rx) mod 2C` (10_state.md R25), with `2C` added before the subtraction so that it
stays in the naturals (log 21). -/
def used (s : State) : Nat :=
  (extW s + 2 * s.params.ringCapacity - extR s) % (2 * s.params.ringCapacity)

/-- `free = C - used` (10_state.md R25). -/
def free (s : State) : Nat := s.params.ringCapacity - used s

/-- The cursor of an extended cursor, `X mod C` (40_ring_buffer.md R141, R142). -/
def cursorOf (s : State) (x : Nat) : Nat := x % s.params.ringCapacity

/-- The wrap phase of an extended cursor, `X div C` (40_ring_buffer.md R141, R142). -/
def phaseOf (s : State) (x : Nat) : Bool := x / s.params.ringCapacity == 1

/-- `portable` (10_state.md R34). -/
def portable (s : State) : Bool := s.ma.mode == .portIdle || s.ma.mode == .portStore

/-- `store_mode` (10_state.md R34). -/
def storeMode (s : State) : Bool := s.ma.mode == .usbStore || s.ma.mode == .portStore

/-- Output `acq_enable` (10_state.md R27). -/
def acqEnable (s : State) : Bool := s.pl.acq

/-- Output `halt` (10_state.md R37). -/
def haltOut (s : State) : Bool := s.ma.halted

/-- The link sequence counter's successor, wrapping at its width (10_state.md R31). -/
def nextLinkSeq (s : State) : Nat := (s.pl.linkSeq + 1) % 2 ^ s.params.linkSeqBits

/-- The block index counter's successor, wrapping at its width (10_state.md R32). -/
def nextBlkIdx (s : State) : Nat := (s.pl.blkIdx + 1) % 2 ^ s.params.blkIdxBits

end Sys2Proof.Machine
end

