-- ==== Sys2Proof/Machine/Operands.lean ====
section
/-! DEFINITION. Operand assembly of the host commands (spec/30_encoding.md R103) and the layouts that
cross the block's ports (R105, R108, R110 to R112). -/

namespace Sys2Proof.Machine

/-! ### Command operands -/

/-- GainSet: `value1[15:0]` (30_encoding.md R103). -/
def gainOperand (v1 : U32) : U16 := v1.truncate 16

/-- ReadStorageOverLink and GetRtc: the file sequence number is `value1` (30_encoding.md R103). -/
def seqOperand (v1 : U32) : U32 := v1

/-- SetRtc: `(value1[15:0] << 16) | value2[15:0]` (30_encoding.md R103). -/
def secondsOperand (v1 v2 : U32) : U32 :=
  ((v1.truncate 16).zeroExtend 32 <<< 16) ||| (v2.truncate 16).zeroExtend 32

/-! ### Link output -/

/-- The short acknowledgment `[type, result]` (30_encoding.md R105). -/
def ackBytes (type result : Byte) : Bytes := [type, result]

/-- The length field of a data frame: `P` where it fits 16 bits, else a free value, because no rule
says what `le16(P)` then holds (30_encoding.md R108, 42_sample_pipeline.md R213, 00_scope.md R11 and
R14; DESIGN CHOICE, log 27). -/
def frameLength (p : Params) : U16 :=
  if p.linkPayload < 2 ^ 16 then BitVec.ofNat 16 p.linkPayload
  else Config.freeFrameLength p.linkPayload

/-- The host-link data frame `leN(seq) ++ le16(len) ++ payload` (30_encoding.md R108); the length
field of a payload of 65536 bytes or more is the model's choice (log 27). -/
def linkFrame (p : Params) (seq : Nat) (payload : Bytes) : Bytes :=
  leBytes (p.linkSeqBits / 8) seq ++ leBytes 2 (frameLength p).toNat ++ payload

/-! ### On-medium records -/

/-- `NEXT_NONE` (30_encoding.md R111). -/
def nextNone : U32 := 0xFFFFFFFF

/-- The fields of a FileStartBlock (30_encoding.md R111). -/
structure Fsb where
  iteration : U32
  seq : U32
  byteLen : U32
  next : U32
  rtcS : U32
  rtcSub : U32
  deriving DecidableEq, Repr

/-- The superblock of iteration `iter` (30_encoding.md R110). -/
def superblock (p : Params) (iter : U32) (portable : Bool) : Bytes :=
  p.magic ++ le32 p.fsVersion ++ le32 iter ++ [if portable then 1 else 0] ++
    zeros (p.blockBytes - 17)

/-- A superblock is valid when magic and version match (30_encoding.md R112). -/
def superblockValid (p : Params) (d : Bytes) : Bool :=
  slice d 0 8 == p.magic && u32At d 8 == p.fsVersion

/-- The format iteration of a superblock (30_encoding.md R110). -/
def superblockIter (d : Bytes) : U32 := u32At d 12

/-- The portable flag of a superblock; no rule reads it (41_log_filesystem.md R160). -/
def superblockPortable (d : Bytes) : Bool := d.getD 16 0 != 0

/-- The FileStartBlock of these fields (30_encoding.md R111). -/
def fsbBlock (p : Params) (f : Fsb) : Bytes :=
  le32 f.iteration ++ le32 f.seq ++ le32 f.byteLen ++ le32 f.next ++ le32 f.rtcS ++
    le32 f.rtcSub ++ zeros (p.blockBytes - 24)

/-- The fields of a FileStartBlock's bytes (30_encoding.md R111). -/
def decodeFsb (d : Bytes) : Fsb where
  iteration := u32At d 0
  seq := u32At d 4
  byteLen := u32At d 8
  next := u32At d 12
  rtcS := u32At d 16
  rtcSub := u32At d 20

end Sys2Proof.Machine
end

