-- ==== Sys2Proof/Machine/FileSystem.lean ====
section
/-! DEFINITION. The log filesystem and the pipelined block write (spec/41_log_filesystem.md R160 to
R177) and their meanings. An operation that raises keeps the changes its pseudocode made before. -/

namespace Sys2Proof.Machine

/-! ### Helpers -/

/-- What `ReadSB()` returns (41_log_filesystem.md R160). -/
structure SuperblockInfo where
  valid : Bool
  iter : U32
  portable : Bool
  deriving DecidableEq, Repr

/-- `ReadSB()`: `none` is `Err` (41_log_filesystem.md R160). -/
def readSB (s : State) : Option SuperblockInfo × State :=
  match blkRead s.params.sbBlock s with
  | (none, s1) => (none, s1)
  | (some d, s1) =>
    (some ⟨superblockValid s1.params d, superblockIter d, superblockPortable d⟩, s1)

/-- The walk of the FileStartBlock chain from block `b` with the entries `c` found so far; `none` is
`Err`. `fuel` bounds the blocks read: the block index rises at every step, so `MEDIUM_BLOCKS + 1`
is enough (41_log_filesystem.md R161, log 16). -/
def chainFrom (iter : U32) : Nat → Nat → List (Nat × Fsb) → State →
    Option (List (Nat × Fsb)) × State
  | 0, _, c, s => (some c, s)
  | fuel + 1, b, c, s =>
    if s.params.mediumBlocks ≤ b then (some c, s)
    else
      match blkRead b s with
      | (none, s1) => (none, s1)
      | (some d, s1) =>
        let f := decodeFsb d
        if f.iteration ≠ iter then (some c, s1)
        else if (c.getLast?.any fun l => decide (f.seq ≤ l.2.seq)) then (some c, s1)
        else if f.next = nextNone ∨ f.next.toNat ≤ b then (some (c ++ [(b, f)]), s1)
        else chainFrom iter fuel f.next.toNat (c ++ [(b, f)]) s1

/-- `ChainWalk(I)` (41_log_filesystem.md R161). -/
def chainWalk (iter : U32) (s : State) : Option (List (Nat × Fsb)) × State :=
  chainFrom iter (s.params.mediumBlocks + 1) s.params.firstFileBlock [] s

/-- Blocks that `n` bytes take: `ceil(n / B)`. -/
def blocksOf (p : Params) (n : Nat) : Nat := (n + p.blockBytes - 1) / p.blockBytes

/-- The medium block of the file's `k`-th data block, `DataBlk(o)` with `k = o div B`
(41_log_filesystem.md R164). -/
def dataBlk (s : State) (k : Nat) : Nat := s.fs.start.toNat + 1 + k

/-- `MetaFSB()` (41_log_filesystem.md R168). -/
def metaFsb (s : State) : Bytes :=
  fsbBlock s.params ⟨s.fs.iter, s.fs.seq, BitVec.ofNat 32 s.fs.len, s.fs.next, s.fs.rtcS,
    s.fs.rtcSub⟩

/-! ### Format, open, close, seek -/

/-- The superblock write of `FS_FORMAT` before the halt rule: false is `FormatFailure`
(41_log_filesystem.md R162). -/
def formatMedium (portable : Bool) (s : State) : Bool × State :=
  let s0 := { s with fs := { s.fs with isOpen := false, dirty := false } }
  match readSB s0 with
  | (none, s1) => (false, s1)
  | (some sb, s1) =>
    let iter : U32 := if sb.valid then sb.iter + 1 else 1
    blkWrite s1.params.sbBlock (superblock s1.params iter portable) s1

/-- `FS_FORMAT(portable)`; a failure halts the block, whoever called it
(41_log_filesystem.md R162, 60_exceptions.md R310). `FORMAT_OR_HALT` of 43_mode_arbiter.md R249 is
this operation. -/
def fsFormat (portable : Bool) (s : State) : Res Unit × State :=
  match formatMedium portable s with
  | (true, s1) => (.ok (), s1)
  | (false, s1) => (.err .formatFailure, halt s1)

/-- `FS_CLOSE()` (41_log_filesystem.md R168); with no open file it does nothing, so it is also
`FS_IMPLICIT_CLOSE()` (R166). -/
def fsClose (s : State) : Res Unit × State :=
  if s.fs.isOpen = false then (.ok (), s)
  else
    let s0 := { s with fs := { s.fs with isOpen := false } }
    if s.fs.dirty = false then (.ok (), s0)
    else
      let s1 := { s0 with fs := { s0.fs with dirty := false } }
      match blkWrite s1.fs.start.toNat (metaFsb s1) s1 with
      | (true, s2) => (.ok (), s2)
      | (false, s2) => (.err .sdWrite, s2)

/-- The superblock read and the chain walk that both forms of `FS_OPEN` begin with, after the
implicit close: the iteration and the chain (41_log_filesystem.md R163, R165). -/
def openChain (s : State) : Res (U32 × List (Nat × Fsb)) × State :=
  match fsClose s with
  | (.err e, s1) => (.err e, s1)
  | (.fault f, s1) => (.fault f, s1)
  | (.ok (), s1) =>
    match readSB s1 with
    | (none, s2) => (.err .sdRead, s2)
    | (some sb, s2) =>
      if sb.valid = false then (.err .noExistingFile, s2)
      else
        match chainWalk sb.iter s2 with
        | (none, s3) => (.err .sdRead, s3)
        | (some c, s3) => (.ok (sb.iter, c), s3)

/-- Where the next file starts and its sequence number (41_log_filesystem.md R163). -/
def nextSlot (p : Params) (c : List (Nat × Fsb)) : Nat × U32 :=
  match c.getLast? with
  | none => (p.firstFileBlock, 1)
  | some (lb, lf) => (lb + 1 + blocksOf p lf.byteLen.toNat, lf.seq + 1)

/-- The forward link of the previous file, written after the new FileStartBlock: false is `Err`
(41_log_filesystem.md R163). -/
def linkPrevious (c : List (Nat × Fsb)) (start : Nat) (s : State) : Bool × State :=
  match c.getLast? with
  | none => (true, s)
  | some (lb, lf) =>
    blkWrite lb (fsbBlock s.params { lf with next := BitVec.ofNat 32 start }) s

/-- `FS_OPEN(1, _)`: create a file (41_log_filesystem.md R163). -/
def fsCreate (s : State) : Res U32 × State :=
  match openChain s with
  | (.err e, s1) => (.err e, s1)
  | (.fault f, s1) => (.fault f, s1)
  | (.ok (iter, c), s1) =>
    let slot := nextSlot s1.params c
    if s1.params.mediumBlocks ≤ slot.1 then (.err .sdWrite, s1)
    else
      match rtcNow s1 with
      | ((ts, tsub), s2) =>
        match blkWrite slot.1 (fsbBlock s2.params ⟨iter, slot.2, 0, nextNone, ts, tsub⟩) s2 with
        | (false, s3) => (.err .sdWrite, s3)
        | (true, s3) =>
          match linkPrevious c slot.1 s3 with
          | (false, s4) => (.err .sdWrite, s4)
          | (true, s4) =>
            (.ok slot.2,
              { s4 with fs :=
                  { isOpen := true, kind := .created, iter := iter, seq := slot.2,
                    start := BitVec.ofNat 32 slot.1, len := 0, next := nextNone, rtcS := ts,
                    rtcSub := tsub, dirty := false, rdPos := 0 } })

/-- `FS_OPEN(0, seq)`: open a file by its sequence number (41_log_filesystem.md R165). -/
def fsReopen (seq : U32) (s : State) : Res U32 × State :=
  match openChain s with
  | (.err e, s1) => (.err e, s1)
  | (.fault f, s1) => (.fault f, s1)
  | (.ok (iter, c), s1) =>
    match c.find? (fun e => e.2.seq == seq) with
    | none => (.err .noExistingFile, s1)
    | some (b, f) =>
      (.ok seq,
        { s1 with fs :=
            { isOpen := true, kind := .reopened, iter := iter, seq := f.seq,
              start := BitVec.ofNat 32 b, len := f.byteLen.toNat, next := f.next, rtcS := f.rtcS,
              rtcSub := f.rtcSub, dirty := false, rdPos := 0 } })

/-- `FS_OPEN(create, seq)` (41_log_filesystem.md R163, R165). -/
def fsOpen (create : Bool) (seq : U32) (s : State) : Res U32 × State :=
  if create then fsCreate s else fsReopen seq s

/-- `FS_SEEK(pos)` (41_log_filesystem.md R167). -/
def fsSeek (pos : Nat) (s : State) : Res Unit × State :=
  if s.fs.isOpen = false then (.err .fileNotOpen, s)
  else if s.fs.len < pos then (.err .seekPastEnd, s)
  else (.ok (), { s with fs := { s.fs with rdPos := pos } })

/-! ### Data transfer -/

/-- The block numbers, within a file, that `n` bytes from offset `o` touch; none when `n = 0`
(41_log_filesystem.md R169, R170). -/
def blocksTouched (p : Params) (o n : Nat) : List Nat :=
  if n = 0 then []
  else List.range' (o / p.blockBytes)
    ((o + n - 1) / p.blockBytes + 1 - o / p.blockBytes)

/-- Data block `k` of a file with `data` laid over it from file offset `o` on: the bytes before `o`
keep their value in `cur`, the bytes after the data's end are zero (41_log_filesystem.md R169, its
corner cases and 92_eei_decisions.md D33; DEDUCED, log 26). -/
def overlay (p : Params) (o : Nat) (data : Bytes) (k : Nat) (cur : Bytes) : Bytes :=
  (List.range' 0 p.blockBytes).map fun j =>
    let x := k * p.blockBytes + j
    if x < o then cur.getD j 0 else data.getD (x - o) 0

/-- The contents that block `k` starts from when `data` is appended at offset `o`: the old block
where the first block is only partly new, else zeros; `none` is a failed read
(41_log_filesystem.md R169). -/
def appendBase (o k : Nat) (s : State) : Option Bytes × State :=
  if k = o / s.params.blockBytes ∧ o % s.params.blockBytes ≠ 0 then blkRead (dataBlk s k) s
  else (some (zeros s.params.blockBytes), s)

/-- The block writes of `FS_WRITE`, in block order (41_log_filesystem.md R169). -/
def appendBlocks (o : Nat) (data : Bytes) : List Nat → State → Res Unit × State
  | [], s => (.ok (), s)
  | k :: ks, s =>
    if s.params.mediumBlocks ≤ dataBlk s k then (.err .sdWrite, s)
    else
      match appendBase o k s with
      | (none, s1) => (.err .sdRead, s1)
      | (some cur, s1) =>
        match blkWrite (dataBlk s1 k) (overlay s1.params o data k cur) s1 with
        | (false, s2) => (.err .sdWrite, s2)
        | (true, s2) => appendBlocks o data ks s2

/-- `FS_WRITE(data, len(data))` (41_log_filesystem.md R169). -/
def fsWrite (data : Bytes) (s : State) : Res Unit × State :=
  if s.fs.isOpen = false then (.err .fileNotOpen, s)
  else if s.fs.kind = .reopened then
    (.fault .appendToReopenedFile, setFault .appendToReopenedFile s)
  else
    match appendBlocks s.fs.len data (blocksTouched s.params s.fs.len data.length) s with
    | (.ok (), s1) =>
      (.ok (),
        { s1 with fs := { s1.fs with
            len := s1.fs.len + data.length, dirty := s1.fs.dirty || !data.isEmpty } })
    | r => r

/-- The bytes of block `k` at file offsets in `[o, o + n)` (41_log_filesystem.md R170). -/
def blockPart (p : Params) (o n k : Nat) (d : Bytes) : Bytes :=
  let lo := max o (k * p.blockBytes)
  let hi := min (o + n) ((k + 1) * p.blockBytes)
  slice d (lo - k * p.blockBytes) (hi - lo)

/-- The block reads of `FS_READ`, one per block touched; `none` is a failed read
(41_log_filesystem.md R170). -/
def readBlocks (o n : Nat) : List Nat → State → Option Bytes × State
  | [], s => (some [], s)
  | k :: ks, s =>
    match blkRead (dataBlk s k) s with
    | (none, s1) => (none, s1)
    | (some d, s1) =>
      match readBlocks o n ks s1 with
      | (none, s2) => (none, s2)
      | (some rest, s2) => (some (blockPart s1.params o n k d ++ rest), s2)

/-- `FS_READ(n)` (41_log_filesystem.md R170). -/
def fsRead (n : Nat) (s : State) : Res Bytes × State :=
  if s.fs.isOpen = false then (.err .fileNotOpen, s)
  else
    let m := min n (s.fs.len - s.fs.rdPos)
    match readBlocks s.fs.rdPos m (blocksTouched s.params s.fs.rdPos m) s with
    | (none, s1) => (.err .sdRead, s1)
    | (some d, s1) => (.ok d, { s1 with fs := { s1.fs with rdPos := s1.fs.rdPos + m } })

/-! ### Timestamps and size -/

/-- `FS_RTC_GET()` (41_log_filesystem.md R171). -/
def fsRtcGet (s : State) : Res (U32 × U32) × State :=
  if s.fs.isOpen = false then (.err .fileNotOpen, s) else (.ok (s.fs.rtcS, s.fs.rtcSub), s)

/-- `FS_RTC_SET(v, sub)` (41_log_filesystem.md R172). -/
def fsRtcSet (v sub : U32) (s : State) : Res Unit × State :=
  if s.fs.isOpen = false then (.err .fileNotOpen, s)
  else (.ok (), { s with fs := { s.fs with rtcS := v, rtcSub := sub, dirty := true } })

/-- `FS_SIZE_GET()` (41_log_filesystem.md R175). -/
def fsSizeGet (s : State) : Res Nat × State :=
  if s.fs.isOpen = false then (.err .fileNotOpen, s)
  else if 2 ^ s.params.sizeBits - 1 < s.fs.len then (.err .fileTooLong, s)
  else (.ok s.fs.len, s)

/-! ### Pipelined block write -/

/-- `FS_BEGIN_WRITE(data)` (41_log_filesystem.md R173). -/
def fsBeginWrite (data : Bytes) (s : State) : Res Unit × State :=
  if s.fs.isOpen = false then (.err .fileNotOpen, s)
  else if s.fs.kind = .reopened then
    (.fault .appendToReopenedFile, setFault .appendToReopenedFile s)
  else if s.fs.len % s.params.blockBytes ≠ 0 then
    (.fault .misalignedAppend, setFault .misalignedAppend s)
  else
    match blkBegin (dataBlk s (s.fs.len / s.params.blockBytes)) data s with
    | (true, s1) => (.ok (), s1)
    | (false, s1) => (.err .sdWrite, s1)

/-- `FS_CONTINUE()`: the result is whether the write is done (41_log_filesystem.md R174). -/
def fsContinue (s : State) : Res Bool × State :=
  if s.fs.isOpen = false then (.err .fileNotOpen, s)
  else
    match blkStep s with
    | (.pending, s1) => (.ok false, s1)
    | (.done, s1) =>
      (.ok true,
        { s1 with fs := { s1.fs with len := s1.fs.len + s1.params.blockBytes, dirty := true } })
    | (.err, s1) => (.err .sdWrite, s1)

/-- When `FS_FLUSH` is enabled (41_log_filesystem.md R176). -/
def flushEnabled (s : State) : Bool :=
  s.fs.isOpen && s.fs.dirty && s.pl.sdState == .idle && !s.ma.halted

/-- `FS_FLUSH()`; without effect where it is not enabled (41_log_filesystem.md R176; DEDUCED,
log 10). -/
def fsFlush (s : State) : Status × State :=
  if flushEnabled s then
    match blkWrite s.fs.start.toNat (metaFsb s) s with
    | (true, s1) => (.ok, { s1 with fs := { s1.fs with dirty := false } })
    | (false, s1) => (.ok, s1)
  else (.noOp, s)

/-! ### Self-test -/

/-- The self-test's data: `T[i] = i mod 256` (41_log_filesystem.md R177). -/
def fsPattern (p : Params) : Bytes :=
  (List.range' 0 p.fsSelftestBytes).map (fun i => BitVec.ofNat 8 i)

/-- `FS_SELFTEST()` from its second open on: reopen the file, read, close, compare
(41_log_filesystem.md R177). -/
def fsSelftestVerify (seq : U32) (s : State) : Res Byte × State :=
  match fsReopen seq s with
  | (.err e, s1) => (.ok (s1.params.errCode e), s1)
  | (.fault f, s1) => (.fault f, s1)
  | (.ok _, s1) =>
    match fsRead (fsPattern s1.params).length s1 with
    | (.err e, s2) => (.ok ((fsClose s2).2.params.errCode e), (fsClose s2).2)
    | (.fault f, s2) => (.fault f, s2)
    | (.ok d, s2) =>
      (.ok (if d = fsPattern s2.params then 0 else s2.params.selftestMismatch), (fsClose s2).2)

/-- `FS_SELFTEST()`: the result code, 0 for pass (41_log_filesystem.md R177). Its file is a created
one, so its write raises no model fault. -/
def fsSelftest (s : State) : Res Byte × State :=
  match fsFormat s.params.fsSelftestPortable s with
  | (.err e, s1) => (.ok (s1.params.errCode e), s1)
  | (.fault f, s1) => (.fault f, s1)
  | (.ok (), s1) =>
    match fsCreate s1 with
    | (.err e, s2) => (.ok (s2.params.errCode e), s2)
    | (.fault f, s2) => (.fault f, s2)
    | (.ok seq, s2) =>
      match fsWrite (fsPattern s2.params) s2 with
      | (.err e, s3) => (.ok ((fsClose s3).2.params.errCode e), (fsClose s3).2)
      | (.fault f, s3) => (.fault f, s3)
      | (.ok (), s3) =>
        match fsClose s3 with
        | (.err e, s4) => (.ok (s4.params.errCode e), s4)
        | (.fault f, s4) => (.fault f, s4)
        | (.ok (), s4) => fsSelftestVerify seq s4

/-! ### Meanings -/

/-- `FS_FORMAT portable` as a request (41_log_filesystem.md R162). -/
def execFsFormat (portable : Bool) (s : State) : Host.Outcome State Fault Refusal :=
  .next (serve (fun s =>
    ((fsFormat portable s).1.status (fun _ => .ok), (fsFormat portable s).2)) s)

/-- `FS_OPEN create, seq` as a request (41_log_filesystem.md R163, R165). -/
def execFsOpen (create : Bool) (seq : U32) (s : State) : Host.Outcome State Fault Refusal :=
  .next (serve (fun s => ((fsOpen create seq s).1.status .okSeq, (fsOpen create seq s).2)) s)

/-- `FS_SEEK pos` as a request (41_log_filesystem.md R167). -/
def execFsSeek (pos : U32) (s : State) : Host.Outcome State Fault Refusal :=
  .next (serve (fun s =>
    ((fsSeek pos.toNat s).1.status (fun _ => .ok), (fsSeek pos.toNat s).2)) s)

/-- `FS_WRITE data` as a request (41_log_filesystem.md R169). -/
def execFsWrite (data : Bytes) (s : State) : Host.Outcome State Fault Refusal :=
  .next (serve (fun s => ((fsWrite data s).1.status (fun _ => .ok), (fsWrite data s).2)) s)

/-- `FS_READ n` as a request (41_log_filesystem.md R170). -/
def execFsRead (n : U16) (s : State) : Host.Outcome State Fault Refusal :=
  .next (serve (fun s => ((fsRead n.toNat s).1.status .okBytes, (fsRead n.toNat s).2)) s)

/-- `FS_RTC_GET` as a request (41_log_filesystem.md R171). -/
def execFsRtcGet (s : State) : Host.Outcome State Fault Refusal :=
  .next (serve (fun s => ((fsRtcGet s).1.status (fun t => .okRtc t.1 t.2), (fsRtcGet s).2)) s)

/-- `FS_RTC_SET seconds, subseconds` as a request (41_log_filesystem.md R172). -/
def execFsRtcSet (v sub : U32) (s : State) : Host.Outcome State Fault Refusal :=
  .next (serve (fun s => ((fsRtcSet v sub s).1.status (fun _ => .ok), (fsRtcSet v sub s).2)) s)

/-- `FS_CLOSE` as a request (41_log_filesystem.md R168). -/
def execFsClose (s : State) : Host.Outcome State Fault Refusal :=
  .next (serve (fun s => ((fsClose s).1.status (fun _ => .ok), (fsClose s).2)) s)

/-- `FS_SIZE_GET` as a request (41_log_filesystem.md R175). -/
def execFsSizeGet (s : State) : Host.Outcome State Fault Refusal :=
  .next (serve (fun s => ((fsSizeGet s).1.status .okSize, (fsSizeGet s).2)) s)

/-- `FS_BEGIN_WRITE data` as a request (41_log_filesystem.md R173). -/
def execFsBeginWrite (data : Bytes) (s : State) : Host.Outcome State Fault Refusal :=
  .next (serve (fun s =>
    ((fsBeginWrite data s).1.status (fun _ => .ok), (fsBeginWrite data s).2)) s)

/-- `FS_CONTINUE` as a request (41_log_filesystem.md R174). -/
def execFsContinue (s : State) : Host.Outcome State Fault Refusal :=
  .next (serve (fun s =>
    ((fsContinue s).1.status (fun done => if done then .okDone else .okPending),
      (fsContinue s).2)) s)

/-- `FS_SELFTEST` as a request (41_log_filesystem.md R177). -/
def execFsSelftest (s : State) : Host.Outcome State Fault Refusal :=
  .next (serve (fun s => ((fsSelftest s).1.status .code, (fsSelftest s).2)) s)

/-- `FS_FLUSH` as a request, and the write-back the block may take on its own
(41_log_filesystem.md R176). -/
def execFsFlush (s : State) : Host.Outcome State Fault Refusal :=
  .next (serve fsFlush s)

end Sys2Proof.Machine
end

