-- ==== Sys2Proof/Machine/RingBuffer.lean ====
section
/-! DEFINITION. The ring buffer operations (spec/40_ring_buffer.md R140 to R143) and their meanings. -/

namespace Sys2Proof.Machine

/-- Store `data` at the write cursor, split at the end of the store (20_memory.md R77). -/
def ringStore (data : Bytes) (s : State) : State :=
  let n1 := min data.length (s.params.ringCapacity - s.ring.w)
  memWrite 0 (data.drop n1) (memWrite s.ring.w (data.take n1) s)

/-- Fetch `len` bytes at the read cursor, split at the end of the store (20_memory.md R77). -/
def ringFetch (len : Nat) (s : State) : Bytes × State :=
  let n1 := min len (s.params.ringCapacity - s.ring.r)
  let first := memRead s.ring.r n1 s
  let second := memRead 0 (len - n1) first.2
  (first.1 ++ second.1, second.2)

/-- Move the write cursor by `len` (40_ring_buffer.md R141). -/
def advanceWrite (len : Nat) (s : State) : State :=
  let w2 := (extW s + len) % (2 * s.params.ringCapacity)
  { s with ring := { s.ring with w := cursorOf s w2, wp := phaseOf s w2 } }

/-- Move the read cursor by `len` (40_ring_buffer.md R142). -/
def advanceRead (len : Nat) (s : State) : State :=
  let r2 := (extR s + len) % (2 * s.params.ringCapacity)
  { s with ring := { s.ring with r := cursorOf s r2, rp := phaseOf s r2 } }

/-- `RB_WRITE(data, len(data))` (40_ring_buffer.md R141). -/
def rbWrite (data : Bytes) (s : State) : Res Unit × State :=
  if s.ring.bound = false then (.fault .rbUnbound, setFault .rbUnbound s)
  else if free s < data.length then (.err .overflow, s)
  else (.ok (), advanceWrite data.length (ringStore data s))

/-- `RB_READ(len)` (40_ring_buffer.md R142). -/
def rbRead (len : Nat) (s : State) : Res Bytes × State :=
  if s.ring.bound = false then (.fault .rbUnbound, setFault .rbUnbound s)
  else if used s < len then (.err .underflow, s)
  else (.ok (ringFetch len s).1, advanceRead len (ringFetch len s).2)

/-- One round trip of the self-test: `RB_WRITE(d) = Ok and RB_READ(len(d)) = Ok(d)`
(40_ring_buffer.md R143; log 22). -/
def rbRoundTrip (d : Bytes) (s : State) : Bool × State :=
  match rbWrite d s with
  | (.ok (), s1) => (decide ((rbRead d.length s1).1 = .ok d), (rbRead d.length s1).2)
  | (_, s1) => (false, s1)

/-- The self-test's filler round trips until the cursors reach offset `C - 1`, at most `fuel` of them
(40_ring_buffer.md R143, log 16). -/
def rbFill : Nat → Bool → State → Bool × State
  | 0, ok, s => (ok, s)
  | fuel + 1, ok, s =>
    if ok = false ∨ s.ring.w = s.params.ringCapacity - 1 then (ok, s)
    else rbFill fuel (rbRoundTrip [0x00] s).1 (rbRoundTrip [0x00] s).2

/-- The self-test's multi-byte pattern `T[i] = i + 1`, `L = min(C, 16)` bytes
(40_ring_buffer.md R143). -/
def rbPattern (s : State) : Bytes :=
  (List.range' 1 (min s.params.ringCapacity 16)).map (fun i => BitVec.ofNat 8 i)

/-- `ok and <round trip of d>` (40_ring_buffer.md R143; log 22). -/
def rbAndThen (d : Bytes) (r : Bool × State) : Bool × State :=
  if r.1 then rbRoundTrip d r.2 else r

/-- `RB_SELFTEST()`: 0 for pass (40_ring_buffer.md R143). -/
def rbSelftest (s : State) : Byte × State :=
  let s0 := rbInit s
  let multi := rbAndThen (rbPattern s0) (rbRoundTrip [0x5A] s0)
  let high := rbAndThen (rbPattern s0) (rbFill s0.params.ringCapacity multi.1 multi.2)
  (if high.1 then 0 else s0.params.selftestMismatch, rbInit high.2)

/-! ### Meanings -/

/-- `RB_INIT` as a request (40_ring_buffer.md R140). -/
def execRbInit (s : State) : Host.Outcome State Fault Refusal :=
  .next (serve (fun s => (.ok, rbInit s)) s)

/-- `RB_WRITE data` from ACQ (40_ring_buffer.md R141, 42_sample_pipeline.md R217). -/
def execRbWrite (data : Bytes) (s : State) : Host.Outcome State Fault Refusal :=
  .next (serve (fun s => ((rbWrite data s).1.status (fun _ => .ok), (rbWrite data s).2)) s)

/-- `RB_READ len` as a request (40_ring_buffer.md R142). -/
def execRbRead (len : U16) (s : State) : Host.Outcome State Fault Refusal :=
  .next (serve (fun s => ((rbRead len.toNat s).1.status .okBytes, (rbRead len.toNat s).2)) s)

/-- `RB_SELFTEST` as a request (40_ring_buffer.md R143). -/
def execRbSelftest (s : State) : Host.Outcome State Fault Refusal :=
  .next (serve (fun s => (.code (rbSelftest s).1, (rbSelftest s).2)) s)

end Sys2Proof.Machine
end

