-- ==== Sys2Proof/Machine/SamplePipeline.lean ====
section
/-! DEFINITION. The sample pipeline, its drain multiplexer and the write sequencer
(spec/42_sample_pipeline.md R210 to R216) and their meanings. -/

namespace Sys2Proof.Machine

/-- `PL_BEGIN()` (42_sample_pipeline.md R210). -/
def plBegin (s : State) : State :=
  let s0 := rbInit s
  { s0 with pl := { s0.pl with
      phase := .calibrating, outCurGain := Config.minGain, outCurIn := .gnd, outVoltIn := .gndRef,
      linkSeq := 0, blkIdx := 0, sdState := .idle, acq := true } }

/-- `PL_STOP()` (42_sample_pipeline.md R216). -/
def plStop (s : State) : State := { s with pl := { s.pl with acq := false, sdState := .idle } }

/-- `CAL_DONE()` (42_sample_pipeline.md R211). -/
def calDone (s : State) : State :=
  if s.pl.acq = true ∧ s.pl.phase = .calibrating then
    { s with pl := { s.pl with
        phase := .measuring, outCurGain := s.pl.gain, outCurIn := .live, outVoltIn := .live } }
  else s

/-- `PL_DRAIN_LINK()` (42_sample_pipeline.md R213). -/
def drainLink (s : State) : Status × State :=
  match drawLinkReady s with
  | (false, s1) => (.noOp, s1)
  | (true, s1) =>
    match rbRead s1.params.linkPayload s1 with
    | (.err _, s2) => (.noOp, s2)
    | (.fault f, s2) => (.faulted f, s2)
    | (.ok d, s2) =>
      let s3 := linkTx (linkFrame s2.params s2.pl.linkSeq d) s2
      (.sent, { s3 with pl := { s3.pl with linkSeq := nextLinkSeq s3 } })

/-- `PL_DRAIN_STORAGE()` with the sequencer idle (42_sample_pipeline.md R214). -/
def drainStorageIdle (s : State) : Status × State :=
  if s.fs.isOpen = false then (.noOp, s)
  else
    match rbRead s.params.blockBytes s with
    | (.err _, s1) => (.noOp, s1)
    | (.fault f, s1) => (.faulted f, s1)
    | (.ok d, s1) =>
      match fsBeginWrite d s1 with
      | (.err e, s2) => (.failed, recordError e s2)
      | (.fault f, s2) => (.faulted f, s2)
      | (.ok (), s2) => (.started, { s2 with pl := { s2.pl with sdState := .writeInProgress } })

/-- `PL_DRAIN_STORAGE()` with a block write outstanding (42_sample_pipeline.md R215). -/
def drainStorageBusy (s : State) : Status × State :=
  match fsContinue s with
  | (.ok false, s1) => (.pending, s1)
  | (.ok true, s1) =>
    (.completed, { s1 with pl := { s1.pl with sdState := .idle, blkIdx := nextBlkIdx s1 } })
  | (.err e, s1) =>
    let s2 := recordError e s1
    (.failed, { s2 with pl := { s2.pl with sdState := .idle } })
  | (.fault f, s1) => (.faulted f, s1)

/-- `PL_DRAIN_STORAGE()` (42_sample_pipeline.md R214, R215). -/
def drainStorage (s : State) : Status × State :=
  match s.pl.sdState with
  | .idle => drainStorageIdle s
  | .writeInProgress => drainStorageBusy s

/-- `TICK()` (42_sample_pipeline.md R212). -/
def tickBody (s : State) : Status × State :=
  if s.pl.acq = false then (.noOp, s)
  else
    match s.ma.mode with
    | .stream => drainLink s
    | .usbStore => drainStorage s
    | .portStore => drainStorage s
    | .usbIdle => (.noOp, s)
    | .portIdle => (.noOp, s)

/-! ### Meanings -/

/-- `PL_BEGIN` as a request (42_sample_pipeline.md R210). -/
def execPlBegin (s : State) : Host.Outcome State Fault Refusal :=
  .next (serve (fun s => (.ok, plBegin s)) s)

/-- `PL_STOP` as a request (42_sample_pipeline.md R216). -/
def execPlStop (s : State) : Host.Outcome State Fault Refusal :=
  .next (serve (fun s => (.ok, plStop s)) s)

/-- `CAL_DONE` from SCHED (42_sample_pipeline.md R211). -/
def execCalDone (s : State) : Host.Outcome State Fault Refusal :=
  .next (serve (fun s => (.ok, calDone s)) s)

/-- `TICK` from SCHED (42_sample_pipeline.md R212). -/
def execTick (s : State) : Host.Outcome State Fault Refusal :=
  .next (serve tickBody s)

/-- `PL_DRAIN_LINK` as a request (42_sample_pipeline.md R213). -/
def execPlDrainLink (s : State) : Host.Outcome State Fault Refusal :=
  .next (serve drainLink s)

/-- `PL_DRAIN_STORAGE` as a request (42_sample_pipeline.md R214, R215). -/
def execPlDrainStorage (s : State) : Host.Outcome State Fault Refusal :=
  .next (serve drainStorage s)

end Sys2Proof.Machine
end

