-- ==== Sys2Proof/Machine/ModeArbiter.lean ====
section
/-! DEFINITION. The mode arbiter: its helpers (spec/43_mode_arbiter.md R245 to R249), the thirteen
host commands (R250 to R263), the command processor (R240 to R243), the button events (R270, R271)
and the external reset (70_reset_and_hazards.md R344), with their meanings. -/

namespace Sys2Proof.Machine

/-! ### Helpers -/

/-- `st.mode <- m`. -/
def setMode (m : Mode) (s : State) : State := { s with ma := { s.ma with mode := m } }

/-- `NextSeq()` (43_mode_arbiter.md R246). -/
def nextSeq (s : State) : U32 × State :=
  match readSB s with
  | (none, s1) => drawSeq s1
  | (some sb, s1) =>
    if sb.valid = false then (1, s1)
    else
      match chainWalk sb.iter s1 with
      | (none, s2) => drawSeq s2
      | (some c, s2) => ((nextSlot s2.params c).2, s2)

/-- `Ind(BLINK(NextSeq()))` (43_mode_arbiter.md R245, R246). -/
def blinkNext (s : State) : State := indicate (.blink (nextSeq s).1) (nextSeq s).2

/-- Close the file and record a failure, as a stop from a store mode does
(43_mode_arbiter.md R245). -/
def closeAndRecord (s : State) : State :=
  match fsClose s with
  | (.err e, s1) => recordError e s1
  | (_, s1) => s1

/-- `STOP_SAMPLING()` (43_mode_arbiter.md R245). -/
def stopSampling (s : State) : State :=
  let s1 := plStop s
  match s.ma.mode with
  | .usbStore => setMode .usbIdle (closeAndRecord s1)
  | .portStore => setMode .portIdle (blinkNext (closeAndRecord s1))
  | .usbIdle => s1
  | .portIdle => s1
  | .stream => s1

/-- `ENTER_STORE()`, after the caller has set the mode (43_mode_arbiter.md R247). -/
def enterStore (s : State) : State :=
  match fsCreate s with
  | (.err e, s1) => plBegin (recordError e s1)
  | (_, s1) => plBegin s1

/-! ### Host commands -/

/-- A command's result (43_mode_arbiter.md R241). -/
inductive CmdResult where
  | ack (r : Byte)
  | noAck
  deriving DecidableEq, Repr

/-- `Ack(CMD_CODE(cmd))`, the generic success result (30_encoding.md R106). -/
def ackType (c : Command) (s : State) : CmdResult := .ack (s.params.cmdCode c)

/-- `EXEC_Init` (43_mode_arbiter.md R250). -/
def runInit (s : State) : CmdResult × State :=
  let s1 := if s.ma.initialized then warmReset s else s
  (.ack (s1.params.errCode s1.ma.lastError),
    { s1 with ma := { s1.ma with initialized := true, lastError := .noError } })

/-- `EXEC_Reset` (43_mode_arbiter.md R255). -/
def runReset (s : State) : CmdResult × State :=
  match drawResetAck s with
  | (true, s1) => (ackType .reset s1, warmReset s1)
  | (false, s1) => (.noAck, warmReset s1)

/-- `EXEC_SelfTest` (43_mode_arbiter.md R263). -/
def runSelfTest (s : State) : CmdResult × State :=
  match driverSelfTest (stopSampling s) with
  | (t, s1) =>
    if t ≠ 0 then (.ack t, s1)
    else
      match rbSelftest s1 with
      | (t, s2) =>
        if t ≠ 0 then (.ack t, s2)
        else
          match fsSelftest s2 with
          | (.ok t, s3) => if s3.ma.halted then (.noAck, s3) else (.ack t, s3)
          | (_, s3) => (.noAck, s3)

/-- `EXEC_ReadEeprom` (43_mode_arbiter.md R257). -/
def runReadEeprom (v1 v2 : U32) (s : State) : CmdResult × State :=
  match eepromRead v1 v2 s with
  | (d, s1) => (.noAck, linkTx (Config.reply (s1.params.cmdCode .readEeprom) d) s1)

/-- `EXEC_GainSet` (43_mode_arbiter.md R251). -/
def runGainSet (v1 : U32) (s : State) : CmdResult × State :=
  (ackType .gainSet s, { s with pl := { s.pl with gain := gainOperand v1 } })

/-- The state a start command begins from: stopped first when acquiring
(43_mode_arbiter.md R252, R253). -/
def stopIfAcquiring (s : State) : State := if s.pl.acq then stopSampling s else s

/-- `EXEC_StartSamplingStorage` (43_mode_arbiter.md R253). -/
def runStartStorage (s : State) : CmdResult × State :=
  let s1 := stopIfAcquiring s
  if s1.ma.mode = .portIdle then
    match fsFormat false s1 with
    | (.ok (), s2) => (ackType .startStorage s2, enterStore (setMode .usbStore s2))
    | (_, s2) => (.noAck, s2)
  else (ackType .startStorage s1, enterStore (setMode .usbStore s1))

/-- `EXEC_StartSamplingLink` (43_mode_arbiter.md R252). -/
def runStartLink (s : State) : CmdResult × State :=
  let s1 := plBegin (setMode .stream (stopIfAcquiring s))
  (ackType .startLink s1, indicate .pulse s1)

/-- The stream loop of `EXEC_ReadStorageOverLink` from chunk `k` on. `fuel` bounds the chunks: every
one but the last takes `B` bytes, so `fs_len / B + 2` is enough (43_mode_arbiter.md R254, log 16). -/
def streamFile : Nat → Nat → State → State
  | 0, _, s => s
  | fuel + 1, k, s =>
    match fsRead s.params.blockBytes s with
    | (.ok d, s1) =>
      if d.isEmpty then s1 else streamFile fuel (k + 1) (linkTx (Config.fileChunk k d) s1)
    | (_, s1) => s1

/-- `EXEC_ReadStorageOverLink` (43_mode_arbiter.md R254). -/
def runReadStorage (v1 : U32) (s : State) : CmdResult × State :=
  match fsReopen (seqOperand v1) (stopSampling s) with
  | (.ok _, s1) =>
    (.noAck, (fsClose (streamFile (s1.fs.len / s1.params.blockBytes + 2) 0 s1)).2)
  | (_, s1) => (.noAck, s1)

/-- `EXEC_GetSampleCount` (43_mode_arbiter.md R258). -/
def runGetSampleCount (s : State) : CmdResult × State :=
  match drawSampleCount s with
  | (d, s1) => (.noAck, linkTx (Config.reply (s1.params.cmdCode .getSampleCount) d) s1)

/-- `EXEC_GetGitHash` (43_mode_arbiter.md R259). -/
def runGetGitHash (s : State) : CmdResult × State :=
  (.noAck, linkTx (Config.reply (s.params.cmdCode .getGitHash) Config.gitHash) s)

/-- The typed reply of GetRtc (43_mode_arbiter.md R260, 30_encoding.md R107). -/
def replyRtc (t : U32 × U32) (s : State) : State :=
  linkTx (Config.reply (s.params.cmdCode .getRtc) (le32 t.1 ++ le32 t.2)) s

/-- `EXEC_GetRtc` (43_mode_arbiter.md R260). -/
def runGetRtc (v1 : U32) (s : State) : CmdResult × State :=
  match fsReopen (seqOperand v1) (stopSampling s) with
  | (.ok _, s1) =>
    match fsRtcGet s1 with
    | (.ok t, s2) => (.noAck, replyRtc t s2)
    | (_, s2) => (.noAck, replyRtc (0, 0) s2)
  | (_, s1) => (.noAck, replyRtc (0, 0) s1)

/-- `EXEC_SetRtc` (43_mode_arbiter.md R262). -/
def runSetRtc (v1 v2 : U32) (s : State) : CmdResult × State :=
  (ackType .setRtc s, rtcSet (secondsOperand v1 v2) s)

/-- `EXEC_GetModePortable` (43_mode_arbiter.md R261). -/
def runGetModePortable (s : State) : CmdResult × State :=
  (.ack (if portable s then 1 else 0), s)

/-- The end of a command step: no reply from a block the command halted, else the acknowledgment,
which flushes the receive queue (43_mode_arbiter.md R240 to R243). -/
def finishCommand (c : Command) (r : CmdResult) (s : State) : State :=
  if s.ma.halted then answer .halted s
  else
    match r with
    | .ack b =>
      let s1 := linkTx (ackBytes (s.params.cmdCode c) b) s
      answer .done { s1 with ma := { s1.ma with rxQ := [] } }
    | .noAck => answer .done s

/-- Perform a command that has been taken off the receive queue (43_mode_arbiter.md R240). The mode
colour, if any, comes before the acknowledgment (R242, R248) and after every other output of the
command: its typed reply, its file chunks, its transfers (DESIGN CHOICE, log 9). -/
def perform (c : Command) (body : State → CmdResult × State) (s : State) : State :=
  if s.ma.halted then answer .noAnswer s
  else finishCommand c (body s).1 (showMode s.ma.mode (body s).2)

/-- `EXEC_cmd(v1, v2)` (43_mode_arbiter.md R250 to R263). -/
def runCommand (c : Command) (v1 v2 : U32) (s : State) : CmdResult × State :=
  match c with
  | .init => runInit s
  | .reset => runReset s
  | .selfTest => runSelfTest s
  | .readEeprom => runReadEeprom v1 v2 s
  | .gainSet => runGainSet v1 s
  | .startStorage => runStartStorage s
  | .startLink => runStartLink s
  | .readStorage => runReadStorage v1 s
  | .getSampleCount => runGetSampleCount s
  | .getGitHash => runGetGitHash s
  | .getRtc => runGetRtc v1 s
  | .setRtc => runSetRtc v1 v2 s
  | .getModePortable => runGetModePortable s

/-! ### Meanings of the commands: each is the command's performance by CP_STEP, its message already
taken off the queue (log 14) -/

/-- Init (43_mode_arbiter.md R250); both values are ignored. -/
def execCmdInit (v1 v2 : U32) (s : State) : Host.Outcome State Fault Refusal :=
  .next (perform .init (runCommand .init v1 v2) s)

/-- Reset (43_mode_arbiter.md R255); both values are ignored. -/
def execCmdReset (v1 v2 : U32) (s : State) : Host.Outcome State Fault Refusal :=
  .next (perform .reset (runCommand .reset v1 v2) s)

/-- SelfTest (43_mode_arbiter.md R263); both values are ignored. -/
def execCmdSelfTest (v1 v2 : U32) (s : State) : Host.Outcome State Fault Refusal :=
  .next (perform .selfTest (runCommand .selfTest v1 v2) s)

/-- ReadEeprom (43_mode_arbiter.md R257). -/
def execCmdReadEeprom (v1 v2 : U32) (s : State) : Host.Outcome State Fault Refusal :=
  .next (perform .readEeprom (runCommand .readEeprom v1 v2) s)

/-- GainSet (43_mode_arbiter.md R251). -/
def execCmdGainSet (v1 v2 : U32) (s : State) : Host.Outcome State Fault Refusal :=
  .next (perform .gainSet (runCommand .gainSet v1 v2) s)

/-- StartSamplingStorage (43_mode_arbiter.md R253); both values are ignored. -/
def execCmdStartStorage (v1 v2 : U32) (s : State) : Host.Outcome State Fault Refusal :=
  .next (perform .startStorage (runCommand .startStorage v1 v2) s)

/-- StartSamplingLink (43_mode_arbiter.md R252); both values are ignored. -/
def execCmdStartLink (v1 v2 : U32) (s : State) : Host.Outcome State Fault Refusal :=
  .next (perform .startLink (runCommand .startLink v1 v2) s)

/-- ReadStorageOverLink (43_mode_arbiter.md R254). -/
def execCmdReadStorage (v1 v2 : U32) (s : State) : Host.Outcome State Fault Refusal :=
  .next (perform .readStorage (runCommand .readStorage v1 v2) s)

/-- GetSampleCount (43_mode_arbiter.md R258); both values are ignored. -/
def execCmdGetSampleCount (v1 v2 : U32) (s : State) : Host.Outcome State Fault Refusal :=
  .next (perform .getSampleCount (runCommand .getSampleCount v1 v2) s)

/-- GetGitHash (43_mode_arbiter.md R259); both values are ignored. -/
def execCmdGetGitHash (v1 v2 : U32) (s : State) : Host.Outcome State Fault Refusal :=
  .next (perform .getGitHash (runCommand .getGitHash v1 v2) s)

/-- GetRtc (43_mode_arbiter.md R260). -/
def execCmdGetRtc (v1 v2 : U32) (s : State) : Host.Outcome State Fault Refusal :=
  .next (perform .getRtc (runCommand .getRtc v1 v2) s)

/-- SetRtc (43_mode_arbiter.md R262). -/
def execCmdSetRtc (v1 v2 : U32) (s : State) : Host.Outcome State Fault Refusal :=
  .next (perform .setRtc (runCommand .setRtc v1 v2) s)

/-- GetModePortable (43_mode_arbiter.md R261); both values are ignored. -/
def execCmdGetModePortable (v1 v2 : U32) (s : State) : Host.Outcome State Fault Refusal :=
  .next (perform .getModePortable (runCommand .getModePortable v1 v2) s)

/-! ### Events -/

/-- HOST appends a received message, any byte string, also to a halted block (10_state.md R38,
60_exceptions.md R310; log 15). -/
def hostAppend (m : Bytes) (s : State) : State :=
  answer .noAnswer { s with ma := { s.ma with rxQ := s.ma.rxQ ++ [m] } }

/-- A request that is no operation: recorded as the model fault, nothing performed
(30_encoding.md R116, 60_exceptions.md R321). -/
def refuseRequest (s : State) : State :=
  answer (.faulted .refusedRequest) (setFault .refusedRequest s)

/-- `CP_STEP()` (43_mode_arbiter.md R240). -/
def cpStep (s : State) : State :=
  if s.ma.halted then answer .noAnswer s
  else
    match s.ma.rxQ with
    | [] => answer .noOp s
    | m :: rest =>
      let s0 := { s with ma := { s.ma with rxQ := rest } }
      match decodeMessage s.params m with
      | none => answer .dropped s0
      | some (c, v1, v2) => perform c (runCommand c v1 v2) s0

/-- The blink count of a Press in `PortIdle`: the file just created, else `NextSeq()`
(43_mode_arbiter.md R270). -/
def blinkCurrent (s : State) : State :=
  if s.fs.isOpen then indicate (.blink s.fs.seq) s else blinkNext s

/-- `BTN_PRESS()` (43_mode_arbiter.md R270). -/
def btnPress (s : State) : State :=
  match s.ma.mode with
  | .portIdle => blinkCurrent (enterStore (setMode .portStore s))
  | .portStore => stopSampling s
  | .usbIdle => s
  | .usbStore => s
  | .stream => s

/-- `BTN_HOLD()` (43_mode_arbiter.md R271). -/
def btnHold (s : State) : State :=
  match fsFormat true (stopSampling s) with
  | (.ok (), s1) => indicate (.blink 1) (setMode .portIdle s1)
  | (_, s1) => s1

/-- `CP_STEP` from the command processor (43_mode_arbiter.md R240). -/
def execCpStep (s : State) : Host.Outcome State Fault Refusal :=
  .next (cpStep s)

/-- `BTN_PRESS` from the button (43_mode_arbiter.md R270). -/
def execBtnPress (s : State) : Host.Outcome State Fault Refusal :=
  .next (serveMode (fun s => (.ok, btnPress s)) s)

/-- `BTN_HOLD` from the button (43_mode_arbiter.md R271). -/
def execBtnHold (s : State) : Host.Outcome State Fault Refusal :=
  .next (serveMode (fun s => (.ok, btnHold s)) s)

/-- `STOP_SAMPLING` as a request (43_mode_arbiter.md R245). -/
def execStopSampling (s : State) : Host.Outcome State Fault Refusal :=
  .next (serveMode (fun s => (.ok, stopSampling s)) s)

/-- `EXT_RESET` from the reset input, also of a halted block (70_reset_and_hazards.md R344,
60_exceptions.md R311). -/
def execExtReset (s : State) : Host.Outcome State Fault Refusal :=
  .next (answer .ok (showMode s.ma.mode (warmReset s)))

end Sys2Proof.Machine
end

