-- ==== Sys2Proof/Machine/Dispatch.lean ====
section
/-! DEFINITION. One arm per operation: the meaning of each row of spec/opcode_table.json. -/

namespace Sys2Proof.Machine

def exec (i : Instr) (s : State) : Host.Outcome State Fault Refusal :=
  match i with
  | .cmdInit v1 v2 => Sys2Proof.Machine.execCmdInit v1 v2 s
  | .cmdReset v1 v2 => Sys2Proof.Machine.execCmdReset v1 v2 s
  | .cmdSelfTest v1 v2 => Sys2Proof.Machine.execCmdSelfTest v1 v2 s
  | .cmdReadEeprom v1 v2 => Sys2Proof.Machine.execCmdReadEeprom v1 v2 s
  | .cmdGainSet v1 v2 => Sys2Proof.Machine.execCmdGainSet v1 v2 s
  | .cmdStartStorage v1 v2 => Sys2Proof.Machine.execCmdStartStorage v1 v2 s
  | .cmdStartLink v1 v2 => Sys2Proof.Machine.execCmdStartLink v1 v2 s
  | .cmdReadStorage v1 v2 => Sys2Proof.Machine.execCmdReadStorage v1 v2 s
  | .cmdGetSampleCount v1 v2 => Sys2Proof.Machine.execCmdGetSampleCount v1 v2 s
  | .cmdGetGitHash v1 v2 => Sys2Proof.Machine.execCmdGetGitHash v1 v2 s
  | .cmdGetRtc v1 v2 => Sys2Proof.Machine.execCmdGetRtc v1 v2 s
  | .cmdSetRtc v1 v2 => Sys2Proof.Machine.execCmdSetRtc v1 v2 s
  | .cmdGetModePortable v1 v2 => Sys2Proof.Machine.execCmdGetModePortable v1 v2 s
  | .btnPress => Sys2Proof.Machine.execBtnPress s
  | .btnHold => Sys2Proof.Machine.execBtnHold s
  | .rbWrite data => Sys2Proof.Machine.execRbWrite data s
  | .tick => Sys2Proof.Machine.execTick s
  | .calDone => Sys2Proof.Machine.execCalDone s
  | .cpStep => Sys2Proof.Machine.execCpStep s
  | .extReset => Sys2Proof.Machine.execExtReset s
  | .rbInit => Sys2Proof.Machine.execRbInit s
  | .rbRead len => Sys2Proof.Machine.execRbRead len s
  | .rbSelftest => Sys2Proof.Machine.execRbSelftest s
  | .fsFormat portable => Sys2Proof.Machine.execFsFormat portable s
  | .fsOpen create seq => Sys2Proof.Machine.execFsOpen create seq s
  | .fsSeek pos => Sys2Proof.Machine.execFsSeek pos s
  | .fsWrite data => Sys2Proof.Machine.execFsWrite data s
  | .fsRead len => Sys2Proof.Machine.execFsRead len s
  | .fsRtcGet => Sys2Proof.Machine.execFsRtcGet s
  | .fsRtcSet seconds subseconds => Sys2Proof.Machine.execFsRtcSet seconds subseconds s
  | .fsClose => Sys2Proof.Machine.execFsClose s
  | .fsSizeGet => Sys2Proof.Machine.execFsSizeGet s
  | .fsBeginWrite data => Sys2Proof.Machine.execFsBeginWrite data s
  | .fsContinue => Sys2Proof.Machine.execFsContinue s
  | .fsSelftest => Sys2Proof.Machine.execFsSelftest s
  | .fsFlush => Sys2Proof.Machine.execFsFlush s
  | .plBegin => Sys2Proof.Machine.execPlBegin s
  | .plStop => Sys2Proof.Machine.execPlStop s
  | .plDrainLink => Sys2Proof.Machine.execPlDrainLink s
  | .plDrainStorage => Sys2Proof.Machine.execPlDrainStorage s
  | .stopSampling => Sys2Proof.Machine.execStopSampling s

end Sys2Proof.Machine
end

