-- ==== Sys2Proof/Machine/Fetch.lean ====
section
/-! DEFINITION. Reading the next request and placing one where the next step reads it
(spec/30_encoding.md R113, R120; 43_mode_arbiter.md R240). -/

namespace Sys2Proof.Machine

/-- What one input asks for (30_encoding.md R113, R116). -/
inductive Action where
  /-- HOST appends a message to the receive queue. -/
  | append (message : Bytes)
  /-- An operation is performed. -/
  | run (i : Instr)
  /-- The request is none of 30_encoding.md R114 and R115. -/
  | refuse (why : Reject)
  deriving DecidableEq, Repr

/-- A request byte string: a host message below 0x80, else an operation (30_encoding.md R113). -/
def actionOf (p : Params) (bytes : Bytes) : Action :=
  match bytes with
  | [] => .refuse .empty
  | c :: ops =>
    if isHostCode c then .append (c :: ops)
    else
      match decodeRequest p c ops with
      | .ok i => .run i
      | .error e => .refuse e

/-- The action of one input. -/
def inputAction (p : Params) (i : Input) : Action :=
  match i with
  | .host m => .append m
  | .request bytes => actionOf p bytes

/-- `s` with the operation whose bytes are `bytes` placed where the next step runs it: a host message
at the head of the receive queue with a `CP_STEP` request to perform it, any other operation as the
next request (log 14). -/
def placeRequest (bytes : Bytes) (s : State) : State :=
  match bytes with
  | [] => { s with inputs := .request [] :: s.inputs }
  | c :: ops =>
    if isHostCode c then
      { s with
        ma := { s.ma with rxQ := (c :: ops) :: s.ma.rxQ }
        inputs := .request [0x8B] :: s.inputs }
    else { s with inputs := .request (c :: ops) :: s.inputs }

end Sys2Proof.Machine
end

