-- ==== Sys2Proof/Machine/Step.lean ====
section
/-! DEFINITION. One step of the block: the next agent's request is performed as one atomic step
(spec/00_scope.md R8, 20_memory.md R84, 30_encoding.md R120). -/

namespace Sys2Proof.Machine

/-- One step. A faulted state is never final: the machine stops there with its fault
(10_state.md R49, log 4). With no request offered nothing changes: after boot the block waits for
requests (70_reset_and_hazards.md R342, log 1). -/
def step (s : State) : Host.Outcome State Fault Refusal :=
  match s.fault with
  | some f => .fault f
  | none =>
    match s.inputs with
    | [] => .next s
    | i :: rest =>
      match inputAction s.params i with
      | .append m => .next (hostAppend m { s with inputs := rest })
      | .run op => exec op { s with inputs := rest }
      | .refuse _ => .next (refuseRequest { s with inputs := rest })

/-- `s` with the operation of an opcode-table number placed where the next step runs it (log 14). -/
def State.withFetchWord (s : State) (nbits w : Nat) : State :=
  placeRequest (tableBytes s.params nbits w) s

end Sys2Proof.Machine
end

