-- ==== Sys2Proof/Safety.lean ====
section
/-! DEFINITION. What the statements speak in: the bytes of the two memories, the unread bytes of the
ring, the answers the environment will give, and the invariants (spec/10_state.md R22 to R25, R31,
R32, R41, R42; 43_mode_arbiter.md R244). -/

namespace Sys2Proof.Machine

/-! ### One byte of memory -/

/-- The byte at offset `a` of the backing store (20_memory.md R78). -/
def storeByte (s : State) (a : Nat) : Byte := (s.store.read? a).getD (Config.storePor a)

/-- The byte of the medium at byte address `a`: byte `a mod B` of block `a div B`
(10_state.md R44). -/
def mediumByte (s : State) (a : Nat) : Byte := (s.med.cells.read? a).getD (Config.mediumPor a)

/-- Outside the block `i` every byte of the medium is the same in `s` and `t`. -/
def sameOutsideBlock (i : Nat) (s t : State) : Prop :=
  ∀ a, a < i * s.params.blockBytes ∨ (i + 1) * s.params.blockBytes ≤ a →
    mediumByte t a = mediumByte s a

/-- The unread bytes of the ring, oldest first (20_memory.md R73, R85). -/
def ringBytes (s : State) : Bytes :=
  (List.range (used s)).map fun i => storeByte s ((s.ring.r + i) % s.params.ringCapacity)

/-! ### The environment's answers to come -/

/-- The answer that draw number `k` from now on takes, scripted or free (log 2). -/
def Tape.peek {α : Type} (t : Tape α) (free : Nat → α) (k : Nat) : α :=
  (t.script[k]?).getD (free (t.taken + k))

/-- The tape after `n` draws. -/
def Tape.advance {α : Type} (t : Tape α) (n : Nat) : Tape α := ⟨t.script.drop n, t.taken + n⟩

/-- The medium answers `Ok` to the next `n` operations that ask it (20_memory.md R79, R80). -/
def mediumAnswersOk (n : Nat) (s : State) : Prop :=
  ∀ k < n, s.env.mediumOk.peek Config.freeMediumOk k = true

/-- The state's environment after `n` answers of the medium. -/
def mediumTaken (n : Nat) (s : State) : Env :=
  { s.env with mediumOk := s.env.mediumOk.advance n }

/-- The block draws left once the medium has ended an abandoned pipelined write (20_memory.md R81). -/
def abandonedTape (s : State) : Tape Bytes :=
  if s.med.busy then s.env.block.advance 1 else s.env.block

/-- The medium of `t` is the medium of `s` after the end of its abandoned pipelined write, if one was
outstanding: the write's block holds the drawn content (20_memory.md R81; log 20, log 23). -/
def abandonedEnded (s t : State) : Prop :=
  if s.med.busy then
    blockAt t s.med.target = fit s.params.blockBytes (s.env.block.peek Config.freeBlock 0) ∧
      sameOutsideBlock s.med.target s t
  else t.med.cells = s.med.cells

/-- The indicator events of a step that starts in `s` and ends in mode `m`: the mode colour, if the
mode changed and the draw says so (43_mode_arbiter.md R248; where it stands among the step's other
outputs is the model's, log 9). -/
def colorEvents (s : State) (m : Mode) : List Event :=
  if s.ma.mode = m then []
  else if s.env.color.peek Config.freeColor 0 then [.ind (.setColor (Config.color m))] else []

/-- The colour draws left after a step that starts in `s` and ends in mode `m`. -/
def colorTaken (s : State) (m : Mode) : Tape Bool :=
  if s.ma.mode = m then s.env.color else s.env.color.advance 1

/-! ### Requests and messages -/

/-- The request codes of 30_encoding.md R114 and R115. -/
def listedCodes : List Nat :=
  [0x80, 0x81, 0x88, 0x89, 0x8A, 0x8B, 0x8F, 0x90, 0x91, 0x92,
   0xA0, 0xA1, 0xA2, 0xA3, 0xA4, 0xA5, 0xA6, 0xA7, 0xA8, 0xA9, 0xAA, 0xAB, 0xAC,
   0xB0, 0xB1, 0xB2, 0xB3, 0xB4]

/-- How many operand bytes the row of a code requires; for the two rows with a length operand that
many and the data it announces (30_encoding.md R114, R115). -/
def operandBytes (p : Params) (code : Nat) (ops : Bytes) : Nat :=
  if code = 0x88 ∨ code = 0xA3 then 2 + leNat (ops.take 2)
  else if code = 0x91 ∨ code = 0xA4 then 2
  else if code = 0xA0 then 1
  else if code = 0xA1 then 5
  else if code = 0xA2 then 4
  else if code = 0xA6 then 8
  else if code = 0xA9 then p.blockBytes
  else 0

/-- A request that 30_encoding.md R116 refuses: a code that is not listed, a wrong number of operand
bytes, or a flag operand that is neither 0 nor 1. -/
def illegalRequest (p : Params) (code : Byte) (ops : Bytes) : Prop :=
  code.toNat ∉ listedCodes ∨ ops.length ≠ operandBytes p code.toNat ops ∨
    ((code = 0xA0 ∨ code = 0xA1) ∧ ops.head? ≠ some 0 ∧ ops.head? ≠ some 1)

/-- A received byte string that is a well-formed message of command `c` (30_encoding.md R101). -/
def isMessageOf (p : Params) (c : Command) (m : Bytes) : Prop :=
  m.head? = some (p.cmdCode c) ∧ m.length = 1 + p.v1Bytes c + p.v2Bytes c

/-- The operations that only a test harness asks for (30_encoding.md R113, R115); the block takes
`FS_FLUSH` on its own as well (41_log_filesystem.md R176). -/
def isHarness (i : Instr) : Bool :=
  match i with
  | .cmdInit _ _ => false
  | .cmdReset _ _ => false
  | .cmdSelfTest _ _ => false
  | .cmdReadEeprom _ _ => false
  | .cmdGainSet _ _ => false
  | .cmdStartStorage _ _ => false
  | .cmdStartLink _ _ => false
  | .cmdReadStorage _ _ => false
  | .cmdGetSampleCount _ _ => false
  | .cmdGetGitHash _ _ => false
  | .cmdGetRtc _ _ => false
  | .cmdSetRtc _ _ => false
  | .cmdGetModePortable _ _ => false
  | .btnPress => false
  | .btnHold => false
  | .rbWrite _ => false
  | .tick => false
  | .calDone => false
  | .cpStep => false
  | .extReset => false
  | .rbInit => true
  | .rbRead _ => true
  | .rbSelftest => true
  | .fsFormat _ => true
  | .fsOpen _ _ => true
  | .fsSeek _ => true
  | .fsWrite _ => true
  | .fsRead _ => true
  | .fsRtcGet => true
  | .fsRtcSet _ _ => true
  | .fsClose => true
  | .fsSizeGet => true
  | .fsBeginWrite _ => true
  | .fsContinue => true
  | .fsSelftest => true
  | .fsFlush => false
  | .plBegin => true
  | .plStop => true
  | .plDrainLink => true
  | .plDrainStorage => true
  | .stopSampling => true

/-! ### Events of an operation -/

/-- The transfers of a ring write of `data` at cursor `w` (20_memory.md R77). -/
def writeTransfers (capacity w : Nat) (data : Bytes) : List Event :=
  if data = [] then []
  else if data.length ≤ capacity - w then [.memWrite w data]
  else [.memWrite w (data.take (capacity - w)), .memWrite 0 (data.drop (capacity - w))]

/-- The transfers of a ring read at cursor `r` that answers `data` (20_memory.md R77). -/
def readTransfers (capacity r : Nat) (data : Bytes) : List Event :=
  if data = [] then []
  else if data.length ≤ capacity - r then [.memRead r data.length data]
  else [.memRead r (capacity - r) (data.take (capacity - r)),
        .memRead 0 (data.length - (capacity - r)) (data.drop (capacity - r))]

/-- The byte strings handed to the link transmitter, in order (60_exceptions.md R330). -/
def linkOutput (events : List Event) : List Bytes :=
  events.filterMap fun e =>
    match e with
    | .linkTx d => some d
    | .ind _ => none
    | .rtcSet _ => none
    | .eepromRead _ _ _ => none
    | .memWrite _ _ => none
    | .memRead _ _ _ => none
    | .blkRead _ _ => none
    | .blkWrite _ _ _ => none
    | .blkBegin _ _ _ => none
    | .blkStep _ => none

/-! ### Files -/

/-- How many data blocks `n` bytes from file offset `o` touch (41_log_filesystem.md R164). -/
def touchedBlocks (p : Params) (o n : Nat) : Nat :=
  if n = 0 then 0 else (o + n - 1) / p.blockBytes + 1 - o / p.blockBytes

/-- The `n` bytes at offset `o` of the file whose FileStartBlock is block `start`
(41_log_filesystem.md R164). -/
def fileBytes (s : State) (start o n : Nat) : Bytes :=
  (List.range n).map fun i => mediumByte s ((start + 1) * s.params.blockBytes + o + i)

/-- Every block that `n` bytes at offset `o` of that file touch is on the medium. -/
def fileOnMedium (p : Params) (start o n : Nat) : Prop :=
  n ≠ 0 → start + 1 + (o + n - 1) / p.blockBytes < p.mediumBlocks

/-- The format iteration that `FS_FORMAT` writes next (41_log_filesystem.md R162). -/
def nextIteration (s : State) : U32 :=
  let d := blockAt s s.params.sbBlock
  if superblockValid s.params d then superblockIter d + 1 else 1

/-- The start block and the sequence number of the next file after the chain `c`
(41_log_filesystem.md R163). -/
def nextFile (p : Params) (c : List (Nat × Fsb)) : Nat × U32 :=
  match c.getLast? with
  | none => (p.firstFileBlock, 1)
  | some (b, f) => (b + 1 + (f.byteLen.toNat + p.blockBytes - 1) / p.blockBytes, f.seq + 1)

/-- The walk of iteration `iter` takes no file at block `b` after the file `prev`, if there was one: the
block is not on the medium, is of another iteration, or its sequence number does not rise
(41_log_filesystem.md R161). -/
def walkStops (iter : U32) (s : State) (prev : Option Fsb) (b : Nat) : Prop :=
  s.params.mediumBlocks ≤ b ∨ (decodeFsb (blockAt s b)).iteration ≠ iter ∨
    ∃ f, prev = some f ∧ (decodeFsb (blockAt s b)).seq ≤ f.seq

/-- `c` is what the medium of `s` holds of the chain of iteration `iter` from block `b` on, after the
file `prev`: each entry is the FileStartBlock at its block, the next one stands at its forward link, and
the chain ends where 41_log_filesystem.md R161 says. -/
def chainFromBlock (iter : U32) (s : State) :
    Option Fsb → Nat → List (Nat × Fsb) → Prop
  | prev, b, [] => walkStops iter s prev b
  | prev, b, (i, f) :: c =>
    i = b ∧ f = decodeFsb (blockAt s b) ∧ ¬ walkStops iter s prev b ∧
      if f.next = nextNone ∨ f.next.toNat ≤ b then c = []
      else chainFromBlock iter s (some f) f.next.toNat c

/-- `c` is the chain of iteration `iter` on the medium of `s` (41_log_filesystem.md R161). -/
def chainOnMedium (iter : U32) (s : State) (c : List (Nat × Fsb)) : Prop :=
  chainFromBlock iter s none s.params.firstFileBlock c

/-- What `NextSeq()` answers, and the state after it, in terms of the opening of a state with no open
file: the number of the next file, 1 without a valid superblock, a drawn count after a failed read
(43_mode_arbiter.md R246). -/
def nextCount (s : State) : U32 × State :=
  match openChain s with
  | (.ok (_, c), u) => ((nextFile u.params c).2, u)
  | (.err .noExistingFile, u) => (1, u)
  | (_, u) =>
    (u.env.seq.peek Config.freeSeq 0, { u with env := { u.env with seq := u.env.seq.advance 1 } })

/-- The error slot after an operation with this status, its error recorded where it is one of the medium
(60_exceptions.md R305). -/
def errorAfter (before : Err) (status : Status) : Err :=
  match status with
  | .raised .sdRead => .sdRead
  | .raised .sdWrite => .sdWrite
  | .raised .formatFailure => .formatFailure
  | _ => before

/-! ### Safe runs and invariants -/

/-- A run is safe as long as no model fault is recorded (60_exceptions.md R320). -/
abbrev State.safe (s : State) : Prop := s.fault = none

/-- The ring's registers are in their ranges and the ring is bound and not over-full
(10_state.md R22 to R25). -/
structure RingInv (s : State) : Prop where
  bound : s.ring.bound = true
  w_lt : s.ring.w < s.params.ringCapacity
  r_lt : s.ring.r < s.params.ringCapacity
  used_le : used s ≤ s.params.ringCapacity

/-- What every step keeps: legal parameters, the ring's ranges, the counters' widths, the canonical
form of both memories, an outstanding write that is a block of the medium, and the relations between
the file registers and between the halt and the error slot. -/
structure State.Inv (s : State) : Prop where
  params : s.params.Valid
  ring : RingInv s
  linkSeq_lt : s.pl.linkSeq < 2 ^ s.params.linkSeqBits
  blkIdx_lt : s.pl.blkIdx < 2 ^ s.params.blkIdxBits
  store_wf : Memory.wf s.params.ringCapacity s.store
  medium_wf : Memory.wf (s.params.mediumBlocks * s.params.blockBytes) s.med.cells
  busy_block : s.med.busy = true →
    s.med.target < s.params.mediumBlocks ∧ s.med.data.length = s.params.blockBytes
  rdPos_le : s.fs.rdPos ≤ s.fs.len
  start_lt : s.fs.isOpen = true → s.fs.start.toNat < s.params.mediumBlocks
  dirty_open : s.fs.dirty = true → s.fs.isOpen = true
  halted_error : s.ma.halted = true → s.ma.lastError = .formatFailure

/-- The mode invariant of 43_mode_arbiter.md R244: acquisition runs in a store mode, and only in
`Stream` and the store modes. -/
structure ModeInv (s : State) : Prop where
  store_acquires : s.ma.mode = .usbStore ∨ s.ma.mode = .portStore → s.pl.acq = true
  acquires_mode : s.pl.acq = true →
    s.ma.mode = .stream ∨ s.ma.mode = .usbStore ∨ s.ma.mode = .portStore
  idle_stopped : s.ma.mode = .usbIdle ∨ s.ma.mode = .portIdle → s.pl.acq = false

end Sys2Proof.Machine
end

