-- ==== Sys2Proof/Certificates/Slice0/Obligations.lean ====
section
/-! DEFINITION. The statements for the provers. A `.next` conclusion gives the whole next state as an
update of the state before, so that every field it does not name is unchanged. -/

open Sys2Proof Sys2Proof.Machine

/-! ### Steps, requests and messages -/

/-- A step at a request that decodes to an operation performs that operation, with the request taken
off the list (30_encoding.md R113, R120). -/
def Obligations.StepRunsDecodedRequest : Prop :=
  ∀ (s : State) (code : Byte) (ops : Bytes) (rest : List Input) (i : Instr),
    s.fault = none → s.inputs = .request (code :: ops) :: rest → 0x80 ≤ code.toNat →
    decode s.params (code :: ops) = .ok i →
    step s = exec i { s with inputs := rest }

/-- `CP_STEP` performs the command of the message at the head of the receive queue, which it takes
off, and completes (43_mode_arbiter.md R240); on an empty queue it does nothing. -/
def Obligations.CpStepPerformsHeadMessage : Prop :=
  (∀ (s : State) (m : Bytes) (q : List Bytes) (c : Command) (v1 v2 : U32),
    s.ma.halted = false → s.ma.rxQ = m :: q → decodeMessage s.params m = some (c, v1, v2) →
    ∃ t, exec .cpStep s = .next t ∧
      exec (c.toInstr v1 v2) { s with ma := { s.ma with rxQ := q } } = .next t) ∧
  (∀ s : State, s.ma.halted = false → s.ma.rxQ = [] →
    exec .cpStep s = .next { s with status := .noOp })

/-- The steps that perform no operation. A message from HOST, any byte string, and a request whose code
is below 0x80 are appended to the receive queue, also of a halted block (30_encoding.md R113,
60_exceptions.md R310); with no request the block waits (log 1); a recorded model fault stops the
machine (10_state.md R49; that `step` raises it is the model's choice, log 4). -/
def Obligations.StepWithoutOperation : Prop :=
  (∀ (s : State) (rest : List Input) (m : Bytes), s.fault = none → s.inputs = .host m :: rest →
    step s = .next { s with
      inputs := rest, ma := { s.ma with rxQ := s.ma.rxQ ++ [m] }, status := .noAnswer }) ∧
  (∀ (s : State) (rest : List Input) (code : Byte) (vs : Bytes), s.fault = none →
    s.inputs = .request (code :: vs) :: rest → code.toNat < 0x80 →
    step s = .next { s with
      inputs := rest, ma := { s.ma with rxQ := s.ma.rxQ ++ [code :: vs] }, status := .noAnswer }) ∧
  (∀ s : State, s.fault = none → s.inputs = [] → step s = .next s) ∧
  (∀ (s : State) (f : Fault), s.fault = some f → step s = .fault f)

/-- 30_encoding.md R116: an illegal request sets `RefusedRequest` and performs nothing; a host
message is never refused. -/
def Obligations.IllegalRequestIsRefused : Prop :=
  (∀ (s : State) (code : Byte) (ops : Bytes) (rest : List Input),
    s.fault = none → s.inputs = .request (code :: ops) :: rest → 0x80 ≤ code.toNat →
    illegalRequest s.params code ops →
    step s = .next { s with
      inputs := rest, fault := some .refusedRequest, status := .faulted .refusedRequest }) ∧
  (∀ (s t : State) (code : Byte) (ops : Bytes) (rest : List Input),
    s.fault = none → s.inputs = .request (code :: ops) :: rest → code.toNat < 0x80 →
    step s = .next t → t.fault = none)

/-- Words of 30_encoding.md R100, R114, R115 and R119 decode to the operations they stand for, under
the spec default parameters (log 3). -/
def Obligations.SampleWordsDecode : Prop :=
  decode Params.default [0x88, 0x03, 0x00, 0x01, 0x02, 0x03] = .ok (.rbWrite [1, 2, 3]) ∧
  decode Params.default [0xA1, 0x01, 0x00, 0x00, 0x00, 0x00] = .ok (.fsOpen true 0) ∧
  decode Params.default [0xA2, 0x28, 0x00, 0x00, 0x01] = .ok (.fsSeek 0x01000028) ∧
  decode Params.default [0x0B, 0x01, 0x00, 0x02, 0x01] = .ok (.cmdSetRtc 1 0x0102) ∧
  decode Params.default [0xB2] = .ok .plDrainLink ∧
  decode Params.default [0x80] = .ok .btnPress

/-- Decoding the encoding of a well-formed operation gives it back, whatever the parameters. -/
def Obligations.DecodeOfEncode : Prop :=
  ∀ (p : Params) (i : Instr), p.Valid → i.wellFormed p = true → decode p (encode p i) = .ok i

/-- A byte string that decodes is the encoding of the operation it decodes to, which is well
formed: no two byte strings stand for one operation. -/
def Obligations.EncodeOfDecode : Prop :=
  ∀ (p : Params) (bs : Bytes) (i : Instr), decode p bs = .ok i →
    i.wellFormed p = true ∧ encode p i = bs

/-- 30_encoding.md R101: which byte strings are well-formed messages, and that the command processor
drops every other one without any effect. -/
def Obligations.MalformedMessageIsDropped : Prop :=
  ∀ (s : State) (m : Bytes) (q : List Bytes), s.params.Valid →
    (∀ c : Command, (∃ v1 v2, decodeMessage s.params m = some (c, v1, v2)) ↔
      isMessageOf s.params c m) ∧
    (s.ma.halted = false → s.ma.rxQ = m :: q → (∀ c : Command, ¬ isMessageOf s.params c m) →
      exec .cpStep s = .next { s with ma := { s.ma with rxQ := q }, status := .dropped })

/-! ### Reset, halt and invariants -/

/-- The state after reset meets both invariants. -/
def Obligations.ResetMeetsInvariants : Prop :=
  State.Inv State.reset ∧ ModeInv State.reset

/-- Every step keeps the invariant, from every state that has it. -/
def Obligations.StepKeepsInv : Prop :=
  ∀ s t : State, s.Inv → step s = .next t → t.Inv

/-- The mode invariant of 43_mode_arbiter.md R244 is kept by every operation but the ones only a
test harness asks for. -/
def Obligations.ArbiterKeepsModeInv : Prop :=
  ∀ (i : Instr) (s t : State), s.params.Valid → isHarness i = false → ModeInv s →
    exec i s = .next t → ModeInv t

/-- The values after power-on reset and boot, and after the warm reset that `EXT_RESET` performs in
every state, halted or not: no reply, the two memories, the medium's outstanding write, the history
and the model fault untouched (10_state.md R50, 70_reset_and_hazards.md R343, R344). That the file
registers without a reset value stay is the model's choice (log 6), and so is the place of the mode
colour, if any, in the history (log 9). -/
def Obligations.ResetValues : Prop :=
  (State.reset.ring = ⟨true, 0, false, 0, false⟩ ∧
    State.reset.pl = ⟨false, .calibrating, State.reset.params.gainDefault, Config.minGain, .gnd,
      .gndRef, 0, 0, .idle⟩ ∧
    State.reset.ma = ⟨.usbIdle, false, .noError, false, []⟩ ∧
    State.reset.fs.isOpen = false ∧ State.reset.fs.dirty = false ∧
    State.reset.out = [] ∧ State.reset.fault = none) ∧
  ∀ s : State, exec .extReset s = .next { s with
    ring := ⟨true, 0, false, 0, false⟩
    pl := ⟨false, .calibrating, s.params.gainDefault, Config.minGain, .gnd, .gndRef, 0, 0, .idle⟩
    ma := ⟨.usbIdle, false, s.ma.lastError, false, []⟩
    fs := { s.fs with isOpen := false, dirty := false }
    env := { s.env with color := colorTaken s .usbIdle }
    out := s.out ++ colorEvents s .usbIdle
    status := .ok }

/-- 60_exceptions.md R310, R311: a halted block performs no request but the external reset, which
leaves the halt as the power-on reset does; the next Init reports the format failure. That a request
to a halted block answers `noAnswer` is the model's choice (log 17). -/
def Obligations.HaltEndsOnlyByReset : Prop :=
  (∀ (i : Instr) (s : State), i ≠ .extReset → s.ma.halted = true →
    exec i s = .next { s with status := .noAnswer }) ∧
  (∀ s : State, ∃ t, exec .extReset s = .next t ∧ t.ma.halted = false ∧
    t.ma.lastError = s.ma.lastError) ∧
  State.reset.ma.halted = false ∧
  (∀ (s t : State) (v1 v2 : U32), s.Inv → s.ma.halted = true → exec .extReset s = .next t →
    ∃ u, exec (.cmdInit v1 v2) t = .next u ∧
      u.out = t.out ++
        [.linkTx [s.params.cmdCode .init, s.params.errCode .formatFailure]])

/-- What no operation does: edit the output history (10_state.md R47), clear a recorded model fault
(R49), change the parameters or the requests still to come. -/
def Obligations.HistoryOnlyGrows : Prop :=
  ∀ (i : Instr) (s t : State), exec i s = .next t →
    s.out <+: t.out ∧ (s.fault.isSome = true → t.fault.isSome = true) ∧
    t.params = s.params ∧ t.inputs = s.inputs

/-! ### Ring buffer -/

/-- `RB_INIT` binds and empties the ring and issues no transfer (40_ring_buffer.md R140). -/
def Obligations.RbInitEmptiesRing : Prop :=
  ∀ s : State, s.ma.halted = false →
    exec .rbInit s = .next { s with ring := ⟨true, 0, false, 0, false⟩, status := .ok } ∧
    used { s with ring := ⟨true, 0, false, 0, false⟩, status := .ok } = 0

/-- `RB_WRITE` of bytes that fit: byte `i` goes to offset `(rb_w + i) mod C`, every other byte of the
store stays, only the write cursor moves (40_ring_buffer.md R141, 20_memory.md R73, R77). -/
def Obligations.RbWriteStoresBytes : Prop :=
  ∀ (s : State) (data : Bytes), RingInv s → s.ma.halted = false → data.length ≤ Machine.free s →
    ∃ t, exec (.rbWrite data) s = .next t ∧
      t = { s with
        ring := { s.ring with
          w := (s.ring.w + data.length) % s.params.ringCapacity
          wp := if s.params.ringCapacity ≤ s.ring.w + data.length then !s.ring.wp else s.ring.wp }
        store := t.store
        out := s.out ++ writeTransfers s.params.ringCapacity s.ring.w data
        status := .ok } ∧
      used t = used s + data.length ∧
      (∀ i < data.length,
        storeByte t ((s.ring.w + i) % s.params.ringCapacity) = data.getD i 0) ∧
      (∀ a, (∀ i < data.length, a ≠ (s.ring.w + i) % s.params.ringCapacity) →
        storeByte t a = storeByte s a)

/-- `RB_READ` of bytes that are there returns the oldest unread bytes; only the read cursor moves
(40_ring_buffer.md R142, 20_memory.md R73, R77). -/
def Obligations.RbReadReturnsBytes : Prop :=
  ∀ (s : State) (n : U16), RingInv s → s.ma.halted = false → n.toNat ≤ used s →
    ∃ t, exec (.rbRead n) s = .next t ∧
      t = { s with
        ring := { s.ring with
          r := (s.ring.r + n.toNat) % s.params.ringCapacity
          rp := if s.params.ringCapacity ≤ s.ring.r + n.toNat then !s.ring.rp else s.ring.rp }
        out := s.out ++
          readTransfers s.params.ringCapacity s.ring.r ((ringBytes s).take n.toNat)
        status := .okBytes ((ringBytes s).take n.toNat) } ∧
      used t = used s - n.toNat

/-- 40_ring_buffer.md R145: an overflowing write and an underflowing read leave the cursors and the
store unchanged, issue no transfer, and fail the same way when repeated. -/
def Obligations.FailingRingAccessChangesNothing : Prop :=
  ∀ s : State, s.ma.halted = false → s.ring.bound = true →
    (∀ data : Bytes, Machine.free s < data.length →
      exec (.rbWrite data) s = .next { s with status := .raised .overflow } ∧
      exec (.rbWrite data) { s with status := .raised .overflow } =
        .next { s with status := .raised .overflow }) ∧
    (∀ n : U16, used s < n.toNat →
      exec (.rbRead n) s = .next { s with status := .raised .underflow } ∧
      exec (.rbRead n) { s with status := .raised .underflow } =
        .next { s with status := .raised .underflow })

/-- 40_ring_buffer.md R144: a byte string of at most `C` bytes written to an empty ring is read back
whole, and both cursors advance by its length modulo `C`. -/
def Obligations.RingRoundTrip : Prop :=
  ∀ (s : State) (data : Bytes), RingInv s → used s = 0 → data.length ≤ s.params.ringCapacity →
    ∃ t u, rbWrite data s = (.ok (), t) ∧ rbRead data.length t = (.ok data, u) ∧
      u.ring.w = (s.ring.w + data.length) % s.params.ringCapacity ∧
      u.ring.r = (s.ring.r + data.length) % s.params.ringCapacity

/-- The ring refines a queue of bytes: a write that fits appends, a read that is served takes from
the front, `RB_INIT` empties (20_memory.md R85). -/
def Obligations.RingIsFifo : Prop :=
  ∀ s : State, RingInv s → s.ma.halted = false →
    (∀ data : Bytes, data.length ≤ Machine.free s →
      ∃ t, exec (.rbWrite data) s = .next t ∧ RingInv t ∧ ringBytes t = ringBytes s ++ data) ∧
    (∀ n : U16, n.toNat ≤ used s →
      ∃ t, exec (.rbRead n) s = .next t ∧ RingInv t ∧
        t.status = .okBytes ((ringBytes s).take n.toNat) ∧
        ringBytes t = (ringBytes s).drop n.toNat) ∧
    (∃ t, exec .rbInit s = .next t ∧ RingInv t ∧ ringBytes t = [])

/-- `RB_SELFTEST` passes and leaves the ring empty at offset 0, whatever the backing store held
(40_ring_buffer.md R143). -/
def Obligations.RbSelftestPasses : Prop :=
  ∀ s : State, s.ma.halted = false → 1 ≤ s.params.ringCapacity →
    ∃ t, exec .rbSelftest s = .next t ∧
      t = { s with
        ring := ⟨true, 0, false, 0, false⟩, store := t.store, out := t.out, status := .code 0 } ∧
      (∀ a, s.params.ringCapacity ≤ a → storeByte t a = storeByte s a)

/-- The model faults of 60_exceptions.md R320 that an operation records, each with no other effect. -/
def Obligations.ModelFaultsAreRecorded : Prop :=
  ∀ s : State, s.ma.halted = false →
    (∀ data : Bytes, s.ring.bound = false →
      exec (.rbWrite data) s =
        .next { s with fault := some .rbUnbound, status := .faulted .rbUnbound }) ∧
    (∀ n : U16, s.ring.bound = false →
      exec (.rbRead n) s =
        .next { s with fault := some .rbUnbound, status := .faulted .rbUnbound }) ∧
    (∀ data : Bytes, s.fs.isOpen = true → s.fs.kind = .reopened →
      exec (.fsWrite data) s = .next { s with
        fault := some .appendToReopenedFile, status := .faulted .appendToReopenedFile } ∧
      exec (.fsBeginWrite data) s = .next { s with
        fault := some .appendToReopenedFile, status := .faulted .appendToReopenedFile }) ∧
    (∀ data : Bytes, s.fs.isOpen = true → s.fs.kind = .created →
      s.fs.len % s.params.blockBytes ≠ 0 →
      exec (.fsBeginWrite data) s = .next { s with
        fault := some .misalignedAppend, status := .faulted .misalignedAppend })

/-- `used` against the cursors (10_state.md R25): it is `(W - Rx) mod 2C`, it is the source's
`(rb_w - rb_r) mod C` unless the ring is full, full means equal cursors and unequal phases, empty
means equal extended cursors. -/
def Obligations.UsedAgreesWithCursors : Prop :=
  ∀ s : State, RingInv s →
    (used s : Int) = ((extW s : Int) - extR s) % (2 * s.params.ringCapacity) ∧
    (used s < s.params.ringCapacity →
      (used s : Int) = ((s.ring.w : Int) - s.ring.r) % s.params.ringCapacity) ∧
    (used s = s.params.ringCapacity ↔ s.ring.w = s.ring.r ∧ s.ring.wp ≠ s.ring.rp) ∧
    (used s = 0 ↔ extW s = extR s)

/-! ### Log filesystem -/

/-- An outstanding pipelined write that the block abandoned is ended by the medium before any other
medium operation: its block gets a drawn content (20_memory.md R81). That its end is no event of the
history, and that a drawn content is cut or filled up to `B` bytes, are the model's (log 23, log 20). -/
def Obligations.AbandonedWriteEndsFirst : Prop :=
  ∀ (s : State) (i : Nat) (d : Bytes), s.med.busy = true →
    ∃ t : State,
      t = { s with
        med := { s.med with cells := t.med.cells, busy := false }
        env := { s.env with block := s.env.block.advance 1 } } ∧
      blockAt t s.med.target = fit s.params.blockBytes (s.env.block.peek Config.freeBlock 0) ∧
      sameOutsideBlock s.med.target s t ∧
      blkRead i s = blkRead i t ∧ blkWrite i d s = blkWrite i d t ∧ blkBegin i d s = blkBegin i d t

/-- `FS_FORMAT` on a medium that answers: the superblock of the next iteration is written to its
block, any open file is dropped unflushed (41_log_filesystem.md R162, 30_encoding.md R110). -/
def Obligations.FormatWritesSuperblock : Prop :=
  ∀ (s : State) (portable : Bool), s.params.Valid → s.ma.halted = false → s.med.busy = false →
    mediumAnswersOk 2 s →
    let p := s.params
    let sb := p.magic ++ leBytes 4 p.fsVersion.toNat ++ leBytes 4 (nextIteration s).toNat ++
      [if portable then 1 else 0] ++ zeros (p.blockBytes - 17)
    ∃ t, exec (.fsFormat portable) s = .next t ∧
      t = { s with
        fs := { s.fs with isOpen := false, dirty := false }
        med := { s.med with cells := t.med.cells }
        env := mediumTaken 2 s
        out := s.out ++
          [.blkRead p.sbBlock (some (blockAt s p.sbBlock)), .blkWrite p.sbBlock sb true]
        status := .ok } ∧
      blockAt t p.sbBlock = sb ∧ sameOutsideBlock p.sbBlock s t

/-- A failed format drops the open file, records `FormatFailure` and halts the block
(41_log_filesystem.md R162, 60_exceptions.md R310): on a failed superblock read nothing is written,
on a failed write the superblock's block holds a drawn content, of `B` bytes (log 20). -/
def Obligations.FormatFailureHalts : Prop :=
  ∀ (s : State) (portable : Bool), s.params.Valid → s.ma.halted = false → s.med.busy = false →
    (s.env.mediumOk.peek Config.freeMediumOk 0 = false →
      exec (.fsFormat portable) s = .next { s with
        fs := { s.fs with isOpen := false, dirty := false }
        ma := { s.ma with lastError := .formatFailure, halted := true }
        env := mediumTaken 1 s
        out := s.out ++ [.blkRead s.params.sbBlock none]
        status := .raised .formatFailure }) ∧
    (s.env.mediumOk.peek Config.freeMediumOk 0 = true →
      s.env.mediumOk.peek Config.freeMediumOk 1 = false →
      ∃ t, exec (.fsFormat portable) s = .next t ∧
        t = { s with
          fs := { s.fs with isOpen := false, dirty := false }
          ma := { s.ma with lastError := .formatFailure, halted := true }
          med := { s.med with cells := t.med.cells }
          env := { mediumTaken 2 s with block := s.env.block.advance 1 }
          out := s.out ++
            [.blkRead s.params.sbBlock (some (blockAt s s.params.sbBlock)),
             .blkWrite s.params.sbBlock (superblock s.params (nextIteration s) portable) false]
          status := .raised .formatFailure } ∧
        blockAt t s.params.sbBlock =
          fit s.params.blockBytes (s.env.block.peek Config.freeBlock 0) ∧
        sameOutsideBlock s.params.sbBlock s t)

/-- The chain that a walk returns is the one on the medium (41_log_filesystem.md R161): its head at the
first file block, each entry the FileStartBlock of its block, the next entry at the forward link, its end
where the rule says; blocks and sequence numbers rise. On a medium that answers the walk returns. The
chain of an opening is that of the superblock's iteration (R160, R163, R165). -/
def Obligations.ChainIsIncreasing : Prop :=
  (∀ (iter : U32) (s t : State) (c : List (Nat × Fsb)), chainWalk iter s = (some c, t) →
    chainOnMedium iter t c ∧
    c.Pairwise (fun x y => x.1 < y.1 ∧ x.2.seq < y.2.seq) ∧
    ∀ e ∈ c, e.2.iteration = iter ∧ s.params.firstFileBlock ≤ e.1 ∧
      e.1 < s.params.mediumBlocks) ∧
  (∀ (iter : U32) (s : State), mediumAnswersOk s.params.mediumBlocks s →
    ∃ c t, chainWalk iter s = (some c, t)) ∧
  (∀ (s u : State) (iter : U32) (c : List (Nat × Fsb)), openChain s = (.ok (iter, c), u) →
    superblockValid u.params (blockAt u u.params.sbBlock) = true ∧
    iter = superblockIter (blockAt u u.params.sbBlock) ∧ chainOnMedium iter u c)

/-- `FS_OPEN 1` on a formatted medium without a file of its iteration: sequence number 1 at the first
file block, stamped with the clock (41_log_filesystem.md R163, 30_encoding.md R111). -/
def Obligations.CreateFirstFile : Prop :=
  ∀ (s : State) (seq : U32), s.params.Valid → s.ma.halted = false → s.med.busy = false →
    s.fs.isOpen = false → mediumAnswersOk 3 s →
    superblockValid s.params (blockAt s s.params.sbBlock) = true →
    (decodeFsb (blockAt s s.params.firstFileBlock)).iteration ≠
      superblockIter (blockAt s s.params.sbBlock) →
    let p := s.params
    let rtc := s.env.rtc.peek Config.freeRtc 0
    let iter := superblockIter (blockAt s p.sbBlock)
    let fsb := leBytes 4 iter.toNat ++ leBytes 4 1 ++ leBytes 4 0 ++ leBytes 4 0xFFFFFFFF ++
      leBytes 4 rtc.1.toNat ++ leBytes 4 rtc.2.toNat ++ zeros (p.blockBytes - 24)
    ∃ t, exec (.fsOpen true seq) s = .next t ∧
      t = { s with
        fs := ⟨true, .created, iter, 1, BitVec.ofNat 32 p.firstFileBlock, 0, nextNone, rtc.1, rtc.2,
          false, 0⟩
        med := { s.med with cells := t.med.cells }
        env := { mediumTaken 3 s with rtc := s.env.rtc.advance 1 }
        out := s.out ++
          [.blkRead p.sbBlock (some (blockAt s p.sbBlock)),
           .blkRead p.firstFileBlock (some (blockAt s p.firstFileBlock)),
           .blkWrite p.firstFileBlock fsb true]
        status := .okSeq 1 } ∧
      blockAt t p.firstFileBlock = fsb ∧ sameOutsideBlock p.firstFileBlock s t

/-- `FS_OPEN 1` after a chain with a last file: the new FileStartBlock is written after that file's
data, then the last file's forward link (41_log_filesystem.md R163). `openChain` is the common
beginning of both opens; it answers the iteration and the chain. -/
def Obligations.CreateLinksPreviousFile : Prop :=
  ∀ (s u : State) (seq iter : U32) (c : List (Nat × Fsb)) (b : Nat) (f : Fsb),
    s.params.Valid → s.ma.halted = false → openChain s = (.ok (iter, c), u) →
    c.getLast? = some (b, f) → (nextFile s.params c).1 < s.params.mediumBlocks →
    mediumAnswersOk 2 u →
    let p := s.params
    let start := b + 1 + (f.byteLen.toNat + p.blockBytes - 1) / p.blockBytes
    let rtc := u.env.rtc.peek Config.freeRtc 0
    let fsb := fsbBlock p ⟨iter, f.seq + 1, 0, nextNone, rtc.1, rtc.2⟩
    let link := fsbBlock p { f with next := BitVec.ofNat 32 start }
    ∃ t, exec (.fsOpen true seq) s = .next t ∧
      t = { u with
        fs := ⟨true, .created, iter, f.seq + 1, BitVec.ofNat 32 start, 0, nextNone, rtc.1, rtc.2,
          false, 0⟩
        med := { u.med with cells := t.med.cells }
        env := { mediumTaken 2 u with rtc := u.env.rtc.advance 1 }
        out := u.out ++ [.blkWrite start fsb true, .blkWrite b link true]
        status := .okSeq (f.seq + 1) } ∧
      blockAt t start = fsb ∧ blockAt t b = link ∧
      (∀ i, i ≠ start → i ≠ b → blockAt t i = blockAt u i)

/-- `FS_OPEN 0` opens the entry of the chain with the wanted sequence number
(41_log_filesystem.md R165). -/
def Obligations.ReopenTakesChainEntry : Prop :=
  ∀ (s u : State) (iter : U32) (c : List (Nat × Fsb)) (b : Nat) (f : Fsb),
    s.ma.halted = false → openChain s = (.ok (iter, c), u) → (b, f) ∈ c →
    exec (.fsOpen false f.seq) s = .next { u with
      fs := ⟨true, .reopened, iter, f.seq, BitVec.ofNat 32 b, f.byteLen.toNat, f.next, f.rtcS,
        f.rtcSub, false, 0⟩
      status := .okSeq f.seq }

/-- The opening reads only: with no file open and no write outstanding, `openChain` changes the
medium's answers taken and the history, appends only block reads, and answers `SdRead` exactly when one
of them failed (41_log_filesystem.md R160, R161). With a file open it is the opening of the state after
`FS_CLOSE`, where that close succeeds (R166). -/
def Obligations.OpeningOnlyReads : Prop :=
  (∀ (s u : State) (r : Res (U32 × List (Nat × Fsb))), s.fs.isOpen = false → s.med.busy = false →
    openChain s = (r, u) →
    u = { s with env := { s.env with mediumOk := u.env.mediumOk }, out := u.out } ∧
    ∃ es : List Event, u.out = s.out ++ es ∧ (∀ e ∈ es, ∃ i a, e = .blkRead i a) ∧
      (r = .err .sdRead ↔ ∃ i, Event.blkRead i none ∈ es)) ∧
  (∀ (s t : State) (create : Bool) (seq : U32), s.ma.halted = false →
    exec .fsClose s = .next t → t.status = .ok →
    exec (.fsOpen create seq) s = exec (.fsOpen create seq) t)

/-- Errors of `FS_OPEN` (41_log_filesystem.md R163, R165, R166, 60_exceptions.md R306), after each of
which no file is open: a failed implicit close is `SdWrite`, a failed superblock or chain read is
`SdRead`, an invalid superblock or a sequence number that is not in the chain is `NoExistingFile`, a full
medium or a failed write of the new FileStartBlock or of the forward link is `SdWrite`. A block whose
write failed holds a drawn content, of `B` bytes (log 20). -/
def Obligations.OpenErrors : Prop :=
  ∀ (s : State) (create : Bool) (seq : U32), s.params.Valid → s.ma.halted = false →
    let p := s.params
    (∀ (t : State) (e : Err), exec (.fsOpen create seq) s = .next t → t.status = .raised e →
      t.fs.isOpen = false) ∧
    (s.fs.isOpen = true → s.fs.dirty = true → s.med.busy = false →
      s.fs.start.toNat < p.mediumBlocks → s.env.mediumOk.peek Config.freeMediumOk 0 = false →
      ∃ t, exec (.fsOpen create seq) s = .next t ∧
        t = { s with
          fs := { s.fs with isOpen := false, dirty := false }
          med := { s.med with cells := t.med.cells }
          env := { mediumTaken 1 s with block := s.env.block.advance 1 }
          out := s.out ++ [.blkWrite s.fs.start.toNat (fsbBlock p ⟨s.fs.iter, s.fs.seq,
            BitVec.ofNat 32 s.fs.len, s.fs.next, s.fs.rtcS, s.fs.rtcSub⟩) false]
          status := .raised .sdWrite } ∧
        blockAt t s.fs.start.toNat = fit p.blockBytes (s.env.block.peek Config.freeBlock 0) ∧
        sameOutsideBlock s.fs.start.toNat s t) ∧
    (s.fs.isOpen = false → s.med.busy = false →
      (s.env.mediumOk.peek Config.freeMediumOk 0 = false →
        exec (.fsOpen create seq) s = .next { s with
          env := mediumTaken 1 s
          out := s.out ++ [.blkRead p.sbBlock none]
          status := .raised .sdRead }) ∧
      (s.env.mediumOk.peek Config.freeMediumOk 0 = true →
        superblockValid p (blockAt s p.sbBlock) = false →
        exec (.fsOpen create seq) s = .next { s with
          env := mediumTaken 1 s
          out := s.out ++ [.blkRead p.sbBlock (some (blockAt s p.sbBlock))]
          status := .raised .noExistingFile }) ∧
      (s.env.mediumOk.peek Config.freeMediumOk 0 = true →
        superblockValid p (blockAt s p.sbBlock) = true →
        s.env.mediumOk.peek Config.freeMediumOk 1 = false →
        exec (.fsOpen create seq) s = .next { s with
          env := mediumTaken 2 s
          out := s.out ++ [.blkRead p.sbBlock (some (blockAt s p.sbBlock)),
            .blkRead p.firstFileBlock none]
          status := .raised .sdRead })) ∧
    (∀ u : State, openChain s = (.err .sdRead, u) →
      exec (.fsOpen create seq) s = .next { u with status := .raised .sdRead }) ∧
    (∀ (u : State) (iter : U32) (c : List (Nat × Fsb)), openChain s = (.ok (iter, c), u) →
      let start := (nextFile p c).1
      let rtc := u.env.rtc.peek Config.freeRtc 0
      let fsb := fsbBlock p ⟨iter, (nextFile p c).2, 0, nextNone, rtc.1, rtc.2⟩
      let drawn := fit p.blockBytes (u.env.block.peek Config.freeBlock 0)
      ((∀ e ∈ c, e.2.seq ≠ seq) →
        exec (.fsOpen false seq) s = .next { u with status := .raised .noExistingFile }) ∧
      (p.mediumBlocks ≤ start →
        exec (.fsOpen true seq) s = .next { u with status := .raised .sdWrite }) ∧
      (start < p.mediumBlocks → u.env.mediumOk.peek Config.freeMediumOk 0 = false →
        ∃ t, exec (.fsOpen true seq) s = .next t ∧
          t = { u with
            med := { u.med with cells := t.med.cells }
            env := { mediumTaken 1 u with
              rtc := u.env.rtc.advance 1, block := u.env.block.advance 1 }
            out := u.out ++ [.blkWrite start fsb false]
            status := .raised .sdWrite } ∧
          blockAt t start = drawn ∧ sameOutsideBlock start u t) ∧
      (∀ (b : Nat) (f : Fsb), c.getLast? = some (b, f) → start < p.mediumBlocks →
        u.env.mediumOk.peek Config.freeMediumOk 0 = true →
        u.env.mediumOk.peek Config.freeMediumOk 1 = false →
        ∃ t, exec (.fsOpen true seq) s = .next t ∧
          t = { u with
            med := { u.med with cells := t.med.cells }
            env := { mediumTaken 2 u with
              rtc := u.env.rtc.advance 1, block := u.env.block.advance 1 }
            out := u.out ++ [.blkWrite start fsb true,
              .blkWrite b (fsbBlock p { f with next := BitVec.ofNat 32 start }) false]
            status := .raised .sdWrite } ∧
          blockAt t start = fsb ∧ blockAt t b = drawn ∧
          (∀ i, i ≠ start → i ≠ b → blockAt t i = blockAt u i)))

/-- `FS_SEEK`, `FS_RTC_GET`, `FS_RTC_SET` and `FS_SIZE_GET` on an open file
(41_log_filesystem.md R167, R171, R172, R175). -/
def Obligations.OpenFileRegisters : Prop :=
  ∀ s : State, s.ma.halted = false → s.fs.isOpen = true →
    (∀ pos : U32, pos.toNat ≤ s.fs.len →
      exec (.fsSeek pos) s = .next { s with fs := { s.fs with rdPos := pos.toNat }, status := .ok }) ∧
    (∀ pos : U32, s.fs.len < pos.toNat →
      exec (.fsSeek pos) s = .next { s with status := .raised .seekPastEnd }) ∧
    exec .fsRtcGet s = .next { s with status := .okRtc s.fs.rtcS s.fs.rtcSub } ∧
    (∀ v sub : U32, exec (.fsRtcSet v sub) s = .next { s with
      fs := { s.fs with rtcS := v, rtcSub := sub, dirty := true }, status := .ok }) ∧
    (s.fs.len ≤ 2 ^ s.params.sizeBits - 1 →
      exec .fsSizeGet s = .next { s with status := .okSize s.fs.len }) ∧
    (2 ^ s.params.sizeBits - 1 < s.fs.len →
      exec .fsSizeGet s = .next { s with status := .raised .fileTooLong })

/-- With no file open the eight operations that need one raise `FileNotOpen` and change nothing
(60_exceptions.md R301). -/
def Obligations.FileNotOpenRaised : Prop :=
  ∀ (s : State) (i : Instr), s.ma.halted = false → s.fs.isOpen = false →
    ((∃ pos, i = .fsSeek pos) ∨ (∃ d, i = .fsWrite d) ∨ (∃ n, i = .fsRead n) ∨ i = .fsRtcGet ∨
      (∃ v sub, i = .fsRtcSet v sub) ∨ i = .fsSizeGet ∨ (∃ d, i = .fsBeginWrite d) ∨
      i = .fsContinue) →
    exec i s = .next { s with status := .raised .fileNotOpen }

/-- `FS_CLOSE` (41_log_filesystem.md R168): nothing without an open file, no transfer for a clean
file, the metadata of a dirty file written to its FileStartBlock; a failed write closes the file all
the same and leaves a drawn block, of `B` bytes (20_memory.md R79, log 20). -/
def Obligations.CloseWritesPendingMetadata : Prop :=
  ∀ s : State, s.params.Valid → s.ma.halted = false →
    (s.fs.isOpen = false → exec .fsClose s = .next { s with status := .ok }) ∧
    (s.fs.isOpen = true → s.fs.dirty = false →
      exec .fsClose s = .next { s with fs := { s.fs with isOpen := false }, status := .ok }) ∧
    (s.fs.isOpen = true → s.fs.dirty = true → s.med.busy = false →
      s.fs.start.toNat < s.params.mediumBlocks →
      let fsb := fsbBlock s.params ⟨s.fs.iter, s.fs.seq, BitVec.ofNat 32 s.fs.len, s.fs.next,
        s.fs.rtcS, s.fs.rtcSub⟩
      (s.env.mediumOk.peek Config.freeMediumOk 0 = true →
        ∃ t, exec .fsClose s = .next t ∧
          t = { s with
            fs := { s.fs with isOpen := false, dirty := false }
            med := { s.med with cells := t.med.cells }
            env := mediumTaken 1 s
            out := s.out ++ [.blkWrite s.fs.start.toNat fsb true]
            status := .ok } ∧
          blockAt t s.fs.start.toNat = fsb ∧ sameOutsideBlock s.fs.start.toNat s t) ∧
      (s.env.mediumOk.peek Config.freeMediumOk 0 = false →
        ∃ t, exec .fsClose s = .next t ∧
          t = { s with
            fs := { s.fs with isOpen := false, dirty := false }
            med := { s.med with cells := t.med.cells }
            env := { mediumTaken 1 s with block := s.env.block.advance 1 }
            out := s.out ++ [.blkWrite s.fs.start.toNat fsb false]
            status := .raised .sdWrite } ∧
          blockAt t s.fs.start.toNat =
            fit s.params.blockBytes (s.env.block.peek Config.freeBlock 0) ∧
          sameOutsideBlock s.fs.start.toNat s t))

/-- `FS_WRITE` on a created file: the bytes are appended at the file's end, the rest of the last block
becomes zero, every other byte of the medium stays, the length grows (41_log_filesystem.md R164, R169;
that the rest of a block begun before becomes zero follows the rule's corner cases and
92_eei_decisions.md D33, log 26). -/
def Obligations.FsWriteAppends : Prop :=
  ∀ (s : State) (data : Bytes), s.params.Valid → s.ma.halted = false → s.med.busy = false →
    s.fs.isOpen = true → s.fs.kind = .created →
    fileOnMedium s.params s.fs.start.toNat s.fs.len data.length →
    mediumAnswersOk (touchedBlocks s.params s.fs.len data.length + 1) s →
    let base := (s.fs.start.toNat + 1) * s.params.blockBytes + s.fs.len
    let blocks := touchedBlocks s.params s.fs.len data.length
    let after := (s.fs.start.toNat + 1 + s.fs.len / s.params.blockBytes + blocks) *
      s.params.blockBytes
    ∃ t, exec (.fsWrite data) s = .next t ∧
      t = { s with
        fs := { s.fs with
          len := s.fs.len + data.length
          dirty := s.fs.dirty || decide (0 < data.length) }
        med := { s.med with cells := t.med.cells }
        env := mediumTaken
          (if data.length ≠ 0 ∧ s.fs.len % s.params.blockBytes ≠ 0 then blocks + 1 else blocks) s
        out := t.out
        status := .ok } ∧
      (∀ i < data.length, mediumByte t (base + i) = data.getD i 0) ∧
      (∀ a, a < base → mediumByte t a = mediumByte s a) ∧
      (∀ a, base + data.length ≤ a → a < after → mediumByte t a = 0) ∧
      (∀ a, after ≤ a → mediumByte t a = mediumByte s a)

/-- `FS_READ` on an open file: the bytes at the read cursor, at most as many as remain, one block read
for each block they touch; the cursor moves past them (41_log_filesystem.md R164, R170). -/
def Obligations.FsReadReturnsFileBytes : Prop :=
  ∀ (s : State) (n : U16), s.params.Valid → s.ma.halted = false → s.med.busy = false →
    s.fs.isOpen = true → s.fs.rdPos ≤ s.fs.len →
    let m := min n.toNat (s.fs.len - s.fs.rdPos)
    let blocks := touchedBlocks s.params s.fs.rdPos m
    fileOnMedium s.params s.fs.start.toNat s.fs.rdPos m → mediumAnswersOk blocks s →
    exec (.fsRead n) s = .next { s with
      fs := { s.fs with rdPos := s.fs.rdPos + m }
      env := mediumTaken blocks s
      out := s.out ++ (List.range blocks).map fun k =>
        let i := s.fs.start.toNat + 1 + (s.fs.rdPos / s.params.blockBytes + k)
        .blkRead i (some (blockAt s i))
      status := .okBytes (fileBytes s s.fs.start.toNat s.fs.rdPos m) }

/-- The filesystem round trip of 41_log_filesystem.md R178, on a medium that answers, with room for
the file and no FileStartBlock of the new iteration at the first file block. -/
def Obligations.FsRoundTrip : Prop :=
  ∀ (s : State) (portable : Bool) (data : Bytes), s.params.Valid → s.ma.halted = false →
    s.med.busy = false → data.length < 65536 →
    fileOnMedium s.params s.params.firstFileBlock 0 data.length →
    mediumAnswersOk (8 + 2 * data.length) s →
    (decodeFsb (blockAt s s.params.firstFileBlock)).iteration ≠ nextIteration s →
    ∃ s1 s2 s3 s4 s5 s6 s7 : State,
      exec (.fsFormat portable) s = .next s1 ∧
      exec (.fsOpen true 0) s1 = .next s2 ∧ s2.status = .okSeq 1 ∧
      exec (.fsWrite data) s2 = .next s3 ∧ s3.status = .ok ∧
      exec .fsClose s3 = .next s4 ∧ s4.status = .ok ∧
      exec (.fsOpen false 1) s4 = .next s5 ∧ s5.status = .okSeq 1 ∧
      exec (.fsRead (BitVec.ofNat 16 data.length)) s5 = .next s6 ∧ s6.status = .okBytes data ∧
      exec .fsSizeGet s6 = .next s7 ∧ s7.status = .okSize data.length

/-- `FS_BEGIN_WRITE` of one block at the end of a created file of whole blocks: the medium takes the
write or refuses it, the file's length stays (41_log_filesystem.md R173, 20_memory.md R80); that a refusal
beyond the medium takes no draw is the model's (log 25). -/
def Obligations.BeginWriteStartsBlock : Prop :=
  ∀ (s : State) (data : Bytes), s.ma.halted = false → s.med.busy = false → s.fs.isOpen = true →
    s.fs.kind = .created → s.fs.len % s.params.blockBytes = 0 → data.length = s.params.blockBytes →
    let i := s.fs.start.toNat + 1 + s.fs.len / s.params.blockBytes
    (i < s.params.mediumBlocks → s.env.mediumOk.peek Config.freeMediumOk 0 = true →
      exec (.fsBeginWrite data) s = .next { s with
        med := { s.med with busy := true, target := i, data := data }
        env := mediumTaken 1 s
        out := s.out ++ [.blkBegin i data true]
        status := .ok }) ∧
    (i < s.params.mediumBlocks → s.env.mediumOk.peek Config.freeMediumOk 0 = false →
      exec (.fsBeginWrite data) s = .next { s with
        env := mediumTaken 1 s
        out := s.out ++ [.blkBegin i data false]
        status := .raised .sdWrite }) ∧
    (s.params.mediumBlocks ≤ i →
      exec (.fsBeginWrite data) s = .next { s with
        out := s.out ++ [.blkBegin i data false], status := .raised .sdWrite })

/-- `FS_CONTINUE` on an open file, by the medium's answer; without an outstanding write the answer is
an error (41_log_filesystem.md R174, 20_memory.md R80). A failed write leaves a drawn block, of `B` bytes
(log 20). -/
def Obligations.ContinueAdvancesWrite : Prop :=
  ∀ s : State, s.ma.halted = false → s.fs.isOpen = true →
    let env := { s.env with stepAnswer := s.env.stepAnswer.advance 1 }
    (s.med.busy = false → exec .fsContinue s = .next { s with
      out := s.out ++ [.blkStep .err], status := .raised .sdWrite }) ∧
    (s.med.busy = true → s.env.stepAnswer.peek Config.freeStep 0 = .pending →
      exec .fsContinue s = .next { s with
        env := env, out := s.out ++ [.blkStep .pending], status := .okPending }) ∧
    (s.med.busy = true → s.env.stepAnswer.peek Config.freeStep 0 = .done →
      ∃ t, exec .fsContinue s = .next t ∧
        t = { s with
          fs := { s.fs with len := s.fs.len + s.params.blockBytes, dirty := true }
          med := { s.med with cells := t.med.cells, busy := false }
          env := env
          out := s.out ++ [.blkStep .done]
          status := .okDone } ∧
        blockAt t s.med.target = fit s.params.blockBytes s.med.data ∧
        sameOutsideBlock s.med.target s t) ∧
    (s.med.busy = true → s.env.stepAnswer.peek Config.freeStep 0 = .err →
      ∃ t, exec .fsContinue s = .next t ∧
        t = { s with
          med := { s.med with cells := t.med.cells, busy := false }
          env := { env with block := s.env.block.advance 1 }
          out := s.out ++ [.blkStep .err]
          status := .raised .sdWrite } ∧
        blockAt t s.med.target = fit s.params.blockBytes (s.env.block.peek Config.freeBlock 0) ∧
        sameOutsideBlock s.med.target s t)

/-- `FS_FLUSH` where it is enabled writes the metadata and leaves the file open; a failed write
leaves it dirty and its FileStartBlock drawn (41_log_filesystem.md R176, 20_memory.md R79, log 20). Where
it is not enabled it has no effect (the model's choice, log 10). -/
def Obligations.FlushWritesMetadata : Prop :=
  ∀ s : State, s.params.Valid → s.ma.halted = false →
    (s.fs.isOpen = true → s.fs.dirty = true → s.pl.sdState = .idle → s.med.busy = false →
      s.fs.start.toNat < s.params.mediumBlocks →
      let fsb := fsbBlock s.params ⟨s.fs.iter, s.fs.seq, BitVec.ofNat 32 s.fs.len, s.fs.next,
        s.fs.rtcS, s.fs.rtcSub⟩
      (s.env.mediumOk.peek Config.freeMediumOk 0 = true →
        ∃ t, exec .fsFlush s = .next t ∧
          t = { s with
            fs := { s.fs with dirty := false }
            med := { s.med with cells := t.med.cells }
            env := mediumTaken 1 s
            out := s.out ++ [.blkWrite s.fs.start.toNat fsb true]
            status := .ok } ∧
          blockAt t s.fs.start.toNat = fsb ∧ sameOutsideBlock s.fs.start.toNat s t) ∧
      (s.env.mediumOk.peek Config.freeMediumOk 0 = false →
        ∃ t, exec .fsFlush s = .next t ∧
          t = { s with
            med := { s.med with cells := t.med.cells }
            env := { mediumTaken 1 s with block := s.env.block.advance 1 }
            out := s.out ++ [.blkWrite s.fs.start.toNat fsb false]
            status := .ok } ∧
          blockAt t s.fs.start.toNat =
            fit s.params.blockBytes (s.env.block.peek Config.freeBlock 0) ∧
          sameOutsideBlock s.fs.start.toNat s t)) ∧
    (s.fs.isOpen = false ∨ s.fs.dirty = false ∨ s.pl.sdState = .writeInProgress →
      exec .fsFlush s = .next { s with status := .noOp })

/-- `FS_SELFTEST` on a medium that answers, with room for its file and no FileStartBlock of the new
iteration at the first file block, passes, and leaves its own file: sequence number 1 at the first file
block, holding the pattern `i mod 256` (41_log_filesystem.md R177). -/
def Obligations.FsSelftestPasses : Prop :=
  ∀ s : State, s.params.Valid → s.ma.halted = false → s.med.busy = false →
    s.params.fsSelftestBytes < 2 ^ 32 →
    fileOnMedium s.params s.params.firstFileBlock 0 s.params.fsSelftestBytes →
    mediumAnswersOk (8 + 2 * s.params.fsSelftestBytes) s →
    (decodeFsb (blockAt s s.params.firstFileBlock)).iteration ≠ nextIteration s →
    let p := s.params
    let rtc := s.env.rtc.peek Config.freeRtc 0
    ∃ t, exec .fsSelftest s = .next t ∧
      t = { s with fs := t.fs, med := t.med, env := t.env, out := t.out, status := .code 0 } ∧
      t.fs.isOpen = false ∧
      blockAt t p.sbBlock = superblock p (nextIteration s) p.fsSelftestPortable ∧
      decodeFsb (blockAt t p.firstFileBlock) =
        ⟨nextIteration s, 1, BitVec.ofNat 32 p.fsSelftestBytes, nextNone, rtc.1, rtc.2⟩ ∧
      fileBytes t p.firstFileBlock 0 p.fsSelftestBytes =
        (List.range p.fsSelftestBytes).map (fun i => BitVec.ofNat 8 (i % 256))

/-! ### Sample pipeline -/

/-- `PL_BEGIN`, `PL_STOP` and both arms of `CAL_DONE` (42_sample_pipeline.md R210, R211, R216). -/
def Obligations.SessionStartsCalibratesStops : Prop :=
  ∀ s : State, s.ma.halted = false →
    exec .plBegin s = .next { s with
      ring := ⟨true, 0, false, 0, false⟩
      pl := ⟨true, .calibrating, s.pl.gain, Config.minGain, .gnd, .gndRef, 0, 0, .idle⟩
      status := .ok } ∧
    exec .plStop s = .next { s with
      pl := { s.pl with acq := false, sdState := .idle }, status := .ok } ∧
    (s.pl.acq = true → s.pl.phase = .calibrating →
      exec .calDone s = .next { s with
        pl := { s.pl with
          phase := .measuring, outCurGain := s.pl.gain, outCurIn := .live, outVoltIn := .live }
        status := .ok }) ∧
    (s.pl.acq = false ∨ s.pl.phase = .measuring →
      exec .calDone s = .next { s with status := .ok })

/-- `TICK` routes by the mode (42_sample_pipeline.md R212). -/
def Obligations.TickRoutesByMode : Prop :=
  ∀ s : State, s.ma.halted = false →
    (s.pl.acq = false → exec .tick s = .next { s with status := .noOp }) ∧
    (s.pl.acq = true → s.ma.mode = .stream → exec .tick s = exec .plDrainLink s) ∧
    (s.pl.acq = true → s.ma.mode = .usbStore ∨ s.ma.mode = .portStore →
      exec .tick s = exec .plDrainStorage s) ∧
    (s.pl.acq = true → s.ma.mode = .usbIdle ∨ s.ma.mode = .portIdle →
      exec .tick s = .next { s with status := .noOp })

/-- The link drain, asked for directly or by a `TICK` in `Stream`: one frame of `P` ring bytes with
the session's sequence number when the link is ready and the bytes are there, else nothing but the
ready test (42_sample_pipeline.md R213, 30_encoding.md R108). What the 16-bit length field holds when `P`
does not fit it is a free value (the model's choice, log 27). -/
def Obligations.LinkDrainSendsFrame : Prop :=
  ∀ (s : State) (i : Instr), RingInv s → s.ma.halted = false →
    i = .plDrainLink ∨ (i = .tick ∧ s.pl.acq = true ∧ s.ma.mode = .stream) →
    let p := s.params
    let env := { s.env with linkReady := s.env.linkReady.advance 1 }
    let payload := (ringBytes s).take p.linkPayload
    let length := if p.linkPayload < 2 ^ 16 then p.linkPayload
      else (Config.freeFrameLength p.linkPayload).toNat
    (s.env.linkReady.peek Config.freeLinkReady 0 = true → p.linkPayload ≤ used s →
      ∃ t, exec i s = .next t ∧
        t = { s with
          ring := { s.ring with r := t.ring.r, rp := t.ring.rp }
          pl := { s.pl with linkSeq := (s.pl.linkSeq + 1) % 2 ^ p.linkSeqBits }
          env := env
          out := s.out ++ readTransfers p.ringCapacity s.ring.r payload ++
            [.linkTx (leBytes (p.linkSeqBits / 8) s.pl.linkSeq ++ leBytes 2 length ++ payload)]
          status := .sent } ∧
        ringBytes t = (ringBytes s).drop p.linkPayload) ∧
    (s.env.linkReady.peek Config.freeLinkReady 0 = false ∨ used s < p.linkPayload →
      exec i s = .next { s with env := env, status := .noOp })

/-- The storage drain in `Idle`, asked for directly or by a `TICK` in a store mode: it takes exactly
`B` ring bytes and begins their block write at the end of the created file, or does nothing, or (when
the medium refuses, or the file has reached the medium's end) loses the bytes and records `SdWrite`
(42_sample_pipeline.md R214). A write abandoned before is ended first (20_memory.md R81; log 20, log 23);
beyond the medium nothing is drawn (log 25). -/
def Obligations.StorageDrainStartsBlock : Prop :=
  ∀ (s : State) (i : Instr), RingInv s → s.ma.halted = false → s.pl.sdState = .idle →
    i = .plDrainStorage ∨
      (i = .tick ∧ s.pl.acq = true ∧ (s.ma.mode = .usbStore ∨ s.ma.mode = .portStore)) →
    let p := s.params
    let k := s.fs.start.toNat + 1 + s.fs.len / p.blockBytes
    let block := (ringBytes s).take p.blockBytes
    let reads := readTransfers p.ringCapacity s.ring.r block
    (s.fs.isOpen = false ∨ used s < p.blockBytes →
      exec i s = .next { s with status := .noOp }) ∧
    (s.fs.isOpen = true → p.blockBytes ≤ used s → s.fs.kind = .created →
      s.fs.len % p.blockBytes = 0 →
      (k < p.mediumBlocks → s.env.mediumOk.peek Config.freeMediumOk 0 = true →
        ∃ t, exec i s = .next t ∧
          t = { s with
            ring := { s.ring with r := t.ring.r, rp := t.ring.rp }
            pl := { s.pl with sdState := .writeInProgress }
            med := ⟨t.med.cells, true, k, block⟩
            env := { mediumTaken 1 s with block := abandonedTape s }
            out := s.out ++ reads ++ [.blkBegin k block true]
            status := .started } ∧
          abandonedEnded s t ∧ ringBytes t = (ringBytes s).drop p.blockBytes) ∧
      (k < p.mediumBlocks → s.env.mediumOk.peek Config.freeMediumOk 0 = false →
        ∃ t, exec i s = .next t ∧
          t = { s with
            ring := { s.ring with r := t.ring.r, rp := t.ring.rp }
            ma := { s.ma with lastError := .sdWrite }
            med := { s.med with cells := t.med.cells, busy := false }
            env := { mediumTaken 1 s with block := abandonedTape s }
            out := s.out ++ reads ++ [.blkBegin k block false]
            status := .failed } ∧
          abandonedEnded s t ∧ ringBytes t = (ringBytes s).drop p.blockBytes) ∧
      (p.mediumBlocks ≤ k →
        ∃ t, exec i s = .next t ∧
          t = { s with
            ring := { s.ring with r := t.ring.r, rp := t.ring.rp }
            ma := { s.ma with lastError := .sdWrite }
            med := { s.med with cells := t.med.cells, busy := false }
            env := { s.env with block := abandonedTape s }
            out := s.out ++ reads ++ [.blkBegin k block false]
            status := .failed } ∧
          abandonedEnded s t ∧ ringBytes t = (ringBytes s).drop p.blockBytes))

/-- The storage drain in `WriteInProgress`, asked for directly or by a `TICK` in a store mode, by the
answer of the one continuation step: it reads no ring byte and begins no second write; pending changes
nothing, completion returns to `Idle` and moves the block index by one, a failed write (or no open file,
or no outstanding write) returns to `Idle` without (42_sample_pipeline.md R215, R218). A failed write
leaves a drawn block, of `B` bytes (20_memory.md R80, log 20). -/
def Obligations.SequencerAdvancesOneWrite : Prop :=
  ∀ (s : State) (i : Instr), s.ma.halted = false → s.pl.sdState = .writeInProgress →
    i = .plDrainStorage ∨
      (i = .tick ∧ s.pl.acq = true ∧ (s.ma.mode = .usbStore ∨ s.ma.mode = .portStore)) →
    let p := s.params
    let answer := s.env.stepAnswer.peek Config.freeStep 0
    let env := { s.env with stepAnswer := s.env.stepAnswer.advance 1 }
    (s.fs.isOpen = false →
      exec i s = .next { s with pl := { s.pl with sdState := .idle }, status := .failed }) ∧
    (s.fs.isOpen = true → s.med.busy = false →
      exec i s = .next { s with
        pl := { s.pl with sdState := .idle }
        ma := { s.ma with lastError := .sdWrite }
        out := s.out ++ [.blkStep .err]
        status := .failed }) ∧
    (s.fs.isOpen = true → s.med.busy = true → answer = .pending →
      exec i s = .next { s with
        env := env, out := s.out ++ [.blkStep .pending], status := .pending }) ∧
    (s.fs.isOpen = true → s.med.busy = true → answer = .done →
      ∃ t, exec i s = .next t ∧
        t = { s with
          pl := { s.pl with sdState := .idle, blkIdx := (s.pl.blkIdx + 1) % 2 ^ p.blkIdxBits }
          fs := { s.fs with len := s.fs.len + p.blockBytes, dirty := true }
          med := { s.med with cells := t.med.cells, busy := false }
          env := env
          out := s.out ++ [.blkStep .done]
          status := .completed } ∧
        blockAt t s.med.target = fit p.blockBytes s.med.data ∧
        sameOutsideBlock s.med.target s t) ∧
    (s.fs.isOpen = true → s.med.busy = true → answer = .err →
      ∃ t, exec i s = .next t ∧
        t = { s with
          pl := { s.pl with sdState := .idle }
          ma := { s.ma with lastError := .sdWrite }
          med := { s.med with cells := t.med.cells, busy := false }
          env := { env with block := s.env.block.advance 1 }
          out := s.out ++ [.blkStep .err]
          status := .failed } ∧
        blockAt t s.med.target = fit p.blockBytes (s.env.block.peek Config.freeBlock 0) ∧
        sameOutsideBlock s.med.target s t)

/-! ### Mode arbiter -/

/-- `STOP_SAMPLING` in every mode (43_mode_arbiter.md R245): acquisition and the sequencer stop. The
store modes close their file as `FS_CLOSE` does (41_log_filesystem.md R168), also with an abandoned write
outstanding (20_memory.md R81): the metadata of a dirty file is written, a failure is recorded as
`SdWrite`; then `PortStore` blinks the next file's number (R246) and the idle mode follows. `stopSampling`
is the stop inside other operations: this one without the mode colour and the status. The place of the
mode colour, drawn contents of `B` bytes and the unrecorded end of an abandoned write are the model's
(log 9, log 20, log 23). -/
def Obligations.StopSamplingStops : Prop :=
  ∀ s : State, s.ma.halted = false →
    let stopped := { s.pl with acq := false, sdState := .idle }
    let start := s.fs.start.toNat
    let pending := s.fs.isOpen && s.fs.dirty
    let ok := decide (start < s.params.mediumBlocks) && s.env.mediumOk.peek Config.freeMediumOk 0
    let fsb := fsbBlock s.params ⟨s.fs.iter, s.fs.seq, BitVec.ofNat 32 s.fs.len, s.fs.next,
      s.fs.rtcS, s.fs.rtcSub⟩
    (s.ma.mode = .usbIdle ∨ s.ma.mode = .portIdle ∨ s.ma.mode = .stream →
      stopSampling s = { s with pl := stopped } ∧
      exec .stopSampling s = .next { s with pl := stopped, status := .ok }) ∧
    (s.ma.mode = .usbStore ∨ s.ma.mode = .portStore →
      let idle := if s.ma.mode = .usbStore then Mode.usbIdle else Mode.portIdle
      ∃ t es, exec .stopSampling s = .next t ∧
        t = { s with
          pl := stopped
          ma := { s.ma with
            mode := idle, lastError := if pending && !ok then .sdWrite else s.ma.lastError }
          fs := { s.fs with isOpen := false, dirty := s.fs.dirty && !s.fs.isOpen }
          med := t.med
          env := t.env
          out := s.out ++ (if pending then [.blkWrite start fsb ok] else []) ++ es ++
            colorEvents s idle
          status := .ok } ∧
        (s.ma.mode = .usbStore → es = []) ∧
        (s.ma.mode = .portStore → ∃ reads n, es = reads ++ [.ind (.blink n)] ∧
          ∀ e ∈ reads, ∃ i a, e = .blkRead i a) ∧
        (pending = true → s.params.Valid → start < s.params.mediumBlocks →
          blockAt t start = if ok then fsb
            else fit s.params.blockBytes ((abandonedTape s).peek Config.freeBlock 0)) ∧
        (s.med.busy = false → sameOutsideBlock start s t ∧ (pending = false → t.med = s.med))) ∧
    (∀ v : State, exec .fsClose { s with pl := stopped } = .next v →
      let err := errorAfter s.ma.lastError v.status
      let next := nextCount v
      (s.ma.mode = .usbStore → exec .stopSampling s = .next { v with
        ma := { s.ma with mode := .usbIdle, lastError := err }
        env := { v.env with color := colorTaken s .usbIdle }
        out := v.out ++ colorEvents s .usbIdle
        status := .ok }) ∧
      (s.ma.mode = .portStore → exec .stopSampling s = .next { next.2 with
        ma := { s.ma with mode := .portIdle, lastError := err }
        env := { next.2.env with color := colorTaken s .portIdle }
        out := next.2.out ++ [.ind (.blink next.1)] ++ colorEvents s .portIdle
        status := .ok })) ∧
    (let b := stopSampling s
     exec .stopSampling s = .next { b with
      env := { b.env with color := colorTaken s b.ma.mode }
      out := b.out ++ colorEvents s b.ma.mode
      status := .ok })

/-- `BTN_PRESS` (43_mode_arbiter.md R270): ignored outside the portable modes; in `PortStore` it stops
(`StopSamplingStops` says how the file is closed); from `PortIdle` it enters `PortStore` and starts a
session, with the count of the file just created if the create succeeds, else with the error recorded and
the next count. The place of the mode colour is the model's (log 9). -/
def Obligations.PressTogglesPortableStore : Prop :=
  ∀ s : State, s.ma.halted = false →
    (s.ma.mode = .usbIdle ∨ s.ma.mode = .usbStore ∨ s.ma.mode = .stream →
      exec .btnPress s = .next { s with status := .ok }) ∧
    (s.ma.mode = .portStore → exec .btnPress s = exec .stopSampling s ∧
      ∃ t, exec .btnPress s = .next t ∧ t.ma.mode = .portIdle ∧ t.pl.acq = false ∧
        t.fs.isOpen = false) ∧
    (s.ma.mode = .portIdle →
      ∃ t, exec .btnPress s = .next t ∧
        t = { s with
          ring := ⟨true, 0, false, 0, false⟩
          pl := ⟨true, .calibrating, s.pl.gain, Config.minGain, .gnd, .gndRef, 0, 0, .idle⟩
          ma := { s.ma with mode := .portStore, lastError := t.ma.lastError }
          fs := t.fs
          med := t.med
          env := t.env
          out := t.out
          status := .ok } ∧
        (∀ (u : State) (q : U32), exec (.fsOpen true 0) s = .next u → u.status = .okSeq q →
          t.fs = u.fs ∧ t.med = u.med ∧ t.ma.lastError = s.ma.lastError ∧
          t.out = u.out ++ [.ind (.blink q)] ++ colorEvents s .portStore) ∧
        (∀ (u : State) (e : Err), exec (.fsOpen true 0) s = .next u → u.status = .raised e →
          let next := nextCount u
          t.fs = u.fs ∧ t.fs.isOpen = false ∧ t.med = next.2.med ∧
          t.ma.lastError = errorAfter s.ma.lastError u.status ∧
          t.out = next.2.out ++ [.ind (.blink next.1)] ++ colorEvents s .portStore))

/-- `BTN_HOLD` in every mode (43_mode_arbiter.md R271): either the block is halted by the failed
format, or it is in `PortIdle`, stopped, with a portable superblock, and blinked 1. On a medium that
answers, after the stop (which `StopSamplingStops` gives, the close of a store mode's file included)
exactly the format happens. The place of the mode colour is the model's (log 9). -/
def Obligations.HoldReformatsPortable : Prop :=
  ∀ s : State, s.params.Valid → s.ma.halted = false →
    (∃ t, exec .btnHold s = .next t ∧ t.pl = { s.pl with acq := false, sdState := .idle } ∧
      t.ring = s.ring ∧ t.store = s.store ∧ t.fs.isOpen = false ∧ t.ma.rxQ = s.ma.rxQ ∧
      ((t.ma.halted = true ∧ t.ma.lastError = .formatFailure) ∨
       (t.ma.halted = false ∧ t.ma.mode = .portIdle ∧
        (∃ iter, blockAt t s.params.sbBlock = superblock s.params iter true) ∧
        ∃ es, t.out = s.out ++ es ++ [.ind (.blink 1)] ++ colorEvents s .portIdle))) ∧
    (let b := stopSampling s
     (s.ma.mode = .usbIdle ∨ s.ma.mode = .portIdle ∨ s.ma.mode = .stream →
       b = { s with pl := { s.pl with acq := false, sdState := .idle } }) ∧
     (b.med.busy = false → mediumAnswersOk 2 b →
      let p := s.params
      let sb := superblock p (nextIteration b) true
      ∃ t, exec .btnHold s = .next t ∧
        t = { b with
          ma := { b.ma with mode := .portIdle }
          fs := { b.fs with isOpen := false, dirty := false }
          med := { b.med with cells := t.med.cells }
          env := { mediumTaken 2 b with color := colorTaken s .portIdle }
          out := b.out ++
            [.blkRead p.sbBlock (some (blockAt b p.sbBlock)), .blkWrite p.sbBlock sb true,
             .ind (.blink 1)] ++ colorEvents s .portIdle
          status := .ok } ∧
        blockAt t p.sbBlock = sb ∧ sameOutsideBlock p.sbBlock b t))

/-- GainSet, SetRtc, GetModePortable and the first Init acknowledge and flush the receive queue, and
change only what their rules say (43_mode_arbiter.md R240, R243, R250, R251, R261, R262). -/
def Obligations.PlainCommandsAcknowledge : Prop :=
  ∀ (s : State) (v1 v2 : U32), s.ma.halted = false →
    let p := s.params
    exec (.cmdGainSet v1 v2) s = .next { s with
      pl := { s.pl with gain := v1.truncate 16 }
      ma := { s.ma with rxQ := [] }
      out := s.out ++ [.linkTx [p.cmdCode .gainSet, p.cmdCode .gainSet]]
      status := .done } ∧
    exec (.cmdSetRtc v1 v2) s = .next { s with
      ma := { s.ma with rxQ := [] }
      out := s.out ++ [.rtcSet (v1.truncate 16 ++ v2.truncate 16),
        .linkTx [p.cmdCode .setRtc, p.cmdCode .setRtc]]
      status := .done } ∧
    exec (.cmdGetModePortable v1 v2) s = .next { s with
      ma := { s.ma with rxQ := [] }
      out := s.out ++ [.linkTx [p.cmdCode .getModePortable,
        if s.ma.mode = .portIdle ∨ s.ma.mode = .portStore then 1 else 0]]
      status := .done } ∧
    (s.ma.initialized = false → exec (.cmdInit v1 v2) s = .next { s with
      ma := { s.ma with initialized := true, lastError := .noError, rxQ := [] }
      out := s.out ++ [.linkTx [p.cmdCode .init, p.errCode s.ma.lastError]]
      status := .done })

/-- Init of an initialized block and Reset perform the warm reset; Init then reports and clears the
kept error, Reset acknowledges or not by a draw (43_mode_arbiter.md R250, R255). That the file registers
without a reset value stay, and the place of the mode colour, are the model's choices (log 6, log 9). -/
def Obligations.ResettingCommands : Prop :=
  ∀ (s : State) (v1 v2 : U32), s.ma.halted = false →
    let p := s.params
    let base := { s with
      ring := ⟨true, 0, false, 0, false⟩
      pl := ⟨false, .calibrating, p.gainDefault, Config.minGain, .gnd, .gndRef, 0, 0, .idle⟩
      ma := ⟨.usbIdle, false, s.ma.lastError, false, []⟩
      fs := { s.fs with isOpen := false, dirty := false }
      env := { s.env with color := colorTaken s .usbIdle }
      out := s.out ++ colorEvents s .usbIdle
      status := .done }
    (s.ma.initialized = true → exec (.cmdInit v1 v2) s = .next { base with
      ma := ⟨.usbIdle, true, .noError, false, []⟩
      out := base.out ++ [.linkTx [p.cmdCode .init, p.errCode s.ma.lastError]] }) ∧
    exec (.cmdReset v1 v2) s = .next { base with
      env := { base.env with resetAck := s.env.resetAck.advance 1 }
      out := base.out ++
        (if s.env.resetAck.peek Config.freeResetAck 0 then
          [.linkTx [p.cmdCode .reset, p.cmdCode .reset]] else []) }

/-- ReadEeprom, GetSampleCount and GetGitHash send one typed reply and no acknowledgment, and change
no state of the block, the receive queue included (43_mode_arbiter.md R256 to R259). That the EEPROM
read is an event of the history is the model's choice (log 12). -/
def Obligations.QueriesReplyWithoutAck : Prop :=
  ∀ (s : State) (v1 v2 : U32), s.ma.halted = false →
    let p := s.params
    let bytes := s.env.eeprom.peek (Config.freeEeprom v1 v2) 0
    let count := s.env.sampleCount.peek Config.freeSampleCount 0
    exec (.cmdReadEeprom v1 v2) s = .next { s with
      env := { s.env with eeprom := s.env.eeprom.advance 1 }
      out := s.out ++ [.eepromRead v1 v2 bytes,
        .linkTx (Config.reply (p.cmdCode .readEeprom) bytes)]
      status := .done } ∧
    exec (.cmdGetSampleCount v1 v2) s = .next { s with
      env := { s.env with sampleCount := s.env.sampleCount.advance 1 }
      out := s.out ++ [.linkTx (Config.reply (p.cmdCode .getSampleCount) count)]
      status := .done } ∧
    exec (.cmdGetGitHash v1 v2) s = .next { s with
      out := s.out ++ [.linkTx (Config.reply (p.cmdCode .getGitHash) Config.gitHash)]
      status := .done }

/-- StartSamplingLink (43_mode_arbiter.md R252): from every mode into `Stream` with a new session, a
pulse and the acknowledgment. While acquiring the stop comes first (`StopSamplingStops` says how it closes
a store mode's file); where no file has to be closed, nothing else happens. The place of the mode colour
is the model's (log 9). -/
def Obligations.StartLinkEntersStream : Prop :=
  ∀ (s : State) (v1 v2 : U32), s.ma.halted = false →
    let code := s.params.cmdCode .startLink
    let session : Pipeline :=
      ⟨true, .calibrating, s.pl.gain, Config.minGain, .gnd, .gndRef, 0, 0, .idle⟩
    (∃ t es, exec (.cmdStartLink v1 v2) s = .next t ∧
      t = { s with
        ring := ⟨true, 0, false, 0, false⟩
        pl := session
        ma := { s.ma with mode := .stream, lastError := t.ma.lastError, rxQ := [] }
        fs := t.fs
        med := t.med
        env := t.env
        out := s.out ++ es ++ [.ind .pulse] ++ colorEvents s .stream ++ [.linkTx [code, code]]
        status := .done }) ∧
    (s.pl.acq = false ∨ s.ma.mode = .usbIdle ∨ s.ma.mode = .portIdle ∨ s.ma.mode = .stream →
      exec (.cmdStartLink v1 v2) s = .next { s with
        ring := ⟨true, 0, false, 0, false⟩
        pl := session
        ma := { s.ma with mode := .stream, rxQ := [] }
        env := { s.env with color := colorTaken s .stream }
        out := s.out ++ [.ind .pulse] ++ colorEvents s .stream ++ [.linkTx [code, code]]
        status := .done }) ∧
    (s.pl.acq = true →
      let b := stopSampling s
      exec (.cmdStartLink v1 v2) s = .next { b with
        ring := ⟨true, 0, false, 0, false⟩
        pl := session
        ma := { b.ma with mode := .stream, rxQ := [] }
        env := { b.env with color := colorTaken s .stream }
        out := b.out ++ [.ind .pulse] ++ colorEvents s .stream ++ [.linkTx [code, code]]
        status := .done })

/-- StartSamplingStorage (43_mode_arbiter.md R253), from the state `b` after the stop if it was acquiring
(`StopSamplingStops`). From every mode it either ends in `UsbStore` with a new session and the
acknowledgment, from a portable mode with a non-portable superblock, or (from a portable mode only) in the
halt of the failed format, with nothing sent on the link. From a portable mode, `PortIdle` or `PortStore`,
on a medium that answers and holds no FileStartBlock of the new iteration, the superblock is written
before the new file's FileStartBlock (R275 c); from the others the file is created without a format
(R247). The place of the mode colour is the model's (log 9). -/
def Obligations.StartStorageEntersUsbStore : Prop :=
  ∀ (s : State) (v1 v2 : U32), s.params.Valid → s.ma.halted = false →
    let p := s.params
    let code := p.cmdCode .startStorage
    let session : Pipeline :=
      ⟨true, .calibrating, s.pl.gain, Config.minGain, .gnd, .gndRef, 0, 0, .idle⟩
    let portable := s.ma.mode = .portIdle ∨ (s.ma.mode = .portStore ∧ s.pl.acq = true)
    let b := if s.pl.acq then stopSampling s else s
    (∃ t es, exec (.cmdStartStorage v1 v2) s = .next t ∧
      ((t.ma.halted = false ∧ t = { s with
          ring := ⟨true, 0, false, 0, false⟩
          pl := session
          ma := { s.ma with mode := .usbStore, lastError := t.ma.lastError, rxQ := [] }
          fs := t.fs
          med := t.med
          env := t.env
          out := s.out ++ es ++ colorEvents s .usbStore ++ [.linkTx [code, code]]
          status := .done } ∧
        linkOutput es = [] ∧
        (portable → ∃ iter, blockAt t p.sbBlock = superblock p iter false)) ∨
       (t.ma.halted = true ∧ portable ∧ t = { s with
          pl := b.pl
          ma := { s.ma with mode := .portIdle, lastError := .formatFailure, halted := true }
          fs := { s.fs with isOpen := false, dirty := false }
          med := t.med
          env := t.env
          out := s.out ++ es
          status := .halted } ∧
        linkOutput es = []))) ∧
    (portable → b.ma.mode = .portIdle ∧
      (b.med.busy = false → mediumAnswersOk 5 b →
        (decodeFsb (blockAt b p.firstFileBlock)).iteration ≠ nextIteration b →
        let sb := superblock p (nextIteration b) false
        let rtc := s.env.rtc.peek Config.freeRtc 0
        let fsb := fsbBlock p ⟨nextIteration b, 1, 0, nextNone, rtc.1, rtc.2⟩
        ∃ t, exec (.cmdStartStorage v1 v2) s = .next t ∧
          t = { b with
            ring := ⟨true, 0, false, 0, false⟩
            pl := session
            ma := { b.ma with mode := .usbStore, rxQ := [] }
            fs := ⟨true, .created, nextIteration b, 1, BitVec.ofNat 32 p.firstFileBlock, 0, nextNone,
              rtc.1, rtc.2, false, 0⟩
            med := { b.med with cells := t.med.cells }
            env := { mediumTaken 5 b with
              rtc := s.env.rtc.advance 1, color := colorTaken s .usbStore }
            out := b.out ++
              [.blkRead p.sbBlock (some (blockAt b p.sbBlock)), .blkWrite p.sbBlock sb true,
               .blkRead p.sbBlock (some sb),
               .blkRead p.firstFileBlock (some (blockAt b p.firstFileBlock)),
               .blkWrite p.firstFileBlock fsb true] ++
              colorEvents s .usbStore ++ [.linkTx [code, code]]
            status := .done } ∧
          blockAt t p.sbBlock = sb ∧ blockAt t p.firstFileBlock = fsb ∧
          (∀ i, i ≠ p.sbBlock → i ≠ p.firstFileBlock → blockAt t i = blockAt b i))) ∧
    (¬ portable → ∀ u : State, exec (.fsOpen true 0) b = .next u →
      exec (.cmdStartStorage v1 v2) s = .next { u with
        ring := ⟨true, 0, false, 0, false⟩
        pl := session
        ma := { u.ma with
          mode := .usbStore, lastError := errorAfter u.ma.lastError u.status, rxQ := [] }
        env := { u.env with color := colorTaken s .usbStore }
        out := u.out ++ colorEvents s .usbStore ++ [.linkTx [code, code]]
        status := .done })

/-- GetRtc in every mode (43_mode_arbiter.md R260): after the stop (`StopSamplingStops`; outside the store
modes only acquisition and the sequencer stop) the reply carries the pair of the file, or zeros when there
is no such file or the open fails for any other reason; no acknowledgment, nothing recorded, the queue is
kept. The place of the mode colour is the model's (log 9). -/
def Obligations.GetRtcRepliesTimestamp : Prop :=
  ∀ (s : State) (v1 v2 : U32), s.ma.halted = false →
    let code := s.params.cmdCode .getRtc
    let b := stopSampling s
    let shown := colorEvents s b.ma.mode
    (s.ma.mode = .usbIdle ∨ s.ma.mode = .portIdle ∨ s.ma.mode = .stream →
      b = { s with pl := { s.pl with acq := false, sdState := .idle } }) ∧
    (∀ (u : State) (iter : U32) (c : List (Nat × Fsb)), openChain b = (.ok (iter, c), u) →
      (∀ i f, (i, f) ∈ c → f.seq = v1 →
        exec (.cmdGetRtc v1 v2) s = .next { u with
          fs := ⟨true, .reopened, iter, f.seq, BitVec.ofNat 32 i, f.byteLen.toNat, f.next, f.rtcS,
            f.rtcSub, false, 0⟩
          env := { u.env with color := colorTaken s b.ma.mode }
          out := u.out ++
            [.linkTx (Config.reply code (leBytes 4 f.rtcS.toNat ++ leBytes 4 f.rtcSub.toNat))] ++
            shown
          status := .done }) ∧
      ((∀ e ∈ c, e.2.seq ≠ v1) →
        exec (.cmdGetRtc v1 v2) s = .next { u with
          env := { u.env with color := colorTaken s b.ma.mode }
          out := u.out ++ [.linkTx (Config.reply code (zeros 8))] ++ shown
          status := .done })) ∧
    (∀ (u : State) (e : Err), openChain b = (.err e, u) →
      exec (.cmdGetRtc v1 v2) s = .next { u with
        env := { u.env with color := colorTaken s b.ma.mode }
        out := u.out ++ [.linkTx (Config.reply code (zeros 8))] ++ shown
        status := .done })

/-- ReadStorageOverLink in every mode (43_mode_arbiter.md R254): after the stop (`StopSamplingStops`) the
file goes out in file order in chunks of `B` bytes, the last maybe shorter, and is closed, with no
acknowledgment; a read that fails ends the stream before its chunk; a missing file and every failed open
send nothing. The place of the mode colour is the model's (log 9). -/
def Obligations.ReadStorageStreamsFile : Prop :=
  ∀ (s : State) (v1 v2 : U32), s.params.Valid → s.ma.halted = false →
    let p := s.params
    let b := stopSampling s
    let color := colorTaken s b.ma.mode
    let shown := colorEvents s b.ma.mode
    (s.ma.mode = .usbIdle ∨ s.ma.mode = .portIdle ∨ s.ma.mode = .stream →
      b = { s with pl := { s.pl with acq := false, sdState := .idle } }) ∧
    (∀ (u : State) (iter : U32) (c : List (Nat × Fsb)), openChain b = (.ok (iter, c), u) →
      (∀ i f, (i, f) ∈ c → f.seq = v1 →
        let n := f.byteLen.toNat
        let chunks := (n + p.blockBytes - 1) / p.blockBytes
        let file (pos : Nat) : FileRegs :=
          ⟨false, .reopened, iter, f.seq, BitVec.ofNat 32 i, n, f.next, f.rtcS, f.rtcSub, false, pos⟩
        let sent (k : Nat) : List Event :=
          [.blkRead (i + 1 + k) (some (blockAt u (i + 1 + k))),
           .linkTx (Config.fileChunk k (fileBytes u i (k * p.blockBytes)
             (min p.blockBytes (n - k * p.blockBytes))))]
        fileOnMedium p i 0 n →
        (mediumAnswersOk chunks u →
          exec (.cmdReadStorage v1 v2) s = .next { u with
            fs := file n
            env := { mediumTaken chunks u with color := color }
            out := u.out ++ (List.range chunks).flatMap sent ++ shown
            status := .done }) ∧
        (∀ j < chunks, mediumAnswersOk j u → u.env.mediumOk.peek Config.freeMediumOk j = false →
          exec (.cmdReadStorage v1 v2) s = .next { u with
            fs := file (j * p.blockBytes)
            env := { mediumTaken (j + 1) u with color := color }
            out := u.out ++ (List.range j).flatMap sent ++ [.blkRead (i + 1 + j) none] ++ shown
            status := .done })) ∧
      ((∀ e ∈ c, e.2.seq ≠ v1) →
        exec (.cmdReadStorage v1 v2) s = .next { u with
          env := { u.env with color := color }, out := u.out ++ shown, status := .done })) ∧
    (∀ (u : State) (e : Err), openChain b = (.err e, u) →
      exec (.cmdReadStorage v1 v2) s = .next { u with
        env := { u.env with color := color }, out := u.out ++ shown, status := .done })

/-- SelfTest in every mode (43_mode_arbiter.md R263), after the stop (`StopSamplingStops`): a failing
driver test is acknowledged with its result and ends the command. Otherwise the ring test passes, the
filesystem test runs on the state `r` it leaves, and its result is acknowledged, 0 on a medium that
answers with room for the test's file; where its format fails (exactly then) the block is halted and sends
nothing. The place of the mode colour is the model's (log 9). -/
def Obligations.SelfTestShortCircuits : Prop :=
  ∀ (s : State) (v1 v2 : U32), s.params.Valid → s.ma.halted = false →
    let p := s.params
    let code := p.cmdCode .selfTest
    let driver := s.env.driverTest.peek Config.freeDriverTest 0
    let stop := stopSampling s
    let b := { stop with env := { stop.env with driverTest := s.env.driverTest.advance 1 } }
    let color := colorTaken s b.ma.mode
    let shown := colorEvents s b.ma.mode
    (s.ma.mode = .usbIdle ∨ s.ma.mode = .portIdle ∨ s.ma.mode = .stream →
      stop = { s with pl := { s.pl with acq := false, sdState := .idle } }) ∧
    (driver ≠ 0 →
      exec (.cmdSelfTest v1 v2) s = .next { b with
        ma := { b.ma with rxQ := [] }
        env := { b.env with color := color }
        out := b.out ++ shown ++ [.linkTx [code, driver.zeroExtend 8]]
        status := .done }) ∧
    (driver = 0 →
      ∃ r f : State, exec .rbSelftest b = .next { r with status := .code 0 } ∧
        r.ring = ⟨true, 0, false, 0, false⟩ ∧ r.med = b.med ∧ exec .fsSelftest r = .next f ∧
        (b.med.busy = false →
          (f.ma.halted = true ↔ b.env.mediumOk.peek Config.freeMediumOk 0 = false ∨
            b.env.mediumOk.peek Config.freeMediumOk 1 = false)) ∧
        (f.ma.halted = true → f.ma.lastError = .formatFailure ∧
          linkOutput f.out = linkOutput s.out ∧
          exec (.cmdSelfTest v1 v2) s = .next { f with
            env := { f.env with color := color }, out := f.out ++ shown, status := .halted }) ∧
        (f.ma.halted = false → linkOutput f.out = linkOutput s.out ∧
          ∃ x : Byte, f.status = .code x ∧
            exec (.cmdSelfTest v1 v2) s = .next { f with
              ma := { f.ma with rxQ := [] }
              env := { f.env with color := color }
              out := f.out ++ shown ++ [.linkTx [code, x]]
              status := .done }) ∧
        (b.med.busy = false → p.fsSelftestBytes < 2 ^ 32 →
          fileOnMedium p p.firstFileBlock 0 p.fsSelftestBytes →
          mediumAnswersOk (8 + 2 * p.fsSelftestBytes) b →
          (decodeFsb (blockAt b p.firstFileBlock)).iteration ≠ nextIteration b →
          f.ma.halted = false ∧ f.status = .code 0))

/-- The acknowledgment rules of 43_mode_arbiter.md R241 and R243: a command's result is a byte in
0 .. 127 or no acknowledgment; the acknowledgment is the last output of the step and empties the
receive queue; without one the queue is kept, except by Reset, whose reset empties it. -/
def Obligations.AcknowledgmentFlushesQueue : Prop :=
  ∀ (s : State) (c : Command) (v1 v2 : U32), s.params.Valid → s.ma.halted = false →
    ∃ t, exec (c.toInstr v1 v2) s = .next t ∧
      ((runCommand c v1 v2 s).2.ma.halted = false →
        (∀ r, (runCommand c v1 v2 s).1 = .ack r → r.toNat ≤ 127 ∧ t.ma.rxQ = [] ∧
          ∃ es, t.out = s.out ++ es ++ [.linkTx [s.params.cmdCode c, r]]) ∧
        ((runCommand c v1 v2 s).1 = .noAck → c ≠ .reset → t.ma.rxQ = s.ma.rxQ) ∧
        (c ∈ [.readStorage, .readEeprom, .getSampleCount, .getGitHash, .getRtc] →
          (runCommand c v1 v2 s).1 = .noAck) ∧
        (c ∉ [.reset, .readStorage, .readEeprom, .getSampleCount, .getGitHash, .getRtc] →
          ∃ r, (runCommand c v1 v2 s).1 = .ack r))

/-- The mode transitions of 43_mode_arbiter.md R264, for a command that does not halt the block. -/
def Obligations.CommandModeTransitions : Prop :=
  ∀ (s t : State) (c : Command) (v1 v2 : U32), s.params.Valid → ModeInv s →
    s.ma.halted = false → exec (c.toInstr v1 v2) s = .next t → t.ma.halted = false →
    match c with
    | .init => if s.ma.initialized then t.ma.mode = .usbIdle ∧ t.pl.acq = false
        else t.ma.mode = s.ma.mode ∧ t.pl.acq = s.pl.acq
    | .reset => t.ma.mode = .usbIdle ∧ t.pl.acq = false
    | .startLink => t.ma.mode = .stream ∧ t.pl.acq = true
    | .startStorage => t.ma.mode = .usbStore ∧ t.pl.acq = true
    | .readStorage | .getRtc | .selfTest =>
      t.pl.acq = false ∧ t.ma.mode =
        (if s.ma.mode = .usbStore then Mode.usbIdle
         else if s.ma.mode = .portStore then Mode.portIdle else s.ma.mode)
    | .gainSet | .setRtc | .getModePortable | .readEeprom | .getSampleCount | .getGitHash =>
      t.ma.mode = s.ma.mode ∧ t.pl.acq = s.pl.acq
end

