-- ==== Sys2Proof/Laws/State.lean ====
section
/-! SUPPORT. What each named update of the state leaves in each field, true by computation. -/

namespace Sys2Proof.Machine

/-! ### `answer` -/

@[simp] theorem answer_params (a : Status) (s : State) : (answer a s).params = s.params := rfl
@[simp] theorem answer_inputs (a : Status) (s : State) : (answer a s).inputs = s.inputs := rfl
@[simp] theorem answer_ring (a : Status) (s : State) : (answer a s).ring = s.ring := rfl
@[simp] theorem answer_pl (a : Status) (s : State) : (answer a s).pl = s.pl := rfl
@[simp] theorem answer_ma (a : Status) (s : State) : (answer a s).ma = s.ma := rfl
@[simp] theorem answer_fs (a : Status) (s : State) : (answer a s).fs = s.fs := rfl
@[simp] theorem answer_store (a : Status) (s : State) : (answer a s).store = s.store := rfl
@[simp] theorem answer_med (a : Status) (s : State) : (answer a s).med = s.med := rfl
@[simp] theorem answer_env (a : Status) (s : State) : (answer a s).env = s.env := rfl
@[simp] theorem answer_out (a : Status) (s : State) : (answer a s).out = s.out := rfl
@[simp] theorem answer_status (a : Status) (s : State) : (answer a s).status = a := rfl
@[simp] theorem answer_fault (a : Status) (s : State) : (answer a s).fault = s.fault := rfl

/-! ### `emit` -/

@[simp] theorem emit_params (e : Event) (s : State) : (emit e s).params = s.params := rfl
@[simp] theorem emit_inputs (e : Event) (s : State) : (emit e s).inputs = s.inputs := rfl
@[simp] theorem emit_ring (e : Event) (s : State) : (emit e s).ring = s.ring := rfl
@[simp] theorem emit_pl (e : Event) (s : State) : (emit e s).pl = s.pl := rfl
@[simp] theorem emit_ma (e : Event) (s : State) : (emit e s).ma = s.ma := rfl
@[simp] theorem emit_fs (e : Event) (s : State) : (emit e s).fs = s.fs := rfl
@[simp] theorem emit_store (e : Event) (s : State) : (emit e s).store = s.store := rfl
@[simp] theorem emit_med (e : Event) (s : State) : (emit e s).med = s.med := rfl
@[simp] theorem emit_env (e : Event) (s : State) : (emit e s).env = s.env := rfl
@[simp] theorem emit_out (e : Event) (s : State) : (emit e s).out = s.out ++ [e] := rfl
@[simp] theorem emit_status (e : Event) (s : State) : (emit e s).status = s.status := rfl
@[simp] theorem emit_fault (e : Event) (s : State) : (emit e s).fault = s.fault := rfl

/-! ### `linkTx` -/

@[simp] theorem linkTx_params (d : Bytes) (s : State) : (linkTx d s).params = s.params := rfl
@[simp] theorem linkTx_inputs (d : Bytes) (s : State) : (linkTx d s).inputs = s.inputs := rfl
@[simp] theorem linkTx_ring (d : Bytes) (s : State) : (linkTx d s).ring = s.ring := rfl
@[simp] theorem linkTx_pl (d : Bytes) (s : State) : (linkTx d s).pl = s.pl := rfl
@[simp] theorem linkTx_ma (d : Bytes) (s : State) : (linkTx d s).ma = s.ma := rfl
@[simp] theorem linkTx_fs (d : Bytes) (s : State) : (linkTx d s).fs = s.fs := rfl
@[simp] theorem linkTx_store (d : Bytes) (s : State) : (linkTx d s).store = s.store := rfl
@[simp] theorem linkTx_med (d : Bytes) (s : State) : (linkTx d s).med = s.med := rfl
@[simp] theorem linkTx_env (d : Bytes) (s : State) : (linkTx d s).env = s.env := rfl
@[simp] theorem linkTx_out (d : Bytes) (s : State) : (linkTx d s).out = s.out ++ [.linkTx d] := rfl
@[simp] theorem linkTx_status (d : Bytes) (s : State) : (linkTx d s).status = s.status := rfl
@[simp] theorem linkTx_fault (d : Bytes) (s : State) : (linkTx d s).fault = s.fault := rfl

/-! ### `indicate` -/

@[simp] theorem indicate_params (e : Indication) (s : State) :
    (indicate e s).params = s.params :=
  rfl
@[simp] theorem indicate_inputs (e : Indication) (s : State) :
    (indicate e s).inputs = s.inputs :=
  rfl
@[simp] theorem indicate_ring (e : Indication) (s : State) : (indicate e s).ring = s.ring := rfl
@[simp] theorem indicate_pl (e : Indication) (s : State) : (indicate e s).pl = s.pl := rfl
@[simp] theorem indicate_ma (e : Indication) (s : State) : (indicate e s).ma = s.ma := rfl
@[simp] theorem indicate_fs (e : Indication) (s : State) : (indicate e s).fs = s.fs := rfl
@[simp] theorem indicate_store (e : Indication) (s : State) : (indicate e s).store = s.store := rfl
@[simp] theorem indicate_med (e : Indication) (s : State) : (indicate e s).med = s.med := rfl
@[simp] theorem indicate_env (e : Indication) (s : State) : (indicate e s).env = s.env := rfl
@[simp] theorem indicate_out (e : Indication) (s : State) :
    (indicate e s).out = s.out ++ [.ind e] :=
  rfl
@[simp] theorem indicate_status (e : Indication) (s : State) :
    (indicate e s).status = s.status :=
  rfl
@[simp] theorem indicate_fault (e : Indication) (s : State) : (indicate e s).fault = s.fault := rfl

/-! ### `rtcSet` -/

@[simp] theorem rtcSet_params (v : U32) (s : State) : (rtcSet v s).params = s.params := rfl
@[simp] theorem rtcSet_inputs (v : U32) (s : State) : (rtcSet v s).inputs = s.inputs := rfl
@[simp] theorem rtcSet_ring (v : U32) (s : State) : (rtcSet v s).ring = s.ring := rfl
@[simp] theorem rtcSet_pl (v : U32) (s : State) : (rtcSet v s).pl = s.pl := rfl
@[simp] theorem rtcSet_ma (v : U32) (s : State) : (rtcSet v s).ma = s.ma := rfl
@[simp] theorem rtcSet_fs (v : U32) (s : State) : (rtcSet v s).fs = s.fs := rfl
@[simp] theorem rtcSet_store (v : U32) (s : State) : (rtcSet v s).store = s.store := rfl
@[simp] theorem rtcSet_med (v : U32) (s : State) : (rtcSet v s).med = s.med := rfl
@[simp] theorem rtcSet_env (v : U32) (s : State) : (rtcSet v s).env = s.env := rfl
@[simp] theorem rtcSet_out (v : U32) (s : State) : (rtcSet v s).out = s.out ++ [.rtcSet v] := rfl
@[simp] theorem rtcSet_status (v : U32) (s : State) : (rtcSet v s).status = s.status := rfl
@[simp] theorem rtcSet_fault (v : U32) (s : State) : (rtcSet v s).fault = s.fault := rfl

/-! ### `setFault` -/

@[simp] theorem setFault_params (f : Fault) (s : State) : (setFault f s).params = s.params := rfl
@[simp] theorem setFault_inputs (f : Fault) (s : State) : (setFault f s).inputs = s.inputs := rfl
@[simp] theorem setFault_ring (f : Fault) (s : State) : (setFault f s).ring = s.ring := rfl
@[simp] theorem setFault_pl (f : Fault) (s : State) : (setFault f s).pl = s.pl := rfl
@[simp] theorem setFault_ma (f : Fault) (s : State) : (setFault f s).ma = s.ma := rfl
@[simp] theorem setFault_fs (f : Fault) (s : State) : (setFault f s).fs = s.fs := rfl
@[simp] theorem setFault_store (f : Fault) (s : State) : (setFault f s).store = s.store := rfl
@[simp] theorem setFault_med (f : Fault) (s : State) : (setFault f s).med = s.med := rfl
@[simp] theorem setFault_env (f : Fault) (s : State) : (setFault f s).env = s.env := rfl
@[simp] theorem setFault_out (f : Fault) (s : State) : (setFault f s).out = s.out := rfl
@[simp] theorem setFault_status (f : Fault) (s : State) : (setFault f s).status = s.status := rfl
@[simp] theorem setFault_fault (f : Fault) (s : State) : (setFault f s).fault = some f := rfl

/-! ### `setMode` -/

@[simp] theorem setMode_params (m : Mode) (s : State) : (setMode m s).params = s.params := rfl
@[simp] theorem setMode_inputs (m : Mode) (s : State) : (setMode m s).inputs = s.inputs := rfl
@[simp] theorem setMode_ring (m : Mode) (s : State) : (setMode m s).ring = s.ring := rfl
@[simp] theorem setMode_pl (m : Mode) (s : State) : (setMode m s).pl = s.pl := rfl
@[simp] theorem setMode_ma (m : Mode) (s : State) :
    (setMode m s).ma = { s.ma with mode := m } :=
  rfl
@[simp] theorem setMode_fs (m : Mode) (s : State) : (setMode m s).fs = s.fs := rfl
@[simp] theorem setMode_store (m : Mode) (s : State) : (setMode m s).store = s.store := rfl
@[simp] theorem setMode_med (m : Mode) (s : State) : (setMode m s).med = s.med := rfl
@[simp] theorem setMode_env (m : Mode) (s : State) : (setMode m s).env = s.env := rfl
@[simp] theorem setMode_out (m : Mode) (s : State) : (setMode m s).out = s.out := rfl
@[simp] theorem setMode_status (m : Mode) (s : State) : (setMode m s).status = s.status := rfl
@[simp] theorem setMode_fault (m : Mode) (s : State) : (setMode m s).fault = s.fault := rfl

/-! ### `clearBusy` -/

@[simp] theorem clearBusy_params (s : State) : (clearBusy s).params = s.params := rfl
@[simp] theorem clearBusy_inputs (s : State) : (clearBusy s).inputs = s.inputs := rfl
@[simp] theorem clearBusy_ring (s : State) : (clearBusy s).ring = s.ring := rfl
@[simp] theorem clearBusy_pl (s : State) : (clearBusy s).pl = s.pl := rfl
@[simp] theorem clearBusy_ma (s : State) : (clearBusy s).ma = s.ma := rfl
@[simp] theorem clearBusy_fs (s : State) : (clearBusy s).fs = s.fs := rfl
@[simp] theorem clearBusy_store (s : State) : (clearBusy s).store = s.store := rfl
@[simp] theorem clearBusy_med (s : State) : (clearBusy s).med = { s.med with busy := false } := rfl
@[simp] theorem clearBusy_env (s : State) : (clearBusy s).env = s.env := rfl
@[simp] theorem clearBusy_out (s : State) : (clearBusy s).out = s.out := rfl
@[simp] theorem clearBusy_status (s : State) : (clearBusy s).status = s.status := rfl
@[simp] theorem clearBusy_fault (s : State) : (clearBusy s).fault = s.fault := rfl

/-! ### `setBlock` -/

@[simp] theorem setBlock_params (i : Nat) (d : Bytes) (s : State) :
    (setBlock i d s).params = s.params :=
  rfl
@[simp] theorem setBlock_inputs (i : Nat) (d : Bytes) (s : State) :
    (setBlock i d s).inputs = s.inputs :=
  rfl
@[simp] theorem setBlock_ring (i : Nat) (d : Bytes) (s : State) :
    (setBlock i d s).ring = s.ring :=
  rfl
@[simp] theorem setBlock_pl (i : Nat) (d : Bytes) (s : State) : (setBlock i d s).pl = s.pl := rfl
@[simp] theorem setBlock_ma (i : Nat) (d : Bytes) (s : State) : (setBlock i d s).ma = s.ma := rfl
@[simp] theorem setBlock_fs (i : Nat) (d : Bytes) (s : State) : (setBlock i d s).fs = s.fs := rfl
@[simp] theorem setBlock_store (i : Nat) (d : Bytes) (s : State) :
    (setBlock i d s).store = s.store :=
  rfl
@[simp] theorem setBlock_med (i : Nat) (d : Bytes) (s : State) :
    (setBlock i d s).med = { s.med with
      cells := s.med.cells.write (i * s.params.blockBytes) (fit s.params.blockBytes d) } :=
  rfl
@[simp] theorem setBlock_env (i : Nat) (d : Bytes) (s : State) : (setBlock i d s).env = s.env := rfl
@[simp] theorem setBlock_out (i : Nat) (d : Bytes) (s : State) : (setBlock i d s).out = s.out := rfl
@[simp] theorem setBlock_status (i : Nat) (d : Bytes) (s : State) :
    (setBlock i d s).status = s.status :=
  rfl
@[simp] theorem setBlock_fault (i : Nat) (d : Bytes) (s : State) :
    (setBlock i d s).fault = s.fault :=
  rfl

/-! ### `halt` -/

@[simp] theorem halt_params (s : State) : (halt s).params = s.params := rfl
@[simp] theorem halt_inputs (s : State) : (halt s).inputs = s.inputs := rfl
@[simp] theorem halt_ring (s : State) : (halt s).ring = s.ring := rfl
@[simp] theorem halt_pl (s : State) : (halt s).pl = s.pl := rfl
@[simp] theorem halt_ma (s : State) :
    (halt s).ma = { s.ma with lastError := .formatFailure, halted := true } :=
  rfl
@[simp] theorem halt_fs (s : State) : (halt s).fs = s.fs := rfl
@[simp] theorem halt_store (s : State) : (halt s).store = s.store := rfl
@[simp] theorem halt_med (s : State) : (halt s).med = s.med := rfl
@[simp] theorem halt_env (s : State) : (halt s).env = s.env := rfl
@[simp] theorem halt_out (s : State) : (halt s).out = s.out := rfl
@[simp] theorem halt_status (s : State) : (halt s).status = s.status := rfl
@[simp] theorem halt_fault (s : State) : (halt s).fault = s.fault := rfl

/-! ### `rbInit` -/

@[simp] theorem rbInit_params (s : State) : (rbInit s).params = s.params := rfl
@[simp] theorem rbInit_inputs (s : State) : (rbInit s).inputs = s.inputs := rfl
@[simp] theorem rbInit_ring (s : State) : (rbInit s).ring = ⟨true, 0, false, 0, false⟩ := rfl
@[simp] theorem rbInit_pl (s : State) : (rbInit s).pl = s.pl := rfl
@[simp] theorem rbInit_ma (s : State) : (rbInit s).ma = s.ma := rfl
@[simp] theorem rbInit_fs (s : State) : (rbInit s).fs = s.fs := rfl
@[simp] theorem rbInit_store (s : State) : (rbInit s).store = s.store := rfl
@[simp] theorem rbInit_med (s : State) : (rbInit s).med = s.med := rfl
@[simp] theorem rbInit_env (s : State) : (rbInit s).env = s.env := rfl
@[simp] theorem rbInit_out (s : State) : (rbInit s).out = s.out := rfl
@[simp] theorem rbInit_status (s : State) : (rbInit s).status = s.status := rfl
@[simp] theorem rbInit_fault (s : State) : (rbInit s).fault = s.fault := rfl

/-! ### `plStop` -/

@[simp] theorem plStop_params (s : State) : (plStop s).params = s.params := rfl
@[simp] theorem plStop_inputs (s : State) : (plStop s).inputs = s.inputs := rfl
@[simp] theorem plStop_ring (s : State) : (plStop s).ring = s.ring := rfl
@[simp] theorem plStop_pl (s : State) :
    (plStop s).pl = { s.pl with acq := false, sdState := .idle } :=
  rfl
@[simp] theorem plStop_ma (s : State) : (plStop s).ma = s.ma := rfl
@[simp] theorem plStop_fs (s : State) : (plStop s).fs = s.fs := rfl
@[simp] theorem plStop_store (s : State) : (plStop s).store = s.store := rfl
@[simp] theorem plStop_med (s : State) : (plStop s).med = s.med := rfl
@[simp] theorem plStop_env (s : State) : (plStop s).env = s.env := rfl
@[simp] theorem plStop_out (s : State) : (plStop s).out = s.out := rfl
@[simp] theorem plStop_status (s : State) : (plStop s).status = s.status := rfl
@[simp] theorem plStop_fault (s : State) : (plStop s).fault = s.fault := rfl

/-! ### `plBegin` -/

@[simp] theorem plBegin_params (s : State) : (plBegin s).params = s.params := rfl
@[simp] theorem plBegin_inputs (s : State) : (plBegin s).inputs = s.inputs := rfl
@[simp] theorem plBegin_ring (s : State) : (plBegin s).ring = ⟨true, 0, false, 0, false⟩ := rfl
@[simp] theorem plBegin_pl (s : State) :
    (plBegin s).pl = ⟨true, .calibrating, s.pl.gain, Config.minGain, .gnd, .gndRef, 0, 0, .idle⟩ :=
  rfl
@[simp] theorem plBegin_ma (s : State) : (plBegin s).ma = s.ma := rfl
@[simp] theorem plBegin_fs (s : State) : (plBegin s).fs = s.fs := rfl
@[simp] theorem plBegin_store (s : State) : (plBegin s).store = s.store := rfl
@[simp] theorem plBegin_med (s : State) : (plBegin s).med = s.med := rfl
@[simp] theorem plBegin_env (s : State) : (plBegin s).env = s.env := rfl
@[simp] theorem plBegin_out (s : State) : (plBegin s).out = s.out := rfl
@[simp] theorem plBegin_status (s : State) : (plBegin s).status = s.status := rfl
@[simp] theorem plBegin_fault (s : State) : (plBegin s).fault = s.fault := rfl

/-! ### `boot` -/

@[simp] theorem boot_params (s : State) : (boot s).params = s.params := rfl
@[simp] theorem boot_inputs (s : State) : (boot s).inputs = s.inputs := rfl
@[simp] theorem boot_ring (s : State) : (boot s).ring = ⟨true, 0, false, 0, false⟩ := rfl
@[simp] theorem boot_pl (s : State) :
    (boot s).pl = ⟨false, .calibrating, s.params.gainDefault, Config.minGain, .gnd, .gndRef, 0, 0, .idle⟩ :=
  rfl
@[simp] theorem boot_ma (s : State) :
    (boot s).ma = ⟨.usbIdle, false, s.ma.lastError, false, []⟩ :=
  rfl
@[simp] theorem boot_fs (s : State) :
    (boot s).fs = { s.fs with isOpen := false, dirty := false } :=
  rfl
@[simp] theorem boot_store (s : State) : (boot s).store = s.store := rfl
@[simp] theorem boot_med (s : State) : (boot s).med = s.med := rfl
@[simp] theorem boot_env (s : State) : (boot s).env = s.env := rfl
@[simp] theorem boot_out (s : State) : (boot s).out = s.out := rfl
@[simp] theorem boot_status (s : State) : (boot s).status = s.status := rfl
@[simp] theorem boot_fault (s : State) : (boot s).fault = s.fault := rfl

/-! ### `warmReset` -/

@[simp] theorem warmReset_params (s : State) : (warmReset s).params = s.params := rfl
@[simp] theorem warmReset_inputs (s : State) : (warmReset s).inputs = s.inputs := rfl
@[simp] theorem warmReset_ring (s : State) : (warmReset s).ring = ⟨true, 0, false, 0, false⟩ := rfl
@[simp] theorem warmReset_pl (s : State) :
    (warmReset s).pl = ⟨false, .calibrating, s.params.gainDefault, Config.minGain, .gnd, .gndRef, 0, 0, .idle⟩ :=
  rfl
@[simp] theorem warmReset_ma (s : State) :
    (warmReset s).ma = ⟨.usbIdle, false, s.ma.lastError, false, []⟩ :=
  rfl
@[simp] theorem warmReset_fs (s : State) :
    (warmReset s).fs = { s.fs with isOpen := false, dirty := false } :=
  rfl
@[simp] theorem warmReset_store (s : State) : (warmReset s).store = s.store := rfl
@[simp] theorem warmReset_med (s : State) : (warmReset s).med = s.med := rfl
@[simp] theorem warmReset_env (s : State) : (warmReset s).env = s.env := rfl
@[simp] theorem warmReset_out (s : State) : (warmReset s).out = s.out := rfl
@[simp] theorem warmReset_status (s : State) : (warmReset s).status = s.status := rfl
@[simp] theorem warmReset_fault (s : State) : (warmReset s).fault = s.fault := rfl

end Sys2Proof.Machine
end

