-- ==== Sys2Proof/Laws/Environment.lean ====
section
/-! SUPPORT. The environment's draws: each takes the next answer of its tape. -/

namespace Sys2Proof.Machine

theorem Tape.next_eq {α : Type} (t : Tape α) (free : Nat → α) :
    t.next free = (t.peek free 0, t.advance 1) := by
  obtain ⟨script, taken⟩ := t
  cases script <;> simp [Tape.next, Tape.peek, Tape.advance]

@[simp] theorem Tape.peek_advance {α : Type} (t : Tape α) (free : Nat → α) (n k : Nat) :
    (t.advance n).peek free k = t.peek free (n + k) := by
  simp [Tape.peek, Tape.advance, Nat.add_assoc]

@[simp] theorem Tape.advance_advance {α : Type} (t : Tape α) (m n : Nat) :
    (t.advance m).advance n = t.advance (m + n) := by
  simp [Tape.advance, Nat.add_assoc]

@[simp] theorem Tape.advance_zero {α : Type} (t : Tape α) : t.advance 0 = t := by
  simp [Tape.advance]

theorem drawMediumOk_eq (s : State) :
    drawMediumOk s = (s.env.mediumOk.peek Config.freeMediumOk 0, { s with env := mediumTaken 1 s }) := by
  simp [drawMediumOk, Tape.next_eq, mediumTaken]

theorem drawStep_eq (s : State) :
    drawStep s = (s.env.stepAnswer.peek Config.freeStep 0,
      { s with env := { s.env with stepAnswer := s.env.stepAnswer.advance 1 } }) := by
  simp [drawStep, Tape.next_eq]

theorem drawBlock_eq (s : State) :
    drawBlock s = (fit s.params.blockBytes (s.env.block.peek Config.freeBlock 0),
      { s with env := { s.env with block := s.env.block.advance 1 } }) := by
  simp [drawBlock, Tape.next_eq]

theorem drawLinkReady_eq (s : State) :
    drawLinkReady s = (s.env.linkReady.peek Config.freeLinkReady 0,
      { s with env := { s.env with linkReady := s.env.linkReady.advance 1 } }) := by
  simp [drawLinkReady, Tape.next_eq]

theorem rtcNow_eq (s : State) :
    rtcNow s = (s.env.rtc.peek Config.freeRtc 0,
      { s with env := { s.env with rtc := s.env.rtc.advance 1 } }) := by
  simp [rtcNow, Tape.next_eq]

theorem drawSampleCount_eq (s : State) :
    drawSampleCount s = (s.env.sampleCount.peek Config.freeSampleCount 0,
      { s with env := { s.env with sampleCount := s.env.sampleCount.advance 1 } }) := by
  simp [drawSampleCount, Tape.next_eq]

theorem driverSelfTest_eq (s : State) :
    driverSelfTest s = ((s.env.driverTest.peek Config.freeDriverTest 0).zeroExtend 8,
      { s with env := { s.env with driverTest := s.env.driverTest.advance 1 } }) := by
  simp [driverSelfTest, Tape.next_eq]

theorem drawResetAck_eq (s : State) :
    drawResetAck s = (s.env.resetAck.peek Config.freeResetAck 0,
      { s with env := { s.env with resetAck := s.env.resetAck.advance 1 } }) := by
  simp [drawResetAck, Tape.next_eq]

theorem drawColor_eq (s : State) :
    drawColor s = (s.env.color.peek Config.freeColor 0,
      { s with env := { s.env with color := s.env.color.advance 1 } }) := by
  simp [drawColor, Tape.next_eq]

theorem drawSeq_eq (s : State) :
    drawSeq s = (s.env.seq.peek Config.freeSeq 0,
      { s with env := { s.env with seq := s.env.seq.advance 1 } }) := by
  simp [drawSeq, Tape.next_eq]

theorem eepromRead_eq (a b : U32) (s : State) :
    eepromRead a b s = (s.env.eeprom.peek (Config.freeEeprom a b) 0,
      { s with
        env := { s.env with eeprom := s.env.eeprom.advance 1 }
        out := s.out ++ [.eepromRead a b (s.env.eeprom.peek (Config.freeEeprom a b) 0)] }) := by
  simp [eepromRead, Tape.next_eq, emit]

/-- The mode colour, if any, is the last thing a step does before its acknowledgment: it appends
`colorEvents` of the state the step began in, as long as no colour has been drawn since. -/
theorem showMode_eq (s t : State) (h : t.env.color = s.env.color) :
    showMode s.ma.mode t = { t with
      env := { t.env with color := colorTaken s t.ma.mode }
      out := t.out ++ colorEvents s t.ma.mode } := by
  by_cases hm : t.ma.mode = s.ma.mode
  · simp [showMode, hm, colorTaken, colorEvents, ← h]
  · have hm' : ¬ s.ma.mode = t.ma.mode := fun e => hm e.symm
    simp only [showMode, hm, if_false, drawColor_eq, colorTaken, hm', colorEvents, ← h]
    cases t.env.color.peek Config.freeColor 0 <;> simp [indicate, emit]

theorem mediumAnswersOk_succ {n : Nat} {s : State} (h : mediumAnswersOk (n + 1) s) :
    s.env.mediumOk.peek Config.freeMediumOk 0 = true ∧
      mediumAnswersOk n { s with env := mediumTaken 1 s } := by
  refine ⟨h 0 (by omega), fun k hk => ?_⟩
  have := h (1 + k) (by omega)
  simpa [mediumTaken] using this

end Sys2Proof.Machine
end

