-- ==== Sys2Proof/Laws/Bytes.lean ====
section
/-! SUPPORT. Little-endian byte strings, slices and cutting to a length. -/

namespace Sys2Proof

@[simp] theorem leBytes_length (n v : Nat) : (leBytes n v).length = n := by
  induction n generalizing v with
  | zero => rfl
  | succ n ih => simp [leBytes, ih]

theorem leNat_leBytes (n v : Nat) : leNat (leBytes n v) = v % 256 ^ n := by
  induction n generalizing v with
  | zero => simp [leBytes, leNat, Nat.mod_one]
  | succ n ih =>
    rw [leBytes, leNat, ih, BitVec.toNat_ofNat, Nat.pow_succ' (m := 256), Nat.mod_mul]

theorem leNat_lt (d : Bytes) : leNat d < 256 ^ d.length := by
  induction d with
  | nil => simp [leNat]
  | cons b d ih =>
    have := b.isLt
    simp only [leNat, List.length_cons, Nat.pow_succ]
    omega

theorem leBytes_leNat (d : Bytes) : leBytes d.length (leNat d) = d := by
  induction d with
  | nil => rfl
  | cons b d ih =>
    have hb := b.isLt
    have h1 : (b.toNat + 256 * leNat d) / 256 = leNat d := by omega
    have h2 : BitVec.ofNat 8 (b.toNat + 256 * leNat d) = b := by
      apply BitVec.eq_of_toNat_eq
      simp only [BitVec.toNat_ofNat]
      omega
    simp [leBytes, leNat, h1, h2, ih]

@[simp] theorem le32_length (v : U32) : (le32 v).length = 4 := by simp [le32]

@[simp] theorem zeros_length (n : Nat) : (zeros n).length = n := by simp [zeros]

@[simp] theorem fit_length (n : Nat) (d : Bytes) : (fit n d).length = n := by
  simp [fit]; omega

/-- Cutting to its own length changes nothing. -/
theorem fit_eq_self {n : Nat} {d : Bytes} (h : d.length = n) : fit n d = d := by
  simp [fit, ← h, zeros]

@[simp] theorem fit_fit (n : Nat) (d : Bytes) : fit n (fit n d) = fit n d :=
  fit_eq_self (fit_length n d)

/-- The field at byte `i` of a layout, where `i` is the length of what stands before it. -/
theorem u32At_append {a c : Bytes} {v : U32} {i : Nat} (h : a.length = i) :
    u32At (a ++ (le32 v ++ c)) i = v := by
  have : slice (a ++ (le32 v ++ c)) i 4 = le32 v := by
    simp [slice, ← h]
  rw [u32At, this, le32, leNat_leBytes]
  apply BitVec.eq_of_toNat_eq
  have := v.isLt
  simp only [BitVec.toNat_ofNat]
  omega

end Sys2Proof
end

