-- ==== Sys2Proof/Laws/Memory.lean ====
section
/-! SUPPORT. The laws of a byte memory: read after write, the frame of a write, the canonical form. -/

namespace Sys2Proof.Machine

theorem Memory.read?_append (m k : Memory) (a : Nat) :
    Memory.read? (m ++ k) a = (Memory.read? m a).or (Memory.read? k a) := by
  induction m with
  | nil => rfl
  | cons c m ih =>
    simp only [List.cons_append, Memory.read?]
    split
    · rfl
    · exact ih

theorem Memory.read?_filter_true {m : Memory} {p : Host.Cell → Bool} {a : Nat}
    (h : ∀ v, p (a, v) = true) : Memory.read? (m.filter p) a = Memory.read? m a := by
  induction m with
  | nil => rfl
  | cons c m ih =>
    obtain ⟨b, v⟩ := c
    by_cases hp : p (b, v) = true
    · simp only [List.filter_cons_of_pos hp, Memory.read?, ih]
    · rw [List.filter_cons_of_neg hp, ih, Memory.read?, if_neg]
      rintro rfl
      exact hp (h v)

theorem Memory.read?_filter_false {m : Memory} {p : Host.Cell → Bool} {a : Nat}
    (h : ∀ v, p (a, v) = false) : Memory.read? (m.filter p) a = none := by
  induction m with
  | nil => rfl
  | cons c m ih =>
    obtain ⟨b, v⟩ := c
    by_cases hp : p (b, v) = true
    · rw [List.filter_cons_of_pos hp, Memory.read?, if_neg]
      · exact ih
      · rintro rfl
        simp [h v] at hp
    · rw [List.filter_cons_of_neg hp, ih]

theorem cellsFrom_read? (d : Bytes) (a x : Nat) :
    Memory.read? (cellsFrom a d) x = if a ≤ x then d[x - a]? else none := by
  induction d generalizing a with
  | nil => simp [cellsFrom, Memory.read?]
  | cons v d ih =>
    simp only [cellsFrom, Memory.read?, ih]
    by_cases h : x = a
    · simp [h]
    · by_cases h2 : a ≤ x
      · have : x - a = (x - (a + 1)) + 1 := by omega
        have h3 : a + 1 ≤ x := by omega
        simp [h, h2, h3, this]
      · have h3 : ¬ a + 1 ≤ x := by omega
        simp [h, h2, h3]

/-- Read after write. -/
theorem Memory.read?_write (m : Memory) (a : Nat) (d : Bytes) (x : Nat) :
    (m.write a d).read? x =
      if a ≤ x ∧ x < a + d.length then d[x - a]? else Memory.read? m x := by
  rw [Memory.write, Memory.read?_append, Memory.read?_append, cellsFrom_read?]
  by_cases h1 : x < a
  · rw [Memory.read?_filter_true (by simp [h1]), if_neg (by omega), if_neg (by omega),
      Memory.read?_filter_false (by simp; omega)]
    simp
  · rw [Memory.read?_filter_false (by simp; omega), if_pos (by omega)]
    by_cases h2 : x < a + d.length
    · rw [if_pos (by omega), List.getElem?_eq_getElem (by omega)]
      simp
    · rw [if_neg (by omega), List.getElem?_eq_none (by omega),
        Memory.read?_filter_true (by simp; omega)]
      simp

theorem cellsFrom_bounds (d : Bytes) (a : Nat) :
    ∀ c ∈ cellsFrom a d, a ≤ c.1 ∧ c.1 < a + d.length := by
  induction d generalizing a with
  | nil => simp [cellsFrom]
  | cons v d ih =>
    intro c hc
    simp only [cellsFrom, List.mem_cons] at hc
    rcases hc with rfl | hc
    · simp
    · have := ih _ _ hc
      simp only [List.length_cons]
      omega

theorem cellsFrom_sorted (d : Bytes) (a : Nat) :
    (cellsFrom a d).Pairwise (fun x y => x.1 < y.1) := by
  induction d generalizing a with
  | nil => simp [cellsFrom]
  | cons v d ih =>
    refine List.pairwise_cons.2 ⟨fun c hc => ?_, ih _⟩
    have := cellsFrom_bounds _ _ _ hc
    simp only
    omega

/-- A write inside the memory keeps the canonical form. -/
theorem Memory.wf_write {size a : Nat} {m : Memory} {d : Bytes} (h : Memory.wf size m)
    (hd : a + d.length ≤ size) : Memory.wf size (m.write a d) := by
  obtain ⟨hs, hb⟩ := h
  constructor
  · rw [Memory.write, List.pairwise_append, List.pairwise_append]
    refine ⟨⟨hs.filter _, cellsFrom_sorted _ _, fun x hx y hy => ?_⟩, hs.filter _,
      fun x hx y hy => ?_⟩
    · have := cellsFrom_bounds _ _ _ hy
      simp only [List.mem_filter, decide_eq_true_eq] at hx
      omega
    · simp only [List.mem_append, List.mem_filter, decide_eq_true_eq] at hx hy
      rcases hx with hx | hx
      · omega
      · have := cellsFrom_bounds _ _ _ hx
        omega
  · intro c hc
    simp only [Memory.write, List.mem_append, List.mem_filter] at hc
    rcases hc with (hc | hc) | hc
    · exact hb _ hc.1
    · have := cellsFrom_bounds _ _ _ hc
      omega
    · exact hb _ hc.1

@[simp] theorem Memory.readBytes_length (m : Memory) (f : Nat → Byte) (a n : Nat) :
    (m.readBytes f a n).length = n := by simp [Memory.readBytes]

/-- The byte at place `i` of a read of several bytes. -/
theorem Memory.readBytes_getElem? (m : Memory) (f : Nat → Byte) (a n i : Nat) :
    (m.readBytes f a n)[i]? =
      if i < n then some ((Memory.read? m (a + i)).getD (f (a + i))) else none := by
  simp only [Memory.readBytes, List.getElem?_map]
  by_cases h : i < n <;> simp [h]

/-- Reading back exactly what was written. -/
theorem Memory.readBytes_write_self (m : Memory) (f : Nat → Byte) (a : Nat) (d : Bytes) :
    (m.write a d).readBytes f a d.length = d := by
  apply List.ext_getElem?
  intro i
  rw [Memory.readBytes_getElem?, Memory.read?_write]
  by_cases h : i < d.length
  · simp [h]
  · simp [h]

/-- A write leaves a disjoint read alone. -/
theorem Memory.readBytes_write_disjoint (m : Memory) (f : Nat → Byte) (a b n : Nat) (d : Bytes)
    (h : b + n ≤ a ∨ a + d.length ≤ b) :
    (m.write a d).readBytes f b n = m.readBytes f b n := by
  apply List.ext_getElem?
  intro i
  rw [Memory.readBytes_getElem?, Memory.readBytes_getElem?, Memory.read?_write]
  by_cases hi : i < n
  · simp only [if_pos hi]
    rw [if_neg (by omega)]
  · simp [hi]

end Sys2Proof.Machine
end

