-- ==== Sys2Proof/Laws/Medium.lean ====
section
/-! SUPPORT. The medium port: what each transfer answers and leaves, and what no transfer touches. -/

namespace Sys2Proof.Machine

/-! ### Blocks and bytes -/

@[simp] theorem blockAt_length (s : State) (i : Nat) :
    (blockAt s i).length = s.params.blockBytes := by simp [blockAt]

theorem blockAt_getElem? (s : State) (i j : Nat) :
    (blockAt s i)[j]? =
      if j < s.params.blockBytes then some (mediumByte s (i * s.params.blockBytes + j)) else none := by
  rw [blockAt, Memory.readBytes_getElem?]
  rfl

/-- Two states with the same bytes in a block have the same block. -/
theorem blockAt_congr {s t : State} {i : Nat} (hp : t.params.blockBytes = s.params.blockBytes)
    (h : ∀ j < s.params.blockBytes, mediumByte t (i * s.params.blockBytes + j) =
      mediumByte s (i * s.params.blockBytes + j)) : blockAt t i = blockAt s i := by
  apply List.ext_getElem?
  intro j
  rw [blockAt_getElem?, blockAt_getElem?, hp]
  by_cases hj : j < s.params.blockBytes
  · simp [hj, h j hj]
  · simp [hj]

theorem mediumByte_setBlock (i : Nat) (d : Bytes) (s : State) (a : Nat) :
    mediumByte (setBlock i d s) a =
      if i * s.params.blockBytes ≤ a ∧ a < (i + 1) * s.params.blockBytes then
        (fit s.params.blockBytes d).getD (a - i * s.params.blockBytes) 0
      else mediumByte s a := by
  have hmul : (i + 1) * s.params.blockBytes = i * s.params.blockBytes + s.params.blockBytes := by
    rw [Nat.add_mul, Nat.one_mul]
  simp only [mediumByte, setBlock_med, Memory.read?_write, fit_length, hmul]
  split
  · rename_i h
    rw [List.getD_eq_getElem?_getD, List.getElem?_eq_getElem (by simp; omega)]
    rfl
  · rfl

theorem sameOutsideBlock_setBlock (i : Nat) (d : Bytes) (s : State) :
    sameOutsideBlock i s (setBlock i d s) := by
  intro a ha
  rw [mediumByte_setBlock, if_neg (by omega)]

@[simp] theorem blockAt_setBlock_self (i : Nat) (d : Bytes) (s : State) :
    blockAt (setBlock i d s) i = fit s.params.blockBytes d := by
  have h := Memory.readBytes_write_self s.med.cells Config.mediumPor (i * s.params.blockBytes)
    (fit s.params.blockBytes d)
  rw [fit_length] at h
  simpa [blockAt] using h

theorem blockAt_setBlock_ne {i k : Nat} (d : Bytes) (s : State) (h : k ≠ i) :
    blockAt (setBlock i d s) k = blockAt s k := by
  have hB := Nat.zero_le s.params.blockBytes
  apply Memory.readBytes_write_disjoint
  simp only [fit_length, setBlock_params]
  rcases Nat.lt_or_gt_of_ne h with h | h
  · left
    have := Nat.mul_le_mul_right s.params.blockBytes (show k + 1 ≤ i by omega)
    rw [Nat.add_mul, Nat.one_mul] at this
    exact this
  · right
    have := Nat.mul_le_mul_right s.params.blockBytes (show i + 1 ≤ k by omega)
    rw [Nat.add_mul, Nat.one_mul] at this
    exact this

/-! ### An abandoned write -/

@[simp] theorem endOutstanding_idle {s : State} (h : s.med.busy = false) : endOutstanding s = s := by
  simp [endOutstanding, h]

/-- What the medium does to end an abandoned write. -/
theorem endOutstanding_busy {s : State} (h : s.med.busy = true) :
    endOutstanding s = clearBusy (setBlock s.med.target (s.env.block.peek Config.freeBlock 0)
      { s with env := { s.env with block := s.env.block.advance 1 } }) := by
  simp [endOutstanding, h, drawBlock_eq, setBlock, clearBusy]

@[simp] theorem endOutstanding_notBusy (s : State) : (endOutstanding s).med.busy = false := by
  by_cases h : s.med.busy = true
  · rw [endOutstanding_busy h]; rfl
  · rw [endOutstanding_idle (by simpa using h)]; simpa using h

/-! ### Block transfers with no write outstanding -/

theorem blkRead_ok {s : State} {i : Nat} (hb : s.med.busy = false) (hi : i < s.params.mediumBlocks)
    (hok : s.env.mediumOk.peek Config.freeMediumOk 0 = true) :
    blkRead i s = (some (blockAt s i), { s with
      env := mediumTaken 1 s, out := s.out ++ [.blkRead i (some (blockAt s i))] }) := by
  simp [blkRead, hb, drawMediumOk_eq, hok, Nat.not_le.2 hi, emit, blockAt]

theorem blkRead_err {s : State} {i : Nat} (hb : s.med.busy = false) (hi : i < s.params.mediumBlocks)
    (hok : s.env.mediumOk.peek Config.freeMediumOk 0 = false) :
    blkRead i s = (none, { s with env := mediumTaken 1 s, out := s.out ++ [.blkRead i none] }) := by
  simp [blkRead, hb, drawMediumOk_eq, hok, Nat.not_le.2 hi, emit]

theorem blkRead_outside {s : State} {i : Nat} (hb : s.med.busy = false)
    (hi : s.params.mediumBlocks ≤ i) :
    blkRead i s = (none, { s with out := s.out ++ [.blkRead i none] }) := by
  simp [blkRead, hb, hi, emit]

theorem blkWrite_ok {s : State} {i : Nat} {d : Bytes} (hb : s.med.busy = false)
    (hi : i < s.params.mediumBlocks)
    (hok : s.env.mediumOk.peek Config.freeMediumOk 0 = true) :
    blkWrite i d s = (true, { setBlock i d s with
      env := mediumTaken 1 s, out := s.out ++ [.blkWrite i d true] }) := by
  simp [blkWrite, hb, drawMediumOk_eq, hok, Nat.not_le.2 hi, emit, setBlock]

theorem blkWrite_err {s : State} {i : Nat} {d : Bytes} (hb : s.med.busy = false)
    (hi : i < s.params.mediumBlocks)
    (hok : s.env.mediumOk.peek Config.freeMediumOk 0 = false) :
    blkWrite i d s = (false, { setBlock i (s.env.block.peek Config.freeBlock 0) s with
      env := { mediumTaken 1 s with block := s.env.block.advance 1 }
      out := s.out ++ [.blkWrite i d false] }) := by
  simp [blkWrite, hb, drawMediumOk_eq, drawBlock_eq, hok, Nat.not_le.2 hi, emit, setBlock,
    mediumTaken]

theorem blkWrite_outside {s : State} {i : Nat} {d : Bytes} (hb : s.med.busy = false)
    (hi : s.params.mediumBlocks ≤ i) :
    blkWrite i d s = (false, { s with out := s.out ++ [.blkWrite i d false] }) := by
  simp [blkWrite, hb, hi, emit]

theorem blkBegin_ok {s : State} {i : Nat} {d : Bytes} (hb : s.med.busy = false)
    (hi : i < s.params.mediumBlocks)
    (hok : s.env.mediumOk.peek Config.freeMediumOk 0 = true) :
    blkBegin i d s = (true, { s with
      med := { s.med with busy := true, target := i, data := fit s.params.blockBytes d }
      env := mediumTaken 1 s
      out := s.out ++ [.blkBegin i d true] }) := by
  simp [blkBegin, hb, drawMediumOk_eq, hok, Nat.not_le.2 hi, emit]

theorem blkBegin_err {s : State} {i : Nat} {d : Bytes} (hb : s.med.busy = false)
    (hi : i < s.params.mediumBlocks)
    (hok : s.env.mediumOk.peek Config.freeMediumOk 0 = false) :
    blkBegin i d s =
      (false, { s with env := mediumTaken 1 s, out := s.out ++ [.blkBegin i d false] }) := by
  simp [blkBegin, hb, drawMediumOk_eq, hok, Nat.not_le.2 hi, emit]

theorem blkBegin_outside {s : State} {i : Nat} {d : Bytes} (hb : s.med.busy = false)
    (hi : s.params.mediumBlocks ≤ i) :
    blkBegin i d s = (false, { s with out := s.out ++ [.blkBegin i d false] }) := by
  simp [blkBegin, hb, hi, emit]

/-- Everything the end of an abandoned write does, whether there was one or not. -/
theorem endOutstanding_eq (s : State) :
    endOutstanding s = { s with
      med := { s.med with cells := (endOutstanding s).med.cells, busy := false }
      env := { s.env with block := abandonedTape s } } ∧
    abandonedEnded s (endOutstanding s) := by
  cases h : s.med.busy
  · rw [endOutstanding_idle h]
    refine ⟨?_, by rw [abandonedEnded, if_neg (by simp [h])]⟩
    rw [abandonedTape, if_neg (by simp [h]), ← h]
  · rw [endOutstanding_busy h]
    refine ⟨by simp [abandonedTape, h, clearBusy, setBlock], ?_⟩
    rw [abandonedEnded, if_pos h]
    exact ⟨blockAt_setBlock_self s.med.target (s.env.block.peek Config.freeBlock 0) s,
      sameOutsideBlock_setBlock s.med.target (s.env.block.peek Config.freeBlock 0) s⟩

/-! ### What every transfer keeps -/

/-- The events of the medium port. -/
def isMediumEvent (e : Event) : Bool :=
  match e with
  | .blkRead _ _ => true
  | .blkWrite _ _ _ => true
  | .blkBegin _ _ _ => true
  | .blkStep _ => true
  | .linkTx _ => false
  | .ind _ => false
  | .rtcSet _ => false
  | .eepromRead _ _ _ => false
  | .memWrite _ _ => false
  | .memRead _ _ _ => false

/-- The medium's part of the invariant. -/
def MediumInv (s : State) : Prop :=
  Memory.wf (s.params.mediumBlocks * s.params.blockBytes) s.med.cells ∧
  (s.med.busy = true →
    s.med.target < s.params.mediumBlocks ∧ s.med.data.length = s.params.blockBytes)

/-- A piece of a step that reaches nothing but the medium, its draws and the history. -/
structure MediumStep (s t : State) : Prop where
  eq : t = { s with med := t.med, env := t.env, out := t.out }
  color : t.env.color = s.env.color
  out : ∃ es, t.out = s.out ++ es ∧ ∀ e ∈ es, isMediumEvent e = true
  inv : MediumInv s → MediumInv t

theorem MediumStep.refl (s : State) : MediumStep s s :=
  ⟨rfl, rfl, ⟨[], by simp⟩, id⟩

theorem MediumStep.trans {s t u : State} (h : MediumStep s t) (k : MediumStep t u) :
    MediumStep s u := by
  obtain ⟨es, he, hes⟩ := h.out
  obtain ⟨fs, hf, hfs⟩ := k.out
  refine ⟨?_, k.color.trans h.color, ⟨es ++ fs, by rw [hf, he, List.append_assoc], ?_⟩,
    fun i => k.inv (h.inv i)⟩
  · have := k.eq
    rw [h.eq] at this
    exact this
  · intro e hm
    rcases List.mem_append.1 hm with hm | hm
    · exact hes e hm
    · exact hfs e hm

theorem MediumInv.setBlock {s : State} {i : Nat} {d : Bytes} (h : MediumInv s)
    (hi : i < s.params.mediumBlocks) : MediumInv (setBlock i d s) := by
  refine ⟨Memory.wf_write h.1 ?_, h.2⟩
  rw [fit_length]
  have := Nat.mul_le_mul_right s.params.blockBytes (show i + 1 ≤ s.params.mediumBlocks by omega)
  rw [Nat.add_mul, Nat.one_mul] at this
  exact this

theorem endOutstanding_step (s : State) : MediumStep s (endOutstanding s) := by
  by_cases h : s.med.busy = true
  · rw [endOutstanding_busy h]
    refine ⟨rfl, rfl, ⟨[], by simp⟩, fun hi => ?_⟩
    have h2 := MediumInv.setBlock (d := s.env.block.peek Config.freeBlock 0) hi (hi.2 h).1
    exact ⟨h2.1, by simp⟩
  · rw [endOutstanding_idle (by simpa using h)]
    exact .refl s

theorem blkRead_endOutstanding (i : Nat) (s : State) :
    blkRead i s = blkRead i (endOutstanding s) := by simp [blkRead]

theorem blkWrite_endOutstanding (i : Nat) (d : Bytes) (s : State) :
    blkWrite i d s = blkWrite i d (endOutstanding s) := by simp [blkWrite]

theorem blkBegin_endOutstanding (i : Nat) (d : Bytes) (s : State) :
    blkBegin i d s = blkBegin i d (endOutstanding s) := by simp [blkBegin]

/-- A read leaves no write outstanding. -/
theorem blkRead_step (i : Nat) (s : State) :
    MediumStep s (blkRead i s).2 ∧ (blkRead i s).2.med.busy = false := by
  rw [blkRead_endOutstanding]
  have h0 := endOutstanding_step s
  have hb := endOutstanding_notBusy s
  refine ⟨h0.trans ?_, ?_⟩ <;>
  · by_cases hi : i < (endOutstanding s).params.mediumBlocks
    · cases hok : (endOutstanding s).env.mediumOk.peek Config.freeMediumOk 0
      · rw [blkRead_err hb hi hok]
        first | exact hb | exact ⟨rfl, rfl, ⟨_, rfl, by simp [isMediumEvent]⟩, id⟩
      · rw [blkRead_ok hb hi hok]
        first | exact hb | exact ⟨rfl, rfl, ⟨_, rfl, by simp [isMediumEvent]⟩, id⟩
    · rw [blkRead_outside hb (by omega)]
      first | exact hb | exact ⟨rfl, rfl, ⟨_, rfl, by simp [isMediumEvent]⟩, id⟩

/-- A write leaves no pipelined write outstanding. -/
theorem blkWrite_step (i : Nat) (d : Bytes) (s : State) :
    MediumStep s (blkWrite i d s).2 ∧ (blkWrite i d s).2.med.busy = false := by
  rw [blkWrite_endOutstanding]
  have h0 := endOutstanding_step s
  have hb := endOutstanding_notBusy s
  refine ⟨h0.trans ?_, ?_⟩ <;>
  · by_cases hi : i < (endOutstanding s).params.mediumBlocks
    · cases hok : (endOutstanding s).env.mediumOk.peek Config.freeMediumOk 0
      · rw [blkWrite_err hb hi hok]
        first
          | exact hb
          | exact ⟨rfl, rfl, ⟨_, rfl, by simp [isMediumEvent]⟩, fun h => h.setBlock hi⟩
      · rw [blkWrite_ok hb hi hok]
        first
          | exact hb
          | exact ⟨rfl, rfl, ⟨_, rfl, by simp [isMediumEvent]⟩, fun h => h.setBlock hi⟩
    · rw [blkWrite_outside hb (by omega)]
      first | exact hb | exact ⟨rfl, rfl, ⟨_, rfl, by simp [isMediumEvent]⟩, id⟩

theorem blkBegin_step (i : Nat) (d : Bytes) (s : State) : MediumStep s (blkBegin i d s).2 := by
  rw [blkBegin_endOutstanding]
  have hb := endOutstanding_notBusy s
  refine (endOutstanding_step s).trans ?_
  by_cases hi : i < (endOutstanding s).params.mediumBlocks
  · cases hok : (endOutstanding s).env.mediumOk.peek Config.freeMediumOk 0
    · rw [blkBegin_err hb hi hok]
      exact ⟨rfl, rfl, ⟨_, rfl, by simp [isMediumEvent]⟩, id⟩
    · rw [blkBegin_ok hb hi hok]
      exact ⟨rfl, rfl, ⟨_, rfl, by simp [isMediumEvent]⟩, fun h => ⟨h.1, fun _ => ⟨hi, by simp⟩⟩⟩
  · rw [blkBegin_outside hb (by omega)]
    exact ⟨rfl, rfl, ⟨_, rfl, by simp [isMediumEvent]⟩, id⟩

/-! ### The continuation step -/

theorem blkStep_idle {s : State} (h : s.med.busy = false) :
    blkStep s = (.err, { s with out := s.out ++ [.blkStep .err] }) := by
  simp [blkStep, h, emit]

theorem blkStep_pending {s : State} (h : s.med.busy = true)
    (ha : s.env.stepAnswer.peek Config.freeStep 0 = .pending) :
    blkStep s = (.pending, { s with
      env := { s.env with stepAnswer := s.env.stepAnswer.advance 1 }
      out := s.out ++ [.blkStep .pending] }) := by
  simp [blkStep, h, emit, drawStep_eq, ha]

theorem blkStep_done {s : State} (h : s.med.busy = true)
    (ha : s.env.stepAnswer.peek Config.freeStep 0 = .done) :
    blkStep s = (.done, { clearBusy (setBlock s.med.target s.med.data s) with
      env := { s.env with stepAnswer := s.env.stepAnswer.advance 1 }
      out := s.out ++ [.blkStep .done] }) := by
  simp [blkStep, h, emit, drawStep_eq, ha, setBlock, clearBusy]

theorem blkStep_err {s : State} (h : s.med.busy = true)
    (ha : s.env.stepAnswer.peek Config.freeStep 0 = .err) :
    blkStep s = (.err,
      { clearBusy (setBlock s.med.target (s.env.block.peek Config.freeBlock 0) s) with
        env := { s.env with
          stepAnswer := s.env.stepAnswer.advance 1, block := s.env.block.advance 1 }
        out := s.out ++ [.blkStep .err] }) := by
  simp [blkStep, h, emit, drawStep_eq, drawBlock_eq, ha, setBlock, clearBusy]

theorem blkStep_step (s : State) : MediumStep s (blkStep s).2 := by
  by_cases h : s.med.busy = true
  · cases ha : s.env.stepAnswer.peek Config.freeStep 0
    · rw [blkStep_pending h ha]
      exact ⟨rfl, rfl, ⟨_, rfl, by simp [isMediumEvent]⟩, id⟩
    · rw [blkStep_done h ha]
      exact ⟨rfl, rfl, ⟨_, rfl, by simp [isMediumEvent]⟩,
        fun i => ⟨(i.setBlock (i.2 h).1).1, by simp⟩⟩
    · rw [blkStep_err h ha]
      exact ⟨rfl, rfl, ⟨_, rfl, by simp [isMediumEvent]⟩,
        fun i => ⟨(i.setBlock (i.2 h).1).1, by simp⟩⟩
  · rw [blkStep_idle (by simpa using h)]
    exact ⟨rfl, rfl, ⟨_, rfl, by simp [isMediumEvent]⟩, id⟩

end Sys2Proof.Machine
end

