-- ==== Sys2Proof/Laws/FileSystem.lean ====
section
/-! SUPPORT. The log filesystem: what its operations reach, and what its reads and writes do on a
medium that answers (spec/41_log_filesystem.md). -/

namespace Sys2Proof.Machine

/-! ### What the operations reach -/

/-- A piece of a step that reaches nothing but the medium, its draws, the file registers and the
history. -/
structure FsStep (s t : State) : Prop where
  eq : t = { s with fs := t.fs, med := t.med, env := t.env, out := t.out }
  color : t.env.color = s.env.color
  out : ∃ es, t.out = s.out ++ es ∧ ∀ e ∈ es, isMediumEvent e = true
  inv : MediumInv s → MediumInv t

theorem FsStep.refl (s : State) : FsStep s s :=
  ⟨rfl, rfl, ⟨[], by simp⟩, id⟩

theorem FsStep.trans {s t u : State} (h : FsStep s t) (k : FsStep t u) : FsStep s u := by
  obtain ⟨es, he, hes⟩ := h.out
  obtain ⟨fs, hf, hfs⟩ := k.out
  refine ⟨?_, k.color.trans h.color, ⟨es ++ fs, by rw [hf, he, List.append_assoc], ?_⟩,
    fun i => k.inv (h.inv i)⟩
  · have := k.eq
    rw [h.eq] at this
    exact this
  · intro e hm
    rcases List.mem_append.1 hm with hm | hm
    · exact hes e hm
    · exact hfs e hm

theorem MediumStep.toFs {s t : State} (h : MediumStep s t) : FsStep s t :=
  ⟨by have e := h.eq; have f : t.fs = s.fs := by rw [e]
      rw [f]; exact e,
    h.color, h.out, h.inv⟩

/-- Setting the file registers. -/
theorem FsStep.regs (s : State) (r : FileRegs) : FsStep s { s with fs := r } :=
  ⟨rfl, rfl, ⟨[], by simp⟩, id⟩

theorem MediumStep.fs {s t : State} (h : MediumStep s t) : t.fs = s.fs := by rw [h.eq]
theorem MediumStep.params {s t : State} (h : MediumStep s t) : t.params = s.params := by rw [h.eq]
theorem MediumStep.ma {s t : State} (h : MediumStep s t) : t.ma = s.ma := by rw [h.eq]
theorem MediumStep.pl {s t : State} (h : MediumStep s t) : t.pl = s.pl := by rw [h.eq]
theorem MediumStep.fault {s t : State} (h : MediumStep s t) : t.fault = s.fault := by rw [h.eq]
theorem FsStep.params {s t : State} (h : FsStep s t) : t.params = s.params := by rw [h.eq]
theorem FsStep.inputs {s t : State} (h : FsStep s t) : t.inputs = s.inputs := by rw [h.eq]
theorem FsStep.ring {s t : State} (h : FsStep s t) : t.ring = s.ring := by rw [h.eq]
theorem FsStep.pl {s t : State} (h : FsStep s t) : t.pl = s.pl := by rw [h.eq]
theorem FsStep.ma {s t : State} (h : FsStep s t) : t.ma = s.ma := by rw [h.eq]
theorem FsStep.store {s t : State} (h : FsStep s t) : t.store = s.store := by rw [h.eq]
theorem FsStep.status {s t : State} (h : FsStep s t) : t.status = s.status := by rw [h.eq]
theorem FsStep.fault {s t : State} (h : FsStep s t) : t.fault = s.fault := by rw [h.eq]

theorem readSB_step (s : State) : MediumStep s (readSB s).2 ∧ (readSB s).2.med.busy = false := by
  have h := blkRead_step s.params.sbBlock s
  unfold readSB
  split <;> (rename_i h2; rw [h2] at h; exact h)

theorem chainFrom_step (iter : U32) (fuel b : Nat) (c : List (Nat × Fsb)) (s : State) :
    MediumStep s (chainFrom iter fuel b c s).2 ∧
      (s.med.busy = false → (chainFrom iter fuel b c s).2.med.busy = false) := by
  induction fuel generalizing b c s with
  | zero => exact ⟨.refl s, id⟩
  | succ fuel ih =>
    unfold chainFrom
    split
    · exact ⟨.refl s, id⟩
    · have h := blkRead_step b s
      split
      · rename_i h2; rw [h2] at h; exact ⟨h.1, fun _ => h.2⟩
      · rename_i h2
        rw [h2] at h
        simp only
        split_ifs
        · exact ⟨h.1, fun _ => h.2⟩
        · exact ⟨h.1, fun _ => h.2⟩
        · exact ⟨h.1, fun _ => h.2⟩
        · exact ⟨h.1.trans (ih _ _ _).1, fun _ => (ih _ _ _).2 h.2⟩

theorem fsClose_step (s : State) : FsStep s (fsClose s).2 ∧ (fsClose s).2.fs.isOpen = false := by
  unfold fsClose
  split
  · exact ⟨.refl s, by assumption⟩
  · simp only
    split
    · exact ⟨.regs _ _, rfl⟩
    · have h := (blkWrite_step s.fs.start.toNat
        (metaFsb { s with fs := { s.fs with isOpen := false, dirty := false } })
        { s with fs := { s.fs with isOpen := false, dirty := false } }).1
      split <;>
      · rename_i h2
        rw [h2] at h
        exact ⟨(FsStep.regs s _).trans h.toFs, by rw [h.fs]⟩

theorem fsClose_closed {s : State} (h : s.fs.isOpen = false) : fsClose s = (.ok (), s) := by
  simp [fsClose, h]

/-- The opening reaches what an `FsStep` reaches, closes any open file, and a successful one leaves
no write outstanding. -/
theorem openChain_step (s : State) :
    FsStep s (openChain s).2 ∧ (openChain s).2.fs.isOpen = false ∧
      ∀ x, (openChain s).1 = .ok x → (openChain s).2.med.busy = false := by
  have h := fsClose_step s
  unfold openChain
  split
  · rename_i h2; rw [h2] at h; exact ⟨h.1, h.2, by simp⟩
  · rename_i h2; rw [h2] at h; exact ⟨h.1, h.2, by simp⟩
  · rename_i s1 h2
    rw [h2] at h
    have hr := readSB_step s1
    split
    · rename_i h3; rw [h3] at hr
      exact ⟨h.1.trans hr.1.toFs, by rw [hr.1.fs]; exact h.2, by simp⟩
    · rename_i sb s2 h3
      rw [h3] at hr
      have h4 : FsStep s s2 := h.1.trans hr.1.toFs
      have h5 : s2.fs.isOpen = false := by rw [hr.1.fs]; exact h.2
      split
      · exact ⟨h4, h5, by simp⟩
      · have hc := chainFrom_step sb.iter (s2.params.mediumBlocks + 1) s2.params.firstFileBlock [] s2
        unfold chainWalk
        split
        · rename_i h6; rw [h6] at hc
          exact ⟨h4.trans hc.1.toFs, by rw [hc.1.fs]; exact h5, by simp⟩
        · rename_i h6; rw [h6] at hc
          exact ⟨h4.trans hc.1.toFs, by rw [hc.1.fs]; exact h5, fun _ _ => hc.2 hr.2⟩

theorem linkPrevious_step (c : List (Nat × Fsb)) (start : Nat) (s : State) :
    MediumStep s (linkPrevious c start s).2 := by
  unfold linkPrevious
  split
  · exact .refl s
  · exact (blkWrite_step _ _ s).1

theorem rtcNow_step (s : State) : MediumStep s (rtcNow s).2 :=
  ⟨rfl, rfl, ⟨[], by simp [rtcNow]⟩, id⟩

theorem fsCreate_step (s : State) : FsStep s (fsCreate s).2 := by
  have h := (openChain_step s).1
  unfold fsCreate
  split
  · rename_i h2; rw [h2] at h; exact h
  · rename_i h2; rw [h2] at h; exact h
  · rename_i iter c s1 h2
    rw [h2] at h
    simp only
    split
    · exact h
    · have hr := rtcNow_step s1
      have hw := (blkWrite_step (nextSlot s1.params c).1
        (fsbBlock (rtcNow s1).2.params ⟨iter, (nextSlot s1.params c).2, 0, nextNone,
          (rtcNow s1).1.1, (rtcNow s1).1.2⟩) (rtcNow s1).2).1
      split
      · rename_i h4; rw [h4] at hw; exact h.trans (hr.trans hw).toFs
      · rename_i s3 h4
        rw [h4] at hw
        have hl := linkPrevious_step c (nextSlot s1.params c).1 s3
        split
        · rename_i h5; rw [h5] at hl; exact h.trans ((hr.trans hw).trans hl).toFs
        · rename_i h5; rw [h5] at hl
          exact (h.trans ((hr.trans hw).trans hl).toFs).trans (.regs _ _)

theorem fsReopen_step (seq : U32) (s : State) : FsStep s (fsReopen seq s).2 := by
  have h := (openChain_step s).1
  unfold fsReopen
  split
  · rename_i h2; rw [h2] at h; exact h
  · rename_i h2; rw [h2] at h; exact h
  · rename_i h2; rw [h2] at h
    split
    · exact h
    · exact h.trans (.regs _ _)

theorem appendBase_step (o k : Nat) (s : State) : MediumStep s (appendBase o k s).2 := by
  unfold appendBase
  split
  · exact (blkRead_step _ s).1
  · exact .refl s

theorem appendBlocks_step (o : Nat) (data : Bytes) (ks : List Nat) (s : State) :
    MediumStep s (appendBlocks o data ks s).2 := by
  induction ks generalizing s with
  | nil => exact .refl s
  | cons k ks ih =>
    unfold appendBlocks
    split
    · exact .refl s
    · have h := appendBase_step o k s
      split
      · rename_i h2; rw [h2] at h; exact h
      · rename_i cur s1 h2
        rw [h2] at h
        have hw := (blkWrite_step (dataBlk s1 k) (overlay s1.params o data k cur) s1).1
        split
        · rename_i h3; rw [h3] at hw; exact h.trans hw
        · rename_i h3; rw [h3] at hw; exact (h.trans hw).trans (ih _)

/-- Everything `FS_WRITE` reaches, but for the model fault. -/
theorem fsWrite_step (data : Bytes) (s : State) (hk : s.fs.kind = .created ∨ s.fs.isOpen = false) :
    FsStep s (fsWrite data s).2 := by
  unfold fsWrite
  split
  · exact .refl s
  · split
    · rename_i h1 h2
      rcases hk with hk | hk
      · rw [hk] at h2; cases h2
      · exact absurd hk h1
    · have h := appendBlocks_step s.fs.len data (blocksTouched s.params s.fs.len data.length) s
      split
      · rename_i h2; rw [h2] at h; exact h.toFs.trans (.regs _ _)
      · exact h.toFs

theorem readBlocks_step (o n : Nat) (ks : List Nat) (s : State) :
    MediumStep s (readBlocks o n ks s).2 := by
  induction ks generalizing s with
  | nil => exact .refl s
  | cons k ks ih =>
    unfold readBlocks
    have h := (blkRead_step (dataBlk s k) s).1
    split
    · rename_i h2; rw [h2] at h; exact h
    · rename_i s1 h2
      rw [h2] at h
      have hi := ih s1
      split
      · rename_i h3; rw [h3] at hi; exact h.trans hi
      · rename_i h3; rw [h3] at hi; exact h.trans hi

theorem fsRead_step (n : Nat) (s : State) : FsStep s (fsRead n s).2 := by
  unfold fsRead
  split
  · exact .refl s
  · have h := readBlocks_step s.fs.rdPos (min n (s.fs.len - s.fs.rdPos))
      (blocksTouched s.params s.fs.rdPos (min n (s.fs.len - s.fs.rdPos))) s
    simp only
    split
    · rename_i h2; rw [h2] at h; exact h.toFs
    · rename_i h2; rw [h2] at h; exact h.toFs.trans (.regs _ _)

theorem fsContinue_step (s : State) : FsStep s (fsContinue s).2 := by
  unfold fsContinue
  split
  · exact .refl s
  · have h := blkStep_step s
    split
    · rename_i h2; rw [h2] at h; exact h.toFs
    · rename_i h2; rw [h2] at h; exact h.toFs.trans (.regs _ _)
    · rename_i h2; rw [h2] at h; exact h.toFs

theorem fsFlush_step (s : State) : FsStep s (fsFlush s).2 := by
  unfold fsFlush
  split
  · have h := (blkWrite_step s.fs.start.toNat (metaFsb s) s).1
    split
    · rename_i h2; rw [h2] at h; exact h.toFs.trans (.regs _ _)
    · rename_i h2; rw [h2] at h; exact h.toFs
  · exact .refl s

/-- A format reaches the same, and drops the open file; a failed one also halts. -/
theorem fsFormat_step (portable : Bool) (s : State) :
    (∃ t, FsStep s t ∧ t.fs = { s.fs with isOpen := false, dirty := false } ∧
      (fsFormat portable s = (.ok (), t) ∨ fsFormat portable s = (.err .formatFailure, halt t))) := by
  have h : FsStep s (formatMedium portable s).2 ∧
      (formatMedium portable s).2.fs = { s.fs with isOpen := false, dirty := false } := by
    unfold formatMedium
    simp only
    have h0 := FsStep.regs s { s.fs with isOpen := false, dirty := false }
    have hr := (readSB_step { s with fs := { s.fs with isOpen := false, dirty := false } }).1
    split
    · rename_i h2; rw [h2] at hr; exact ⟨h0.trans hr.toFs, hr.fs⟩
    · rename_i sb s1 h2
      rw [h2] at hr
      have hw := (blkWrite_step s1.params.sbBlock
        (superblock s1.params (if sb.valid then sb.iter + 1 else 1) portable) s1).1
      exact ⟨h0.trans (hr.trans hw).toFs, (hr.trans hw).fs⟩
  refine ⟨_, h.1, h.2, ?_⟩
  unfold fsFormat
  split
  · rename_i h2; rw [h2]; exact .inl rfl
  · rename_i h2; rw [h2]; exact .inr rfl

theorem nextSeq_step (s : State) : MediumStep s (nextSeq s).2 := by
  have hd : ∀ s : State, MediumStep s (drawSeq s).2 := fun s =>
    ⟨rfl, rfl, ⟨[], by simp [drawSeq]⟩, id⟩
  have hr := (readSB_step s).1
  unfold nextSeq
  split
  · rename_i h2; rw [h2] at hr; exact hr.trans (hd _)
  · rename_i sb s1 h2
    rw [h2] at hr
    split
    · exact hr
    · have hc := (chainFrom_step sb.iter (s1.params.mediumBlocks + 1) s1.params.firstFileBlock []
        s1).1
      unfold chainWalk
      split
      · rename_i h3; rw [h3] at hc; exact (hr.trans hc).trans (hd _)
      · rename_i h3; rw [h3] at hc; exact hr.trans hc

end Sys2Proof.Machine
end

