-- ==== Sys2Proof/Laws/Files.lean ====
section
/-! SUPPORT. Reading and appending file bytes on a medium that answers
(spec/41_log_filesystem.md R164, R169, R170). -/

namespace Sys2Proof.Machine

/-! ### Blocks of a file -/

/-- A block's part in a stretch of file bytes, where the block holds the bytes `f`. -/
theorem blockPart_eq (p : Params) (f : Nat → Byte) (o n k : Nat) :
    blockPart p o n k ((List.range' (k * p.blockBytes) p.blockBytes).map f) =
      (List.range' (max o (k * p.blockBytes))
        (min (o + n) ((k + 1) * p.blockBytes) - max o (k * p.blockBytes))).map f := by
  have hk : (k + 1) * p.blockBytes = k * p.blockBytes + p.blockBytes := by
    rw [Nat.add_mul, Nat.one_mul]
  simp only [blockPart, slice, ← List.map_drop, ← List.map_take, hk]
  congr 1
  generalize k * p.blockBytes = q
  apply List.ext_getElem
  · simp
    omega
  · intro i _ _
    simp

/-- The parts of consecutive blocks make one stretch. -/
theorem parts_concat (p : Params) (f : Nat → Byte) (o n k c : Nat) (hk : k * p.blockBytes ≤ o) :
    (List.range' k c).flatMap (fun i =>
        blockPart p o n i ((List.range' (i * p.blockBytes) p.blockBytes).map f)) =
      (List.range' o (min (o + n) ((k + c) * p.blockBytes) - o)).map f := by
  induction c with
  | zero =>
    have : min (o + n) ((k + 0) * p.blockBytes) - o = 0 := by simp; omega
    rw [this]
    simp
  | succ c ih =>
    rw [List.range'_1_concat, List.flatMap_append, ih]
    simp only [List.flatMap_cons, List.flatMap_nil, List.append_nil, blockPart_eq]
    have h1 : (k + (c + 1)) * p.blockBytes = (k + c) * p.blockBytes + p.blockBytes := by
      rw [← Nat.add_assoc, Nat.add_mul (k + c), Nat.one_mul]
    have h2 : (k + c + 1) * p.blockBytes = (k + c) * p.blockBytes + p.blockBytes := by
      rw [Nat.add_mul (k + c), Nat.one_mul]
    have h3 : k * p.blockBytes ≤ (k + c) * p.blockBytes := Nat.mul_le_mul_right _ (by omega)
    rw [← List.map_append, h1, h2]
    congr 1
    generalize (k + c) * p.blockBytes = q at *
    by_cases hq : q ≤ o + n
    · by_cases hq2 : o ≤ q
      · rw [show max o q = q by omega, show min (o + n) q = q by omega]
        have := List.range'_append (s := o) (m := q - o) (n := min (o + n) (q + p.blockBytes) - q) (step := 1)
        rw [show o + 1 * (q - o) = q by omega] at this
        rw [this]
        congr 1
        omega
      · rw [show min (o + n) q - o = 0 by omega, show max o q = o by omega]
        rfl
    · rw [show min (o + n) (q + p.blockBytes) - max o q = 0 by omega,
        show min (o + n) (q + p.blockBytes) = o + n by omega, show min (o + n) q = o + n by omega]
      simp


/-- The block reads of a file read on a medium that answers. -/
theorem readBlocks_ok (o n k c : Nat) (s : State) (hb : s.med.busy = false)
    (hi : c ≠ 0 → s.fs.start.toNat + 1 + (k + c - 1) < s.params.mediumBlocks)
    (hok : mediumAnswersOk c s) :
    readBlocks o n (List.range' k c) s =
      (some ((List.range' k c).flatMap fun i =>
          blockPart s.params o n i (blockAt s (s.fs.start.toNat + 1 + i))),
        { s with
          env := mediumTaken c s
          out := s.out ++ (List.range' k c).map fun i =>
            .blkRead (s.fs.start.toNat + 1 + i)
              (some (blockAt s (s.fs.start.toNat + 1 + i))) }) := by
  induction c generalizing k s with
  | zero => simp [readBlocks, mediumTaken]
  | succ c ih =>
    obtain ⟨h1, h2⟩ := mediumAnswersOk_succ hok
    have hk : dataBlk s k < s.params.mediumBlocks := by
      have := hi (by omega)
      simp only [dataBlk]
      omega
    rw [List.range'_succ, readBlocks, blkRead_ok hb hk h1]
    simp only
    have ih' := ih (k + 1)
      { s with
        env := mediumTaken 1 s
        out := s.out ++ [.blkRead (dataBlk s k) (some (blockAt s (dataBlk s k)))] } hb
      (by intro hc; have := hi (by omega); simp only; omega) h2
    rw [ih']
    simp [dataBlk, mediumTaken, blockAt, Nat.add_comm 1 c]

theorem blockAt_eq_map (s : State) (i : Nat) :
    blockAt s i = (List.range' (i * s.params.blockBytes) s.params.blockBytes).map (mediumByte s) :=
  rfl

/-- The data block `i` of the file that starts at block `start`. -/
theorem blockAt_data (s : State) (start i : Nat) :
    blockAt s (start + 1 + i) = (List.range' (i * s.params.blockBytes) s.params.blockBytes).map
      fun x => mediumByte s ((start + 1) * s.params.blockBytes + x) := by
  rw [blockAt_eq_map, Nat.add_mul]
  apply List.ext_getElem
  · simp
  · intro j _ _
    simp [Nat.add_assoc]

theorem blocksTouched_eq (p : Params) (o n : Nat) :
    blocksTouched p o n = List.range' (o / p.blockBytes) (touchedBlocks p o n) := by
  unfold blocksTouched touchedBlocks
  split <;> rfl

/-- What the blocks that a stretch of a file touches hold of it. -/
theorem fileBytes_eq_parts (s : State) (start o n : Nat) (hB : 0 < s.params.blockBytes) :
    (List.range' (o / s.params.blockBytes) (touchedBlocks s.params o n)).flatMap (fun i =>
      blockPart s.params o n i (blockAt s (start + 1 + i))) = fileBytes s start o n := by
  simp only [blockAt_data]
  rw [parts_concat s.params (fun x => mediumByte s ((start + 1) * s.params.blockBytes + x)) o n _ _
    (Nat.div_mul_le_self _ _)]
  have hlen : min (o + n) ((o / s.params.blockBytes + touchedBlocks s.params o n) *
      s.params.blockBytes) - o = n := by
    unfold touchedBlocks
    split
    · rename_i h
      subst h
      have := Nat.div_mul_le_self o s.params.blockBytes
      simp only [Nat.add_zero]
      omega
    · rename_i h
      have hle : o / s.params.blockBytes ≤ (o + n - 1) / s.params.blockBytes :=
        Nat.div_le_div_right (by omega)
      rw [show o / s.params.blockBytes + ((o + n - 1) / s.params.blockBytes + 1 -
        o / s.params.blockBytes) = (o + n - 1) / s.params.blockBytes + 1 by omega]
      have := Nat.lt_mul_of_div_lt (Nat.lt_add_one ((o + n - 1) / s.params.blockBytes)) hB
      omega
  rw [hlen, fileBytes, List.range'_eq_map_range]
  simp [Nat.add_assoc, Function.comp_def]

/-! ### Appending to a file -/

/-- One byte of a data block after an append laid over it. -/
theorem overlay_getD (p : Params) (o : Nat) (data : Bytes) (k j : Nat) (cur : Bytes)
    (hj : j < p.blockBytes) :
    (overlay p o data k cur).getD j 0 =
      if k * p.blockBytes + j < o then cur.getD j 0
      else data.getD (k * p.blockBytes + j - o) 0 := by
  simp [overlay, List.getD_eq_getElem?_getD, hj]

@[simp] theorem overlay_length (p : Params) (o : Nat) (data : Bytes) (k : Nat) (cur : Bytes) :
    (overlay p o data k cur).length = p.blockBytes := by simp [overlay]

/-- One step of an append: block `k` written over the contents `cur`. -/
theorem mediumByte_overlay (s : State) (o k : Nat) (data cur : Bytes) (a : Nat) :
    mediumByte (setBlock (dataBlk s k) (overlay s.params o data k cur) s) a =
      let base := (s.fs.start.toNat + 1) * s.params.blockBytes
      if base + k * s.params.blockBytes ≤ a ∧ a < base + (k + 1) * s.params.blockBytes then
        if a < base + o then cur.getD (a - (base + k * s.params.blockBytes)) 0
        else data.getD (a - (base + o)) 0
      else mediumByte s a := by
  simp only [mediumByte_setBlock, dataBlk]
  rw [fit_eq_self (overlay_length ..)]
  have h1 : (s.fs.start.toNat + 1 + k) * s.params.blockBytes =
      (s.fs.start.toNat + 1) * s.params.blockBytes + k * s.params.blockBytes := Nat.add_mul ..
  have h2 : (s.fs.start.toNat + 1 + k + 1) * s.params.blockBytes =
      (s.fs.start.toNat + 1) * s.params.blockBytes + (k + 1) * s.params.blockBytes := by
    rw [Nat.add_assoc, Nat.add_mul]
  have h3 : (k + 1) * s.params.blockBytes = k * s.params.blockBytes + s.params.blockBytes := by
    rw [Nat.add_mul, Nat.one_mul]
  rw [h1, h2]
  split_ifs with h h'
  · rw [overlay_getD _ _ _ _ _ _ (by omega), if_pos (by omega)]
  · rw [overlay_getD _ _ _ _ _ _ (by omega), if_neg (by omega)]
    congr 1
    omega
  · rfl

/-- The block writes of an append into blocks that hold none of the file yet, on a medium that
answers: the data from its offset on, zeros after its end, nothing elsewhere. -/
theorem appendBlocks_fresh (o : Nat) (data : Bytes) (k c : Nat) (s : State)
    (hb : s.med.busy = false) (hk : o ≤ k * s.params.blockBytes)
    (hi : c ≠ 0 → s.fs.start.toNat + 1 + (k + c - 1) < s.params.mediumBlocks)
    (hok : mediumAnswersOk c s) :
    ∃ t, appendBlocks o data (List.range' k c) s = (.ok (), t) ∧
      t = { s with med := { s.med with cells := t.med.cells }, env := mediumTaken c s, out := t.out } ∧
      ∀ a, mediumByte t a =
        let base := (s.fs.start.toNat + 1) * s.params.blockBytes
        if base + k * s.params.blockBytes ≤ a ∧ a < base + (k + c) * s.params.blockBytes then
          data.getD (a - (base + o)) 0
        else mediumByte s a := by
  induction c generalizing k s with
  | zero =>
    refine ⟨s, rfl, by simp [mediumTaken], fun a => ?_⟩
    simp only
    rw [if_neg (by simp only [Nat.add_zero]; omega)]
  | succ c ih =>
    obtain ⟨h1, h2⟩ := mediumAnswersOk_succ hok
    have hd : dataBlk s k < s.params.mediumBlocks := by
      have := hi (by omega)
      simp only [dataBlk]
      omega
    have hbase : appendBase o k s = (some (zeros s.params.blockBytes), s) := by
      rw [appendBase, if_neg]
      rintro ⟨e, f⟩
      have h8 := Nat.div_add_mod o s.params.blockBytes
      rw [← e, Nat.mul_comm] at h8
      omega
    have h3 : (k + 1) * s.params.blockBytes = k * s.params.blockBytes + s.params.blockBytes := by
      rw [Nat.add_mul, Nat.one_mul]
    rw [List.range'_succ, appendBlocks, if_neg (Nat.not_le.2 hd), hbase]
    simp only
    rw [blkWrite_ok hb hd h1]
    simp only
    obtain ⟨t, e1, e2, e3⟩ := ih (k + 1)
      { setBlock (dataBlk s k) (overlay s.params o data k (zeros s.params.blockBytes)) s with
        env := mediumTaken 1 s
        out := s.out ++ [.blkWrite (dataBlk s k)
          (overlay s.params o data k (zeros s.params.blockBytes)) true] }
      hb (by simp only [setBlock_params]; omega)
      (by intro hc; have := hi (by omega); simp only [setBlock_params, setBlock_fs]; omega) h2
    refine ⟨t, e1, ?_, fun a => ?_⟩
    · rw [e2]
      simp [mediumTaken, setBlock, Nat.add_comm 1 c]
    · have e4 : mediumByte t a =
          let base := (s.fs.start.toNat + 1) * s.params.blockBytes
          if base + (k + 1) * s.params.blockBytes ≤ a ∧
              a < base + (k + 1 + c) * s.params.blockBytes then
            data.getD (a - (base + o)) 0
          else mediumByte (setBlock (dataBlk s k)
            (overlay s.params o data k (zeros s.params.blockBytes)) s) a := e3 a
      have h4 : (k + 1 + c) * s.params.blockBytes = k * s.params.blockBytes + s.params.blockBytes +
          c * s.params.blockBytes := by rw [Nat.add_mul, h3]
      have h5 : (k + (c + 1)) * s.params.blockBytes = k * s.params.blockBytes + s.params.blockBytes +
          c * s.params.blockBytes := by
        rw [show k + (c + 1) = k + 1 + c by omega, h4]
      rw [e4, mediumByte_overlay]
      simp only [h3, h4, h5]
      split_ifs <;> first | rfl | omega

theorem appendBlocks_head (o : Nat) (data : Bytes) (k : Nat) (ks : List Nat) (s : State)
    (hb : s.med.busy = false) (hk : k = o / s.params.blockBytes) (ho : o % s.params.blockBytes ≠ 0)
    (hi : dataBlk s k < s.params.mediumBlocks) (hok : mediumAnswersOk 2 s) :
    ∃ t, appendBlocks o data (k :: ks) s = appendBlocks o data ks t ∧
      t = { s with
        med := { s.med with cells := t.med.cells }, env := mediumTaken 2 s, out := t.out } ∧
      ∀ a, mediumByte t a =
        let base := (s.fs.start.toNat + 1) * s.params.blockBytes
        if base + o ≤ a ∧ a < base + (k + 1) * s.params.blockBytes then data.getD (a - (base + o)) 0
        else mediumByte s a := by
  obtain ⟨h1, h2⟩ := mediumAnswersOk_succ hok
  have h2 := (mediumAnswersOk_succ h2).1
  have hbase : appendBase o k s = (some (blockAt s (dataBlk s k)), { s with
      env := mediumTaken 1 s
      out := s.out ++ [.blkRead (dataBlk s k) (some (blockAt s (dataBlk s k)))] }) := by
    rw [appendBase, if_pos ⟨hk, ho⟩, blkRead_ok hb hi h1]
  refine ⟨{ setBlock (dataBlk s k) (overlay s.params o data k (blockAt s (dataBlk s k))) s with
    env := mediumTaken 2 s
    out := s.out ++ [.blkRead (dataBlk s k) (some (blockAt s (dataBlk s k))),
      .blkWrite (dataBlk s k) (overlay s.params o data k (blockAt s (dataBlk s k))) true] },
    ?_, rfl, fun a => ?_⟩
  · rw [appendBlocks, if_neg (Nat.not_le.2 hi), hbase]
    simp only
    rw [blkWrite_ok (by exact hb) (by exact hi) (by exact h2)]
    simp [dataBlk, setBlock, mediumTaken]
  · have h3 : (k + 1) * s.params.blockBytes = k * s.params.blockBytes + s.params.blockBytes := by
      rw [Nat.add_mul, Nat.one_mul]
    have h8 := Nat.div_mul_le_self o s.params.blockBytes
    rw [← hk] at h8
    have h9 := mediumByte_overlay s o k data (blockAt s (dataBlk s k)) a
    change mediumByte (setBlock _ _ s) a = _
    rw [h9]
    simp only [h3]
    split_ifs with c1 c2 c3 c4 <;> first | rfl | omega | skip
    rw [List.getD_eq_getElem?_getD, blockAt_getElem?, if_pos (by omega)]
    simp only [Option.getD_some, dataBlk]
    congr 1
    have : (s.fs.start.toNat + 1 + k) * s.params.blockBytes =
      (s.fs.start.toNat + 1) * s.params.blockBytes + k * s.params.blockBytes := Nat.add_mul ..
    omega

/-- `FS_WRITE` on a medium that answers. -/
theorem fsWrite_ok (s : State) (data : Bytes) (hB : 0 < s.params.blockBytes)
    (hb : s.med.busy = false) (ho : s.fs.isOpen = true) (hk : s.fs.kind = .created)
    (hm : fileOnMedium s.params s.fs.start.toNat s.fs.len data.length)
    (hok : mediumAnswersOk (touchedBlocks s.params s.fs.len data.length + 1) s) :
    let base := (s.fs.start.toNat + 1) * s.params.blockBytes + s.fs.len
    let blocks := touchedBlocks s.params s.fs.len data.length
    let after := (s.fs.start.toNat + 1 + s.fs.len / s.params.blockBytes + blocks) *
      s.params.blockBytes
    ∃ t, fsWrite data s = (.ok (), t) ∧
      t = { s with
        fs := { s.fs with
          len := s.fs.len + data.length
          dirty := s.fs.dirty || decide (0 < data.length) }
        med := { s.med with cells := t.med.cells }
        env := mediumTaken
          (if data.length ≠ 0 ∧ s.fs.len % s.params.blockBytes ≠ 0 then blocks + 1 else blocks) s
        out := t.out } ∧
      (∀ i < data.length, mediumByte t (base + i) = data.getD i 0) ∧
      (∀ a, a < base → mediumByte t a = mediumByte s a) ∧
      (∀ a, base + data.length ≤ a → a < after → mediumByte t a = 0) ∧
      (∀ a, after ≤ a → mediumByte t a = mediumByte s a) := by
  intro base blocks after
  by_cases hd : data = []
  · subst hd
    have e0 : blocks = 0 := by simp [blocks, touchedBlocks]
    refine ⟨s, ?_, ?_, by simp, fun _ _ => rfl, ?_, fun _ _ => rfl⟩
    · rw [fsWrite, if_neg (by simp [ho]), if_neg (by simp [hk])]
      simp [blocksTouched, appendBlocks]
    · rw [e0]
      simp only [List.length_nil, Nat.add_zero, Nat.lt_irrefl, decide_false, Bool.or_false, ne_eq,
        not_true_eq_false, false_and, if_false, mediumTaken, Tape.advance_zero]
    · intro a h1 h2
      have h3 : after = (s.fs.start.toNat + 1) * s.params.blockBytes +
          s.fs.len / s.params.blockBytes * s.params.blockBytes := by
        simp only [after, e0, Nat.add_zero]
        rw [Nat.add_mul]
      have := Nat.div_mul_le_self s.fs.len s.params.blockBytes
      simp only [List.length_nil, base] at h1
      omega
  have hn : data.length ≠ 0 := by simpa using hd
  have hpast : ∀ i, data.length ≤ i → data.getD i 0 = 0 := fun i hi => by
    simp [List.getD_eq_getElem?_getD, List.getElem?_eq_none hi]
  have hdec : decide (0 < data.length) = !data.isEmpty := by
    cases data <;> simp at hd ⊢
  have h0 := Nat.div_mul_le_self s.fs.len s.params.blockBytes
  have hle : s.fs.len / s.params.blockBytes ≤ (s.fs.len + data.length - 1) / s.params.blockBytes :=
    Nat.div_le_div_right (by omega)
  have hblocks : blocks = (s.fs.len + data.length - 1) / s.params.blockBytes + 1 -
      s.fs.len / s.params.blockBytes := by simp only [blocks, touchedBlocks, if_neg hn]
  have hm := hm hn
  have hend : s.fs.len + data.length ≤
      (s.fs.len / s.params.blockBytes + blocks) * s.params.blockBytes := by
    have := Nat.lt_mul_of_div_lt
      (Nat.lt_add_one ((s.fs.len + data.length - 1) / s.params.blockBytes)) hB
    rw [show s.fs.len / s.params.blockBytes + blocks =
      (s.fs.len + data.length - 1) / s.params.blockBytes + 1 by omega]
    omega
  have hsum : s.fs.len / s.params.blockBytes + blocks =
      (s.fs.len + data.length - 1) / s.params.blockBytes + 1 := by omega
  have hafter : after = (s.fs.start.toNat + 1) * s.params.blockBytes +
      (s.fs.len / s.params.blockBytes + blocks) * s.params.blockBytes := by
    simp only [after, Nat.add_assoc, Nat.add_mul]
  by_cases hz : s.fs.len % s.params.blockBytes = 0
  · have hlen : s.fs.len / s.params.blockBytes * s.params.blockBytes = s.fs.len :=
      Nat.div_mul_cancel (Nat.dvd_of_mod_eq_zero hz)
    obtain ⟨t, e1, e2, e3⟩ := appendBlocks_fresh s.fs.len data (s.fs.len / s.params.blockBytes)
      blocks s hb (by omega) (by intro _; rw [hsum, Nat.add_sub_cancel]; exact hm) (fun k hk => hok k (by omega))
    refine ⟨{ t with fs := { t.fs with
        len := t.fs.len + data.length, dirty := t.fs.dirty || !data.isEmpty } }, ?_, ?_, ?_, ?_, ?_,
      ?_⟩
    · simp only [fsWrite, ho, hk, blocksTouched_eq]
      simp [show touchedBlocks s.params s.fs.len data.length = blocks from rfl, e1]
    · rw [if_neg (by omega), hdec]
      have ef : t.fs = s.fs := by rw [e2]
      rw [ef]
      conv_lhs => rw [e2]
    · intro i hi
      change mediumByte t _ = _
      rw [e3]
      simp only [hlen, base]
      rw [if_pos (by omega)]
      congr 1
      omega
    · intro a ha
      change mediumByte t _ = _
      rw [e3]
      simp only [hlen]
      rw [if_neg (by simp only [base] at ha; omega)]
    · intro a h1 h2
      change mediumByte t _ = _
      rw [e3]
      simp only [base] at h1
      simp only [hlen]
      rw [if_pos (by omega), hpast _ (by omega)]
    · intro a h1
      change mediumByte t _ = _
      rw [e3]
      simp only
      rw [if_neg (by omega)]
  · have hlen : s.fs.len < (s.fs.len / s.params.blockBytes + 1) * s.params.blockBytes :=
      Nat.lt_mul_of_div_lt (Nat.lt_add_one _) hB
    obtain ⟨c, hc⟩ : ∃ c, blocks = c + 1 := ⟨blocks - 1, by omega⟩
    obtain ⟨u, f1, f2, f3⟩ := appendBlocks_head s.fs.len data (s.fs.len / s.params.blockBytes)
      (List.range' (s.fs.len / s.params.blockBytes + 1) c) s hb rfl hz
      (by simp only [dataBlk]; omega) (fun k hk => hok k (by omega))
    have up : u.params = s.params := by rw [f2]
    have uf : u.fs = s.fs := by rw [f2]
    have ub : u.med.busy = false := by rw [f2]; exact hb
    have uok : mediumAnswersOk c u := by
      intro k hk
      have := hok (2 + k) (by omega)
      rw [f2]
      simpa [mediumTaken] using this
    obtain ⟨t, e1, e2, e3⟩ := appendBlocks_fresh s.fs.len data (s.fs.len / s.params.blockBytes + 1)
      c u ub (by rw [up]; omega) (by
        intro _
        rw [uf, up, show s.fs.len / s.params.blockBytes + 1 + c =
          (s.fs.len + data.length - 1) / s.params.blockBytes + 1 by omega, Nat.add_sub_cancel]
        exact hm) uok
    refine ⟨{ t with fs := { t.fs with
        len := t.fs.len + data.length, dirty := t.fs.dirty || !data.isEmpty } }, ?_, ?_, ?_, ?_, ?_,
      ?_⟩
    · simp only [fsWrite, ho, hk, blocksTouched_eq]
      rw [show touchedBlocks s.params s.fs.len data.length = c + 1 from hc, List.range'_succ, f1, e1]
      rfl
    · rw [if_pos ⟨hn, hz⟩, hdec]
      have ef : t.fs = s.fs := by rw [e2]; exact uf
      rw [ef]
      conv_lhs => rw [e2, f2]
      simp [mediumTaken, hc, Nat.add_comm 2 c]
    all_goals
      have h4 : (s.fs.len / s.params.blockBytes + 1) * s.params.blockBytes =
        s.fs.len / s.params.blockBytes * s.params.blockBytes + s.params.blockBytes := by
          rw [Nat.add_mul, Nat.one_mul]
      have h5 : s.fs.len / s.params.blockBytes + 1 + c = s.fs.len / s.params.blockBytes + blocks := by
        omega
      have h6 : ∀ a, mediumByte t a = _ := e3
      simp only [up, uf, f3, h5] at h6
      have h7 : (s.fs.len / s.params.blockBytes + 1) * s.params.blockBytes ≤
          (s.fs.len / s.params.blockBytes + blocks) * s.params.blockBytes :=
        Nat.mul_le_mul_right _ (by omega)
    · intro i hi
      change mediumByte t _ = _
      rw [h6]
      simp only [base]
      split_ifs <;> (congr 1; omega)
    · intro a ha
      change mediumByte t _ = _
      rw [h6]
      simp only [base] at ha
      rw [if_neg (by omega), if_neg (by omega)]
    · intro a h1 h2
      change mediumByte t _ = _
      rw [h6]
      simp only [base] at h1
      split_ifs <;> first | exact hpast _ (by omega) | omega
    · intro a h1
      change mediumByte t _ = _
      rw [h6]
      split_ifs <;> first | rfl | omega

end Sys2Proof.Machine
end

