-- ==== Sys2Proof/Laws/Chain.lean ====
section
/-! SUPPORT. The FileStartBlock chain, the opening of a file and the on-medium records
(spec/41_log_filesystem.md R160 to R165, 30_encoding.md R110, R111). -/

namespace Sys2Proof.Machine

/-! ### The walk -/

/-- What the entries found so far have in common. -/
def ChainOk (iter : U32) (p : Params) (c : List (Nat × Fsb)) : Prop :=
  c.Pairwise (fun x y => x.1 < y.1 ∧ x.2.seq < y.2.seq) ∧
  ∀ e ∈ c, e.2.iteration = iter ∧ p.firstFileBlock ≤ e.1 ∧ e.1 < p.mediumBlocks

theorem ChainOk.snoc {iter : U32} {p : Params} {c : List (Nat × Fsb)} {b : Nat} {f : Fsb}
    (h : ChainOk iter p c) (hb : ∀ e ∈ c, e.1 < b) (hf : f.iteration = iter)
    (hs : ∀ l, c.getLast? = some l → l.2.seq < f.seq)
    (h1 : p.firstFileBlock ≤ b) (h2 : b < p.mediumBlocks) : ChainOk iter p (c ++ [(b, f)]) := by
  have hlast : ∀ e ∈ c, e.2.seq < f.seq := by
    intro e he
    obtain ⟨l, hl⟩ : ∃ l, c.getLast? = some l := by
      cases hc : c.getLast? with
      | none => rw [List.getLast?_eq_none_iff] at hc; subst hc; simp at he
      | some l => exact ⟨l, rfl⟩
    have hl2 := hs l hl
    obtain ⟨ys, rfl⟩ : ∃ ys, c = ys ++ [l] := by
      rw [List.getLast?_eq_some_iff] at hl
      exact hl
    rcases List.mem_append.1 he with he | he
    · have := (List.pairwise_append.1 h.1).2.2 e he l (by simp)
      exact BitVec.lt_trans this.2 hl2
    · simp at he
      subst he
      exact hl2
  refine ⟨List.pairwise_append.2 ⟨h.1, by simp, fun x hx y hy => ?_⟩, fun e he => ?_⟩
  · simp at hy
    subst hy
    exact ⟨hb x hx, hlast x hx⟩
  · rcases List.mem_append.1 he with he | he
    · exact h.2 e he
    · simp at he
      subst he
      exact ⟨hf, h1, h2⟩

theorem chainFrom_ok (iter : U32) (fuel b : Nat) (c c' : List (Nat × Fsb)) (s t : State)
    (h : ChainOk iter s.params c) (hb : ∀ e ∈ c, e.1 < b) (h1 : s.params.firstFileBlock ≤ b)
    (hr : chainFrom iter fuel b c s = (some c', t)) : ChainOk iter s.params c' := by
  induction fuel generalizing b c s with
  | zero =>
    simp only [chainFrom, Prod.mk.injEq, Option.some.injEq] at hr
    rw [← hr.1]
    exact h
  | succ fuel ih =>
    rw [chainFrom] at hr
    split_ifs at hr with h2
    · simp only [Prod.mk.injEq, Option.some.injEq] at hr
      rw [← hr.1]
      exact h
    · have hstep := (blkRead_step b s).1
      split at hr
      · simp at hr
      · rename_i d s1 he
        rw [he] at hstep
        have hp : s1.params = s.params := hstep.params
        simp only at hr
        split_ifs at hr with h3 h4 h5
        · simp only [Prod.mk.injEq, Option.some.injEq] at hr
          rw [← hr.1]
          exact h
        · simp only [Prod.mk.injEq, Option.some.injEq] at hr
          rw [← hr.1]
          exact h
        all_goals
          have hsn : ChainOk iter s.params (c ++ [(b, decodeFsb d)]) := by
            refine h.snoc hb (by simpa using h3) (fun l hl => ?_) h1 (by omega)
            simpa [hl] using h4
        · simp only [Prod.mk.injEq, Option.some.injEq] at hr
          rw [← hr.1]
          exact hsn
        · have := ih (decodeFsb d).next.toNat (c ++ [(b, decodeFsb d)]) s1 (by rw [hp]; exact hsn)
            (by
              intro e he
              rw [not_or] at h5
              rcases List.mem_append.1 he with he | he
              · have := hb e he; omega
              · simp at he; subst he; simp only; omega)
            (by rw [hp]; rw [not_or] at h5; omega) hr
          rw [← hp]
          exact this


/-! ### What the opening of a file touches -/

/-- A piece of a step that only reads blocks. -/
structure ReadStep (s t : State) : Prop where
  eq : t = { s with env := { s.env with mediumOk := t.env.mediumOk }, out := t.out }
  out : ∃ es : List Event, t.out = s.out ++ es ∧ ∀ e ∈ es, ∃ i a, e = .blkRead i a

theorem ReadStep.refl (s : State) : ReadStep s s := ⟨rfl, [], by simp⟩

theorem ReadStep.trans {s t u : State} (h : ReadStep s t) (k : ReadStep t u) : ReadStep s u := by
  obtain ⟨es, he, hes⟩ := h.out
  obtain ⟨fs, hf, hfs⟩ := k.out
  refine ⟨?_, es ++ fs, by rw [hf, he, List.append_assoc], ?_⟩
  · have := k.eq
    rw [h.eq] at this
    exact this
  · intro e hm
    rcases List.mem_append.1 hm with hm | hm
    · exact hes e hm
    · exact hfs e hm

theorem ReadStep.busy {s t : State} (h : ReadStep s t) : t.med.busy = s.med.busy := by rw [h.eq]

theorem blkRead_reads (i : Nat) (s : State) (hb : s.med.busy = false) :
    ReadStep s (blkRead i s).2 := by
  by_cases hi : i < s.params.mediumBlocks
  · cases hok : s.env.mediumOk.peek Config.freeMediumOk 0
    · rw [blkRead_err hb hi hok]
      exact ⟨rfl, _, rfl, by simp⟩
    · rw [blkRead_ok hb hi hok]
      exact ⟨rfl, _, rfl, by simp⟩
  · rw [blkRead_outside hb (by omega)]
    exact ⟨rfl, _, rfl, by simp⟩

theorem readSB_reads (s : State) (hb : s.med.busy = false) : ReadStep s (readSB s).2 := by
  have h := blkRead_reads s.params.sbBlock s hb
  unfold readSB
  split <;> (rename_i h2; rw [h2] at h; exact h)

theorem chainFrom_reads (iter : U32) (fuel b : Nat) (c : List (Nat × Fsb)) (s : State)
    (hb : s.med.busy = false) : ReadStep s (chainFrom iter fuel b c s).2 := by
  induction fuel generalizing b c s with
  | zero => exact .refl s
  | succ fuel ih =>
    unfold chainFrom
    split
    · exact .refl s
    · have h := blkRead_reads b s hb
      split
      · rename_i h2; rw [h2] at h; exact h
      · rename_i h2
        rw [h2] at h
        simp only
        split_ifs
        · exact h
        · exact h
        · exact h
        · exact h.trans (ih _ _ _ (by rw [h.busy]; exact hb))

/-- Opening only reads, with no file open and no write outstanding. -/
theorem openChain_reads (s : State) (ho : s.fs.isOpen = false) (hb : s.med.busy = false) :
    ReadStep s (openChain s).2 := by
  unfold openChain
  rw [fsClose_closed ho]
  simp only
  have hr := readSB_reads s hb
  split
  · rename_i h3; rw [h3] at hr; exact hr
  · rename_i sb s2 h3
    rw [h3] at hr
    split
    · exact hr
    · have hc := chainFrom_reads sb.iter (s2.params.mediumBlocks + 1) s2.params.firstFileBlock [] s2
        (by rw [hr.busy]; exact hb)
      unfold chainWalk
      split
      · rename_i h6; rw [h6] at hc; exact hr.trans hc
      · rename_i h6; rw [h6] at hc; exact hr.trans hc

/-! ### What the opening answers -/

theorem Params.sb_lt {p : Params} (h : p.Valid) : p.sbBlock < p.mediumBlocks := by
  have := h.2.2.2.2.2.2.2.2.1
  omega

theorem Params.first_lt {p : Params} (h : p.Valid) : p.firstFileBlock < p.mediumBlocks := by
  have := h.2.2.2.2.2.2.2.2.1
  simp only [Params.firstFileBlock]
  omega

theorem Params.block_ge {p : Params} (h : p.Valid) : 24 ≤ p.blockBytes := h.2.1

theorem Params.magic_length {p : Params} (h : p.Valid) : p.magic.length = 8 :=
  h.2.2.2.2.2.2.2.2.2.2.1

theorem openChain_readError {s : State} (ho : s.fs.isOpen = false) (hb : s.med.busy = false)
    (hp : s.params.sbBlock < s.params.mediumBlocks)
    (h : s.env.mediumOk.peek Config.freeMediumOk 0 = false) :
    openChain s = (.err .sdRead, { s with
      env := mediumTaken 1 s, out := s.out ++ [.blkRead s.params.sbBlock none] }) := by
  simp [openChain, fsClose_closed ho, readSB, blkRead_err hb hp h]

theorem openChain_invalid {s : State} (ho : s.fs.isOpen = false) (hb : s.med.busy = false)
    (hp : s.params.sbBlock < s.params.mediumBlocks)
    (h : s.env.mediumOk.peek Config.freeMediumOk 0 = true)
    (hv : superblockValid s.params (blockAt s s.params.sbBlock) = false) :
    openChain s = (.err .noExistingFile, { s with
      env := mediumTaken 1 s
      out := s.out ++ [.blkRead s.params.sbBlock (some (blockAt s s.params.sbBlock))] }) := by
  simp [openChain, fsClose_closed ho, readSB, blkRead_ok hb hp h, hv]

/-- A formatted medium with no file of its iteration: the chain is empty. -/
theorem openChain_empty {s : State} (ho : s.fs.isOpen = false) (hb : s.med.busy = false)
    (hp : s.params.Valid) (h : mediumAnswersOk 2 s)
    (hv : superblockValid s.params (blockAt s s.params.sbBlock) = true)
    (hi : (decodeFsb (blockAt s s.params.firstFileBlock)).iteration ≠
      superblockIter (blockAt s s.params.sbBlock)) :
    openChain s = (.ok (superblockIter (blockAt s s.params.sbBlock), []), { s with
      env := mediumTaken 2 s
      out := s.out ++
        [.blkRead s.params.sbBlock (some (blockAt s s.params.sbBlock)),
         .blkRead s.params.firstFileBlock (some (blockAt s s.params.firstFileBlock))] }) := by
  obtain ⟨h1, h2⟩ := mediumAnswersOk_succ h
  have h2 := (mediumAnswersOk_succ h2).1
  have hr := blkRead_ok (i := s.params.firstFileBlock) (s := { s with
      env := mediumTaken 1 s
      out := s.out ++ [.blkRead s.params.sbBlock (some (blockAt s s.params.sbBlock))] })
    hb (Params.first_lt hp) h2
  simp only [openChain, fsClose_closed ho, readSB, blkRead_ok hb (Params.sb_lt hp) h1, hv, chainWalk,
    chainFrom]
  rw [if_neg (by simp), if_neg (by have := (Params.first_lt hp); omega), hr]
  simp only
  rw [if_pos (by exact hi)]
  simp [mediumTaken, blockAt]

/-- A formatted medium with one file, at the first file block and without a forward link. -/
theorem openChain_single {s : State} (ho : s.fs.isOpen = false) (hb : s.med.busy = false)
    (hp : s.params.Valid) (h : mediumAnswersOk 2 s)
    (hv : superblockValid s.params (blockAt s s.params.sbBlock) = true)
    (hi : (decodeFsb (blockAt s s.params.firstFileBlock)).iteration =
      superblockIter (blockAt s s.params.sbBlock))
    (hn : (decodeFsb (blockAt s s.params.firstFileBlock)).next = nextNone) :
    openChain s = (.ok (superblockIter (blockAt s s.params.sbBlock),
        [(s.params.firstFileBlock, decodeFsb (blockAt s s.params.firstFileBlock))]), { s with
      env := mediumTaken 2 s
      out := s.out ++
        [.blkRead s.params.sbBlock (some (blockAt s s.params.sbBlock)),
         .blkRead s.params.firstFileBlock (some (blockAt s s.params.firstFileBlock))] }) := by
  obtain ⟨h1, h2⟩ := mediumAnswersOk_succ h
  have h2 := (mediumAnswersOk_succ h2).1
  have hr := blkRead_ok (i := s.params.firstFileBlock) (s := { s with
      env := mediumTaken 1 s
      out := s.out ++ [.blkRead s.params.sbBlock (some (blockAt s s.params.sbBlock))] })
    hb (Params.first_lt hp) h2
  simp only [openChain, fsClose_closed ho, readSB, blkRead_ok hb (Params.sb_lt hp) h1, hv, chainWalk,
    chainFrom]
  rw [if_neg (by simp), if_neg (by have := (Params.first_lt hp); omega), hr]
  simp only
  rw [if_neg (by exact fun e => e hi), if_neg (by simp), if_pos (.inl (by exact hn))]
  simp [mediumTaken, blockAt]

/-- The create after the opening has answered a chain, on a medium that answers. -/
theorem fsCreate_ok {s u : State} {iter : U32} {c : List (Nat × Fsb)}
    (h : openChain s = (.ok (iter, c), u)) (hlt : (nextSlot u.params c).1 < u.params.mediumBlocks)
    (hok : mediumAnswersOk (if c = [] then 1 else 2) u)
    (hc : ∀ e ∈ c, e.1 < u.params.mediumBlocks) :
    let slot := nextSlot u.params c
    let rtc := u.env.rtc.peek Config.freeRtc 0
    let fsb := fsbBlock u.params ⟨iter, slot.2, 0, nextNone, rtc.1, rtc.2⟩
    let link := fun l : Nat × Fsb =>
      fsbBlock u.params { l.2 with next := BitVec.ofNat 32 slot.1 }
    fsCreate s = (.ok slot.2,
      { (match c.getLast? with
          | none => setBlock slot.1 fsb u
          | some l => setBlock l.1 (link l) (setBlock slot.1 fsb u)) with
        fs := ⟨true, .created, iter, slot.2, BitVec.ofNat 32 slot.1, 0, nextNone, rtc.1, rtc.2,
          false, 0⟩
        env := { mediumTaken (if c = [] then 1 else 2) u with rtc := u.env.rtc.advance 1 }
        out := u.out ++ (.blkWrite slot.1 fsb true ::
          match c.getLast? with
          | none => []
          | some l => [.blkWrite l.1 (link l) true]) }) := by
  intro slot rtc fsb link
  have hb : u.med.busy = false := by
    have := (openChain_step s).2.2 (iter, c) (by rw [h])
    rwa [h] at this
  have h1 : u.env.mediumOk.peek Config.freeMediumOk 0 = true := hok 0 (by split <;> omega)
  have hw := blkWrite_ok (i := slot.1) (d := fsb)
    (s := { u with env := { u.env with rtc := u.env.rtc.advance 1 } }) hb hlt h1
  simp only [fsCreate, h]
  rw [if_neg (by exact Nat.not_le.2 hlt)]
  simp only [rtcNow_eq]
  rw [hw]
  cases hl : c.getLast? with
  | none =>
    have hc0 : c = [] := List.getLast?_eq_none_iff.1 hl
    simp [linkPrevious, hc0, mediumTaken, setBlock, rtc, slot, fsb]
  | some l =>
    have hc0 : c ≠ [] := by rintro rfl; simp at hl
    have h2 : u.env.mediumOk.peek Config.freeMediumOk 1 = true :=
      hok 1 (by rw [if_neg hc0]; omega)
    have hl2 : l.1 < u.params.mediumBlocks := hc l (List.mem_of_getLast? hl)
    have hw2 := blkWrite_ok (i := l.1) (d := link l)
      (s := { setBlock slot.1 fsb u with
        env := { mediumTaken 1 u with rtc := u.env.rtc.advance 1 }
        out := u.out ++ [.blkWrite slot.1 fsb true] }) hb hl2 (by simpa [mediumTaken] using h2)
    simp only [linkPrevious, hl]
    simp only [setBlock, mediumTaken, link, slot] at hw2 ⊢
    rw [hw2]
    simp [hc0, rtc, slot, fsb]

/-- The chain of a successful opening. -/
theorem openChain_chain {s u : State} {iter : U32} {c : List (Nat × Fsb)}
    (h : openChain s = (.ok (iter, c), u)) : ChainOk iter u.params c := by
  have hp : u.params = s.params := by
    have := (openChain_step s).1.params
    rwa [h] at this
  unfold openChain at h
  split at h
  · simp at h
  · simp at h
  · rename_i s1 h1
    split at h
    · simp at h
    · rename_i sb s2 h2
      split at h
      · simp at h
      · split at h
        · simp at h
        · rename_i c' s3 h3
          simp only [Prod.mk.injEq, Res.ok.injEq] at h
          obtain ⟨⟨rfl, rfl⟩, rfl⟩ := h
          have e1 := (fsClose_step s).1.params
          rw [h1] at e1
          have e2 := (readSB_step s1).1.params
          rw [h2] at e2
          rw [hp, ← e1, ← e2]
          exact chainFrom_ok sb.iter _ _ [] c' s2 s3 ⟨by simp, by simp⟩ (by simp) (le_refl _) h3

theorem superblock_length {p : Params} (h : p.Valid) (i : U32) (b : Bool) :
    (superblock p i b).length = p.blockBytes := by
  have h1 := Params.block_ge h
  simp [superblock, Params.magic_length h]
  omega

theorem fsbBlock_length {p : Params} (h : p.Valid) (f : Fsb) :
    (fsbBlock p f).length = p.blockBytes := by
  have h1 := Params.block_ge h
  simp [fsbBlock]
  omega

theorem decodeFsb_fsbBlock (p : Params) (f : Fsb) : decodeFsb (fsbBlock p f) = f := by
  have h : ∀ (a c : Bytes) (v : U32) (i : Nat), a.length = i → u32At (a ++ (le32 v ++ c)) i = v :=
    fun _ _ _ _ e => u32At_append e
  have e0 := h [] (le32 f.seq ++ (le32 f.byteLen ++ (le32 f.next ++ (le32 f.rtcS ++
    (le32 f.rtcSub ++ zeros (p.blockBytes - 24)))))) f.iteration 0 rfl
  have e1 := h (le32 f.iteration) (le32 f.byteLen ++ (le32 f.next ++ (le32 f.rtcS ++
    (le32 f.rtcSub ++ zeros (p.blockBytes - 24))))) f.seq 4 (by simp)
  have e2 := h (le32 f.iteration ++ le32 f.seq) (le32 f.next ++ (le32 f.rtcS ++
    (le32 f.rtcSub ++ zeros (p.blockBytes - 24)))) f.byteLen 8 (by simp)
  have e3 := h (le32 f.iteration ++ le32 f.seq ++ le32 f.byteLen) (le32 f.rtcS ++
    (le32 f.rtcSub ++ zeros (p.blockBytes - 24))) f.next 12 (by simp)
  have e4 := h (le32 f.iteration ++ le32 f.seq ++ le32 f.byteLen ++ le32 f.next)
    (le32 f.rtcSub ++ zeros (p.blockBytes - 24)) f.rtcS 16 (by simp)
  have e5 := h (le32 f.iteration ++ le32 f.seq ++ le32 f.byteLen ++ le32 f.next ++ le32 f.rtcS)
    (zeros (p.blockBytes - 24)) f.rtcSub 20 (by simp)
  simp only [List.append_assoc, List.nil_append] at e0 e1 e2 e3 e4 e5
  unfold decodeFsb fsbBlock
  simp only [List.append_assoc]
  rw [e0, e1, e2, e3, e4, e5]

theorem superblock_fields {p : Params} (h : p.Valid) (i : U32) (b : Bool) :
    superblockValid p (superblock p i b) = true ∧ superblockIter (superblock p i b) = i := by
  have hm := Params.magic_length h
  have hh : ∀ (a c : Bytes) (v : U32) (i : Nat), a.length = i → u32At (a ++ (le32 v ++ c)) i = v :=
    fun _ _ _ _ e => u32At_append e
  have e1 := hh p.magic (le32 i ++ ([if b then 1 else 0] ++ zeros (p.blockBytes - 17)))
    p.fsVersion 8 hm
  have e2 := hh (p.magic ++ le32 p.fsVersion) ([if b then 1 else 0] ++ zeros (p.blockBytes - 17))
    i 12 (by simp [hm])
  simp only [List.append_assoc] at e1 e2
  simp only [superblockValid, superblockIter, superblock, List.append_assoc, e1, e2]
  simp [slice, ← hm]


/-! ### Format and close -/

/-- `FS_FORMAT` on a medium that answers. -/
theorem fsFormat_ok (s : State) (portable : Bool) (hp : s.params.Valid)
    (hb : s.med.busy = false) (hok : mediumAnswersOk 2 s) :
    fsFormat portable s = (.ok (),
      { setBlock s.params.sbBlock (superblock s.params (nextIteration s) portable) s with
        fs := { s.fs with isOpen := false, dirty := false }
        env := mediumTaken 2 s
        out := s.out ++
          [.blkRead s.params.sbBlock (some (blockAt s s.params.sbBlock)),
           .blkWrite s.params.sbBlock (superblock s.params (nextIteration s) portable) true] }) := by
  obtain ⟨h1, h2⟩ := mediumAnswersOk_succ hok
  have h2 := (mediumAnswersOk_succ h2).1
  have hr := blkRead_ok (s := { s with fs := { s.fs with isOpen := false, dirty := false } })
    (i := s.params.sbBlock) hb (Params.sb_lt hp) h1
  simp only [fsFormat, formatMedium, readSB, hr]
  rw [blkWrite_ok (by exact hb) (by exact Params.sb_lt hp) (by exact h2)]
  simp [nextIteration, setBlock, mediumTaken, blockAt]
  exact ⟨rfl, rfl⟩

/-- `FS_CLOSE` of a dirty file on a medium that answers. -/
theorem fsClose_dirty_ok (s : State) (hb : s.med.busy = false) (ho : s.fs.isOpen = true)
    (hd : s.fs.dirty = true) (hi : s.fs.start.toNat < s.params.mediumBlocks)
    (h1 : s.env.mediumOk.peek Config.freeMediumOk 0 = true) :
    fsClose s = (.ok (), { setBlock s.fs.start.toNat (metaFsb s) s with
      fs := { s.fs with isOpen := false, dirty := false }
      env := mediumTaken 1 s
      out := s.out ++ [.blkWrite s.fs.start.toNat (metaFsb s) true] }) := by
  simp only [fsClose, ho, hd]
  rw [blkWrite_ok (by exact hb) (by exact hi) (by exact h1)]
  rfl

/-- `FS_CLOSE` of a dirty file whose metadata write fails. -/
theorem fsClose_dirty_err (s : State) (hb : s.med.busy = false) (ho : s.fs.isOpen = true)
    (hd : s.fs.dirty = true) (hi : s.fs.start.toNat < s.params.mediumBlocks)
    (h1 : s.env.mediumOk.peek Config.freeMediumOk 0 = false) :
    fsClose s = (.err .sdWrite,
      { setBlock s.fs.start.toNat (s.env.block.peek Config.freeBlock 0) s with
        fs := { s.fs with isOpen := false, dirty := false }
        env := { mediumTaken 1 s with block := s.env.block.advance 1 }
        out := s.out ++ [.blkWrite s.fs.start.toNat (metaFsb s) false] }) := by
  simp only [fsClose, ho, hd]
  rw [blkWrite_err (by exact hb) (by exact hi) (by exact h1)]
  rfl

/-- `FS_OPEN 0` of an entry of the chain. -/
theorem fsReopen_ok {s u : State} {iter seq : U32} {c : List (Nat × Fsb)} {b : Nat} {f : Fsb}
    (h : openChain s = (.ok (iter, c), u))
    (hf : c.find? (fun e => e.2.seq == seq) = some (b, f)) :
    fsReopen seq s = (.ok seq, { u with
      fs := ⟨true, .reopened, iter, f.seq, BitVec.ofNat 32 b, f.byteLen.toNat, f.next, f.rtcS,
        f.rtcSub, false, 0⟩ }) := by
  simp only [fsReopen, h, hf]

/-- `FS_READ` on a medium that answers. -/
theorem fsRead_ok (s : State) (n : Nat) (hB : 0 < s.params.blockBytes) (hb : s.med.busy = false)
    (ho : s.fs.isOpen = true) :
    let m := min n (s.fs.len - s.fs.rdPos)
    let blocks := touchedBlocks s.params s.fs.rdPos m
    fileOnMedium s.params s.fs.start.toNat s.fs.rdPos m → mediumAnswersOk blocks s →
    fsRead n s = (.ok (fileBytes s s.fs.start.toNat s.fs.rdPos m), { s with
      fs := { s.fs with rdPos := s.fs.rdPos + m }
      env := mediumTaken blocks s
      out := s.out ++ (List.range blocks).map fun k =>
        let i := s.fs.start.toNat + 1 + (s.fs.rdPos / s.params.blockBytes + k)
        .blkRead i (some (blockAt s i)) }) := by
  intro m blocks hm hok
  have hr := readBlocks_ok s.fs.rdPos m (s.fs.rdPos / s.params.blockBytes) blocks s hb (by
    intro hz
    have hm0 : m ≠ 0 := by
      rintro h
      exact hz (by simp [blocks, touchedBlocks, h])
    have h1 := hm hm0
    have hle : s.fs.rdPos / s.params.blockBytes ≤ (s.fs.rdPos + m - 1) / s.params.blockBytes :=
      Nat.div_le_div_right (by omega)
    have h2 : s.fs.rdPos / s.params.blockBytes + blocks =
        (s.fs.rdPos + m - 1) / s.params.blockBytes + 1 := by
      simp only [blocks, touchedBlocks, if_neg hm0]
      omega
    rw [h2, Nat.add_sub_cancel]
    exact h1) hok
  rw [fileBytes_eq_parts s s.fs.start.toNat s.fs.rdPos m hB] at hr
  rw [fsRead, if_neg (by simp [ho])]
  simp only [blocksTouched_eq]
  rw [show touchedBlocks s.params s.fs.rdPos (min n (s.fs.len - s.fs.rdPos)) = blocks from rfl, hr]
  simp [List.range'_eq_map_range, Function.comp_def, m]

end Sys2Proof.Machine
end

