-- ==== Sys2Proof/Laws/FileCycle.lean ====
section
/-! SUPPORT. One file written and read back on a medium that answers, operation by operation: what a
format, a create, an append, a close, an open by number and a read leave for the next one
(spec/41_log_filesystem.md R162 to R170). -/

namespace Sys2Proof.Machine

/-- A running block with parameters `p`, no write outstanding, and a medium that answers the next
`n` times. -/
structure Ready (n : Nat) (p : Params) (s : State) : Prop where
  params : s.params = p
  busy : s.med.busy = false
  halted : s.ma.halted = false
  ok : mediumAnswersOk n s

theorem Ready.mono {n m : Nat} {p : Params} {s : State} (h : Ready n p s) (hm : m ≤ n) :
    Ready m p s :=
  ⟨h.params, h.busy, h.halted, fun k hk => h.ok k (by omega)⟩

theorem Ready.status {n : Nat} {p : Params} {s : State} (h : Ready n p s) (a : Status) :
    Ready n p { s with status := a } :=
  ⟨h.params, h.busy, h.halted, h.ok⟩

/-- Taking `m` answers. -/
theorem Ready.taken {n m : Nat} {p : Params} {s t : State} (h : Ready (m + n) p s)
    (hp : t.params = s.params) (hb : t.med.busy = s.med.busy) (hh : t.ma = s.ma)
    (he : t.env.mediumOk = s.env.mediumOk.advance m) : Ready n p t := by
  refine ⟨hp.trans h.params, hb.trans h.busy, by rw [hh]; exact h.halted, fun k hk => ?_⟩
  rw [he]
  have := h.ok (m + k) (by omega)
  simpa using this

/-- `n` bytes from the start of a file touch at most `n` blocks. -/
theorem touchedBlocks_le (p : Params) (n : Nat) : touchedBlocks p 0 n ≤ n := by
  unfold touchedBlocks
  split
  · omega
  · simp only [Nat.zero_add, Nat.zero_div, Nat.sub_zero]
    have := Nat.div_le_self (n - 1) p.blockBytes
    omega

theorem firstFileBlock_toNat {p : Params} (hp : p.Valid) :
    (BitVec.ofNat 32 p.firstFileBlock).toNat = p.firstFileBlock := by
  have h1 := Params.first_lt hp
  have h2 := hp.2.2.2.2.2.2.2.2.2.1
  simp only [BitVec.toNat_ofNat]
  omega

theorem fsFormat_ready {n : Nat} {p : Params} {s : State} (portable : Bool) (hp : p.Valid)
    (h : Ready (2 + n) p s) :
    ∃ t, fsFormat portable s = (.ok (), t) ∧ Ready n p t ∧ t.fs.isOpen = false ∧
      blockAt t p.sbBlock = superblock p (nextIteration s) portable ∧
      (∀ i, i ≠ p.sbBlock → blockAt t i = blockAt s i) ∧ t.env.rtc = s.env.rtc ∧
      t = { s with fs := t.fs, med := t.med, env := t.env, out := t.out } := by
  obtain rfl := h.params
  refine ⟨_, fsFormat_ok s portable hp h.busy (fun k hk => h.ok k (by omega)),
    h.taken rfl rfl rfl rfl, rfl, ?_, fun i hi => blockAt_setBlock_ne _ s hi, rfl, rfl⟩
  exact (blockAt_setBlock_self _ _ s).trans (fit_eq_self (superblock_length hp _ _))

theorem fsCreate_ready {n : Nat} {p : Params} {s : State} {iter : U32} {portable : Bool}
    (hp : p.Valid) (h : Ready (3 + n) p s) (ho : s.fs.isOpen = false)
    (hsb : blockAt s p.sbBlock = superblock p iter portable)
    (hf : (decodeFsb (blockAt s p.firstFileBlock)).iteration ≠ iter) :
    ∃ t, fsCreate s = (.ok 1, t) ∧ Ready n p t ∧
      (let rtc := s.env.rtc.peek Config.freeRtc 0
       t.fs = ⟨true, .created, iter, 1, BitVec.ofNat 32 p.firstFileBlock, 0, nextNone, rtc.1, rtc.2,
         false, 0⟩ ∧
       blockAt t p.sbBlock = blockAt s p.sbBlock ∧
       blockAt t p.firstFileBlock = fsbBlock p ⟨iter, 1, 0, nextNone, rtc.1, rtc.2⟩) ∧
      t = { s with fs := t.fs, med := t.med, env := t.env, out := t.out } := by
  obtain rfl := h.params
  have hv := superblock_fields hp iter portable
  rw [← hsb] at hv
  have h1 := openChain_empty ho h.busy hp (fun k hk => h.ok k (by omega)) hv.1
    (by rw [hv.2]; exact hf)
  have h2 := fsCreate_ok h1 (Params.first_lt hp) (fun k hk => by
    have := h.ok (2 + k) (by simp at hk; omega)
    simpa [mediumTaken] using this) (by simp)
  rw [hv.2] at h2
  refine ⟨_, h2, h.taken rfl rfl rfl ?_, ⟨rfl, ?_, ?_⟩, rfl⟩
  · simp [mediumTaken]
  · exact blockAt_setBlock_ne _ s (by simp [nextSlot, Params.firstFileBlock])
  · exact (blockAt_setBlock_self _ _ s).trans (fit_eq_self (fsbBlock_length hp _))

theorem fsWrite_ready {n : Nat} {p : Params} {s : State} {r : FileRegs} (data : Bytes)
    (hp : p.Valid) (h : Ready (data.length + 1 + n) p s) (hr : s.fs = r) (ho : r.isOpen = true)
    (hk : r.kind = .created) (hl : r.len = 0) (hs : r.start = BitVec.ofNat 32 p.firstFileBlock)
    (hm : fileOnMedium p p.firstFileBlock 0 data.length) :
    ∃ t, fsWrite data s = (.ok (), t) ∧ Ready (1 + n) p t ∧
      t.fs = { r with len := data.length, dirty := r.dirty || decide (0 < data.length) } ∧
      (∀ i, i ≤ p.firstFileBlock → blockAt t i = blockAt s i) ∧
      (∀ i < data.length,
        mediumByte t ((p.firstFileBlock + 1) * p.blockBytes + i) = data.getD i 0) ∧
      t = { s with fs := t.fs, med := t.med, env := t.env, out := t.out } := by
  obtain rfl := h.params
  subst hr
  have hB : 0 < s.params.blockBytes := by have := Params.block_ge hp; omega
  have hst : s.fs.start.toNat = s.params.firstFileBlock := by rw [hs, firstFileBlock_toNat hp]
  have ht := touchedBlocks_le s.params data.length
  obtain ⟨t, e1, e2, e3, e4, -, -⟩ := fsWrite_ok s data hB h.busy ho hk (by rw [hst, hl]; exact hm)
    (by rw [hl]; exact fun k hk => h.ok k (by omega))
  refine ⟨t, e1, ?_, ?_, ?_, ?_, ?_⟩
  · apply Ready.mono (n := 1 + n + (data.length - touchedBlocks s.params 0 data.length))
    · apply Ready.taken (m := touchedBlocks s.params 0 data.length) (h.mono (by omega))
      · rw [e2]
      · rw [e2]
      · rw [e2]
      · rw [e2, hl]
        simp [mediumTaken]
    · omega
  · rw [e2, hl]
    simp
  · intro i hi
    apply blockAt_congr (by rw [e2])
    intro j hj
    apply e4
    rw [hst, hl]
    have := Nat.mul_le_mul_right s.params.blockBytes
      (show i + 1 ≤ s.params.firstFileBlock + 1 by omega)
    rw [Nat.add_mul i, Nat.one_mul] at this
    omega
  · intro i hi
    have := e3 i hi
    rwa [hst, hl] at this
  · conv_lhs => rw [e2]
    rw [e2]

theorem fsClose_ready {n : Nat} {p : Params} {s : State} {r : FileRegs} (hp : p.Valid)
    (h : Ready (1 + n) p s) (hr : s.fs = r) (ho : r.isOpen = true)
    (hs : r.start = BitVec.ofNat 32 p.firstFileBlock)
    (hc : r.dirty = false → blockAt s p.firstFileBlock =
      fsbBlock p ⟨r.iter, r.seq, BitVec.ofNat 32 r.len, r.next, r.rtcS, r.rtcSub⟩) :
    ∃ t, fsClose s = (.ok (), t) ∧ Ready n p t ∧ t.fs.isOpen = false ∧
      (∀ i, i ≠ p.firstFileBlock → blockAt t i = blockAt s i) ∧
      blockAt t p.firstFileBlock =
        fsbBlock p ⟨r.iter, r.seq, BitVec.ofNat 32 r.len, r.next, r.rtcS, r.rtcSub⟩ ∧
      (∀ a, (p.firstFileBlock + 1) * p.blockBytes ≤ a → mediumByte t a = mediumByte s a) ∧
      t = { s with fs := t.fs, med := t.med, env := t.env, out := t.out } := by
  obtain rfl := h.params
  subst hr
  have hst : s.fs.start.toNat = s.params.firstFileBlock := by rw [hs, firstFileBlock_toNat hp]
  cases hd : s.fs.dirty with
  | false =>
    refine ⟨{ s with fs := { s.fs with isOpen := false } }, ?_, ?_, rfl, fun _ _ => rfl, hc hd,
      fun _ _ => rfl, rfl⟩
    · simp [fsClose, ho, hd]
    · exact ⟨rfl, h.busy, h.halted, fun k hk => h.ok k (by omega)⟩
  | true =>
    have e := fsClose_dirty_ok s h.busy ho hd (by rw [hst]; exact Params.first_lt hp)
      (h.ok 0 (by omega))
    refine ⟨_, e, h.taken rfl rfl rfl rfl, rfl, ?_, ?_, ?_, rfl⟩
    · intro i hi
      exact blockAt_setBlock_ne _ s (by rw [hst]; exact hi)
    · rw [← hst]
      exact (blockAt_setBlock_self _ _ s).trans (fit_eq_self (fsbBlock_length hp _))
    · intro a ha
      exact sameOutsideBlock_setBlock s.fs.start.toNat (metaFsb s) s a (by rw [hst]; exact .inr ha)

theorem fsReopen_ready {n : Nat} {p : Params} {s : State} {iter : U32} {portable : Bool} {f : Fsb}
    (hp : p.Valid) (h : Ready (2 + n) p s) (ho : s.fs.isOpen = false)
    (hsb : blockAt s p.sbBlock = superblock p iter portable)
    (hf : blockAt s p.firstFileBlock = fsbBlock p f) (hi : f.iteration = iter)
    (hn : f.next = nextNone) :
    ∃ t, fsReopen f.seq s = (.ok f.seq, t) ∧ Ready n p t ∧
      t.fs = ⟨true, .reopened, iter, f.seq, BitVec.ofNat 32 p.firstFileBlock, f.byteLen.toNat,
        f.next, f.rtcS, f.rtcSub, false, 0⟩ ∧
      (∀ a, mediumByte t a = mediumByte s a) ∧
      t = { s with fs := t.fs, med := t.med, env := t.env, out := t.out } := by
  obtain rfl := h.params
  have hv := superblock_fields hp iter portable
  rw [← hsb] at hv
  have hdf : decodeFsb (blockAt s s.params.firstFileBlock) = f := by rw [hf, decodeFsb_fsbBlock]
  have h1 := openChain_single ho h.busy hp (fun k hk => h.ok k (by omega)) hv.1
    (by rw [hv.2, hdf]; exact hi) (by rw [hdf]; exact hn)
  rw [hdf, hv.2] at h1
  exact ⟨_, fsReopen_ok (b := s.params.firstFileBlock) (f := f) h1 (by simp),
    h.taken rfl rfl rfl rfl, rfl, fun _ => rfl, rfl⟩

theorem fsRead_ready {n : Nat} {p : Params} {s : State} {r : FileRegs} (m : Nat) (hp : p.Valid)
    (h : Ready (m + n) p s) (hr : s.fs = r) (ho : r.isOpen = true) (hl : r.len = m)
    (hz : r.rdPos = 0) (hs : r.start = BitVec.ofNat 32 p.firstFileBlock)
    (hm : fileOnMedium p p.firstFileBlock 0 m) :
    ∃ t, fsRead m s = (.ok ((List.range m).map fun i =>
        mediumByte s ((p.firstFileBlock + 1) * p.blockBytes + i)), t) ∧ Ready n p t ∧
      t.fs = { r with rdPos := m } ∧ (∀ a, mediumByte t a = mediumByte s a) ∧
      t = { s with fs := t.fs, med := t.med, env := t.env, out := t.out } := by
  obtain rfl := h.params
  subst hr
  have hB : 0 < s.params.blockBytes := by have := Params.block_ge hp; omega
  have hst : s.fs.start.toNat = s.params.firstFileBlock := by rw [hs, firstFileBlock_toNat hp]
  have ht := touchedBlocks_le s.params m
  have e := fsRead_ok s m hB h.busy ho
  simp only [hl, hz, Nat.sub_zero, Nat.min_self, hst, fileBytes, Nat.add_zero] at e
  refine ⟨_, e hm (fun k hk => h.ok k (by omega)), ?_, ?_, fun _ => rfl, rfl⟩
  · apply Ready.mono (n := n + (m - touchedBlocks s.params 0 m))
    · apply Ready.taken (m := touchedBlocks s.params 0 m) (h.mono (by omega)) <;> rfl
    · omega
  · simp [hl]

end Sys2Proof.Machine
end

