-- ==== Sys2Proof/Laws/Ring.lean ====
section
/-! SUPPORT. The ring buffer: cursor arithmetic, what a write stores, what a read returns, and the
failing accesses (spec/40_ring_buffer.md R141, R142). -/

namespace Sys2Proof.Machine

/-! ### Arithmetic of a cursor and its phase -/

theorem mod_of_lt_two_mul {x c : Nat} (h : x < 2 * c) : x % c = if x < c then x else x - c := by
  split
  · exact Nat.mod_eq_of_lt ‹_›
  · rw [Nat.mod_eq_sub_mod (by omega), Nat.mod_eq_of_lt (by omega)]

theorem div_of_lt_two_mul {x c : Nat} (h : x < 2 * c) : x / c = if x < c then 0 else 1 := by
  split
  · exact Nat.div_eq_of_lt ‹_›
  · exact Nat.div_eq_of_lt_le (by omega) (by omega)

/-- `used` without a remainder (10_state.md R25). -/
theorem used_eq {s : State} (hw : s.ring.w < s.params.ringCapacity)
    (hr : s.ring.r < s.params.ringCapacity) :
    used s = if extR s ≤ extW s then extW s - extR s
      else extW s + 2 * s.params.ringCapacity - extR s := by
  have h1 : extW s < 2 * s.params.ringCapacity := by unfold extW; split <;> omega
  have h2 : extR s < 2 * s.params.ringCapacity := by unfold extR; split <;> omega
  rw [used, mod_of_lt_two_mul (by omega)]
  split <;> split <;> omega

/-- The ring depends on its registers and the capacity only. -/
theorem used_congr {s t : State} (hr : t.ring = s.ring) (hp : t.params = s.params) :
    used t = used s := by
  simp [used, extW, extR, hr, hp]

theorem RingInv.congr {s t : State} (h : RingInv s) (hr : t.ring = s.ring)
    (hp : t.params = s.params) : RingInv t :=
  ⟨by rw [hr]; exact h.bound, by rw [hr, hp]; exact h.w_lt, by rw [hr, hp]; exact h.r_lt,
    by rw [used_congr hr hp, hp]; exact h.used_le⟩

theorem ringBytes_congr {s t : State} (hr : t.ring = s.ring) (hp : t.params = s.params)
    (hs : t.store = s.store) : ringBytes t = ringBytes s := by
  simp [ringBytes, used_congr hr hp, storeByte, hr, hp, hs]

/-- A bound, empty ring at offset 0. -/
theorem RingInv.empty {s : State} (hr : s.ring = ⟨true, 0, false, 0, false⟩)
    (hc : 1 ≤ s.params.ringCapacity) : RingInv s ∧ used s = 0 := by
  have hu : used s = 0 := by simp [used, extW, extR, hr]
  exact ⟨⟨by simp [hr], by simp [hr]; omega, by simp [hr]; omega, by omega⟩, hu⟩

@[simp] theorem ringBytes_length (s : State) : (ringBytes s).length = used s := by simp [ringBytes]

theorem ringBytes_getElem? (s : State) (i : Nat) :
    (ringBytes s)[i]? = if i < used s then
      some (storeByte s ((s.ring.r + i) % s.params.ringCapacity)) else none := by
  simp only [ringBytes, List.getElem?_map]
  by_cases h : i < used s <;> simp [h]

/-! ### Moving a cursor -/

/-- Moving an extended cursor by at most `C`: the cursor moves modulo `C`, the phase toggles when it
passes the end of the store. -/
theorem extended_advance {c w len : Nat} (ph : Bool) (hw : w < c) (hlen : len ≤ c) :
    ((if ph then c else 0) + w + len) % (2 * c) % c = (w + len) % c ∧
    (((if ph then c else 0) + w + len) % (2 * c) / c == 1) =
      (if c ≤ w + len then !ph else ph) := by
  have hx : (if ph then c else 0) + w + len < 2 * (2 * c) := by split <;> omega
  have hy := Nat.mod_lt ((if ph then c else 0) + w + len) (show 0 < 2 * c by omega)
  rw [div_of_lt_two_mul hy, mod_of_lt_two_mul hy,
    mod_of_lt_two_mul (show w + len < 2 * c by omega), mod_of_lt_two_mul hx]
  by_cases h : w + len < c
  · cases ph
    · have h1 : 0 + w + len < 2 * c := by omega
      have h2 : 0 + w + len < c := by omega
      have h3 : ¬ c ≤ w + len := by omega
      simp_all
    · have h1 : c + w + len < 2 * c := by omega
      have h2 : ¬ c + w + len < c := by omega
      have h3 : ¬ c ≤ w + len := by omega
      simp [h1, h2, h, h3]; omega
  · cases ph
    · have h1 : 0 + w + len < 2 * c := by omega
      have h2 : ¬ 0 + w + len < c := by omega
      have h3 : c ≤ w + len := by omega
      simp_all
    · have h1 : ¬ c + w + len < 2 * c := by omega
      have h2 : c + w + len - 2 * c < c := by omega
      have h3 : c ≤ w + len := by omega
      simp [h1, h2, h, h3]; omega

theorem advanceWrite_eq {s : State} {len : Nat} (hw : s.ring.w < s.params.ringCapacity)
    (hlen : len ≤ s.params.ringCapacity) :
    advanceWrite len s = { s with ring := { s.ring with
      w := (s.ring.w + len) % s.params.ringCapacity
      wp := if s.params.ringCapacity ≤ s.ring.w + len then !s.ring.wp else s.ring.wp } } := by
  obtain ⟨h1, h2⟩ := extended_advance s.ring.wp hw hlen
  simp only [advanceWrite, cursorOf, phaseOf, extW, h1, h2]

theorem advanceRead_eq {s : State} {len : Nat} (hr : s.ring.r < s.params.ringCapacity)
    (hlen : len ≤ s.params.ringCapacity) :
    advanceRead len s = { s with ring := { s.ring with
      r := (s.ring.r + len) % s.params.ringCapacity
      rp := if s.params.ringCapacity ≤ s.ring.r + len then !s.ring.rp else s.ring.rp } } := by
  obtain ⟨h1, h2⟩ := extended_advance s.ring.rp hr hlen
  simp only [advanceRead, cursorOf, phaseOf, extR, h1, h2]

/-- An extended cursor is put together from its phase and its cursor. -/
theorem extended_recombine {c y : Nat} (h : y < 2 * c) :
    (if y / c == 1 then c else 0) + y % c = y := by
  rw [div_of_lt_two_mul h, mod_of_lt_two_mul h]
  by_cases hc : y < c <;> simp [hc]
  omega

theorem extW_lt {s : State} (hw : s.ring.w < s.params.ringCapacity) :
    extW s < 2 * s.params.ringCapacity := by unfold extW; split <;> omega

theorem extR_lt {s : State} (hr : s.ring.r < s.params.ringCapacity) :
    extR s < 2 * s.params.ringCapacity := by unfold extR; split <;> omega

theorem extW_advanceWrite {s : State} {len : Nat} (h : 0 < s.params.ringCapacity) :
    extW (advanceWrite len s) = (extW s + len) % (2 * s.params.ringCapacity) :=
  extended_recombine (Nat.mod_lt _ (by omega))

theorem extR_advanceRead {s : State} {len : Nat} (h : 0 < s.params.ringCapacity) :
    extR (advanceRead len s) = (extR s + len) % (2 * s.params.ringCapacity) :=
  extended_recombine (Nat.mod_lt _ (by omega))

theorem used_advanceWrite {s : State} {len : Nat} (h : RingInv s) (hlen : len ≤ free s) :
    used (advanceWrite len s) = used s + len ∧ RingInv (advanceWrite len s) := by
  have hw := h.w_lt
  have hr := h.r_lt
  have hu := h.used_le
  have h1 := extW_lt hw
  have h2 := extR_lt hr
  unfold free at hlen
  have hw' : (advanceWrite len s).ring.w < s.params.ringCapacity := Nat.mod_lt _ (by omega)
  have key : used (advanceWrite len s) = used s + len := by
    rw [used_eq (s := advanceWrite len s) hw' hr, extW_advanceWrite (by omega)]
    rw [used_eq hw hr] at hlen hu ⊢
    have hx : extR (advanceWrite len s) = extR s := rfl
    have hp : (advanceWrite len s).params = s.params := rfl
    rw [hx, hp, mod_of_lt_two_mul (show extW s + len < 2 * (2 * s.params.ringCapacity) by omega)]
    split_ifs at * <;> omega
  exact ⟨key, h.bound, hw', hr, by
    rw [key]; show _ ≤ s.params.ringCapacity; omega⟩

theorem used_advanceRead {s : State} {len : Nat} (h : RingInv s) (hlen : len ≤ used s) :
    used (advanceRead len s) = used s - len ∧ RingInv (advanceRead len s) := by
  have hw := h.w_lt
  have hr := h.r_lt
  have hu := h.used_le
  have h1 := extW_lt hw
  have h2 := extR_lt hr
  have hr' : (advanceRead len s).ring.r < s.params.ringCapacity := Nat.mod_lt _ (by omega)
  have key : used (advanceRead len s) = used s - len := by
    rw [used_eq (s := advanceRead len s) hw hr', extR_advanceRead (by omega)]
    rw [used_eq hw hr] at hlen hu ⊢
    have hx : extW (advanceRead len s) = extW s := rfl
    have hp : (advanceRead len s).params = s.params := rfl
    rw [hx, hp, mod_of_lt_two_mul (show extR s + len < 2 * (2 * s.params.ringCapacity) by omega)]
    split_ifs at * <;> omega
  exact ⟨key, h.bound, hw, hr', by
    rw [key]; show _ ≤ s.params.ringCapacity; omega⟩

/-! ### Storing and fetching -/

theorem storeByte_memWrite (a : Nat) (d : Bytes) (s : State) (x : Nat) :
    storeByte (memWrite a d s) x =
      if a ≤ x ∧ x < a + d.length then d.getD (x - a) 0 else storeByte s x := by
  unfold memWrite
  split
  · rename_i h
    have : d = [] := by simpa using h
    rw [if_neg (by simp [this])]
  · simp only [storeByte, emit_store, Memory.read?_write]
    split
    · rename_i h
      rw [List.getD_eq_getElem?_getD, List.getElem?_eq_getElem (by omega)]
      rfl
    · rfl

/-- A write transfer reaches the store and the history only. -/
theorem memWrite_eq (a : Nat) (d : Bytes) (s : State) :
    memWrite a d s = { s with
      store := (memWrite a d s).store
      out := s.out ++ if d = [] then [] else [.memWrite a d] } := by
  unfold memWrite
  cases d <;> simp [emit]

theorem memWrite_wf {a : Nat} {d : Bytes} {s : State}
    (h : Memory.wf s.params.ringCapacity s.store) (hd : a + d.length ≤ s.params.ringCapacity) :
    Memory.wf s.params.ringCapacity (memWrite a d s).store := by
  unfold memWrite
  split
  · exact h
  · exact Memory.wf_write h hd

/-- A ring write's transfers (20_memory.md R77). -/
theorem ringStore_eq (data : Bytes) (s : State) (hw : s.ring.w < s.params.ringCapacity) :
    ringStore data s = { s with
      store := (ringStore data s).store
      out := s.out ++ writeTransfers s.params.ringCapacity s.ring.w data } := by
  unfold ringStore
  rw [memWrite_eq 0, memWrite_eq s.ring.w]
  simp only [writeTransfers]
  by_cases h0 : data = []
  · simp [h0]
  · have hpos : 0 < data.length := List.length_pos_iff.2 h0
    by_cases h1 : data.length ≤ s.params.ringCapacity - s.ring.w
    · simp [h0, h1]
    · have hmin : min data.length (s.params.ringCapacity - s.ring.w) =
          s.params.ringCapacity - s.ring.w := by omega
      have h2 : ¬ data.length = 0 := by omega
      have h3 : ¬ s.params.ringCapacity - s.ring.w = 0 := by omega
      simp [h0, h1, hmin, h3]

/-- Where a ring write's bytes go, and that it leaves every other byte (20_memory.md R73). -/
theorem storeByte_ringStore {data : Bytes} {s : State} (hw : s.ring.w < s.params.ringCapacity)
    (hlen : data.length ≤ s.params.ringCapacity) (x : Nat) :
    storeByte (ringStore data s) x =
      if s.ring.w ≤ x ∧ x < s.ring.w + data.length ∧ x < s.params.ringCapacity then
        data.getD (x - s.ring.w) 0
      else if x + s.params.ringCapacity < s.ring.w + data.length then
        data.getD (x + s.params.ringCapacity - s.ring.w) 0
      else storeByte s x := by
  unfold ringStore
  rw [storeByte_memWrite, storeByte_memWrite]
  simp only [List.length_drop, List.length_take, Nat.zero_le, true_and, Nat.zero_add, Nat.sub_zero]
  by_cases h1 : data.length ≤ s.params.ringCapacity - s.ring.w
  · have hm : min data.length (s.params.ringCapacity - s.ring.w) = data.length := by omega
    rw [hm, if_neg (by omega)]
    by_cases h2 : s.ring.w ≤ x ∧ x < s.ring.w + data.length
    · rw [if_pos (by omega), if_pos (by omega), List.take_length]
    · rw [if_neg (by omega), if_neg (by omega), if_neg (by omega)]
  · have hm : min data.length (s.params.ringCapacity - s.ring.w) =
        s.params.ringCapacity - s.ring.w := by omega
    rw [hm]
    by_cases h2 : x < data.length - (s.params.ringCapacity - s.ring.w)
    · rw [if_pos h2, if_neg (by omega), if_pos (by omega)]
      simp only [List.getD_eq_getElem?_getD, List.getElem?_drop]
      congr 2
      omega
    · rw [if_neg h2]
      by_cases h3 : s.ring.w ≤ x ∧ x < s.params.ringCapacity
      · rw [if_pos (by omega), if_pos (by omega)]
        simp only [List.getD_eq_getElem?_getD, List.getElem?_take]
        rw [if_pos (by omega)]
      · rw [if_neg (by omega), if_neg (by omega), if_neg (by omega)]

/-- Byte `i` of a write goes to offset `(rb_w + i) mod C` (20_memory.md R73). -/
theorem storeByte_ringStore_at {data : Bytes} {s : State} (hw : s.ring.w < s.params.ringCapacity)
    (hlen : data.length ≤ s.params.ringCapacity) {i : Nat} (hi : i < data.length) :
    storeByte (ringStore data s) ((s.ring.w + i) % s.params.ringCapacity) = data.getD i 0 := by
  rw [storeByte_ringStore hw hlen, mod_of_lt_two_mul (by omega)]
  split_ifs <;> first | omega | skip
  · congr 1; omega
  · congr 1; omega

/-- A write leaves every other byte of the store. -/
theorem storeByte_ringStore_other {data : Bytes} {s : State}
    (hw : s.ring.w < s.params.ringCapacity) (hlen : data.length ≤ s.params.ringCapacity) {a : Nat}
    (ha : ∀ i < data.length, a ≠ (s.ring.w + i) % s.params.ringCapacity) :
    storeByte (ringStore data s) a = storeByte s a := by
  rw [storeByte_ringStore hw hlen, if_neg, if_neg]
  · intro hx
    apply ha (a + s.params.ringCapacity - s.ring.w) (by omega)
    rw [mod_of_lt_two_mul (by omega)]
    split_ifs <;> omega
  · intro hx
    apply ha (a - s.ring.w) (by omega)
    rw [mod_of_lt_two_mul (by omega)]
    split_ifs <;> omega

/-- The write cursor stands `used` bytes after the read cursor. -/
theorem w_eq_r_add_used {s : State} (h : RingInv s) :
    s.ring.w = (s.ring.r + used s) % s.params.ringCapacity := by
  have hw := h.w_lt
  have hr := h.r_lt
  have hu := h.used_le
  have he := used_eq hw hr
  unfold extW extR at he
  generalize used s = u at *
  rw [mod_of_lt_two_mul (by omega)]
  split_ifs at * <;> omega

theorem ringStore_wf {data : Bytes} {s : State} (hw : s.ring.w < s.params.ringCapacity)
    (hlen : data.length ≤ s.params.ringCapacity)
    (h : Memory.wf s.params.ringCapacity s.store) :
    Memory.wf s.params.ringCapacity (ringStore data s).store := by
  unfold ringStore
  have h1 : Memory.wf s.params.ringCapacity
      (memWrite s.ring.w
        (data.take (min data.length (s.params.ringCapacity - s.ring.w))) s).store :=
    memWrite_wf h (by simp; omega)
  have hp : (memWrite s.ring.w
      (data.take (min data.length (s.params.ringCapacity - s.ring.w))) s).params = s.params := by
    rw [memWrite_eq]
  have := memWrite_wf (a := 0)
    (d := data.drop (min data.length (s.params.ringCapacity - s.ring.w))) (by rw [hp]; exact h1)
    (by rw [hp]; simp; omega)
  rwa [hp] at this

theorem memRead_eq (a n : Nat) (s : State) :
    memRead a n s = ((List.range n).map (fun i => storeByte s (a + i)), { s with
      out := s.out ++ if n = 0 then [] else
        [.memRead a n ((List.range n).map fun i => storeByte s (a + i))] }) := by
  unfold memRead
  have hb : s.store.readBytes Config.storePor a n =
      (List.range n).map fun i => storeByte s (a + i) := by
    simp [Memory.readBytes, List.range'_eq_map_range, storeByte, Function.comp_def]
  by_cases h : n = 0 <;> simp [h, hb, emit]

/-- A ring read returns the oldest unread bytes and issues its transfers (20_memory.md R73, R77). -/
theorem ringFetch_eq {n : Nat} {s : State} (hr : s.ring.r < s.params.ringCapacity)
    (hu : used s ≤ s.params.ringCapacity) (hn : n ≤ used s) :
    ringFetch n s = ((ringBytes s).take n, { s with
      out := s.out ++ readTransfers s.params.ringCapacity s.ring.r ((ringBytes s).take n) }) := by
  have htake : ∀ i, ((ringBytes s).take n)[i]? = if i < n then
      some (storeByte s ((s.ring.r + i) % s.params.ringCapacity)) else none := by
    intro i
    rw [List.getElem?_take, ringBytes_getElem?]
    split
    · rw [if_pos (by omega)]
    · rfl
  have hlen : ((ringBytes s).take n).length = n := by simp; omega
  have hfirst : ∀ k, k ≤ n → k ≤ s.params.ringCapacity - s.ring.r →
      ((ringBytes s).take n).take k = (List.range k).map fun i => storeByte s (s.ring.r + i) := by
    intro k hk hk2
    apply List.ext_getElem?
    intro i
    rw [List.getElem?_take, htake]
    by_cases hi : i < k
    · rw [if_pos hi, if_pos (by omega), Nat.mod_eq_of_lt (by omega)]
      simp [hi]
    · simp [hi]
  by_cases h1 : n ≤ s.params.ringCapacity - s.ring.r
  · have hm : min n (s.params.ringCapacity - s.ring.r) = n := by omega
    have hd := hfirst n le_rfl h1
    rw [List.take_of_length_le (by omega)] at hd
    simp only [ringFetch, hm, memRead_eq, Nat.sub_self, List.range_zero, List.map_nil,
      List.append_nil, if_true, ← hd, readTransfers, hlen, h1]
    by_cases h0 : n = 0 <;> simp [h0]
    intro he
    rw [he] at hlen
    simp at hlen
    omega
  · have hm : min n (s.params.ringCapacity - s.ring.r) = s.params.ringCapacity - s.ring.r := by
      omega
    have hd1 := hfirst (s.params.ringCapacity - s.ring.r) (by omega) le_rfl
    have hd2 : ((ringBytes s).take n).drop (s.params.ringCapacity - s.ring.r) =
        (List.range (n - (s.params.ringCapacity - s.ring.r))).map
          fun i => storeByte s (0 + i) := by
      apply List.ext_getElem?
      intro i
      rw [List.getElem?_drop, htake]
      by_cases hi : i < n - (s.params.ringCapacity - s.ring.r)
      · rw [if_pos (by omega), mod_of_lt_two_mul (by omega), if_neg (by omega)]
        have : s.ring.r + (s.params.ringCapacity - s.ring.r + i) - s.params.ringCapacity = i := by
          omega
        simp [hi, this]
      · rw [if_neg (by omega)]
        simp
        omega
    have h0 : ¬ s.params.ringCapacity - s.ring.r = 0 := by omega
    have h2 : ¬ n - (s.params.ringCapacity - s.ring.r) = 0 := by omega
    have h3 : (ringBytes s).take n ≠ [] := by
      intro he
      rw [he] at hlen
      simp at hlen
      omega
    have hsb : ∀ (o : List Event) (x : Nat), storeByte { s with out := o } x = storeByte s x :=
      fun _ _ => rfl
    simp only [ringFetch, hm, memRead_eq, hsb, ← hd1, ← hd2, h0, h2, if_false,
      List.take_append_drop, readTransfers, h3, hlen, h1, List.append_assoc, List.singleton_append]

/-! ### The two operations -/

/-- A write that fits. -/
theorem rbWrite_ok {data : Bytes} {s : State} (h : RingInv s) (hlen : data.length ≤ free s) :
    rbWrite data s = (.ok (), advanceWrite data.length (ringStore data s)) := by
  simp [rbWrite, h.bound, Nat.not_lt.2 hlen]

/-- A read that is served. -/
theorem rbRead_ok {n : Nat} {s : State} (h : RingInv s) (hn : n ≤ used s) :
    rbRead n s = (.ok ((ringBytes s).take n), advanceRead n { s with
      out := s.out ++ readTransfers s.params.ringCapacity s.ring.r ((ringBytes s).take n) }) := by
  simp [rbRead, h.bound, Nat.not_lt.2 hn, ringFetch_eq h.r_lt h.used_le hn]

theorem rbWrite_overflow {data : Bytes} {s : State} (hb : s.ring.bound = true)
    (hlen : free s < data.length) : rbWrite data s = (.err .overflow, s) := by
  simp [rbWrite, hb, hlen]

theorem rbRead_underflow {n : Nat} {s : State} (hb : s.ring.bound = true) (hn : used s < n) :
    rbRead n s = (.err .underflow, s) := by
  simp [rbRead, hb, hn]

theorem rbWrite_unbound {data : Bytes} {s : State} (hb : s.ring.bound = false) :
    rbWrite data s = (.fault .rbUnbound, setFault .rbUnbound s) := by
  simp [rbWrite, hb]

theorem rbRead_unbound {n : Nat} {s : State} (hb : s.ring.bound = false) :
    rbRead n s = (.fault .rbUnbound, setFault .rbUnbound s) := by
  simp [rbRead, hb]

/-- What a served read leaves unread. -/
theorem ringBytes_advanceRead {n : Nat} {s : State} (h : RingInv s) (hn : n ≤ used s) :
    RingInv (advanceRead n s) ∧ ringBytes (advanceRead n s) = (ringBytes s).drop n := by
  obtain ⟨hu1, hi⟩ := used_advanceRead h hn
  refine ⟨hi, ?_⟩
  have hl := h.used_le
  have e := advanceRead_eq (s := s) (len := n) h.r_lt (by omega)
  apply List.ext_getElem?
  intro i
  rw [ringBytes_getElem?, hu1, List.getElem?_drop, ringBytes_getElem?]
  have hsb : ∀ x, storeByte (advanceRead n s) x = storeByte s x := fun _ => rfl
  rw [hsb, e]
  simp only [Nat.mod_add_mod, Nat.add_assoc]
  split_ifs <;> first | rfl | omega

/-- What a write that fits adds to the unread bytes. -/
theorem ringBytes_write {data : Bytes} {s : State} (h : RingInv s) (hlen : data.length ≤ free s) :
    RingInv (advanceWrite data.length (ringStore data s)) ∧
      ringBytes (advanceWrite data.length (ringStore data s)) = ringBytes s ++ data := by
  have hl : data.length ≤ s.params.ringCapacity := by unfold free at hlen; omega
  have hw := h.w_lt
  have hrr := h.r_lt
  have huu := h.used_le
  have hs := ringStore_eq data s hw
  have hr : (ringStore data s).ring = s.ring := by rw [hs]
  have hp : (ringStore data s).params = s.params := by rw [hs]
  obtain ⟨hu1, hi1⟩ := used_advanceWrite (h.congr hr hp) (len := data.length)
    (by unfold free; rw [used_congr hr hp, hp]; exact hlen)
  refine ⟨hi1, ?_⟩
  rw [used_congr hr hp] at hu1
  have hsb : ∀ x, storeByte (advanceWrite data.length (ringStore data s)) x =
      storeByte (ringStore data s) x := fun _ => rfl
  have hr2 : (advanceWrite data.length (ringStore data s)).ring.r = s.ring.r := by
    change (ringStore data s).ring.r = _
    rw [hr]
  have hp2 : (advanceWrite data.length (ringStore data s)).params = s.params := hp
  have hwu := w_eq_r_add_used h
  unfold free at hlen
  apply List.ext_getElem?
  intro i
  rw [ringBytes_getElem?, hu1, List.getElem?_append, ringBytes_getElem?, ringBytes_length, hsb, hr2,
    hp2]
  by_cases hi : i < used s
  · rw [if_pos (by omega), if_pos hi, if_pos hi]
    congr 1
    apply storeByte_ringStore_other hw hl
    intro j hj
    rw [mod_of_lt_two_mul (by omega)] at hwu
    rw [mod_of_lt_two_mul (by omega), mod_of_lt_two_mul (by omega)]
    split_ifs at * <;> omega
  · rw [if_neg hi]
    by_cases hi2 : i < used s + data.length
    · rw [if_pos hi2]
      have := storeByte_ringStore_at hw hl (show i - used s < data.length by omega)
      rw [List.getElem?_eq_getElem (by omega)]
      congr 1
      have e : (s.ring.w + (i - used s)) % s.params.ringCapacity =
          (s.ring.r + i) % s.params.ringCapacity := by
        rw [hwu, Nat.mod_add_mod]
        congr 1
        omega
      rw [← e, this, List.getD_eq_getElem?_getD, List.getElem?_eq_getElem (by omega)]
      rfl
    · rw [if_neg hi2, List.getElem?_eq_none (by omega)]

/-! ### What the ring operations reach -/

/-- The events of the backing store port. -/
def isStoreEvent (e : Event) : Bool :=
  match e with
  | .memWrite _ _ => true
  | .memRead _ _ _ => true
  | .linkTx _ => false
  | .ind _ => false
  | .rtcSet _ => false
  | .eepromRead _ _ _ => false
  | .blkRead _ _ => false
  | .blkWrite _ _ _ => false
  | .blkBegin _ _ _ => false
  | .blkStep _ => false

/-- A piece of a step on a bound ring: it reaches nothing but the ring's registers, the backing store
and the history. -/
structure RingStep (s t : State) : Prop where
  eq : t = { s with ring := t.ring, store := t.store, out := t.out }
  out : ∃ es, t.out = s.out ++ es ∧ ∀ e ∈ es, isStoreEvent e = true
  inv : RingInv s → RingInv t
  wf : RingInv s → Memory.wf s.params.ringCapacity s.store → Memory.wf s.params.ringCapacity t.store

theorem RingStep.refl (s : State) : RingStep s s := ⟨rfl, ⟨[], by simp⟩, id, fun _ => id⟩

theorem RingStep.params {s t : State} (h : RingStep s t) : t.params = s.params := by rw [h.eq]

theorem RingStep.trans {s t u : State} (h : RingStep s t) (k : RingStep t u) : RingStep s u := by
  obtain ⟨es, he, hes⟩ := h.out
  obtain ⟨fs, hf, hfs⟩ := k.out
  refine ⟨?_, ⟨es ++ fs, by rw [hf, he, List.append_assoc], ?_⟩, fun i => k.inv (h.inv i),
    fun i w => ?_⟩
  · have := k.eq
    rw [h.eq] at this
    exact this
  · intro e hm
    rcases List.mem_append.1 hm with hm | hm
    · exact hes e hm
    · exact hfs e hm
  · have := k.wf (h.inv i) (by rw [h.params]; exact h.wf i w)
    rwa [h.params] at this

theorem isStoreEvent_writeTransfers (c w : Nat) (d : Bytes) :
    ∀ e ∈ writeTransfers c w d, isStoreEvent e = true := by
  unfold writeTransfers
  split_ifs <;> simp [isStoreEvent]

theorem isStoreEvent_readTransfers (c r : Nat) (d : Bytes) :
    ∀ e ∈ readTransfers c r d, isStoreEvent e = true := by
  unfold readTransfers
  split_ifs <;> simp [isStoreEvent]

theorem rbWrite_step {s : State} (data : Bytes) (h : RingInv s) : RingStep s (rbWrite data s).2 := by
  by_cases hl : data.length ≤ free s
  · rw [rbWrite_ok h hl]
    have hs := ringStore_eq data s h.w_lt
    have hc : data.length ≤ s.params.ringCapacity := by unfold free at hl; omega
    refine ⟨?_, ⟨writeTransfers s.params.ringCapacity s.ring.w data, ?_,
      isStoreEvent_writeTransfers _ _ _⟩, fun _ => (ringBytes_write h hl).1,
      fun _ w => ringStore_wf h.w_lt hc w⟩
    · generalize ringStore data s = x at hs
      rw [hs]
      simp [advanceWrite]
    · change (ringStore data s).out = _
      rw [hs]
  · rw [rbWrite_overflow h.bound (by omega)]
    exact .refl s

theorem rbRead_step {s : State} (n : Nat) (h : RingInv s) : RingStep s (rbRead n s).2 := by
  by_cases hl : n ≤ used s
  · rw [rbRead_ok h hl]
    exact ⟨rfl, ⟨_, rfl, isStoreEvent_readTransfers _ _ _⟩,
      fun _ => (ringBytes_advanceRead (n := n)
        (s := { s with out := s.out ++
          readTransfers s.params.ringCapacity s.ring.r ((ringBytes s).take n) })
        (h.congr rfl rfl) hl).1, fun _ w => w⟩
  · rw [rbRead_underflow h.bound (by omega)]
    exact .refl s

theorem rbRoundTrip_step {s : State} (d : Bytes) (h : RingInv s) :
    RingStep s (rbRoundTrip d s).2 := by
  have hw := rbWrite_step d h
  unfold rbRoundTrip
  split
  · rename_i s1 h2
    rw [h2] at hw
    exact hw.trans (rbRead_step _ (hw.inv h))
  · rename_i h2
    rw [h2] at hw
    exact hw

theorem rbFill_step {s : State} (n : Nat) (ok : Bool) (h : RingInv s) :
    RingStep s (rbFill n ok s).2 := by
  induction n generalizing ok s with
  | zero => exact .refl s
  | succ n ih =>
    unfold rbFill
    split
    · exact .refl s
    · have hr := rbRoundTrip_step [0x00] h
      exact hr.trans (ih _ (hr.inv h))

theorem rbInit_step (s : State) (hc : 1 ≤ s.params.ringCapacity) : RingStep s (rbInit s) :=
  ⟨rfl, ⟨[], by simp [rbInit]⟩, fun _ => (RingInv.empty (s := rbInit s) rfl hc).1,
    fun _ => id⟩

theorem rbAndThen_step {s : State} {d : Bytes} {r : Bool × State} (h : RingStep s r.2)
    (hr : RingInv r.2) : RingStep s (rbAndThen d r).2 ∧ RingInv (rbAndThen d r).2 := by
  unfold rbAndThen
  split
  · have k := rbRoundTrip_step d hr
    exact ⟨h.trans k, k.inv hr⟩
  · exact ⟨h, hr⟩

/-- The ring self-test empties the ring, whatever it was. -/
theorem rbSelftest_step (s : State) (hc : 1 ≤ s.params.ringCapacity) :
    (rbSelftest s).2.ring = ⟨true, 0, false, 0, false⟩ ∧ RingStep (rbInit s) (rbSelftest s).2 := by
  refine ⟨rfl, ?_⟩
  have h0 : RingInv (rbInit s) := (RingInv.empty (s := rbInit s) rfl hc).1
  have h1 := rbRoundTrip_step [0x5A] h0
  obtain ⟨h2, i2⟩ := rbAndThen_step (d := rbPattern (rbInit s)) h1 (h1.inv h0)
  have h3 := rbFill_step (rbInit s).params.ringCapacity
    (rbAndThen (rbPattern (rbInit s)) (rbRoundTrip [0x5A] (rbInit s))).1 i2
  obtain ⟨h4, i4⟩ := rbAndThen_step (d := rbPattern (rbInit s)) (h2.trans h3) (h3.inv i2)
  exact h4.trans (rbInit_step _ (by rw [h4.params]; exact hc))

end Sys2Proof.Machine
end

