-- ==== Sys2Proof/Laws/Serve.lean ====
section
/-! SUPPORT. What serving a request and performing a command add around the operation itself: the
returned status, the mode colour, the acknowledgment. -/

namespace Sys2Proof.Machine

/-- A served operation, its result and its status. -/
theorem serve_eq {body : State → Status × State} {s t : State} {a : Status}
    (hh : s.ma.halted = false) (h : body s = (a, t)) : serve body s = { t with status := a } := by
  simp [serve, hh, h, answer]

theorem serve_halted {body : State → Status × State} {s : State} (hh : s.ma.halted = true) :
    serve body s = { s with status := .noAnswer } := by
  simp [serve, hh, answer]

/-- A served operation that may raise an error or a model fault. -/
theorem serve_res {α : Type} {f : State → Res α × State} {k : α → Status} {s t : State} {r : Res α}
    (hh : s.ma.halted = false) (h : f s = (r, t)) :
    serve (fun s => ((f s).1.status k, (f s).2)) s = { t with status := r.status k } := by
  simp [serve, hh, h, answer]

/-- A served operation that may change the mode. -/
theorem serveMode_eq {body : State → Status × State} {s t : State} {a : Status}
    (hh : s.ma.halted = false) (h : body s = (a, t)) (hc : t.env.color = s.env.color) :
    serveMode body s = { t with
      env := { t.env with color := colorTaken s t.ma.mode }
      out := t.out ++ colorEvents s t.ma.mode
      status := a } := by
  simp [serveMode, hh, h, answer, showMode_eq s t hc]

theorem serveMode_halted {body : State → Status × State} {s : State} (hh : s.ma.halted = true) :
    serveMode body s = { s with status := .noAnswer } := by
  simp [serveMode, hh, answer]

/-- A command that acknowledges. -/
theorem perform_ack {c : Command} {body : State → CmdResult × State} {s t : State} {r : Byte}
    (hh : s.ma.halted = false) (h : body s = (.ack r, t)) (ht : t.ma.halted = false)
    (hc : t.env.color = s.env.color) :
    perform c body s = { t with
      ma := { t.ma with rxQ := [] }
      env := { t.env with color := colorTaken s t.ma.mode }
      out := t.out ++ colorEvents s t.ma.mode ++ [.linkTx [t.params.cmdCode c, r]]
      status := .done } := by
  simp [perform, hh, h, answer, showMode_eq s t hc, finishCommand, ht, linkTx, emit, ackBytes]

/-- A command that sends no acknowledgment. -/
theorem perform_noAck {c : Command} {body : State → CmdResult × State} {s t : State}
    (hh : s.ma.halted = false) (h : body s = (.noAck, t)) (ht : t.ma.halted = false)
    (hc : t.env.color = s.env.color) :
    perform c body s = { t with
      env := { t.env with color := colorTaken s t.ma.mode }
      out := t.out ++ colorEvents s t.ma.mode
      status := .done } := by
  simp [perform, hh, h, answer, showMode_eq s t hc, finishCommand, ht]

/-- A command that halted the block. -/
theorem perform_halting {c : Command} {body : State → CmdResult × State} {s t : State}
    {r : CmdResult} (hh : s.ma.halted = false) (h : body s = (r, t)) (ht : t.ma.halted = true)
    (hc : t.env.color = s.env.color) :
    perform c body s = { t with
      env := { t.env with color := colorTaken s t.ma.mode }
      out := t.out ++ colorEvents s t.ma.mode
      status := .halted } := by
  simp [perform, hh, h, answer, showMode_eq s t hc, finishCommand, ht]

theorem perform_halted {c : Command} {body : State → CmdResult × State} {s : State}
    (hh : s.ma.halted = true) : perform c body s = { s with status := .noAnswer } := by
  simp [perform, hh, answer]

end Sys2Proof.Machine
end

