-- ==== Sys2Proof/Laws/Arbiter.lean ====
section
/-! SUPPORT. The mode arbiter's helpers: what a stop, a session start and the self-tests reach
(spec/43_mode_arbiter.md R245 to R249, 40_ring_buffer.md R143, 41_log_filesystem.md R177). -/

namespace Sys2Proof.Machine

/-! ### Recording an error -/

/-- A piece of a step that reaches nothing but the last error, the file registers, the medium, its
draws and the history. -/
structure FileStep (s t : State) : Prop where
  eq : t = { s with
    ma := { s.ma with lastError := t.ma.lastError }
    fs := t.fs
    med := t.med
    env := t.env
    out := t.out }
  color : t.env.color = s.env.color
  out : ∃ es, t.out = s.out ++ es ∧ ∀ e ∈ es, isMediumEvent e = true
  inv : MediumInv s → MediumInv t

theorem FsStep.toFile {s t : State} (h : FsStep s t) : FileStep s t :=
  ⟨by rw [h.ma]; exact h.eq, h.color, h.out, h.inv⟩

theorem MediumStep.toFile {s t : State} (h : MediumStep s t) : FileStep s t := h.toFs.toFile

theorem FileStep.trans {s t u : State} (h : FileStep s t) (k : FileStep t u) : FileStep s u := by
  obtain ⟨es, he, hes⟩ := h.out
  obtain ⟨fs, hf, hfs⟩ := k.out
  refine ⟨?_, k.color.trans h.color, ⟨es ++ fs, by rw [hf, he, List.append_assoc], ?_⟩,
    fun i => k.inv (h.inv i)⟩
  · have := k.eq
    rw [h.eq] at this
    exact this
  · intro e hm
    rcases List.mem_append.1 hm with hm | hm
    · exact hes e hm
    · exact hfs e hm

theorem FileStep.halted {s t : State} (h : FileStep s t) : t.ma.halted = s.ma.halted := by
  rw [h.eq]

theorem recordError_file (e : Err) (s : State) : FileStep s (recordError e s) := by
  unfold recordError
  split
  · exact ⟨rfl, rfl, ⟨[], by simp⟩, id⟩
  · exact (FsStep.refl s).toFile

@[simp] theorem recordError_fs (e : Err) (s : State) : (recordError e s).fs = s.fs := by
  unfold recordError; split <;> rfl

/-! ### Stopping -/

/-- A stop closes the file, whatever becomes of its metadata. -/
theorem fsClose_fs (s : State) :
    (fsClose s).2.fs = { s.fs with isOpen := false, dirty := (fsClose s).2.fs.dirty } := by
  unfold fsClose
  split
  · rename_i h
    simp [← h]
  · simp only
    split
    · rfl
    · have h := (blkWrite_step s.fs.start.toNat
        (metaFsb { s with fs := { s.fs with isOpen := false, dirty := false } })
        { s with fs := { s.fs with isOpen := false, dirty := false } }).1
      split <;>
      · rename_i h2
        rw [h2] at h
        have hf := h.fs
        simp only at hf ⊢
        rw [hf]

theorem closeAndRecord_file (s : State) : FileStep s (closeAndRecord s) ∧
    (closeAndRecord s).fs =
      { s.fs with isOpen := false, dirty := (closeAndRecord s).fs.dirty } := by
  have h := (fsClose_step s).1
  have hf := fsClose_fs s
  unfold closeAndRecord
  split
  · rename_i e s1 h2
    rw [h2] at h hf
    exact ⟨h.toFile.trans (recordError_file e s1), by simpa using hf⟩
  · rename_i s1 _ h2
    rw [h2] at h hf
    exact ⟨h.toFile, hf⟩

/-- A stop in a mode that keeps no file open. -/
theorem stopSampling_idle {s : State}
    (h : s.ma.mode = .usbIdle ∨ s.ma.mode = .portIdle ∨ s.ma.mode = .stream) :
    stopSampling s = plStop s := by
  rcases h with h | h | h <;> simp [stopSampling, h]

theorem stopSampling_usbStore {s : State} (h : s.ma.mode = .usbStore) :
    stopSampling s = setMode .usbIdle (closeAndRecord (plStop s)) := by
  simp [stopSampling, h]

theorem stopSampling_portStore {s : State} (h : s.ma.mode = .portStore) :
    stopSampling s = setMode .portIdle (blinkNext (closeAndRecord (plStop s))) := by
  simp [stopSampling, h]

/-- The mode a stop ends in (43_mode_arbiter.md R245). -/
def stoppedMode (m : Mode) : Mode :=
  match m with
  | .usbStore => .usbIdle
  | .portStore => .portIdle
  | .usbIdle => .usbIdle
  | .portIdle => .portIdle
  | .stream => .stream

/-- Everything a stop reaches, in every mode. -/
theorem stopSampling_step (s : State) :
    stopSampling s = { s with
      pl := { s.pl with acq := false, sdState := .idle }
      ma := { s.ma with
        mode := stoppedMode s.ma.mode, lastError := (stopSampling s).ma.lastError }
      fs := (stopSampling s).fs
      med := (stopSampling s).med
      env := (stopSampling s).env
      out := (stopSampling s).out } ∧
    (stopSampling s).env.color = s.env.color ∧
    (∃ es, (stopSampling s).out = s.out ++ es ∧
      ∀ e ∈ es, isMediumEvent e = true ∨ ∃ n, e = .ind (.blink n)) ∧
    (MediumInv s → MediumInv (stopSampling s)) ∧
    (s.ma.mode = .usbStore ∨ s.ma.mode = .portStore →
      (stopSampling s).fs =
        { s.fs with isOpen := false, dirty := (stopSampling s).fs.dirty }) := by
  obtain ⟨h, hf⟩ := closeAndRecord_file (plStop s)
  cases hm : s.ma.mode with
  | usbIdle =>
    rw [stopSampling_idle (.inl hm)]
    exact ⟨by simp [plStop, stoppedMode, ← hm], rfl, ⟨[], by simp [plStop]⟩, id, by simp⟩
  | portIdle =>
    rw [stopSampling_idle (.inr (.inl hm))]
    exact ⟨by simp [plStop, stoppedMode, ← hm], rfl, ⟨[], by simp [plStop]⟩, id, by simp⟩
  | stream =>
    rw [stopSampling_idle (.inr (.inr hm))]
    exact ⟨by simp [plStop, stoppedMode, ← hm], rfl, ⟨[], by simp [plStop]⟩, id, by simp⟩
  | usbStore =>
    rw [stopSampling_usbStore hm]
    generalize closeAndRecord (plStop s) = u at h hf
    refine ⟨?_, h.color, ?_, h.inv, fun _ => hf⟩
    · have := h.eq
      conv_lhs => rw [this]
      rfl
    · obtain ⟨es, he, hes⟩ := h.out
      exact ⟨es, he, fun e hm => .inl (hes e hm)⟩
  | portStore =>
    rw [stopSampling_portStore hm]
    generalize closeAndRecord (plStop s) = u at h hf
    have hn := nextSeq_step u
    generalize hb : nextSeq u = b at hn
    obtain ⟨k, v⟩ := b
    replace hn : MediumStep u v := hn
    have hbl : blinkNext u = indicate (.blink k) v := by simp [blinkNext, hb]
    rw [hbl]
    have h3 := h.trans hn.toFile
    refine ⟨?_, h3.color, ?_, h3.inv, fun _ => ?_⟩
    · have := h3.eq
      conv_lhs => rw [this]
      rfl
    · obtain ⟨es, he, hes⟩ := h3.out
      refine ⟨es ++ [.ind (.blink k)], ?_, fun e hm => ?_⟩
      · change v.out ++ _ = _
        rw [he]
        simp [plStop]
      · rcases List.mem_append.1 hm with hm | hm
        · exact .inl (hes e hm)
        · exact .inr ⟨k, by simpa using hm⟩
    · change v.fs = { s.fs with isOpen := false, dirty := v.fs.dirty }
      rw [hn.fs]
      exact hf

/-! ### Model faults of the filesystem -/

theorem fsClose_noFault (s : State) (f : Fault) : (fsClose s).1 ≠ .fault f := by
  unfold fsClose
  split
  · simp
  · simp only
    split
    · simp
    · split <;> simp

theorem openChain_noFault (s : State) (f : Fault) : (openChain s).1 ≠ .fault f := by
  have h := fsClose_noFault s
  unfold openChain
  split
  · simp
  · rename_i f' s1 h2
    exact absurd (by rw [h2]) (h f')
  · split
    · simp
    · split
      · simp
      · split <;> simp

/-- A create raises no model fault, and on success leaves a created file open. -/
theorem fsCreate_result (s : State) :
    (∀ f, (fsCreate s).1 ≠ .fault f) ∧
    (∀ q, (fsCreate s).1 = .ok q → (fsCreate s).2.fs.isOpen = true ∧
      (fsCreate s).2.fs.kind = .created ∧ (fsCreate s).2.fs.seq = q) ∧
    (∀ e, (fsCreate s).1 = .err e → (fsCreate s).2.fs.isOpen = false) := by
  have h := openChain_noFault s
  have ho := (openChain_step s).2.1
  unfold fsCreate
  split
  · rename_i h2
    rw [h2] at ho
    exact ⟨by simp, by simp, fun _ _ => ho⟩
  · rename_i f' s1 h2
    exact absurd (by rw [h2]) (h f')
  · rename_i iter c s1 h2
    rw [h2] at ho
    simp only
    split
    · exact ⟨by simp, by simp, fun _ _ => ho⟩
    · have hr := rtcNow_step s1
      have hw := (blkWrite_step (nextSlot s1.params c).1
        (fsbBlock (rtcNow s1).2.params ⟨iter, (nextSlot s1.params c).2, 0, nextNone,
          (rtcNow s1).1.1, (rtcNow s1).1.2⟩) (rtcNow s1).2).1
      split
      · rename_i h4
        rw [h4] at hw
        refine ⟨by simp, by simp, fun _ _ => ?_⟩
        have h5 := (hr.trans hw).fs
        simp only at h5 ho ⊢
        rw [h5]
        exact ho
      · rename_i s3 h4
        rw [h4] at hw
        have hl := linkPrevious_step c (nextSlot s1.params c).1 s3
        split
        · rename_i h5
          rw [h5] at hl
          refine ⟨by simp, by simp, fun _ _ => ?_⟩
          have h6 := ((hr.trans hw).trans hl).fs
          simp only at h6 ho ⊢
          rw [h6]
          exact ho
        · exact ⟨by simp, by simp, by simp⟩

theorem fsReopen_noFault (seq : U32) (s : State) (f : Fault) : (fsReopen seq s).1 ≠ .fault f := by
  have h := openChain_noFault s
  unfold fsReopen
  split
  · simp
  · rename_i f' s1 h2
    exact absurd (by rw [h2]) (h f')
  · split <;> simp

theorem fsRead_noFault (n : Nat) (s : State) (f : Fault) : (fsRead n s).1 ≠ .fault f := by
  unfold fsRead
  split
  · simp
  · simp only
    split <;> simp

theorem appendBlocks_noFault (o : Nat) (data : Bytes) (ks : List Nat) (s : State) (f : Fault) :
    (appendBlocks o data ks s).1 ≠ .fault f := by
  induction ks generalizing s with
  | nil => simp [appendBlocks]
  | cons k ks ih =>
    unfold appendBlocks
    split
    · simp
    · split
      · simp
      · split
        · simp
        · exact ih _

theorem fsWrite_noFault (data : Bytes) (s : State) (hk : s.fs.kind = .created) (f : Fault) :
    (fsWrite data s).1 ≠ .fault f := by
  have h := appendBlocks_noFault s.fs.len data (blocksTouched s.params s.fs.len data.length) s f
  unfold fsWrite
  split
  · simp
  · split
    · rename_i h2
      rw [hk] at h2
      cases h2
    · split
      · simp
      · exact h

/-! ### Starting a session -/

/-- `ENTER_STORE` starts a session whatever becomes of its create (43_mode_arbiter.md R247). -/
theorem enterStore_step (s : State) :
    ∃ t, FileStep s t ∧ enterStore s = plBegin t ∧
      ∀ q, (fsCreate s).1 = .ok q → t = (fsCreate s).2 := by
  have h := (fsCreate_step s).toFile
  have hn := (fsCreate_result s).1
  unfold enterStore
  rcases hc : fsCreate s with ⟨r, s1⟩
  rw [hc] at h hn
  cases r with
  | ok q => exact ⟨s1, h, rfl, fun _ _ => rfl⟩
  | err e => exact ⟨recordError e s1, h.trans (recordError_file e s1), rfl, by simp⟩
  | fault f => exact absurd rfl (hn f)

/-! ### The filesystem self-test -/

theorem errCode_le {p : Params} (h : p.Valid) (e : Err) : (p.errCode e).toNat ≤ 127 := by
  have h1 := h.2.2.2.2.2.2.2.2.2.2.2.2.2.2.1 (p.errCode e)
    (Vector.mem_toList_iff.2 (Vector.getElem_mem e.index.isLt))
  omega

theorem cmdCode_le {p : Params} (h : p.Valid) (c : Command) : (p.cmdCode c).toNat ≤ 127 := by
  have h1 := h.2.2.2.2.2.2.2.2.2.2.2.2.1 c (by cases c <;> simp [Command.all])
  omega

theorem mismatch_le {p : Params} (h : p.Valid) : p.selftestMismatch.toNat ≤ 127 :=
  h.2.2.2.2.2.2.2.2.2.2.2.2.2.2.2.2.2.2

theorem fsSelftestVerify_step (seq : U32) (s : State) (hp : s.params.Valid) :
    FsStep s (fsSelftestVerify seq s).2 ∧
      ∃ r : Byte, (fsSelftestVerify seq s).1 = .ok r ∧ r.toNat ≤ 127 := by
  have h := fsReopen_step seq s
  have hn := fsReopen_noFault seq s
  unfold fsSelftestVerify
  split
  · rename_i e s1 h2
    rw [h2] at h
    replace h : FsStep s s1 := h
    exact ⟨h, _, rfl, by rw [h.params]; exact errCode_le hp e⟩
  · rename_i f s1 h2
    exact absurd (by rw [h2]) (hn f)
  · rename_i q s1 h2
    rw [h2] at h
    replace h : FsStep s s1 := h
    have hr := fsRead_step (fsPattern s1.params).length s1
    have hrn := fsRead_noFault (fsPattern s1.params).length s1
    split
    · rename_i e s2 h3
      rw [h3] at hr
      have h4 := h.trans (hr.trans (fsClose_step _).1)
      exact ⟨h4, _, rfl, by rw [h4.params]; exact errCode_le hp e⟩
    · rename_i f s2 h3
      exact absurd (by rw [h3]) (hrn f)
    · rename_i d s2 h3
      rw [h3] at hr
      have h4 := h.trans (hr.trans (fsClose_step _).1)
      refine ⟨h4, _, rfl, ?_⟩
      split
      · simp
      · rw [(h.trans hr).params]
        exact mismatch_le hp

/-- Everything the filesystem self-test reaches: it halts the block exactly when its format fails. -/
theorem fsSelftest_step (s : State) (hp : s.params.Valid) :
    ∃ (t : State) (r : Byte), FsStep s t ∧ r.toNat ≤ 127 ∧
      (fsSelftest s = (.ok r, t) ∨ fsSelftest s = (.ok r, halt t)) := by
  obtain ⟨t, ht, -, he⟩ := fsFormat_step s.params.fsSelftestPortable s
  unfold fsSelftest
  rcases he with he | he
  · rw [he]
    simp only
    have hc := fsCreate_step t
    have hcr := fsCreate_result t
    split
    · rename_i e s2 h2
      rw [h2] at hc
      replace hc : FsStep s s2 := ht.trans hc
      exact ⟨s2, _, hc, by rw [hc.params]; exact errCode_le hp e, .inl rfl⟩
    · rename_i f s2 h2
      exact absurd (by rw [h2]) (hcr.1 f)
    · rename_i q s2 h2
      rw [h2] at hc hcr
      replace hc : FsStep s s2 := ht.trans hc
      have hk : s2.fs.kind = .created := (hcr.2.1 q rfl).2.1
      have hw := fsWrite_step (fsPattern s2.params) s2 (.inl hk)
      have hwn := fsWrite_noFault (fsPattern s2.params) s2 hk
      split
      · rename_i e s3 h3
        rw [h3] at hw
        have h4 := hc.trans (hw.trans (fsClose_step _).1)
        exact ⟨_, _, h4, by rw [h4.params]; exact errCode_le hp e, .inl rfl⟩
      · rename_i f s3 h3
        exact absurd (by rw [h3]) (hwn f)
      · rename_i s3 h3
        rw [h3] at hw
        have h4 := hc.trans (hw.trans (fsClose_step _).1)
        replace h4 : FsStep s (fsClose s3).2 := h4
        have hcl := fsClose_noFault s3
        split
        · rename_i e s4 h5
          rw [h5] at h4
          replace h4 : FsStep s s4 := h4
          exact ⟨s4, _, h4, by rw [h4.params]; exact errCode_le hp e, .inl rfl⟩
        · rename_i f s4 h5
          exact absurd (by rw [h5]) (hcl f)
        · rename_i s4 h5
          rw [h5] at h4
          replace h4 : FsStep s s4 := h4
          obtain ⟨h6, r, h7, h8⟩ := fsSelftestVerify_step q s4 (by rw [h4.params]; exact hp)
          refine ⟨_, r, h4.trans h6, h8, .inl ?_⟩
          rw [← h7]
  · rw [he]
    simp only
    refine ⟨t, _, ht, ?_, .inr rfl⟩
    change (t.params.errCode _).toNat ≤ 127
    rw [ht.params]
    exact errCode_le hp _

end Sys2Proof.Machine
end

