-- ==== Sys2Proof/Laws/Codec.lean ====
section
/-! SUPPORT. The lookup of a command by its type byte, and the widths of a message's values
(spec/30_encoding.md R101, R104). -/

namespace Sys2Proof

theorem Command.mem_all (c : Command) : c ∈ Command.all := by
  cases c <;> decide

/-- A command that is found has the type byte that was looked for. -/
theorem Params.cmdCode_of_commandOf {p : Params} {t : Byte} {c : Command}
    (h : p.commandOf t = some c) : p.cmdCode c = t := by
  simpa using List.find?_some h

/-- Legal codes are distinct, so every command is found by its code (00_scope.md R9). -/
theorem Params.commandOf_cmdCode {p : Params} (hp : p.Valid) (c : Command) :
    p.commandOf (p.cmdCode c) = some c := by
  have hinj : ∀ d, p.cmdCode d = p.cmdCode c → d = c := by
    intro d hd
    have hnd := hp.2.2.2.2.2.2.2.2.2.2.2.2.2.1
    exact List.inj_on_of_nodup_map hnd d.mem_all c.mem_all hd
  cases hf : p.commandOf (p.cmdCode c) with
  | none =>
    have := List.find?_eq_none.1 hf c c.mem_all
    simp at this
  | some d => rw [hinj d (cmdCode_of_commandOf hf)]

theorem Params.v1Bytes_le (p : Params) (c : Command) : p.v1Bytes c ≤ 4 := by
  unfold Params.v1Bytes; split <;> omega

theorem Params.v2Bytes_le (p : Params) (c : Command) : p.v2Bytes c ≤ 4 := by
  unfold Params.v2Bytes; split <;> omega

theorem isHostCode_cmdCode {p : Params} (hp : p.Valid) (c : Command) :
    isHostCode (p.cmdCode c) = true := by
  have := hp.2.2.2.2.2.2.2.2.2.2.2.2.1 c c.mem_all
  simpa [isHostCode] using this

end Sys2Proof
end

