-- ==== Sys2Proof/Laws/Invariant.lean ====
section
/-! SUPPORT. The invariant of Safety.lean through the shared operations: which relations between the
file registers each filesystem operation keeps, and that a piece of a step keeps the whole invariant
(spec/10_state.md R22 to R25, R31, R32, R40 to R45, 60_exceptions.md R310). -/

namespace Sys2Proof.Machine

/-- The file registers' part of the invariant. -/
structure FileInv (s : State) : Prop where
  rdPos_le : s.fs.rdPos ≤ s.fs.len
  start_lt : s.fs.isOpen = true → s.fs.start.toNat < s.params.mediumBlocks
  dirty_open : s.fs.dirty = true → s.fs.isOpen = true

theorem State.Inv.file {s : State} (h : s.Inv) : FileInv s :=
  ⟨h.rdPos_le, h.start_lt, h.dirty_open⟩

theorem State.Inv.medium {s : State} (h : s.Inv) : MediumInv s := ⟨h.medium_wf, h.busy_block⟩

/-- The file part rests on the file registers and the parameters alone. -/
theorem FileInv.congr {s t : State} (h : FileInv s) (hf : t.fs = s.fs)
    (hp : t.params = s.params) : FileInv t :=
  ⟨by rw [hf]; exact h.rdPos_le, by rw [hf, hp]; exact h.start_lt, by rw [hf]; exact h.dirty_open⟩

theorem MediumStep.file {s t : State} (h : MediumStep s t) (k : FileInv s) : FileInv t :=
  k.congr h.fs h.params

/-- A filesystem operation keeps the whole invariant when it keeps the file part. -/
theorem FsStep.keepsInv {s t : State} (h : FsStep s t) (k : s.Inv) (hf : FileInv t) : t.Inv := by
  have hm := h.inv k.medium
  refine ⟨by rw [h.params]; exact k.params, k.ring.congr h.ring h.params,
    by rw [h.pl, h.params]; exact k.linkSeq_lt, by rw [h.pl, h.params]; exact k.blkIdx_lt,
    by rw [h.params, h.store]; exact k.store_wf, hm.1, hm.2, hf.rdPos_le, hf.start_lt,
    hf.dirty_open, by rw [h.ma]; exact k.halted_error⟩

/-- A ring operation keeps the whole invariant. -/
theorem RingStep.keepsInv {s t : State} (h : RingStep s t) (k : s.Inv) : t.Inv := by
  have hs := h.wf k.ring k.store_wf
  have hr := h.inv k.ring
  have hp := h.params
  have e := h.eq
  have hpl : t.pl = s.pl := by rw [e]
  have hma : t.ma = s.ma := by rw [e]
  have hfs : t.fs = s.fs := by rw [e]
  have hmed : t.med = s.med := by rw [e]
  exact ⟨by rw [hp]; exact k.params, hr, by rw [hp, hpl]; exact k.linkSeq_lt,
    by rw [hp, hpl]; exact k.blkIdx_lt, by rw [hp]; exact hs, by rw [hp, hmed]; exact k.medium_wf,
    by rw [hp, hmed]; exact k.busy_block, by rw [hfs]; exact k.rdPos_le,
    by rw [hp, hfs]; exact k.start_lt, by rw [hfs]; exact k.dirty_open,
    by rw [hma]; exact k.halted_error⟩

/-! ### The file part, operation by operation -/

theorem fsClose_dirty {s : State} (h : FileInv s) : (fsClose s).2.fs.dirty = false := by
  unfold fsClose
  split
  · rename_i ho
    cases hd : s.fs.dirty with
    | false => rfl
    | true => rw [h.dirty_open hd] at ho; cases ho
  · simp only
    split
    · assumption
    · have h := (blkWrite_step s.fs.start.toNat
        (metaFsb { s with fs := { s.fs with isOpen := false, dirty := false } })
        { s with fs := { s.fs with isOpen := false, dirty := false } }).1
      split <;>
      · rename_i h2
        rw [h2] at h
        have hf := h.fs
        simp only at hf ⊢
        rw [hf]

theorem fsClose_file {s : State} (h : FileInv s) : FileInv (fsClose s).2 := by
  have hf := fsClose_fs s
  rw [fsClose_dirty h] at hf
  exact ⟨by rw [hf]; exact h.rdPos_le, by rw [hf]; simp, by rw [hf]; simp⟩

/-- The opening leaves the file registers as the implicit close does. -/
theorem openChain_fs (s : State) : (openChain s).2.fs = (fsClose s).2.fs := by
  unfold openChain
  split
  · rename_i h2; rw [h2]
  · rename_i h2; rw [h2]
  · rename_i s1 h2
    rw [h2]
    have hr := (readSB_step s1).1
    split
    · rename_i h3; rw [h3] at hr; exact hr.fs
    · rename_i sb s2 h3
      rw [h3] at hr
      split
      · exact hr.fs
      · have hc := (chainFrom_step sb.iter (s2.params.mediumBlocks + 1) s2.params.firstFileBlock []
          s2).1
        unfold chainWalk
        split <;>
        · rename_i h6
          rw [h6] at hc
          exact (hr.trans hc).fs

theorem openChain_file {s : State} (h : FileInv s) : FileInv (openChain s).2 :=
  (fsClose_file h).congr (openChain_fs s)
    ((openChain_step s).1.params.trans (fsClose_step s).1.params.symm)

theorem toNat_ofNat_block {p : Params} (hp : p.Valid) {b : Nat} (h : b < p.mediumBlocks) :
    (BitVec.ofNat 32 b).toNat = b := by
  have := hp.2.2.2.2.2.2.2.2.2.1
  rw [BitVec.toNat_ofNat, Nat.mod_eq_of_lt (by omega)]

theorem fsCreate_file {s : State} (hp : s.params.Valid) (h : FileInv s) :
    FileInv (fsCreate s).2 := by
  have ho := openChain_file h
  have hop := (openChain_step s).1.params
  unfold fsCreate
  split
  · rename_i h2; rw [h2] at ho; exact ho
  · rename_i h2; rw [h2] at ho; exact ho
  · rename_i iter c s1 h2
    rw [h2] at ho hop
    replace hop : s1.params = s.params := hop
    simp only
    split
    · exact ho
    · rename_i hlt
      have hr := rtcNow_step s1
      have hw := (blkWrite_step (nextSlot s1.params c).1
        (fsbBlock (rtcNow s1).2.params ⟨iter, (nextSlot s1.params c).2, 0, nextNone,
          (rtcNow s1).1.1, (rtcNow s1).1.2⟩) (rtcNow s1).2).1
      split
      · rename_i h4; rw [h4] at hw; exact (hr.trans hw).file ho
      · rename_i s3 h4
        rw [h4] at hw
        have hl := linkPrevious_step c (nextSlot s1.params c).1 s3
        split
        · rename_i h5; rw [h5] at hl; exact ((hr.trans hw).trans hl).file ho
        · rename_i s4 h5
          rw [h5] at hl
          have hp4 : s4.params = s1.params := ((hr.trans hw).trans hl).params
          refine ⟨le_refl _, fun _ => ?_, by simp⟩
          change (BitVec.ofNat 32 _).toNat < s4.params.mediumBlocks
          have hb : (nextSlot s1.params c).1 < s1.params.mediumBlocks := by omega
          rw [hp4, toNat_ofNat_block (by rw [hop]; exact hp) hb]
          exact hb

theorem fsReopen_file {s : State} (hp : s.params.Valid) (seq : U32) (h : FileInv s) :
    FileInv (fsReopen seq s).2 := by
  have ho := openChain_file h
  have hop := (openChain_step s).1.params
  unfold fsReopen
  split
  · rename_i h2; rw [h2] at ho; exact ho
  · rename_i h2; rw [h2] at ho; exact ho
  · rename_i iter c s1 h2
    have hc := openChain_chain h2
    rw [h2] at ho hop
    replace hop : s1.params = s.params := hop
    split
    · exact ho
    · rename_i b f hf
      have hb := (hc.2 _ (List.mem_of_find?_eq_some hf)).2.2
      refine ⟨Nat.zero_le _, fun _ => ?_, by simp⟩
      change (BitVec.ofNat 32 b).toNat < s1.params.mediumBlocks
      rw [toNat_ofNat_block (by rw [hop]; exact hp) hb]
      exact hb

theorem fsSeek_file {s : State} (pos : Nat) (h : FileInv s) : FileInv (fsSeek pos s).2 := by
  unfold fsSeek
  split_ifs
  · exact h
  · exact h
  · exact ⟨by simpa using by omega, h.start_lt, h.dirty_open⟩

theorem fsWrite_file {s : State} (data : Bytes) (h : FileInv s) : FileInv (fsWrite data s).2 := by
  unfold fsWrite
  split_ifs with h1 h2
  · exact h
  · exact h.congr rfl rfl
  · have hs := appendBlocks_step s.fs.len data (blocksTouched s.params s.fs.len data.length) s
    have ho : s.fs.isOpen = true := by simpa using h1
    split
    · rename_i s1 h3
      rw [h3] at hs
      replace hs : MediumStep s s1 := hs
      have hk := hs.file h
      exact ⟨Nat.le_trans hk.rdPos_le (Nat.le_add_right _ _), hk.start_lt,
        fun _ => by show s1.fs.isOpen = true; rw [hs.fs]; exact ho⟩
    · exact hs.file h

theorem fsRead_file {s : State} (n : Nat) (h : FileInv s) : FileInv (fsRead n s).2 := by
  unfold fsRead
  split_ifs
  · exact h
  · have hs := readBlocks_step s.fs.rdPos (min n (s.fs.len - s.fs.rdPos))
      (blocksTouched s.params s.fs.rdPos (min n (s.fs.len - s.fs.rdPos))) s
    simp only
    split
    · rename_i h2; rw [h2] at hs; exact hs.file h
    · rename_i s1 h2
      rw [h2] at hs
      replace hs : MediumStep s s1 := hs
      have hk := hs.file h
      refine ⟨?_, hk.start_lt, hk.dirty_open⟩
      have h1 := h.rdPos_le
      show s1.fs.rdPos + _ ≤ s1.fs.len
      rw [hs.fs]
      omega

theorem fsRtcSet_file {s : State} (v sub : U32) (h : FileInv s) : FileInv (fsRtcSet v sub s).2 := by
  unfold fsRtcSet
  split_ifs with h1
  · exact h
  · exact ⟨h.rdPos_le, h.start_lt, fun _ => by simpa using h1⟩

theorem fsContinue_file {s : State} (h : FileInv s) : FileInv (fsContinue s).2 := by
  have hs := blkStep_step s
  unfold fsContinue
  split_ifs with h1
  · exact h
  · split
    · rename_i h2; rw [h2] at hs; exact hs.file h
    · rename_i s1 h2
      rw [h2] at hs
      replace hs : MediumStep s s1 := hs
      have hk := hs.file h
      refine ⟨Nat.le_trans hk.rdPos_le (Nat.le_add_right _ _), hk.start_lt, fun _ => ?_⟩
      show s1.fs.isOpen = true
      rw [hs.fs]
      simpa using h1
    · rename_i h2; rw [h2] at hs; exact hs.file h

theorem fsFlush_file {s : State} (h : FileInv s) : FileInv (fsFlush s).2 := by
  unfold fsFlush
  split_ifs
  · have hs := (blkWrite_step s.fs.start.toNat (metaFsb s) s).1
    split
    · rename_i s1 h2
      rw [h2] at hs
      have hk := hs.file h
      exact ⟨hk.rdPos_le, hk.start_lt, by simp⟩
    · rename_i h2; rw [h2] at hs; exact hs.file h
  · exact h

/-- `FS_BEGIN_WRITE` records a model fault or begins a write; it does not touch the registers. -/
theorem fsBeginWrite_cases (data : Bytes) (s : State) :
    MediumStep s (fsBeginWrite data s).2 ∨
      ∃ f, (fsBeginWrite data s).1 = .fault f ∧ (fsBeginWrite data s).2 = setFault f s := by
  unfold fsBeginWrite
  split_ifs
  · exact .inl (.refl s)
  · exact .inr ⟨_, rfl, rfl⟩
  · exact .inr ⟨_, rfl, rfl⟩
  · have hs := blkBegin_step (dataBlk s (s.fs.len / s.params.blockBytes)) data s
    split <;>
    · rename_i h2
      rw [h2] at hs
      exact .inl hs

/-! ### The whole invariant -/

theorem setFault_inv {s : State} (f : Fault) (h : s.Inv) : (setFault f s).Inv :=
  ⟨h.params, h.ring.congr rfl rfl, h.linkSeq_lt, h.blkIdx_lt, h.store_wf, h.medium_wf, h.busy_block,
    h.rdPos_le, h.start_lt, h.dirty_open, h.halted_error⟩

/-- Status, history, environment and requests are free of the invariant. -/
theorem State.Inv.congr {s t : State} (h : s.Inv)
    (he : t = { s with
      inputs := t.inputs, env := t.env, out := t.out, status := t.status, fault := t.fault }) :
    t.Inv := by
  rw [he]
  exact ⟨h.params, h.ring.congr rfl rfl, h.linkSeq_lt, h.blkIdx_lt, h.store_wf, h.medium_wf,
    h.busy_block, h.rdPos_le, h.start_lt, h.dirty_open, h.halted_error⟩

/-- Setting the arbiter of a block that is not halted. -/
theorem State.Inv.setArbiter {s : State} (h : s.Inv) (a : Arbiter) (ha : a.halted = false) :
    ({ s with ma := a } : State).Inv :=
  ⟨h.params, h.ring.congr rfl rfl, h.linkSeq_lt, h.blkIdx_lt, h.store_wf, h.medium_wf, h.busy_block,
    h.rdPos_le, h.start_lt, h.dirty_open, by simp [ha]⟩

/-- Setting the pipeline registers within their widths. -/
theorem State.Inv.setPipeline {s : State} (h : s.Inv) (p : Pipeline)
    (h1 : p.linkSeq < 2 ^ s.params.linkSeqBits) (h2 : p.blkIdx < 2 ^ s.params.blkIdxBits) :
    ({ s with pl := p } : State).Inv :=
  ⟨h.params, h.ring.congr rfl rfl, h1, h2, h.store_wf, h.medium_wf, h.busy_block, h.rdPos_le,
    h.start_lt, h.dirty_open, h.halted_error⟩

theorem halt_inv {s : State} (h : s.Inv) : (halt s).Inv :=
  ⟨h.params, h.ring.congr rfl rfl, h.linkSeq_lt, h.blkIdx_lt, h.store_wf, h.medium_wf, h.busy_block,
    h.rdPos_le, h.start_lt, h.dirty_open, fun _ => rfl⟩

/-- Recording an error in a block that is not halted. -/
theorem recordError_inv {s : State} (e : Err) (h : s.Inv) (hh : s.ma.halted = false) :
    (recordError e s).Inv := by
  unfold recordError
  split
  · exact h.setArbiter _ hh
  · exact h

theorem rbInit_inv {s : State} (h : s.Inv) : (rbInit s).Inv :=
  (rbInit_step s h.params.1).keepsInv h

theorem rbWrite_inv {s : State} (data : Bytes) (h : s.Inv) : (rbWrite data s).2.Inv :=
  (rbWrite_step data h.ring).keepsInv h

theorem rbRead_inv {s : State} (n : Nat) (h : s.Inv) : (rbRead n s).2.Inv :=
  (rbRead_step n h.ring).keepsInv h

theorem rbSelftest_inv {s : State} (h : s.Inv) : (rbSelftest s).2.Inv :=
  (rbSelftest_step s h.params.1).2.keepsInv (rbInit_inv h)

theorem fsClose_inv {s : State} (h : s.Inv) : (fsClose s).2.Inv :=
  (fsClose_step s).1.keepsInv h (fsClose_file h.file)

theorem fsCreate_inv {s : State} (h : s.Inv) : (fsCreate s).2.Inv :=
  (fsCreate_step s).keepsInv h (fsCreate_file h.params h.file)

theorem fsReopen_inv {s : State} (seq : U32) (h : s.Inv) : (fsReopen seq s).2.Inv :=
  (fsReopen_step seq s).keepsInv h (fsReopen_file h.params seq h.file)

theorem fsRead_inv {s : State} (n : Nat) (h : s.Inv) : (fsRead n s).2.Inv :=
  (fsRead_step n s).keepsInv h (fsRead_file n h.file)

theorem fsContinue_inv {s : State} (h : s.Inv) : (fsContinue s).2.Inv :=
  (fsContinue_step s).keepsInv h (fsContinue_file h.file)

theorem fsFlush_inv {s : State} (h : s.Inv) : (fsFlush s).2.Inv :=
  (fsFlush_step s).keepsInv h (fsFlush_file h.file)

theorem fsWrite_inv {s : State} (data : Bytes) (h : s.Inv) : (fsWrite data s).2.Inv := by
  by_cases hk : s.fs.kind = .created ∨ s.fs.isOpen = false
  · exact (fsWrite_step data s hk).keepsInv h (fsWrite_file data h.file)
  · have h1 : s.fs.isOpen = true := by simpa using fun h => hk (.inr h)
    have h2 : s.fs.kind = .reopened := by
      cases hc : s.fs.kind with
      | created => exact absurd (.inl hc) hk
      | reopened => rfl
    simp only [fsWrite, h1, h2]
    exact setFault_inv _ h

theorem fsBeginWrite_inv {s : State} (data : Bytes) (h : s.Inv) : (fsBeginWrite data s).2.Inv := by
  rcases fsBeginWrite_cases data s with k | ⟨f, -, k⟩
  · exact k.toFs.keepsInv h (k.file h.file)
  · rw [k]
    exact setFault_inv f h

theorem fsFormat_inv {s : State} (portable : Bool) (h : s.Inv) : (fsFormat portable s).2.Inv := by
  obtain ⟨t, ht, hf, he⟩ := fsFormat_step portable s
  have k : t.Inv := ht.keepsInv h
    ⟨by rw [hf]; exact h.rdPos_le, by rw [hf]; simp, by rw [hf]; simp⟩
  rcases he with he | he <;> rw [he]
  · exact k
  · exact halt_inv k

theorem fsSelftestVerify_inv {s : State} (seq : U32) (h : s.Inv) :
    (fsSelftestVerify seq s).2.Inv := by
  have h1 := fsReopen_inv seq h
  unfold fsSelftestVerify
  split
  · rename_i h2; rw [h2] at h1; exact h1
  · rename_i h2; rw [h2] at h1; exact h1
  · rename_i q s1 h2
    rw [h2] at h1
    have h3 := fsRead_inv (fsPattern s1.params).length h1
    split
    · rename_i h4; rw [h4] at h3; exact fsClose_inv h3
    · rename_i h4; rw [h4] at h3; exact h3
    · rename_i h4; rw [h4] at h3; exact fsClose_inv h3

theorem fsSelftest_inv {s : State} (h : s.Inv) : (fsSelftest s).2.Inv := by
  have h1 := fsFormat_inv s.params.fsSelftestPortable h
  unfold fsSelftest
  split
  · rename_i h2; rw [h2] at h1; exact h1
  · rename_i h2; rw [h2] at h1; exact h1
  · rename_i s1 h2
    rw [h2] at h1
    have h3 := fsCreate_inv h1
    split
    · rename_i h4; rw [h4] at h3; exact h3
    · rename_i h4; rw [h4] at h3; exact h3
    · rename_i q s2 h4
      rw [h4] at h3
      have h5 := fsWrite_inv (fsPattern s2.params) h3
      split
      · rename_i h6; rw [h6] at h5; exact fsClose_inv h5
      · rename_i h6; rw [h6] at h5; exact h5
      · rename_i s3 h6
        rw [h6] at h5
        have h7 := fsClose_inv h5
        split
        · rename_i h8; rw [h8] at h7; exact h7
        · rename_i h8; rw [h8] at h7; exact h7
        · rename_i s4 h8
          rw [h8] at h7
          exact fsSelftestVerify_inv q h7

theorem boot_inv {s : State} (h : s.Inv) : (boot s).Inv :=
  rbInit_inv ⟨h.params, h.ring.congr rfl rfl, Nat.two_pow_pos _, Nat.two_pow_pos _, h.store_wf,
    h.medium_wf, h.busy_block, h.rdPos_le, by simp, by simp, by simp⟩

theorem warmReset_inv {s : State} (h : s.Inv) : (warmReset s).Inv :=
  (boot_inv h).setArbiter _ rfl

theorem plBegin_inv {s : State} (h : s.Inv) : (plBegin s).Inv :=
  (rbInit_inv h).setPipeline _ (Nat.two_pow_pos _) (Nat.two_pow_pos _)

theorem plStop_inv {s : State} (h : s.Inv) : (plStop s).Inv :=
  h.setPipeline _ h.linkSeq_lt h.blkIdx_lt

/-! ### Pipeline and arbiter -/

theorem drainLink_inv {s : State} (h : s.Inv) : (drainLink s).2.Inv := by
  have h1 : (drawLinkReady s).2.Inv := h.congr rfl
  unfold drainLink
  split
  · rename_i h2; rw [h2] at h1; exact h1
  · rename_i s1 h2
    rw [h2] at h1
    have h3 := rbRead_inv s1.params.linkPayload h1
    split
    · rename_i h4; rw [h4] at h3; exact h3
    · rename_i h4; rw [h4] at h3; exact h3
    · rename_i d s2 h4
      rw [h4] at h3
      have h5 : (linkTx (linkFrame s2.params s2.pl.linkSeq d) s2).Inv := h3.congr rfl
      exact h5.setPipeline _ (Nat.mod_lt _ (Nat.two_pow_pos _)) h5.blkIdx_lt

/-- A block that takes a block from the ring is still not halted. -/
theorem rbRead_ma {s : State} (n : Nat) (h : RingInv s) : (rbRead n s).2.ma = s.ma := by
  rw [(rbRead_step n h).eq]

theorem fsBeginWrite_ma (data : Bytes) (s : State) : (fsBeginWrite data s).2.ma = s.ma := by
  rcases fsBeginWrite_cases data s with k | ⟨f, -, k⟩
  · exact k.ma
  · rw [k]; rfl

theorem drainStorage_inv {s : State} (h : s.Inv) (hh : s.ma.halted = false) :
    (drainStorage s).2.Inv := by
  unfold drainStorage
  split
  · unfold drainStorageIdle
    split
    · exact h
    · have h1 := rbRead_inv s.params.blockBytes h
      have m1 := rbRead_ma s.params.blockBytes h.ring
      split
      · rename_i h2; rw [h2] at h1; exact h1
      · rename_i h2; rw [h2] at h1; exact h1
      · rename_i d s1 h2
        rw [h2] at h1 m1
        have h3 := fsBeginWrite_inv d h1
        have m3 := (fsBeginWrite_ma d s1).trans m1
        split
        · rename_i e s2 h4
          rw [h4] at h3 m3
          exact recordError_inv e h3 (by rw [m3]; exact hh)
        · rename_i h4; rw [h4] at h3; exact h3
        · rename_i h4
          rw [h4] at h3
          exact h3.setPipeline _ h3.linkSeq_lt h3.blkIdx_lt
  · unfold drainStorageBusy
    have h1 := fsContinue_inv h
    have m1 := (fsContinue_step s).ma
    split
    · rename_i h2; rw [h2] at h1; exact h1
    · rename_i h2
      rw [h2] at h1
      exact h1.setPipeline _ h1.linkSeq_lt (Nat.mod_lt _ (Nat.two_pow_pos _))
    · rename_i e s1 h2
      rw [h2] at h1 m1
      have h3 := recordError_inv e h1 (by rw [m1]; exact hh)
      exact h3.setPipeline _ h3.linkSeq_lt h3.blkIdx_lt
    · rename_i h2; rw [h2] at h1; exact h1

theorem tickBody_inv {s : State} (h : s.Inv) (hh : s.ma.halted = false) : (tickBody s).2.Inv := by
  unfold tickBody
  split_ifs
  · exact h
  · split
    · exact drainLink_inv h
    · exact drainStorage_inv h hh
    · exact drainStorage_inv h hh
    · exact h
    · exact h

theorem calDone_inv {s : State} (h : s.Inv) : (calDone s).Inv := by
  unfold calDone
  split
  · exact h.setPipeline _ h.linkSeq_lt h.blkIdx_lt
  · exact h

theorem closeAndRecord_inv {s : State} (h : s.Inv) (hh : s.ma.halted = false) :
    (closeAndRecord s).Inv := by
  have h1 := fsClose_inv h
  have m1 := (fsClose_step s).1.ma
  unfold closeAndRecord
  split
  · rename_i e s1 h2
    rw [h2] at h1 m1
    exact recordError_inv e h1 (by rw [m1]; exact hh)
  · rename_i h2; rw [h2] at h1; exact h1

theorem blinkNext_inv {s : State} (h : s.Inv) : (blinkNext s).Inv := by
  have k := (nextSeq_step s).toFs.keepsInv h ((nextSeq_step s).file h.file)
  exact k.congr rfl

/-- A stop does not halt the block. -/
theorem stopSampling_halted (s : State) : (stopSampling s).ma.halted = s.ma.halted := by
  rw [(stopSampling_step s).1]

theorem stopSampling_inv {s : State} (h : s.Inv) (hh : s.ma.halted = false) :
    (stopSampling s).Inv := by
  have h1 := plStop_inv h
  have hc := closeAndRecord_inv h1 hh
  have mc : (closeAndRecord (plStop s)).ma.halted = false :=
    (closeAndRecord_file (plStop s)).1.halted.trans hh
  cases hm : s.ma.mode with
  | usbIdle => rw [stopSampling_idle (.inl hm)]; exact h1
  | portIdle => rw [stopSampling_idle (.inr (.inl hm))]; exact h1
  | stream => rw [stopSampling_idle (.inr (.inr hm))]; exact h1
  | usbStore => rw [stopSampling_usbStore hm]; exact hc.setArbiter _ mc
  | portStore =>
    rw [stopSampling_portStore hm]
    refine (blinkNext_inv hc).setArbiter _ ?_
    have := (nextSeq_step (closeAndRecord (plStop s))).ma
    change (nextSeq _).2.ma.halted = false
    rw [this]
    exact mc

theorem enterStore_inv {s : State} (h : s.Inv) (hh : s.ma.halted = false) : (enterStore s).Inv := by
  have h1 := fsCreate_inv h
  have m1 := (fsCreate_step s).ma
  unfold enterStore
  split
  · rename_i e s1 h2
    rw [h2] at h1 m1
    exact plBegin_inv (recordError_inv e h1 (by rw [m1]; exact hh))
  · rename_i h2; rw [h2] at h1; exact plBegin_inv h1

/-- The mode colour touches the draws and the history only. -/
theorem showMode_inv {s : State} (m : Mode) (h : s.Inv) : (showMode m s).Inv := by
  unfold showMode
  split_ifs
  · exact h
  · have h1 : (drawColor s).2.Inv := h.congr rfl
    split
    · rename_i h2; rw [h2] at h1; exact h1.congr rfl
    · rename_i h2; rw [h2] at h1; exact h1

theorem streamFile_inv {s : State} (fuel k : Nat) (h : s.Inv) : (streamFile fuel k s).Inv := by
  induction fuel generalizing k s with
  | zero => exact h
  | succ fuel ih =>
    have h1 := fsRead_inv s.params.blockBytes h
    unfold streamFile
    split
    · rename_i d s1 h2
      rw [h2] at h1
      split_ifs
      · exact h1
      · exact ih _ (h1.congr rfl)
    · rename_i h2; rw [h2] at h1; exact h1

/-! ### Serving requests, commands and events -/

theorem serve_inv {body : State → Status × State} {s : State} (h : s.Inv)
    (hb : s.ma.halted = false → (body s).2.Inv) : (serve body s).Inv := by
  cases hh : s.ma.halted with
  | true => rw [serve_halted hh]; exact h.congr rfl
  | false => rw [serve_eq hh (rfl : body s = _)]; exact (hb hh).congr rfl

theorem serveMode_inv {body : State → Status × State} {s : State} (h : s.Inv)
    (hb : s.ma.halted = false → (body s).2.Inv) : (serveMode body s).Inv := by
  unfold serveMode
  split_ifs with hh
  · exact h.congr rfl
  · exact (showMode_inv _ (hb (by simpa using hh))).congr rfl

theorem perform_inv {c : Command} {body : State → CmdResult × State} {s : State} (h : s.Inv)
    (hb : s.ma.halted = false → (body s).2.Inv) : (perform c body s).Inv := by
  unfold perform
  split_ifs with hh
  · exact h.congr rfl
  · have k := showMode_inv s.ma.mode (hb (by simpa using hh))
    unfold finishCommand
    split_ifs with h2
    · exact k.congr rfl
    · split
      · rename_i b _
        generalize showMode s.ma.mode (body s).2 = x at k h2
        have k2 : (linkTx (ackBytes (x.params.cmdCode c) b) x).Inv := k.congr rfl
        exact (k2.setArbiter { x.ma with rxQ := [] } (by simpa using h2)).congr rfl
      · exact k.congr rfl

theorem stopIfAcquiring_inv {s : State} (h : s.Inv) (hh : s.ma.halted = false) :
    (stopIfAcquiring s).Inv ∧ (stopIfAcquiring s).ma.halted = false := by
  unfold stopIfAcquiring
  split_ifs
  · exact ⟨stopSampling_inv h hh, by rw [stopSampling_halted]; exact hh⟩
  · exact ⟨h, hh⟩

theorem runCommand_inv (c : Command) (v1 v2 : U32) {s : State} (h : s.Inv)
    (hh : s.ma.halted = false) : (runCommand c v1 v2 s).2.Inv := by
  have hst := stopSampling_inv h hh
  have hsth := (stopSampling_halted s).trans hh
  cases c with
  | init =>
    simp only [runCommand, runInit]
    split_ifs
    · exact (warmReset_inv h).setArbiter _ rfl
    · exact h.setArbiter _ hh
  | reset =>
    simp only [runCommand, runReset]
    have h1 : (drawResetAck s).2.Inv := h.congr rfl
    split <;>
    · rename_i h2; rw [h2] at h1; exact warmReset_inv h1
  | selfTest =>
    simp only [runCommand, runSelfTest]
    have h1 : (driverSelfTest (stopSampling s)).2.Inv := hst.congr rfl
    rcases h2 : driverSelfTest (stopSampling s) with ⟨t, s1⟩
    rw [h2] at h1
    simp only
    have h3 := rbSelftest_inv h1
    split_ifs
    · exact h1
    · exact h3
    · have h5 := fsSelftest_inv h3
      split
      · rename_i h6; rw [h6] at h5
        split_ifs <;> exact h5
      · rename_i h6; rw [h6] at h5; exact h5
  | readEeprom => exact h.congr rfl
  | gainSet => exact h.setPipeline _ h.linkSeq_lt h.blkIdx_lt
  | startStorage =>
    obtain ⟨h1, hh1⟩ := stopIfAcquiring_inv h hh
    simp only [runCommand, runStartStorage]
    split_ifs
    · have h2 := fsFormat_inv false h1
      obtain ⟨t, ht, -, he⟩ := fsFormat_step false (stopIfAcquiring s)
      rcases he with he | he
      · rw [he] at h2 ⊢
        have ht2 : t.ma.halted = false := by rw [ht.ma]; exact hh1
        exact enterStore_inv (h2.setArbiter _ ht2) ht2
      · rw [he] at h2 ⊢
        exact h2
    · exact enterStore_inv (h1.setArbiter _ hh1) hh1
  | startLink =>
    obtain ⟨h1, hh1⟩ := stopIfAcquiring_inv h hh
    have h2 := h1.setArbiter { (stopIfAcquiring s).ma with mode := .stream } hh1
    exact (plBegin_inv h2).congr rfl
  | readStorage =>
    simp only [runCommand, runReadStorage]
    have h1 := fsReopen_inv (seqOperand v1) hst
    split
    · rename_i h2; rw [h2] at h1
      exact fsClose_inv (streamFile_inv _ _ h1)
    · rename_i h2; rw [h2] at h1; exact h1
  | getSampleCount => exact h.congr rfl
  | getGitHash => exact h.congr rfl
  | getRtc =>
    simp only [runCommand, runGetRtc]
    have h1 := fsReopen_inv (seqOperand v1) hst
    split
    · rename_i h2; rw [h2] at h1
      unfold fsRtcGet
      split_ifs <;> exact h1.congr rfl
    · rename_i h2; rw [h2] at h1; exact h1.congr rfl
  | setRtc => exact h.congr rfl
  | getModePortable => exact h

theorem cpStep_inv {s : State} (h : s.Inv) : (cpStep s).Inv := by
  unfold cpStep
  split_ifs with hh
  · exact h.congr rfl
  · split
    · exact h.congr rfl
    · rename_i m rest hq
      have k : ({ s with ma := { s.ma with rxQ := rest } } : State).Inv :=
        h.setArbiter _ (by simpa using hh)
      simp only
      split
      · exact k.congr rfl
      · exact perform_inv k fun hh => runCommand_inv _ _ _ k hh

theorem blinkCurrent_inv {s : State} (h : s.Inv) : (blinkCurrent s).Inv := by
  unfold blinkCurrent
  split_ifs
  · exact h.congr rfl
  · exact blinkNext_inv h

theorem btnPress_inv {s : State} (h : s.Inv) (hh : s.ma.halted = false) : (btnPress s).Inv := by
  unfold btnPress
  split
  · exact blinkCurrent_inv (enterStore_inv (h.setArbiter _ hh) hh)
  · exact stopSampling_inv h hh
  all_goals exact h

theorem btnHold_inv {s : State} (h : s.Inv) (hh : s.ma.halted = false) : (btnHold s).Inv := by
  have h1 := stopSampling_inv h hh
  have hh1 := (stopSampling_halted s).trans hh
  have h2 := fsFormat_inv true h1
  obtain ⟨t, ht, -, he⟩ := fsFormat_step true (stopSampling s)
  unfold btnHold
  rcases he with he | he
  · rw [he] at h2 ⊢
    have ht2 : t.ma.halted = false := by rw [ht.ma]; exact hh1
    exact (State.Inv.setArbiter h2 { t.ma with mode := .portIdle } ht2).congr rfl
  · rw [he] at h2 ⊢
    exact h2

end Sys2Proof.Machine
end

