-- ==== Sys2Proof/Laws/History.lean ====
section
/-! SUPPORT. What no operation does: edit the output history, clear a recorded model fault, change
the parameters or the requests to come (spec/10_state.md R47, R49). -/

namespace Sys2Proof.Machine

/-- A piece of a step that appends to the history, keeps a recorded fault, and leaves the parameters
and the requests to come alone. -/
structure Grows (s t : State) : Prop where
  out : s.out <+: t.out
  fault : s.fault.isSome = true → t.fault.isSome = true
  params : t.params = s.params
  inputs : t.inputs = s.inputs

theorem Grows.refl (s : State) : Grows s s := ⟨List.prefix_refl _, id, rfl, rfl⟩

theorem Grows.trans {s t u : State} (h : Grows s t) (k : Grows t u) : Grows s u :=
  ⟨h.out.trans k.out, fun x => k.fault (h.fault x), k.params.trans h.params,
    k.inputs.trans h.inputs⟩

theorem Grows.emit (e : Event) (s : State) : Grows s (emit e s) :=
  ⟨List.prefix_append _ _, id, rfl, rfl⟩

theorem Grows.same {s t : State} (h : t.out = s.out) (h2 : t.fault = s.fault)
    (h3 : t.params = s.params) (h4 : t.inputs = s.inputs) : Grows s t :=
  ⟨by rw [h], by rw [h2]; exact id, h3, h4⟩

theorem FsStep.grows {s t : State} (h : FsStep s t) : Grows s t := by
  obtain ⟨es, he, -⟩ := h.out
  exact ⟨⟨es, he.symm⟩, by rw [h.fault]; exact fun x => x, h.params, h.inputs⟩

theorem MediumStep.grows {s t : State} (h : MediumStep s t) : Grows s t := FsStep.grows h.toFs

theorem setFault_grows (f : Fault) (s : State) : Grows s (setFault f s) :=
  ⟨List.prefix_refl _, fun _ => rfl, rfl, rfl⟩

theorem recordError_grows (e : Err) (s : State) : Grows s (recordError e s) := by
  unfold recordError; split <;> exact .same rfl rfl rfl rfl

theorem halt_grows (s : State) : Grows s (halt s) := .same rfl rfl rfl rfl

theorem memWrite_grows (a : Nat) (d : Bytes) (s : State) : Grows s (memWrite a d s) := by
  unfold memWrite; split
  · exact .refl s
  · exact Grows.trans (t := { s with store := s.store.write a d }) (.same rfl rfl rfl rfl)
      (.emit _ _)

theorem memRead_grows (a n : Nat) (s : State) : Grows s (memRead a n s).2 := by
  unfold memRead; split
  · exact .refl s
  · exact .emit _ _

theorem rbWrite_grows (d : Bytes) (s : State) : Grows s (rbWrite d s).2 := by
  unfold rbWrite; split_ifs
  · exact setFault_grows _ s
  · exact .refl s
  · exact ((memWrite_grows _ _ s).trans (memWrite_grows _ _ _)).trans (.same rfl rfl rfl rfl)

theorem rbRead_grows (n : Nat) (s : State) : Grows s (rbRead n s).2 := by
  unfold rbRead; split_ifs
  · exact setFault_grows _ s
  · exact .refl s
  · exact ((memRead_grows _ _ s).trans (memRead_grows _ _ _)).trans (.same rfl rfl rfl rfl)

theorem rbInit_grows (s : State) : Grows s (rbInit s) := .same rfl rfl rfl rfl

theorem rbRoundTrip_grows (d : Bytes) (s : State) : Grows s (rbRoundTrip d s).2 := by
  have h := rbWrite_grows d s
  unfold rbRoundTrip
  split
  · rename_i h2; rw [h2] at h; exact h.trans (rbRead_grows _ _)
  · rename_i h2; rw [h2] at h; exact h

theorem rbFill_grows (n : Nat) (ok : Bool) (s : State) : Grows s (rbFill n ok s).2 := by
  induction n generalizing ok s with
  | zero => exact .refl s
  | succ n ih =>
    unfold rbFill; split
    · exact .refl s
    · exact (rbRoundTrip_grows _ s).trans (ih _ _)

theorem rbAndThen_grows (d : Bytes) (r : Bool × State) : Grows r.2 (rbAndThen d r).2 := by
  unfold rbAndThen; split
  · exact rbRoundTrip_grows _ _
  · exact .refl _

theorem rbSelftest_grows (s : State) : Grows s (rbSelftest s).2 :=
  (((((rbInit_grows s).trans (rbRoundTrip_grows [0x5A] _)).trans (rbAndThen_grows _ _)).trans
    (rbFill_grows _ _ _)).trans (rbAndThen_grows _ _)).trans (rbInit_grows _)

theorem fsWrite_grows (d : Bytes) (s : State) : Grows s (fsWrite d s).2 := by
  by_cases hk : s.fs.kind = .created ∨ s.fs.isOpen = false
  · exact FsStep.grows (fsWrite_step d s hk)
  · have h1 : s.fs.isOpen = true := by simpa using fun h => hk (.inr h)
    have h2 : s.fs.kind = .reopened := by
      cases hc : s.fs.kind with
      | created => exact absurd (.inl hc) hk
      | reopened => rfl
    simp only [fsWrite, h1, h2]
    exact setFault_grows _ s

theorem fsBeginWrite_grows (d : Bytes) (s : State) : Grows s (fsBeginWrite d s).2 := by
  rcases fsBeginWrite_cases d s with k | ⟨f, -, k⟩
  · exact MediumStep.grows k
  · rw [k]; exact setFault_grows f s

theorem fsFormat_grows (p : Bool) (s : State) : Grows s (fsFormat p s).2 := by
  obtain ⟨t, ht, -, he⟩ := fsFormat_step p s
  rcases he with he | he <;> rw [he]
  · exact FsStep.grows ht
  · exact (FsStep.grows ht).trans (halt_grows _)

theorem fsClose_grows (s : State) : Grows s (fsClose s).2 := FsStep.grows (fsClose_step s).1

theorem fsCreate_grows (s : State) : Grows s (fsCreate s).2 := FsStep.grows (fsCreate_step s)

theorem fsReopen_grows (q : U32) (s : State) : Grows s (fsReopen q s).2 :=
  FsStep.grows (fsReopen_step q s)

theorem fsRead_grows (n : Nat) (s : State) : Grows s (fsRead n s).2 :=
  FsStep.grows (fsRead_step n s)

theorem fsSelftestVerify_grows (q : U32) (s : State) : Grows s (fsSelftestVerify q s).2 := by
  have h1 := fsReopen_grows q s
  unfold fsSelftestVerify
  split
  · rename_i h2; rw [h2] at h1; exact h1
  · rename_i h2; rw [h2] at h1; exact h1
  · rename_i q s1 h2
    rw [h2] at h1
    have h3 := fsRead_grows (fsPattern s1.params).length s1
    split
    · rename_i h4; rw [h4] at h3; exact (h1.trans h3).trans (fsClose_grows _)
    · rename_i h4; rw [h4] at h3; exact h1.trans h3
    · rename_i h4; rw [h4] at h3; exact (h1.trans h3).trans (fsClose_grows _)

theorem fsSelftest_grows (s : State) : Grows s (fsSelftest s).2 := by
  have h1 := fsFormat_grows s.params.fsSelftestPortable s
  unfold fsSelftest
  split
  · rename_i h2; rw [h2] at h1; exact h1
  · rename_i h2; rw [h2] at h1; exact h1
  · rename_i s1 h2
    rw [h2] at h1
    have h3 := h1.trans (fsCreate_grows s1)
    split
    · rename_i h4; rw [h4] at h3; exact h3
    · rename_i h4; rw [h4] at h3; exact h3
    · rename_i q s2 h4
      rw [h4] at h3
      have h5 := h3.trans (fsWrite_grows (fsPattern s2.params) s2)
      split
      · rename_i h6; rw [h6] at h5; exact h5.trans (fsClose_grows _)
      · rename_i h6; rw [h6] at h5; exact h5
      · rename_i s3 h6
        rw [h6] at h5
        have h7 := h5.trans (fsClose_grows s3)
        split
        · rename_i h8; rw [h8] at h7; exact h7
        · rename_i h8; rw [h8] at h7; exact h7
        · rename_i s4 h8
          rw [h8] at h7
          exact h7.trans (fsSelftestVerify_grows q s4)

theorem plBegin_grows (s : State) : Grows s (plBegin s) := .same rfl rfl rfl rfl

theorem warmReset_grows (s : State) : Grows s (warmReset s) := .same rfl rfl rfl rfl

theorem drainLink_grows (s : State) : Grows s (drainLink s).2 := by
  have h1 : Grows s (drawLinkReady s).2 := .same rfl rfl rfl rfl
  unfold drainLink
  split
  · rename_i h2; rw [h2] at h1; exact h1
  · rename_i s1 h2
    rw [h2] at h1
    have h3 := h1.trans (rbRead_grows s1.params.linkPayload s1)
    split
    · rename_i h4; rw [h4] at h3; exact h3
    · rename_i h4; rw [h4] at h3; exact h3
    · rename_i d s2 h4
      rw [h4] at h3
      exact (h3.trans (.emit (.linkTx (linkFrame s2.params s2.pl.linkSeq d)) s2)).trans
        (.same rfl rfl rfl rfl)

theorem drainStorage_grows (s : State) : Grows s (drainStorage s).2 := by
  unfold drainStorage
  split
  · unfold drainStorageIdle
    split
    · exact .refl s
    · have h1 := rbRead_grows s.params.blockBytes s
      split
      · rename_i h2; rw [h2] at h1; exact h1
      · rename_i h2; rw [h2] at h1; exact h1
      · rename_i d s1 h2
        rw [h2] at h1
        have h3 := h1.trans (fsBeginWrite_grows d s1)
        split
        · rename_i e s2 h4
          rw [h4] at h3
          exact h3.trans (recordError_grows e _)
        · rename_i h4; rw [h4] at h3; exact h3
        · rename_i h4
          rw [h4] at h3
          exact h3.trans (.same rfl rfl rfl rfl)
  · unfold drainStorageBusy
    have h1 : Grows s (fsContinue s).2 := FsStep.grows (fsContinue_step s)
    split
    · rename_i h2; rw [h2] at h1; exact h1
    · rename_i h2
      rw [h2] at h1
      exact h1.trans (.same rfl rfl rfl rfl)
    · rename_i e s1 h2
      rw [h2] at h1
      exact (h1.trans (recordError_grows e s1)).trans (.same rfl rfl rfl rfl)
    · rename_i h2; rw [h2] at h1; exact h1

theorem tickBody_grows (s : State) : Grows s (tickBody s).2 := by
  unfold tickBody
  split_ifs
  · exact .refl s
  · split
    · exact drainLink_grows s
    · exact drainStorage_grows s
    · exact drainStorage_grows s
    · exact .refl s
    · exact .refl s

theorem stopSampling_grows (s : State) : Grows s (stopSampling s) := by
  obtain ⟨he, -, ⟨es, ho, -⟩, -⟩ := stopSampling_step s
  exact ⟨⟨es, ho.symm⟩, by rw [he]; exact id, by rw [he], by rw [he]⟩

theorem blinkNext_grows (s : State) : Grows s (blinkNext s) :=
  (MediumStep.grows (nextSeq_step s)).trans (.emit _ _)

theorem enterStore_grows (s : State) : Grows s (enterStore s) := by
  have h1 := fsCreate_grows s
  unfold enterStore
  split
  · rename_i e s1 h2
    rw [h2] at h1
    exact (h1.trans (recordError_grows e _)).trans (plBegin_grows _)
  · rename_i h2; rw [h2] at h1; exact h1.trans (plBegin_grows _)

theorem showMode_grows (m : Mode) (s : State) : Grows s (showMode m s) := by
  have h1 : Grows s (drawColor s).2 := .same rfl rfl rfl rfl
  unfold showMode
  split_ifs
  · exact .refl s
  · split
    · rename_i h2; rw [h2] at h1; exact h1.trans (.emit _ _)
    · rename_i h2; rw [h2] at h1; exact h1

theorem streamFile_grows (fuel k : Nat) (s : State) : Grows s (streamFile fuel k s) := by
  induction fuel generalizing k s with
  | zero => exact .refl s
  | succ fuel ih =>
    have h1 := fsRead_grows s.params.blockBytes s
    unfold streamFile
    split
    · rename_i d s1 h2
      rw [h2] at h1
      split_ifs
      · exact h1
      · exact (h1.trans (.emit _ s1)).trans (ih _ _)
    · rename_i h2; rw [h2] at h1; exact h1

theorem stopIfAcquiring_grows (s : State) : Grows s (stopIfAcquiring s) := by
  unfold stopIfAcquiring
  split_ifs
  · exact stopSampling_grows s
  · exact .refl s

theorem runCommand_grows (c : Command) (v1 v2 : U32) (s : State) :
    Grows s (runCommand c v1 v2 s).2 := by
  have hst := stopSampling_grows s
  cases c with
  | init =>
    simp only [runCommand, runInit]
    split_ifs <;> exact .same rfl rfl rfl rfl
  | reset =>
    simp only [runCommand, runReset]
    have h1 : Grows s (drawResetAck s).2 := .same rfl rfl rfl rfl
    split <;>
    · rename_i h2; rw [h2] at h1; exact h1.trans (warmReset_grows _)
  | selfTest =>
    simp only [runCommand, runSelfTest]
    have h1 : Grows s (driverSelfTest (stopSampling s)).2 := hst.trans (.same rfl rfl rfl rfl)
    rcases h2 : driverSelfTest (stopSampling s) with ⟨t, s1⟩
    rw [h2] at h1
    simp only
    have h3 := h1.trans (rbSelftest_grows s1)
    split_ifs
    · exact h1
    · exact h3
    · have h5 := h3.trans (fsSelftest_grows _)
      split
      · rename_i h6; rw [h6] at h5
        split_ifs <;> exact h5
      · rename_i h6; rw [h6] at h5; exact h5
  | readEeprom =>
    exact Grows.trans (t := { s with env := (eepromRead v1 v2 s).2.env }) (.same rfl rfl rfl rfl)
      ((Grows.emit _ _).trans (.emit _ _))
  | gainSet => exact .same rfl rfl rfl rfl
  | startStorage =>
    have h1 := stopIfAcquiring_grows s
    simp only [runCommand, runStartStorage]
    split_ifs
    · have h2 := h1.trans (fsFormat_grows false _)
      split
      · rename_i h3; rw [h3] at h2
        refine h2.trans (Grows.trans ?_ (enterStore_grows _))
        exact .same rfl rfl rfl rfl
      · rename_i h3; rw [h3] at h2; exact h2
    · refine h1.trans (Grows.trans ?_ (enterStore_grows _))
      exact .same rfl rfl rfl rfl
  | startLink =>
    exact (stopIfAcquiring_grows s).trans
      (Grows.trans (t := plBegin (setMode .stream (stopIfAcquiring s))) (.same rfl rfl rfl rfl)
        (.emit _ _))
  | readStorage =>
    simp only [runCommand, runReadStorage]
    have h1 := hst.trans (fsReopen_grows (seqOperand v1) _)
    split
    · rename_i h2; rw [h2] at h1
      exact (h1.trans (streamFile_grows _ _ _)).trans (fsClose_grows _)
    · rename_i h2; rw [h2] at h1; exact h1
  | getSampleCount =>
    exact Grows.trans (t := (drawSampleCount s).2) (.same rfl rfl rfl rfl) (.emit _ _)
  | getGitHash => exact .emit _ _
  | getRtc =>
    simp only [runCommand, runGetRtc]
    have h1 := hst.trans (fsReopen_grows (seqOperand v1) _)
    split
    · rename_i h2; rw [h2] at h1
      unfold fsRtcGet
      split_ifs <;> exact h1.trans (.emit _ _)
    · rename_i h2; rw [h2] at h1; exact h1.trans (.emit _ _)
  | setRtc => exact .emit _ _
  | getModePortable => exact .refl s

theorem answer_grows (a : Status) (s : State) : Grows s (answer a s) := .same rfl rfl rfl rfl

theorem serve_grows {body : State → Status × State} {s : State} (hb : Grows s (body s).2) :
    Grows s (serve body s) := by
  unfold serve; split_ifs
  · exact answer_grows _ _
  · exact hb.trans (answer_grows _ _)

theorem serveMode_grows {body : State → Status × State} {s : State} (hb : Grows s (body s).2) :
    Grows s (serveMode body s) := by
  unfold serveMode; split_ifs
  · exact answer_grows _ _
  · exact (hb.trans (showMode_grows _ _)).trans (answer_grows _ _)

theorem perform_grows {c : Command} {body : State → CmdResult × State} {s : State}
    (hb : Grows s (body s).2) : Grows s (perform c body s) := by
  unfold perform; split_ifs
  · exact answer_grows _ _
  · have k := hb.trans (showMode_grows s.ma.mode _)
    unfold finishCommand
    split_ifs
    · exact k.trans (answer_grows _ _)
    · split
      · exact k.trans ((Grows.emit _ _).trans (.same rfl rfl rfl rfl))
      · exact k.trans (answer_grows _ _)

theorem cpStep_grows (s : State) : Grows s (cpStep s) := by
  unfold cpStep
  split_ifs
  · exact answer_grows _ _
  · split
    · exact answer_grows _ _
    · simp only
      split
      · exact .same rfl rfl rfl rfl
      · rename_i m rest _ _ _ _ _ _
        refine Grows.trans ?_ (perform_grows (runCommand_grows _ _ _ _))
        exact .same rfl rfl rfl rfl

theorem btnPress_grows (s : State) : Grows s (btnPress s) := by
  unfold btnPress
  split
  · have : Grows s (enterStore (setMode .portStore s)) := by
      refine Grows.trans ?_ (enterStore_grows _); exact .same rfl rfl rfl rfl
    unfold blinkCurrent
    split_ifs
    · exact this.trans (.emit _ _)
    · exact this.trans (blinkNext_grows _)
  · exact stopSampling_grows s
  all_goals exact .refl s

theorem btnHold_grows (s : State) : Grows s (btnHold s) := by
  have h2 := (stopSampling_grows s).trans (fsFormat_grows true _)
  unfold btnHold
  split
  · rename_i h3
    rw [h3] at h2
    refine h2.trans (Grows.trans ?_ (.emit _ _))
    exact .same rfl rfl rfl rfl
  · rename_i h3; rw [h3] at h2; exact h2

end Sys2Proof.Machine
end

