-- ==== Sys2Proof/Laws/Commands.lean ====
section
/-! SUPPORT. What a command does to the mode, the acquisition bit and the receive queue, and with
which result it ends (spec/43_mode_arbiter.md R241, R243, R264). -/

namespace Sys2Proof.Machine

/-- A block that is not halted, in this mode, acquiring or not, with this receive queue. -/
def Key (m : Mode) (a : Bool) (q : List Bytes) (t : State) : Prop :=
  t.ma.mode = m ∧ t.pl.acq = a ∧ t.ma.rxQ = q ∧ t.ma.halted = false

variable {m : Mode} {a : Bool} {q : List Bytes}

theorem FsStep.key {s t : State} (h : FsStep s t) (k : Key m a q s) : Key m a q t := by
  unfold Key at *; rw [h.ma, h.pl]; exact k

theorem MediumStep.key {s t : State} (h : MediumStep s t) (k : Key m a q s) : Key m a q t :=
  FsStep.key h.toFs k

theorem stop_key {s : State} (hh : s.ma.halted = false) :
    Key (stoppedMode s.ma.mode) false s.ma.rxQ (stopSampling s) := by
  unfold Key; rw [(stopSampling_step s).1]; exact ⟨rfl, rfl, rfl, hh⟩

theorem recordError_key (e : Err) {s : State} (k : Key m a q s) : Key m a q (recordError e s) := by
  unfold recordError; split <;> exact k

theorem enterStore_key {s : State} (k : Key m a q s) : Key m true q (enterStore s) := by
  obtain ⟨t, ht, he, -⟩ := enterStore_step s
  rw [he]
  have e := ht.eq
  have h1 : t.ma = { s.ma with lastError := t.ma.lastError } := by rw [e]
  unfold Key at *
  refine ⟨?_, rfl, ?_, ?_⟩
  · show t.ma.mode = m; rw [h1]; exact k.1
  · show t.ma.rxQ = q; rw [h1]; exact k.2.2.1
  · show t.ma.halted = false; rw [h1]; exact k.2.2.2

theorem streamFile_key (fuel k : Nat) {s : State} (h : Key m a q s) :
    Key m a q (streamFile fuel k s) := by
  induction fuel generalizing k s with
  | zero => exact h
  | succ fuel ih =>
    have h1 := FsStep.key (fsRead_step s.params.blockBytes s) h
    unfold streamFile
    split
    · rename_i d s1 h2
      rw [h2] at h1
      split_ifs
      · exact h1
      · exact ih _ h1
    · rename_i h2; rw [h2] at h1; exact h1

theorem rbSelftest_key {s : State} (hp : s.params.Valid) (k : Key m a q s) :
    Key m a q (rbSelftest s).2 := by
  have h := (rbSelftest_step s hp.1).2
  have e := h.eq
  unfold Key at *
  have h1 : (rbSelftest s).2.ma = s.ma := by rw [e]; rfl
  have h2 : (rbSelftest s).2.pl = s.pl := by rw [e]; rfl
  rw [h1, h2]; exact k

/-- The receive queue that a command leaves, before the flush of its acknowledgment. -/
def queueAfter (c : Command) (s : State) : List Bytes :=
  match c with
  | .init => if s.ma.initialized then [] else s.ma.rxQ
  | .reset => []
  | _ => s.ma.rxQ

/-- The mode and the acquisition bit that a command leaves (43_mode_arbiter.md R264). -/
def commandTarget (c : Command) (s : State) : Mode × Bool :=
  match c with
  | .init => if s.ma.initialized then (.usbIdle, false) else (s.ma.mode, s.pl.acq)
  | .reset => (.usbIdle, false)
  | .startLink => (.stream, true)
  | .startStorage => (.usbStore, true)
  | .readStorage | .getRtc | .selfTest => (stoppedMode s.ma.mode, false)
  | _ => (s.ma.mode, s.pl.acq)

theorem stopIf_key {s : State} (hh : s.ma.halted = false) :
    ∃ m a, Key m a s.ma.rxQ (stopIfAcquiring s) := by
  unfold stopIfAcquiring; split_ifs
  · exact ⟨_, _, stop_key hh⟩
  · exact ⟨_, _, rfl, rfl, rfl, hh⟩

/-- A command halts the block, or leaves this mode, acquisition bit and queue and ends with a result
of its kind. -/
theorem runCommand_key (c : Command) (v1 v2 : U32) {s : State} (hp : s.params.Valid)
    (hh : s.ma.halted = false) :
    ((runCommand c v1 v2 s).2.ma.halted = true) ∨
    (Key (commandTarget c s).1 (commandTarget c s).2 (queueAfter c s) (runCommand c v1 v2 s).2 ∧
     (∀ r, (runCommand c v1 v2 s).1 = .ack r → r.toNat ≤ 127) ∧
     (c ∈ [Command.readStorage, .readEeprom, .getSampleCount, .getGitHash, .getRtc] →
       (runCommand c v1 v2 s).1 = .noAck) ∧
     (c ∉ [Command.reset, .readStorage, .readEeprom, .getSampleCount, .getGitHash, .getRtc] →
       ∃ r, (runCommand c v1 v2 s).1 = .ack r)) := by
  have hst := stop_key hh
  have hack : ∀ (c : Command) (s' : State) (_ : s'.params = s.params) r,
      ackType c s' = .ack r → r.toNat ≤ 127 := by
    intro c s' h r hr
    unfold ackType at hr
    injection hr with hr
    rw [← hr, h]
    exact cmdCode_le hp c
  have hself : Key s.ma.mode s.pl.acq s.ma.rxQ s := ⟨rfl, rfl, rfl, hh⟩
  cases c with
  | init =>
    right
    simp only [runCommand, runInit, commandTarget, queueAfter]
    split_ifs with h1
    · refine ⟨⟨rfl, rfl, rfl, rfl⟩, ?_, by simp, fun _ => ⟨_, rfl⟩⟩
      intro r hr; injection hr with hr; rw [← hr]; exact errCode_le hp _
    · refine ⟨⟨rfl, rfl, rfl, hh⟩, ?_, by simp, fun _ => ⟨_, rfl⟩⟩
      intro r hr; injection hr with hr; rw [← hr]; exact errCode_le hp _
  | reset =>
    right
    simp only [runCommand, runReset, commandTarget, queueAfter]
    have h1 : (drawResetAck s).2.params = s.params := rfl
    split
    · rename_i h2; rw [h2] at h1
      exact ⟨⟨rfl, rfl, rfl, rfl⟩, hack _ _ h1, by simp, by simp⟩
    · exact ⟨⟨rfl, rfl, rfl, rfl⟩, by simp, by simp, by simp⟩
  | selfTest =>
    simp only [runCommand, runSelfTest, commandTarget, queueAfter]
    have h1 : Key (stoppedMode s.ma.mode) false s.ma.rxQ (driverSelfTest (stopSampling s)).2 := hst
    have p1 : (driverSelfTest (stopSampling s)).2.params = s.params := by
      show (stopSampling s).params = _; rw [(stopSampling_step s).1]
    have t1 : (driverSelfTest (stopSampling s)).1.toNat ≤ 127 := by
      show (BitVec.zeroExtend 8 _).toNat ≤ 127
      rw [BitVec.zeroExtend, BitVec.toNat_setWidth]
      have := ((stopSampling s).env.driverTest.next Config.freeDriverTest).1.isLt
      omega
    rcases h2 : driverSelfTest (stopSampling s) with ⟨t, s1⟩
    rw [h2] at h1 p1 t1
    replace h1 : Key (stoppedMode s.ma.mode) false s.ma.rxQ s1 := h1
    replace p1 : s1.params = s.params := p1
    replace t1 : t.toNat ≤ 127 := t1
    simp only
    have h3 := rbSelftest_key (by rw [p1]; exact hp) h1
    split_ifs with c1 c2
    · refine .inr ⟨by simpa using h1, ?_, by simp, fun _ => ⟨_, rfl⟩⟩
      intro r hr; injection hr with hr; rw [← hr]; exact t1
    · refine .inr ⟨by simpa using h3, ?_, by simp, fun _ => ⟨_, rfl⟩⟩
      intro r hr; injection hr with hr; rw [← hr]
      have : (rbSelftest s1).1 = 0 ∨ (rbSelftest s1).1 = s1.params.selftestMismatch := by
        unfold rbSelftest; simp only; split_ifs
        · exact .inl rfl
        · exact .inr rfl
      rcases this with h | h <;> rw [h]
      · simp
      · replace p1 : s1.params = s.params := p1
        rw [p1]; exact mismatch_le hp
    · have hp2 : (rbSelftest s1).2.params = s.params := by
        rw [(rbSelftest_step s1 (by rw [p1]; exact hp.1)).2.params]
        exact p1
      obtain ⟨u, r, hu, hr, he⟩ := fsSelftest_step (rbSelftest s1).2 (by rw [hp2]; exact hp)
      have hk := FsStep.key hu h3
      rcases he with he | he
      · rw [he]
        simp only [hk.2.2.2]
        refine .inr ⟨by simpa using hk, ?_, by simp, fun _ => ⟨_, rfl⟩⟩
        intro r' hr'; injection hr' with hr'; rw [← hr']; exact hr
      · rw [he]; left; simp [halt]
  | readEeprom =>
    exact .inr ⟨hself, by simp [runCommand, runReadEeprom, eepromRead], fun _ => rfl, by simp⟩
  | gainSet => exact .inr ⟨hself, hack _ s rfl, by simp, fun _ => ⟨_, rfl⟩⟩
  | startStorage =>
    obtain ⟨m, a, h1⟩ := stopIf_key hh
    have p1 : (stopIfAcquiring s).params = s.params := by
      unfold stopIfAcquiring; split_ifs
      · rw [(stopSampling_step s).1]
      · rfl
    simp only [runCommand, runStartStorage, commandTarget, queueAfter]
    split_ifs
    · obtain ⟨t, ht, -, he⟩ := fsFormat_step false (stopIfAcquiring s)
      have hk := FsStep.key ht h1
      rcases he with he | he
      · rw [he]
        have : Key .usbStore a s.ma.rxQ (setMode .usbStore t) := ⟨rfl, hk.2⟩
        exact .inr ⟨by simpa using enterStore_key this, hack _ _ (ht.params.trans p1), by simp,
          fun _ => ⟨_, rfl⟩⟩
      · rw [he]; left; rfl
    · have : Key .usbStore a s.ma.rxQ (setMode .usbStore (stopIfAcquiring s)) := ⟨rfl, h1.2⟩
      exact .inr ⟨by simpa using enterStore_key this, hack _ _ p1, by simp,
        fun _ => ⟨_, rfl⟩⟩
  | startLink =>
    obtain ⟨m, a, h1⟩ := stopIf_key hh
    have p1 : (stopIfAcquiring s).params = s.params := by
      unfold stopIfAcquiring; split_ifs
      · rw [(stopSampling_step s).1]
      · rfl
    exact .inr ⟨⟨rfl, rfl, h1.2.2.1, h1.2.2.2⟩, hack _ _ p1, by simp, fun _ => ⟨_, rfl⟩⟩
  | readStorage =>
    right
    simp only [runCommand, runReadStorage, commandTarget, queueAfter]
    have h1 := FsStep.key (fsReopen_step (seqOperand v1) _) hst
    split
    · rename_i h2; rw [h2] at h1
      exact ⟨FsStep.key (fsClose_step _).1 (streamFile_key _ _ h1), by simp, by simp, by simp⟩
    · rename_i h2; rw [h2] at h1; exact ⟨by simpa using h1, by simp, by simp, by simp⟩
  | getSampleCount =>
    exact .inr ⟨hself, by simp [runCommand, runGetSampleCount, drawSampleCount],
      fun _ => rfl, by simp⟩
  | getGitHash => exact .inr ⟨hself, by simp [runCommand, runGetGitHash], fun _ => rfl, by simp⟩
  | getRtc =>
    right
    simp only [runCommand, runGetRtc, commandTarget, queueAfter]
    have h1 := FsStep.key (fsReopen_step (seqOperand v1) _) hst
    split
    · rename_i h2; rw [h2] at h1
      unfold fsRtcGet
      split_ifs <;> exact ⟨h1, by simp, by simp, by simp⟩
    · rename_i h2; rw [h2] at h1; exact ⟨h1, by simp, by simp, by simp⟩
  | setRtc => exact .inr ⟨hself, hack _ s rfl, by simp, fun _ => ⟨_, rfl⟩⟩
  | getModePortable =>
    refine .inr ⟨hself, ?_, by simp, fun _ => ⟨_, rfl⟩⟩
    intro r hr
    simp only [runCommand, runGetModePortable] at hr
    injection hr with hr
    rw [← hr]
    split <;> simp

/-- The mode colour touches neither the arbiter nor the pipeline. -/
theorem showMode_frame (m : Mode) (s : State) :
    (showMode m s).ma = s.ma ∧ (showMode m s).pl = s.pl := by
  unfold showMode
  split_ifs
  · exact ⟨rfl, rfl⟩
  · split <;>
    · rename_i h
      have := congrArg Prod.snd h
      simp only [drawColor] at this
      subst this
      exact ⟨rfl, rfl⟩

theorem perform_frame {c : Command} {body : State → CmdResult × State} {s : State}
    (hh : s.ma.halted = false) :
    (perform c body s).ma.mode = (body s).2.ma.mode ∧ (perform c body s).pl = (body s).2.pl ∧
      (perform c body s).ma.halted = (body s).2.ma.halted := by
  obtain ⟨h1, h2⟩ := showMode_frame s.ma.mode (body s).2
  unfold perform
  simp only [hh]
  unfold finishCommand
  simp only [Bool.false_eq_true, if_false]
  have h3 := congrArg Arbiter.mode h1
  have h4 := congrArg Arbiter.halted h1
  split_ifs
  · exact ⟨h3, h2, h4⟩
  · split <;> exact ⟨h3, h2, h4⟩

end Sys2Proof.Machine
end

