-- ==== Sys2Proof/Laws/Commute.lean ====
section
/-! SUPPORT. The filesystem neither reads nor writes the ring registers, the mode arbiter, the
sample pipeline and the returned status: its operations commute with setting them. -/

namespace Sys2Proof.Machine

/-- The state with other ring registers, mode arbiter, sample pipeline and status. -/
def State.withCore (g : Ring) (a : Arbiter) (p : Pipeline) (x : Status) (s : State) : State :=
  { s with ring := g, ma := a, pl := p, status := x }

theorem endOutstanding_withCore (g : Ring) (a : Arbiter) (p : Pipeline) (x : Status) (s : State) :
    endOutstanding (s.withCore g a p x) = (endOutstanding s).withCore g a p x := by
  cases hb : s.med.busy
  · rw [endOutstanding_idle hb, endOutstanding_idle (s := s.withCore g a p x) hb]
  · rw [endOutstanding_busy hb, endOutstanding_busy (s := s.withCore g a p x) hb]
    rfl

theorem blkRead_withCore (g : Ring) (a : Arbiter) (p : Pipeline) (x : Status) (i : Nat) (s : State) :
    blkRead i (s.withCore g a p x) = ((blkRead i s).1, (blkRead i s).2.withCore g a p x) := by
  rw [blkRead_endOutstanding, endOutstanding_withCore, blkRead_endOutstanding i s]
  have hb := endOutstanding_notBusy s
  generalize endOutstanding s = u at hb
  by_cases hi : i < u.params.mediumBlocks
  · cases hok : u.env.mediumOk.peek Config.freeMediumOk 0
    · rw [blkRead_err hb hi hok, blkRead_err (s := u.withCore g a p x) hb hi hok]
      rfl
    · rw [blkRead_ok hb hi hok, blkRead_ok (s := u.withCore g a p x) hb hi hok]
      rfl
  · rw [blkRead_outside hb (by omega), blkRead_outside (s := u.withCore g a p x) hb (by
      change u.params.mediumBlocks ≤ i
      omega)]
    rfl

theorem blkWrite_withCore (g : Ring) (a : Arbiter) (p : Pipeline) (x : Status) (i : Nat) (d : Bytes)
    (s : State) :
    blkWrite i d (s.withCore g a p x) = ((blkWrite i d s).1, (blkWrite i d s).2.withCore g a p x) := by
  rw [blkWrite_endOutstanding, endOutstanding_withCore, blkWrite_endOutstanding i d s]
  have hb := endOutstanding_notBusy s
  generalize endOutstanding s = u at hb
  by_cases hi : i < u.params.mediumBlocks
  · cases hok : u.env.mediumOk.peek Config.freeMediumOk 0
    · rw [blkWrite_err hb hi hok, blkWrite_err (s := u.withCore g a p x) hb hi hok]
      rfl
    · rw [blkWrite_ok hb hi hok, blkWrite_ok (s := u.withCore g a p x) hb hi hok]
      rfl
  · rw [blkWrite_outside hb (by omega), blkWrite_outside (s := u.withCore g a p x) hb (by
      change u.params.mediumBlocks ≤ i
      omega)]
    rfl

theorem readSB_withCore (g : Ring) (a : Arbiter) (p : Pipeline) (x : Status) (s : State) :
    readSB (s.withCore g a p x) = ((readSB s).1, (readSB s).2.withCore g a p x) := by
  simp only [readSB]
  change (match blkRead s.params.sbBlock (s.withCore g a p x) with
    | (none, s1) => _
    | (some d, s1) => _) = _
  rw [blkRead_withCore]
  rcases blkRead s.params.sbBlock s with ⟨r, s1⟩
  cases r <;> rfl

theorem chainFrom_withCore (g : Ring) (a : Arbiter) (p : Pipeline) (x : Status) (iter : U32) (fuel b : Nat)
    (c : List (Nat × Fsb)) (s : State) :
    chainFrom iter fuel b c (s.withCore g a p x) =
      ((chainFrom iter fuel b c s).1, (chainFrom iter fuel b c s).2.withCore g a p x) := by
  induction fuel generalizing b c s with
  | zero => rfl
  | succ fuel ih =>
    simp only [chainFrom]
    change (if s.params.mediumBlocks ≤ b then _ else _) = _
    split
    · rfl
    · rw [blkRead_withCore]
      rcases blkRead b s with ⟨r, s1⟩
      cases r with
      | none => rfl
      | some d =>
        simp only
        split_ifs
        · rfl
        · rfl
        · rfl
        · exact ih _ _ _

theorem fsClose_withCore (g : Ring) (a : Arbiter) (p : Pipeline) (x : Status) (s : State) :
    fsClose (s.withCore g a p x) = ((fsClose s).1, (fsClose s).2.withCore g a p x) := by
  simp only [fsClose]
  change (if s.fs.isOpen = false then _ else _) = _
  split
  · rfl
  · change (if s.fs.dirty = false then _ else _) = _
    split
    · rfl
    · have h := blkWrite_withCore g a p x s.fs.start.toNat
        (metaFsb { s with fs := { s.fs with isOpen := false, dirty := false } })
        { s with fs := { s.fs with isOpen := false, dirty := false } }
      change (match blkWrite s.fs.start.toNat
          (metaFsb { s with fs := { s.fs with isOpen := false, dirty := false } })
          (State.withCore g a p x { s with fs := { s.fs with isOpen := false, dirty := false } }) with
        | (true, s2) => _
        | (false, s2) => _) = _
      rw [h]
      rcases blkWrite s.fs.start.toNat
        (metaFsb { s with fs := { s.fs with isOpen := false, dirty := false } })
        { s with fs := { s.fs with isOpen := false, dirty := false } } with ⟨r, s1⟩
      cases r <;> rfl

theorem openChain_withCore (g : Ring) (a : Arbiter) (p : Pipeline) (x : Status) (s : State) :
    openChain (s.withCore g a p x) = ((openChain s).1, (openChain s).2.withCore g a p x) := by
  simp only [openChain, fsClose_withCore]
  rcases fsClose s with ⟨r, s1⟩
  cases r with
  | err e => rfl
  | fault f => rfl
  | ok u =>
    simp only [readSB_withCore]
    rcases readSB s1 with ⟨sb, s2⟩
    cases sb with
    | none => rfl
    | some sb =>
      simp only
      split
      · rfl
      · simp only [chainWalk]
        change (match chainFrom sb.iter (s2.params.mediumBlocks + 1) s2.params.firstFileBlock []
            (s2.withCore g a p x) with
          | (none, s3) => _
          | (some c, s3) => _) = _
        rw [chainFrom_withCore]
        rcases chainFrom sb.iter (s2.params.mediumBlocks + 1) s2.params.firstFileBlock [] s2
          with ⟨c, s3⟩
        cases c <;> rfl

theorem linkPrevious_withCore (g : Ring) (a : Arbiter) (p : Pipeline) (x : Status)
    (c : List (Nat × Fsb)) (start : Nat) (s : State) :
    linkPrevious c start (s.withCore g a p x) =
      ((linkPrevious c start s).1, (linkPrevious c start s).2.withCore g a p x) := by
  unfold linkPrevious
  split
  · rfl
  · exact blkWrite_withCore g a p x _ _ s

theorem fsCreate_withCore (g : Ring) (a : Arbiter) (p : Pipeline) (x : Status) (s : State) :
    fsCreate (s.withCore g a p x) = ((fsCreate s).1, (fsCreate s).2.withCore g a p x) := by
  simp only [fsCreate, openChain_withCore]
  rcases openChain s with ⟨r, s1⟩
  cases r with
  | err e => rfl
  | fault f => rfl
  | ok y =>
    obtain ⟨iter, c⟩ := y
    simp only
    change (if s1.params.mediumBlocks ≤ (nextSlot s1.params c).1 then _ else _) = _
    split
    · rfl
    · simp only [rtcNow_eq]
      have h := blkWrite_withCore g a p x (nextSlot s1.params c).1
        (fsbBlock s1.params ⟨iter, (nextSlot s1.params c).2, 0, nextNone,
          (s1.env.rtc.peek Config.freeRtc 0).1, (s1.env.rtc.peek Config.freeRtc 0).2⟩)
        { s1 with env := { s1.env with rtc := s1.env.rtc.advance 1 } }
      change (match blkWrite (nextSlot s1.params c).1
        (fsbBlock s1.params ⟨iter, (nextSlot s1.params c).2, 0, nextNone,
          (s1.env.rtc.peek Config.freeRtc 0).1, (s1.env.rtc.peek Config.freeRtc 0).2⟩)
        (State.withCore g a p x { s1 with env := { s1.env with rtc := s1.env.rtc.advance 1 } }) with
        | (false, s3) => _
        | (true, s3) => _) = _
      rw [h]
      rcases blkWrite (nextSlot s1.params c).1
        (fsbBlock s1.params ⟨iter, (nextSlot s1.params c).2, 0, nextNone,
          (s1.env.rtc.peek Config.freeRtc 0).1, (s1.env.rtc.peek Config.freeRtc 0).2⟩)
        { s1 with env := { s1.env with rtc := s1.env.rtc.advance 1 } } with ⟨ok, s3⟩
      cases ok with
      | false => rfl
      | true =>
        simp only [linkPrevious_withCore]
        change (match ((linkPrevious c (nextSlot s1.params c).1 s3).1,
            State.withCore g a p x (linkPrevious c (nextSlot s1.params c).1 s3).2) with
          | (false, s4) => _
          | (true, s4) => _) = _
        rcases linkPrevious c (nextSlot s1.params c).1 s3 with ⟨ok, s4⟩
        cases ok <;> rfl

theorem fsReopen_withCore (g : Ring) (a : Arbiter) (p : Pipeline) (x : Status) (seq : U32) (s : State) :
    fsReopen seq (s.withCore g a p x) = ((fsReopen seq s).1, (fsReopen seq s).2.withCore g a p x) := by
  simp only [fsReopen, openChain_withCore]
  rcases openChain s with ⟨r, s1⟩
  cases r with
  | err e => rfl
  | fault f => rfl
  | ok y =>
    obtain ⟨iter, c⟩ := y
    simp only
    cases c.find? (fun e => e.2.seq == seq) <;> rfl

theorem nextCount_withCore (g : Ring) (a : Arbiter) (p : Pipeline) (x : Status) (s : State) :
    nextCount (s.withCore g a p x) = ((nextCount s).1, (nextCount s).2.withCore g a p x) := by
  simp only [nextCount, openChain_withCore]
  rcases openChain s with ⟨r, s1⟩
  cases r with
  | err e => cases e <;> rfl
  | fault f => rfl
  | ok y => rfl

end Sys2Proof.Machine
end

