-- ==== Sys2Proof/Laws/PerInstr.lean ====
section
/-! SUPPORT. The length of every encoded operation: the number of bytes its code announces is the
number of bytes its encoding has (spec/30_encoding.md R101, R114, R115, R118). -/

namespace Sys2Proof.Laws.EncodedLength

/-- The encoding of a well-formed operation has the length that its code, and its length operand where
it has one, announce. -/
def Statement (i : Instr) : Prop :=
  ∀ p : Params, p.Valid → i.wellFormed p = true →
    requestLength p (encode p i) = (encode p i).length

/-- A host message has its type byte and both values. -/
theorem message {p : Params} (hp : p.Valid) (c : Command) (v1 v2 : U32) :
    requestLength p (encodeMessage p c v1 v2) = (encodeMessage p c v1 v2).length := by
  simp only [requestLength, encodeMessage, isHostCode_cmdCode hp, Params.commandOf_cmdCode hp,
    if_true, List.length_cons, List.length_append, leBytes_length]
  omega

/-- A length operand below 65536 announces the data after it. -/
theorem announced {data : Bytes} (h : lengthFits16 data = true) :
    leNat (leBytes 2 data.length) = data.length := by
  have hlt : data.length < 65536 := by simpa [lengthFits16] using h
  rw [leNat_leBytes]
  omega

theorem cmdInit (v1 v2 : U32) : Statement (.cmdInit v1 v2) := fun _ hp _ => message hp _ v1 v2
theorem cmdReset (v1 v2 : U32) : Statement (.cmdReset v1 v2) := fun _ hp _ => message hp _ v1 v2
theorem cmdSelfTest (v1 v2 : U32) : Statement (.cmdSelfTest v1 v2) := fun _ hp _ => message hp _ v1 v2
theorem cmdReadEeprom (v1 v2 : U32) : Statement (.cmdReadEeprom v1 v2) := fun _ hp _ => message hp _ v1 v2
theorem cmdGainSet (v1 v2 : U32) : Statement (.cmdGainSet v1 v2) := fun _ hp _ => message hp _ v1 v2
theorem cmdStartStorage (v1 v2 : U32) : Statement (.cmdStartStorage v1 v2) := fun _ hp _ => message hp _ v1 v2
theorem cmdStartLink (v1 v2 : U32) : Statement (.cmdStartLink v1 v2) := fun _ hp _ => message hp _ v1 v2
theorem cmdReadStorage (v1 v2 : U32) : Statement (.cmdReadStorage v1 v2) := fun _ hp _ => message hp _ v1 v2
theorem cmdGetSampleCount (v1 v2 : U32) : Statement (.cmdGetSampleCount v1 v2) := fun _ hp _ => message hp _ v1 v2
theorem cmdGetGitHash (v1 v2 : U32) : Statement (.cmdGetGitHash v1 v2) := fun _ hp _ => message hp _ v1 v2
theorem cmdGetRtc (v1 v2 : U32) : Statement (.cmdGetRtc v1 v2) := fun _ hp _ => message hp _ v1 v2
theorem cmdSetRtc (v1 v2 : U32) : Statement (.cmdSetRtc v1 v2) := fun _ hp _ => message hp _ v1 v2
theorem cmdGetModePortable (v1 v2 : U32) : Statement (.cmdGetModePortable v1 v2) := fun _ hp _ => message hp _ v1 v2

theorem btnPress : Statement .btnPress := fun _ _ _ => rfl
theorem btnHold : Statement .btnHold := fun _ _ _ => rfl
theorem tick : Statement .tick := fun _ _ _ => rfl
theorem calDone : Statement .calDone := fun _ _ _ => rfl
theorem cpStep : Statement .cpStep := fun _ _ _ => rfl
theorem extReset : Statement .extReset := fun _ _ _ => rfl
theorem rbInit : Statement .rbInit := fun _ _ _ => rfl
theorem rbSelftest : Statement .rbSelftest := fun _ _ _ => rfl
theorem fsRtcGet : Statement .fsRtcGet := fun _ _ _ => rfl
theorem fsClose : Statement .fsClose := fun _ _ _ => rfl
theorem fsSizeGet : Statement .fsSizeGet := fun _ _ _ => rfl
theorem fsContinue : Statement .fsContinue := fun _ _ _ => rfl
theorem fsSelftest : Statement .fsSelftest := fun _ _ _ => rfl
theorem fsFlush : Statement .fsFlush := fun _ _ _ => rfl
theorem plBegin : Statement .plBegin := fun _ _ _ => rfl
theorem plStop : Statement .plStop := fun _ _ _ => rfl
theorem plDrainLink : Statement .plDrainLink := fun _ _ _ => rfl
theorem plDrainStorage : Statement .plDrainStorage := fun _ _ _ => rfl
theorem stopSampling : Statement .stopSampling := fun _ _ _ => rfl

theorem rbRead (len : U16) : Statement (.rbRead len) := fun _ _ _ => rfl
theorem fsRead (len : U16) : Statement (.fsRead len) := fun _ _ _ => rfl
theorem fsFormat (portable : Bool) : Statement (.fsFormat portable) := fun _ _ _ => rfl
theorem fsOpen (create : Bool) (seq : U32) : Statement (.fsOpen create seq) := fun _ _ _ => rfl
theorem fsSeek (pos : U32) : Statement (.fsSeek pos) := fun _ _ _ => rfl
theorem fsRtcSet (seconds subseconds : U32) : Statement (.fsRtcSet seconds subseconds) :=
  fun _ _ _ => rfl

theorem rbWrite (data : Bytes) : Statement (.rbWrite data) := fun _ _ hw => by
  simp [requestLength, encode, isHostCode, announced hw]
  omega

theorem fsWrite (data : Bytes) : Statement (.fsWrite data) := fun _ _ hw => by
  simp [requestLength, encode, isHostCode, announced hw]
  omega

theorem fsBeginWrite (data : Bytes) : Statement (.fsBeginWrite data) := fun p _ hw => by
  have h : data.length = p.blockBytes := by simpa [Instr.wellFormed] using hw
  simp [requestLength, encode, isHostCode, h]
  omega

end Sys2Proof.Laws.EncodedLength
end

