-- ==== Sys2Proof/Laws/Walk.lean ====
section
/-! SUPPORT. The chain that a walk or an opening answers is the one on the medium
(spec/41_log_filesystem.md R160, R161). -/

namespace Sys2Proof.Machine

theorem walkStops_congr {iter : U32} {s t : State} (hp : t.params = s.params)
    (hm : ∀ i, blockAt t i = blockAt s i) (prev : Option Fsb) (b : Nat) :
    walkStops iter t prev b = walkStops iter s prev b := by
  simp only [walkStops, hp, hm]

theorem chainFromBlock_congr {iter : U32} {s t : State} (hp : t.params = s.params)
    (hm : ∀ i, blockAt t i = blockAt s i) (prev : Option Fsb) (b : Nat) (c : List (Nat × Fsb)) :
    chainFromBlock iter t prev b c = chainFromBlock iter s prev b c := by
  induction c generalizing prev b with
  | nil => exact walkStops_congr hp hm prev b
  | cons x c ih => simp only [chainFromBlock, walkStops_congr hp hm, hm, ih]

theorem ReadStep.blockAt {s t : State} (h : ReadStep s t) (i : Nat) : blockAt t i = blockAt s i := by
  rw [h.eq]; rfl

theorem ReadStep.params {s t : State} (h : ReadStep s t) : t.params = s.params := by rw [h.eq]

theorem blkRead_some {i : Nat} {s t : State} {d : Bytes} (h : blkRead i s = (some d, t)) :
    d = blockAt t i := by
  rw [blkRead_endOutstanding] at h
  have hb := endOutstanding_notBusy s
  generalize endOutstanding s = u at h hb
  by_cases hi : i < u.params.mediumBlocks
  · cases hok : u.env.mediumOk.peek Config.freeMediumOk 0
    · rw [blkRead_err hb hi hok] at h; simp at h
    · rw [blkRead_ok hb hi hok] at h
      simp only [Prod.mk.injEq, Option.some.injEq] at h
      rw [← h.1, ← h.2]; rfl
  · rw [blkRead_outside hb (by omega)] at h; simp at h

/-- A walk that returns found the chain that is on the medium. -/
theorem chainFrom_onMedium (iter : U32) (fuel b : Nat) (c c' : List (Nat × Fsb)) (s t : State)
    (hf : s.params.mediumBlocks < fuel + b)
    (hr : chainFrom iter fuel b c s = (some c', t)) :
    ∃ r, c' = c ++ r ∧ chainFromBlock iter t (c.getLast?.map (·.2)) b r := by
  induction fuel generalizing b c s with
  | zero =>
    simp only [chainFrom, Prod.mk.injEq, Option.some.injEq] at hr
    refine ⟨[], by simp [hr.1], .inl ?_⟩
    rw [← hr.2]; omega
  | succ fuel ih =>
    rw [chainFrom] at hr
    split_ifs at hr with h2
    · simp only [Prod.mk.injEq, Option.some.injEq] at hr
      refine ⟨[], by simp [hr.1], .inl ?_⟩
      rw [← hr.2]; exact h2
    · have hstep := (blkRead_step b s).1
      have hbusy := (blkRead_step b s).2
      split at hr
      · simp at hr
      · rename_i d s1 he
        rw [he] at hstep hbusy
        have hp : s1.params = s.params := hstep.params
        have hd := blkRead_some he
        simp only at hr
        have hstop : walkStops iter s1 (c.getLast?.map (·.2)) b ↔
            ((decodeFsb d).iteration ≠ iter ∨
              (c.getLast?.any fun l => decide ((decodeFsb d).seq ≤ l.2.seq)) = true) := by
          simp only [walkStops, hp, ← hd]
          cases c.getLast? <;> simp [h2]
        split_ifs at hr with h3 h4 h5
        · simp only [Prod.mk.injEq, Option.some.injEq] at hr
          refine ⟨[], by simp [hr.1], ?_⟩
          rw [← hr.2]; exact hstop.2 (.inl h3)
        · simp only [Prod.mk.injEq, Option.some.injEq] at hr
          refine ⟨[], by simp [hr.1], ?_⟩
          rw [← hr.2]; exact hstop.2 (.inr h4)
        · simp only [Prod.mk.injEq, Option.some.injEq] at hr
          refine ⟨[(b, decodeFsb d)], hr.1.symm, ?_⟩
          rw [← hr.2]
          refine ⟨rfl, by rw [hd], fun h => (hstop.1 h).elim h3 h4, ?_⟩
          rw [if_pos h5]
        · have hrd := chainFrom_reads iter fuel (decodeFsb d).next.toNat (c ++ [(b, decodeFsb d)]) s1
            hbusy
          rw [hr] at hrd
          rw [not_or] at h5
          obtain ⟨r, h6, h7⟩ := ih (decodeFsb d).next.toNat (c ++ [(b, decodeFsb d)]) s1
            (by rw [hp]; omega) hr
          refine ⟨(b, decodeFsb d) :: r, by rw [h6]; simp, rfl, ?_, ?_, ?_⟩
          · rw [hrd.blockAt, ← hd]
          · rw [walkStops_congr hrd.params hrd.blockAt]
            exact fun h => (hstop.1 h).elim h3 h4
          · rw [if_neg (by rw [not_or]; exact h5)]
            simpa using h7

theorem chainWalk_onMedium {iter : U32} {s t : State} {c : List (Nat × Fsb)}
    (h : chainWalk iter s = (some c, t)) : chainOnMedium iter t c := by
  have hp : t.params = s.params := by
    have := (chainFrom_step iter (s.params.mediumBlocks + 1) s.params.firstFileBlock [] s).1.params
    rw [chainWalk] at h
    rwa [h] at this
  obtain ⟨r, h1, h2⟩ := chainFrom_onMedium iter _ _ _ _ _ _ (by omega) h
  rw [chainOnMedium, hp, h1]
  exact h2

/-- On a medium that answers every walk returns. -/
theorem chainFrom_returns (iter : U32) (fuel b : Nat) (c : List (Nat × Fsb)) (s : State)
    (hok : mediumAnswersOk (s.params.mediumBlocks - b) s) :
    ∃ c' t, chainFrom iter fuel b c s = (some c', t) := by
  induction fuel generalizing b c s with
  | zero => exact ⟨_, _, rfl⟩
  | succ fuel ih =>
    rw [chainFrom]
    split_ifs with h2
    · exact ⟨_, _, rfl⟩
    · rw [blkRead_endOutstanding]
      have hb := endOutstanding_notBusy s
      have hp := (endOutstanding_step s).params
      have he : (endOutstanding s).env.mediumOk = s.env.mediumOk := by
        cases h : s.med.busy
        · rw [endOutstanding_idle h]
        · rw [endOutstanding_busy h]; rfl
      have hi : b < (endOutstanding s).params.mediumBlocks := by rw [hp]; omega
      have h1 : (endOutstanding s).env.mediumOk.peek Config.freeMediumOk 0 = true := by
        rw [he]; exact hok 0 (by omega)
      rw [blkRead_ok hb hi h1]
      simp only
      split_ifs with h3 h4 h5
      · exact ⟨_, _, rfl⟩
      · exact ⟨_, _, rfl⟩
      · exact ⟨_, _, rfl⟩
      · rw [not_or] at h5
        refine ih _ _ _ ?_
        intro k hk
        simp only [hp] at hk
        have := hok (1 + k) (by omega)
        simpa [mediumTaken, he] using this

/-- What an opening answered is on the medium. -/
theorem openChain_onMedium {s u : State} {iter : U32} {c : List (Nat × Fsb)}
    (h : openChain s = (.ok (iter, c), u)) :
    superblockValid u.params (blockAt u u.params.sbBlock) = true ∧
    iter = superblockIter (blockAt u u.params.sbBlock) ∧ chainOnMedium iter u c := by
  unfold openChain at h
  split at h
  · simp at h
  · simp at h
  · rename_i s1 h1
    split at h
    · simp at h
    · rename_i sb s2 h2
      split_ifs at h with h3
      · simp at h
      split at h
      · simp at h
      · rename_i c' s3 h4
        simp only [Prod.mk.injEq, Res.ok.injEq] at h
        obtain ⟨⟨h5, h6⟩, h7⟩ := h
        have hrd : ReadStep s2 s3 := by
          have hb : s2.med.busy = false := by
            have := (readSB_step s1).2
            rwa [h2] at this
          have := chainFrom_reads sb.iter (s2.params.mediumBlocks + 1) s2.params.firstFileBlock [] s2
            hb
          rw [chainWalk] at h4
          rwa [h4] at this
        have hsb : sb.valid = superblockValid s2.params (blockAt s2 s2.params.sbBlock) ∧
            sb.iter = superblockIter (blockAt s2 s2.params.sbBlock) := by
          unfold readSB at h2
          have hp := (blkRead_step s1.params.sbBlock s1).1.params
          split at h2
          · simp at h2
          · rename_i d s4 h8
            have hd := blkRead_some h8
            rw [h8] at hp
            simp only [Prod.mk.injEq, Option.some.injEq] at h2
            obtain ⟨h9, h10⟩ := h2
            subst h10
            rw [← h9, hp, ← hd]
            exact ⟨rfl, rfl⟩
        subst h7 h6 h5
        refine ⟨?_, ?_, chainWalk_onMedium h4⟩
        · rw [hrd.params, hrd.blockAt, ← hsb.1]; simpa using h3
        · rw [hrd.params, hrd.blockAt, ← hsb.2]

end Sys2Proof.Machine
end

