-- ==== Sys2Proof/Laws/Stop.lean ====
section
/-! SUPPORT. The stop of the mode arbiter against the close and the opening of the filesystem
(spec/43_mode_arbiter.md R245, R246), and which draws it takes. -/

namespace Sys2Proof.Machine

theorem nextSlot_eq_nextFile (p : Params) (c : List (Nat × Fsb)) : nextSlot p c = nextFile p c := by
  unfold nextSlot nextFile blocksOf
  cases c.getLast? <;> rfl

/-- `NextSeq()` of a state with no open file is the count that its opening gives. -/
theorem nextSeq_eq_nextCount {s : State} (h : s.fs.isOpen = false) : nextSeq s = nextCount s := by
  unfold nextSeq nextCount openChain
  rw [fsClose_closed h]
  simp only
  rcases readSB s with ⟨r, s1⟩
  cases r with
  | none => simp only [drawSeq_eq]
  | some sb =>
    simp only
    by_cases hv : sb.valid = false
    · simp only [if_pos hv]
    · simp only [if_neg hv]
      rcases chainWalk sb.iter s1 with ⟨r, s2⟩
      cases r with
      | none => simp only [drawSeq_eq]
      | some c => simp only [nextSlot_eq_nextFile]

/-! ### The draws of a stop -/

/-- The environment after a piece of a step that draws only the medium's answers, drawn blocks and a
drawn count. -/
def StopDraws (s t : State) : Prop :=
  t.env = { s.env with mediumOk := t.env.mediumOk, block := t.env.block, seq := t.env.seq }

theorem StopDraws.refl (s : State) : StopDraws s s := rfl

theorem StopDraws.trans {s t u : State} (h : StopDraws s t) (k : StopDraws t u) : StopDraws s u := by
  unfold StopDraws at *
  rw [k, h]

theorem endOutstanding_draws (s : State) : StopDraws s (endOutstanding s) := by
  rw [(endOutstanding_eq s).1]; rfl

theorem blkRead_draws (i : Nat) (s : State) : StopDraws s (blkRead i s).2 := by
  rw [blkRead_endOutstanding]
  refine (endOutstanding_draws s).trans ?_
  have hb := endOutstanding_notBusy s
  generalize endOutstanding s = u at hb
  by_cases hi : i < u.params.mediumBlocks
  · cases hok : u.env.mediumOk.peek Config.freeMediumOk 0
    · rw [blkRead_err hb hi hok]; rfl
    · rw [blkRead_ok hb hi hok]; rfl
  · rw [blkRead_outside hb (by omega)]; rfl

theorem blkWrite_draws (i : Nat) (d : Bytes) (s : State) : StopDraws s (blkWrite i d s).2 := by
  rw [blkWrite_endOutstanding]
  refine (endOutstanding_draws s).trans ?_
  have hb := endOutstanding_notBusy s
  generalize endOutstanding s = u at hb
  by_cases hi : i < u.params.mediumBlocks
  · cases hok : u.env.mediumOk.peek Config.freeMediumOk 0
    · rw [blkWrite_err hb hi hok]; rfl
    · rw [blkWrite_ok hb hi hok]; rfl
  · rw [blkWrite_outside hb (by omega)]; rfl

theorem fsClose_draws (s : State) : StopDraws s (fsClose s).2 := by
  unfold fsClose
  split
  · exact .refl s
  · simp only
    split
    · exact .refl s
    · have h := blkWrite_draws s.fs.start.toNat
        (metaFsb { s with fs := { s.fs with isOpen := false, dirty := false } })
        { s with fs := { s.fs with isOpen := false, dirty := false } }
      split <;>
      · rename_i h2
        rw [h2] at h
        exact h

theorem readSB_draws (s : State) : StopDraws s (readSB s).2 := by
  have h := blkRead_draws s.params.sbBlock s
  unfold readSB
  split <;> (rename_i h2; rw [h2] at h; exact h)

theorem chainFrom_draws (iter : U32) (fuel b : Nat) (c : List (Nat × Fsb)) (s : State) :
    StopDraws s (chainFrom iter fuel b c s).2 := by
  induction fuel generalizing b c s with
  | zero => exact .refl s
  | succ fuel ih =>
    unfold chainFrom
    split
    · exact .refl s
    · have h := blkRead_draws b s
      split
      · rename_i h2
        rw [h2] at h
        exact h
      · rename_i d s1 h2
        rw [h2] at h
        simp only
        split_ifs
        · exact h
        · exact h
        · exact h
        · exact h.trans (ih _ _ _)

theorem nextSeq_draws (s : State) : StopDraws s (nextSeq s).2 := by
  have h := readSB_draws s
  unfold nextSeq
  rcases hr : readSB s with ⟨r, s1⟩
  rw [hr] at h
  cases r with
  | none => exact h.trans rfl
  | some sb =>
    simp only
    split
    · exact h
    · have k := chainFrom_draws sb.iter (s1.params.mediumBlocks + 1) s1.params.firstFileBlock [] s1
      unfold chainWalk
      rcases hc : chainFrom sb.iter (s1.params.mediumBlocks + 1) s1.params.firstFileBlock [] s1
        with ⟨c, s2⟩
      rw [hc] at k
      cases c with
      | none => exact h.trans (StopDraws.trans k rfl)
      | some c => exact h.trans k

theorem closeAndRecord_draws (s : State) : StopDraws s (closeAndRecord s) := by
  have h := fsClose_draws s
  unfold closeAndRecord
  split
  · rename_i h2
    rw [h2] at h
    refine h.trans ?_
    unfold recordError
    split <;> rfl
  · rename_i h2
    rw [h2] at h
    exact h

/-- A stop leaves every draw but the medium's answers, the drawn blocks and the drawn count. -/
theorem stopSampling_draws (s : State) : StopDraws s (stopSampling s) := by
  have h : StopDraws s (closeAndRecord (plStop s)) := closeAndRecord_draws (plStop s)
  cases hm : s.ma.mode with
  | usbIdle => rw [stopSampling_idle (.inl hm)]; rfl
  | portIdle => rw [stopSampling_idle (.inr (.inl hm))]; rfl
  | stream => rw [stopSampling_idle (.inr (.inr hm))]; rfl
  | usbStore => rw [stopSampling_usbStore hm]; exact h
  | portStore =>
    rw [stopSampling_portStore hm]
    exact h.trans (nextSeq_draws _)

/-! ### The close inside a stop -/

/-- What a close does, by whether metadata is pending and whether its write succeeds. -/
theorem fsClose_eq (s : State) :
    let pending := s.fs.isOpen && s.fs.dirty
    let ok := decide (s.fs.start.toNat < s.params.mediumBlocks) &&
      s.env.mediumOk.peek Config.freeMediumOk 0
    (fsClose s).1 = (if pending && !ok then .err .sdWrite else .ok ()) ∧
    (fsClose s).2 = { s with
      fs := { s.fs with isOpen := false, dirty := s.fs.dirty && !s.fs.isOpen }
      med := (fsClose s).2.med
      env := (fsClose s).2.env
      out := s.out ++ if pending then [.blkWrite s.fs.start.toNat (metaFsb s) ok] else [] } ∧
    (pending = false → (fsClose s).2.med = s.med) ∧
    (pending = true → (fsClose s).2.med.busy = false) ∧
    (s.med.busy = false → sameOutsideBlock s.fs.start.toNat s (fsClose s).2) ∧
    (pending = true → s.fs.start.toNat < s.params.mediumBlocks →
      blockAt (fsClose s).2 s.fs.start.toNat = fit s.params.blockBytes
        (if ok then metaFsb s else (abandonedTape s).peek Config.freeBlock 0)) := by
  intro pending ok
  cases ho : s.fs.isOpen with
  | false =>
    have hp : pending = false := by simp [pending, ho]
    rw [fsClose_closed ho, hp]
    refine ⟨by simp, ?_, fun _ => rfl, by simp, fun _ _ _ => rfl, by simp⟩
    have hf : s.fs = { s.fs with isOpen := false, dirty := s.fs.dirty && !false } := by
      rw [Bool.not_false, Bool.and_true, ← ho]
    simp only [Bool.false_eq_true, if_false, List.append_nil]
    rw [← hf]
  | true =>
    cases hd : s.fs.dirty with
    | false =>
      have hp : pending = false := by simp [pending, hd]
      have hc : fsClose s = (.ok (), { s with fs := { s.fs with isOpen := false } }) := by
        simp [fsClose, ho, hd]
      rw [hc, hp]
      refine ⟨by simp, by simp [← hd], fun _ => rfl, by simp, fun _ _ _ => rfl, by simp⟩
    | true =>
      have hp : pending = true := by simp [pending, ho, hd]
      let s0 : State := { s with fs := { s.fs with isOpen := false, dirty := false } }
      have hm0 : metaFsb s0 = metaFsb s := rfl
      have hc : fsClose s = (match blkWrite s.fs.start.toNat (metaFsb s) (endOutstanding s0) with
          | (true, s2) => (.ok (), s2)
          | (false, s2) => (.err .sdWrite, s2)) := by
        rw [← blkWrite_endOutstanding]
        simp only [fsClose, ho, hd]
        rfl
      have hz := endOutstanding_notBusy s0
      have hi0 : s.med.busy = false → endOutstanding s0 = s0 := fun h => endOutstanding_idle h
      have ha : (endOutstanding s0).env.block = abandonedTape s := by rw [(endOutstanding_eq s0).1]; rfl
      have he : (endOutstanding s0).env.mediumOk = s.env.mediumOk := by rw [(endOutstanding_eq s0).1]
      obtain ⟨m, e, hw⟩ : ∃ m e, endOutstanding s0 = { s0 with med := m, env := e } :=
        ⟨_, _, by rw [(endOutstanding_eq s0).1]⟩
      rw [hw] at hc hz hi0 ha he
      clear hw
      rw [hp]
      by_cases hlt : s.fs.start.toNat < s.params.mediumBlocks
      · cases hok : s.env.mediumOk.peek Config.freeMediumOk 0
        · have h := blkWrite_err (s := { s0 with med := m, env := e }) (d := metaFsb s) hz hlt
            (by rw [he]; exact hok)
          rw [h] at hc
          have hk : ok = false := by simp [ok, hok]
          rw [hc, hk]
          refine ⟨rfl, by simp [s0], by simp, fun _ => hz, fun hb => ?_, fun _ _ => ?_⟩
          · rw [hi0 hb]
            exact sameOutsideBlock_setBlock s.fs.start.toNat (s0.env.block.peek Config.freeBlock 0) s0
          · rw [← ha]
            exact blockAt_setBlock_self s.fs.start.toNat (e.block.peek Config.freeBlock 0)
              { s0 with med := m, env := e }
        · have h := blkWrite_ok (s := { s0 with med := m, env := e }) (d := metaFsb s) hz hlt
            (by rw [he]; exact hok)
          rw [h] at hc
          have hk : ok = true := by simp [ok, hok, hlt]
          rw [hc, hk]
          refine ⟨rfl, by simp [s0], by simp, fun _ => hz, fun hb => ?_, fun _ _ => ?_⟩
          · rw [hi0 hb]
            exact sameOutsideBlock_setBlock s.fs.start.toNat (metaFsb s) s0
          · exact blockAt_setBlock_self s.fs.start.toNat (metaFsb s) { s0 with med := m, env := e }
      · have h := blkWrite_outside (s := { s0 with med := m, env := e }) (d := metaFsb s) hz
          (Nat.not_lt.1 hlt)
        rw [h] at hc
        have hk : ok = false := by simp [ok, hlt]
        rw [hc, hk]
        refine ⟨rfl, by simp [s0], by simp, fun _ => hz, fun hb => ?_, fun _ h => absurd h hlt⟩
        rw [hi0 hb]
        exact fun _ _ => rfl

/-- `NextSeq()` ends an abandoned write first. -/
theorem nextSeq_endOutstanding (s : State) : nextSeq s = nextSeq (endOutstanding s) := by
  have hp := (endOutstanding_step s).params
  have : readSB s = readSB (endOutstanding s) := by
    unfold readSB
    rw [blkRead_endOutstanding, hp]
  unfold nextSeq
  rw [this]

/-- `NextSeq()` with no write outstanding only reads. -/
theorem nextSeq_reads (s : State) (hb : s.med.busy = false) :
    (nextSeq s).2 = { s with env := (nextSeq s).2.env, out := (nextSeq s).2.out } ∧
    ∃ es : List Event, (nextSeq s).2.out = s.out ++ es ∧ ∀ e ∈ es, ∃ i a, e = .blkRead i a := by
  have h := readSB_reads s hb
  have h2 := (readSB_step s).2
  unfold nextSeq
  rcases hr : readSB s with ⟨r, s1⟩
  rw [hr] at h h2
  cases r with
  | none =>
    simp only [drawSeq_eq]
    refine ⟨?_, h.out⟩
    obtain ⟨m, o, rfl⟩ : ∃ m o, s1 = { s with env := { s.env with mediumOk := m }, out := o } :=
      ⟨_, _, h.eq⟩
    rfl
  | some sb =>
    simp only
    split
    · exact ⟨by rw [h.eq], h.out⟩
    · have k := chainFrom_reads sb.iter (s1.params.mediumBlocks + 1) s1.params.firstFileBlock [] s1 h2
      unfold chainWalk
      rcases hc : chainFrom sb.iter (s1.params.mediumBlocks + 1) s1.params.firstFileBlock [] s1
        with ⟨c, s2⟩
      rw [hc] at k
      have k := h.trans k
      cases c with
      | none =>
        simp only [drawSeq_eq]
        refine ⟨?_, k.out⟩
        obtain ⟨m, o, rfl⟩ : ∃ m o, s2 = { s with env := { s.env with mediumOk := m }, out := o } :=
          ⟨_, _, k.eq⟩
        rfl
      | some c => exact ⟨by rw [k.eq], k.out⟩

/-- The stop of a store mode, from what its close answers. -/
theorem closeAndRecord_eq (s : State) :
    closeAndRecord s = { (fsClose s).2 with ma := { s.ma with
      lastError := errorAfter s.ma.lastError ((fsClose s).1.status fun _ => .ok) } } := by
  have h1 := (fsClose_eq s).1
  have h2 : (fsClose s).2.ma = s.ma := by rw [(fsClose_eq s).2.1]
  unfold closeAndRecord
  rcases hc : fsClose s with ⟨r, v⟩
  rw [hc] at h1 h2
  simp only at h1 h2 ⊢
  rw [h1]
  split_ifs
  · simp [Res.status, errorAfter, recordError, recordable, h2]
  · simp [Res.status, errorAfter, ← h2]

end Sys2Proof.Machine
end

