-- ==== Sys2Proof/Tests/Slice0.lean ====
section
/-! SUPPORT. Tests: ill-formed operations, decoding of words written out from spec/30_encoding.md,
single steps of the vectors of spec/95_test_vectors.md, and for every statement a state and operands
that meet its hypotheses. -/

namespace Sys2Proof.Tests

set_option Elab.async false

open Sys2Proof.Machine

/-! ### Configurations of spec/95_test_vectors.md section 0 -/

/-- Configuration R8. -/
def p8 : Params := { Params.default with ringCapacity := 8, linkPayload := 4 }

/-- Configuration T, with a self-test file of one block. -/
def pT : Params :=
  { Params.default with
    ringCapacity := 64, blockBytes := 32, linkPayload := 4, mediumBlocks := 16,
    fsSelftestBytes := 32 }

/-- Scripted draws: the medium answers `Ok`, the link is ready, `RtcNow() = (1000, 5)`, no colour. -/
def envT : Env :=
  { Env.free with
    mediumOk := ⟨List.replicate 80 true, 0⟩
    stepAnswer := ⟨[.done], 0⟩
    block := ⟨[List.replicate 32 0xEE], 0⟩
    linkReady := ⟨[true], 0⟩
    rtc := ⟨[(1000, 5)], 0⟩
    driverTest := ⟨[0], 0⟩
    resetAck := ⟨[false], 0⟩
    color := ⟨[false], 0⟩ }

/-- After power-on under R8. -/
def s8 : State := { State.reset with params := p8 }

/-- A state of R8 with these ring registers. -/
def ring8 (w : Nat) (wp : Bool) (r : Nat) (rp : Bool) : State :=
  { s8 with ring := ⟨true, w, wp, r, rp⟩ }

/-- After power-on under T, with zero blocks 0 to 3 on the medium. -/
def sT : State :=
  { State.reset with
    params := pT, med := { State.reset.med with cells := cellsFrom 0 (zeros 128) }, env := envT }

/-- `sT` on a medium formatted with iteration `iter`. -/
def formatted (iter : U32) : State := setBlock 0 (superblock pT iter false) sT

/-- A medium of iteration 1 with one file of `len` bytes at block 1. -/
def oneFile (len : U32) : State :=
  setBlock 1 (fsbBlock pT ⟨1, 1, len, nextNone, 1000, 5⟩) (formatted 1)

/-- That file open, with these registers. -/
def opened (kind : FileKind) (len : Nat) (dirty : Bool) : State :=
  { oneFile (BitVec.ofNat 32 len) with
    fs := ⟨true, kind, 1, 1, 1, len, nextNone, 1000, 5, dirty, 0⟩ }

/-- In a mode, acquiring or not. -/
def inMode (m : Mode) (acq : Bool) (s : State) : State :=
  { s with ma := { s.ma with mode := m }, pl := { s.pl with acq := acq } }

/-- With a scripted sequence of medium answers. -/
def answers (l : List Bool) (s : State) : State :=
  { s with env := { s.env with mediumOk := ⟨l, 0⟩ } }

/-- With an outstanding pipelined write to block 2 and this answer to come. -/
def writing (a : StepAnswer) (s : State) : State :=
  { s with
    pl := { s.pl with sdState := .writeInProgress }
    med := { s.med with busy := true, target := 2, data := List.replicate 32 0x77 }
    env := { s.env with stepAnswer := ⟨[a], 0⟩ } }

/-- Halted by a failed format. -/
def haltedT : State := halt sT

/-- With these unread bytes in the ring, from offset 0 on. -/
def holding (d : Bytes) (s : State) : State :=
  { s with
    store := cellsFrom 0 d, ring := { s.ring with w := d.length % 64, wp := d.length == 64 } }

/-- One observation of the state that `exec` goes to. -/
def after {α : Type} (f : State → α) (i : Instr) (s : State) : Option α :=
  match exec i s with
  | .next t => some (f t)
  | .fault _ => none
  | .refused _ => none

/-- The byte run `a .. a + n - 1`. -/
def run (a n : Nat) : Bytes := (List.range' a n).map (fun i => BitVec.ofNat 8 i)

/-! ### Ill-formed operations, one for each check -/

theorem test_wf_value1_too_wide : (Instr.cmdGainSet 0x10000 0).wellFormed Params.default = false := by
  decide
theorem test_wf_value2_too_wide : (Instr.cmdSetRtc 0 0x10000).wellFormed Params.default = false := by
  decide
theorem test_wf_every_command_checked : ∀ c ∈ Command.all,
    (c.toInstr 0x10000 0).wellFormed Params.default = false ∧
    (c.toInstr 0 0x10000).wellFormed Params.default = false ∧
    (c.toInstr 0xFFFF 0xFFFF).wellFormed Params.default = true := by decide
theorem test_wf_ring_data_too_long :
    (Instr.rbWrite (zeros 65536)).wellFormed Params.default = false := by
  simp only [Instr.wellFormed, lengthFits16, zeros_length]
  decide
theorem test_wf_file_data_too_long :
    (Instr.fsWrite (zeros 65536)).wellFormed Params.default = false := by
  simp only [Instr.wellFormed, lengthFits16, zeros_length]
  decide
theorem test_wf_short_block : (Instr.fsBeginWrite (zeros 31)).wellFormed pT = false := by decide
theorem test_wf_long_block : (Instr.fsBeginWrite (zeros 33)).wellFormed pT = false := by decide
theorem test_wf_block : (Instr.fsBeginWrite (zeros 32)).wellFormed pT = true := by decide

/-! ### Decoding: words written out from 30_encoding.md R100, R104, R114, R115, R119 -/

theorem test_decode_commands :
    decode Params.default [0x00, 1, 2, 3, 4] = .ok (.cmdInit 0x0201 0x0403) ∧
    decode Params.default [0x01, 0, 0, 0, 0] = .ok (.cmdReset 0 0) ∧
    decode Params.default [0x02, 0, 0, 0, 0] = .ok (.cmdSelfTest 0 0) ∧
    decode Params.default [0x03, 0x10, 0, 4, 0] = .ok (.cmdReadEeprom 0x10 4) ∧
    decode Params.default [0x04, 3, 0, 0, 0] = .ok (.cmdGainSet 3 0) ∧
    decode Params.default [0x05, 0, 0, 0, 0] = .ok (.cmdStartStorage 0 0) ∧
    decode Params.default [0x06, 0, 0, 0, 0] = .ok (.cmdStartLink 0 0) ∧
    decode Params.default [0x07, 1, 0, 0, 0] = .ok (.cmdReadStorage 1 0) ∧
    decode Params.default [0x08, 0, 0, 0, 0] = .ok (.cmdGetSampleCount 0 0) ∧
    decode Params.default [0x09, 0, 0, 0, 0] = .ok (.cmdGetGitHash 0 0) ∧
    decode Params.default [0x0A, 7, 0, 0, 0] = .ok (.cmdGetRtc 7 0) ∧
    decode Params.default [0x0B, 1, 0, 2, 0] = .ok (.cmdSetRtc 1 2) ∧
    decode Params.default [0x0C, 0, 0, 0, 0] = .ok (.cmdGetModePortable 0 0) := by decide

theorem test_decode_wide_value :
    decode { Params.default with cmds := Params.default.cmds.set 7 ⟨0x07, true, false⟩ }
      [0x07, 4, 3, 2, 1, 0, 0] = .ok (.cmdReadStorage 0x01020304 0) := by decide

theorem test_decode_events :
    decode pT [0x80] = .ok .btnPress ∧ decode pT [0x81] = .ok .btnHold ∧
    decode pT [0x88, 3, 0, 0x11, 0x22, 0x33] = .ok (.rbWrite [0x11, 0x22, 0x33]) ∧
    decode pT [0x89] = .ok .tick ∧ decode pT [0x8A] = .ok .calDone ∧
    decode pT [0x8B] = .ok .cpStep ∧ decode pT [0x8F] = .ok .extReset := by decide

theorem test_decode_ring :
    decode pT [0x90] = .ok .rbInit ∧ decode pT [0x91, 2, 1] = .ok (.rbRead 0x0102) ∧
    decode pT [0x92] = .ok .rbSelftest := by decide

theorem test_decode_files :
    decode pT [0xA0, 1] = .ok (.fsFormat true) ∧
    decode pT [0xA1, 0, 4, 3, 2, 1] = .ok (.fsOpen false 0x01020304) ∧
    decode pT [0xA2, 0x28, 0, 0, 0] = .ok (.fsSeek 40) ∧
    decode pT [0xA3, 4, 0, 1, 2, 3, 4] = .ok (.fsWrite [1, 2, 3, 4]) ∧
    decode pT [0xA4, 0x20, 0] = .ok (.fsRead 32) ∧ decode pT [0xA5] = .ok .fsRtcGet ∧
    decode pT [0xA6, 4, 3, 2, 1, 8, 7, 6, 5] = .ok (.fsRtcSet 0x01020304 0x05060708) ∧
    decode pT [0xA7] = .ok .fsClose ∧ decode pT [0xA8] = .ok .fsSizeGet ∧
    decode pT (0xA9 :: run 0 32) = .ok (.fsBeginWrite (run 0 32)) ∧
    decode pT [0xAA] = .ok .fsContinue ∧ decode pT [0xAB] = .ok .fsSelftest ∧
    decode pT [0xAC] = .ok .fsFlush := by decide +kernel

theorem test_decode_pipeline_and_arbiter :
    decode pT [0xB0] = .ok .plBegin ∧ decode pT [0xB1] = .ok .plStop ∧
    decode pT [0xB2] = .ok .plDrainLink ∧ decode pT [0xB3] = .ok .plDrainStorage ∧
    decode pT [0xB4] = .ok .stopSampling := by decide

theorem test_decode_rejects :
    decode pT [] = .error .empty ∧ decode pT [0x0D, 0, 0, 0, 0] = .error .malformedMessage ∧
    decode pT [0x04, 3, 0, 0] = .error .malformedMessage ∧
    decode pT [0x04, 3, 0, 0, 0, 0] = .error .malformedMessage ∧
    decode pT [0xC0] = .error .reservedCode ∧ decode pT [0x82] = .error .reservedCode ∧
    decode pT [0x88, 5, 0, 1] = .error .wrongLength ∧ decode pT [0x89, 0] = .error .wrongLength ∧
    decode pT [0xA0, 2] = .error .flagNotBinary ∧
    decode pT [0xA1, 2, 0, 0, 0, 0] = .error .flagNotBinary := by decide

theorem test_table_words :
    decodeTableWord 8 0x04 = some (.cmdGainSet 0 0) ∧
    decodeTableWord 40 0x0000000304 = some (.cmdGainSet 3 0) ∧
    decodeTableWord 8 0x88 = some (.rbWrite []) ∧ decodeTableWord 8 0xB2 = some .plDrainLink ∧
    decodeTableWord 8 0xC0 = none := by decide

theorem test_fetch_event :
    step (State.reset.withFetchWord 8 0x8A) = exec .calDone State.reset := by rfl
theorem test_fetch_command :
    step (State.reset.withFetchWord 40 0x0000000304) = exec (.cmdGainSet 3 0) State.reset := by rfl

/-! ### Single steps: spec/95_test_vectors.md sections 2 to 8 -/

/-- V-RB-13. -/
theorem test_rb_write_wraps :
    after (fun t => (t.ring, used t, t.out, t.status)) (.rbWrite [0xC1, 0xC2, 0xC3, 0xC4])
      (ring8 6 true 6 true) =
    some (⟨true, 2, false, 6, true⟩, 4,
      [.memWrite 6 [0xC1, 0xC2], .memWrite 0 [0xC3, 0xC4]], .ok) := by decide
/-- V-RB-6. -/
theorem test_rb_write_overflow :
    after (fun t => (t.ring, t.out, t.status)) (.rbWrite [0]) (ring8 0 true 0 false) =
    some (⟨true, 0, true, 0, false⟩, [], .raised .overflow) := by decide
/-- V-RB-14. -/
theorem test_rb_read_to_end :
    after (fun t => (t.ring, used t, t.out, t.status)) (.rbRead 5)
      { ring8 3 true 3 false with store := cellsFrom 0 (run 0 8) } =
    some (⟨true, 3, true, 0, true⟩, 3, [.memRead 3 5 (run 3 5)], .okBytes (run 3 5)) := by decide
/-- V-RB-4. -/
theorem test_rb_read_underflow :
    after (fun t => (t.ring, t.out, t.status)) (.rbRead 2) (ring8 3 false 2 false) =
    some (⟨true, 3, false, 2, false⟩, [], .raised .underflow) := by decide
/-- V-RB-1. -/
theorem test_rb_init :
    after (fun t => (t.ring, t.out, t.status)) .rbInit (ring8 5 false 2 false) =
    some (⟨true, 0, false, 0, false⟩, [], .ok) := by decide
/-- V-RB-17: nine round trips, each of one or two writes and as many reads. -/
theorem test_rb_selftest :
    after (fun t => (t.ring, t.status, t.out.length)) .rbSelftest (ring8 3 true 3 false) =
    some (⟨true, 0, false, 0, false⟩, .code 0, 22) := by decide +kernel
/-- V-RB-19 and V-RB-18. -/
theorem test_used : used (ring8 4 true 4 false) = 8 ∧ used (ring8 2 true 6 false) = 4 := by decide
/-- V-RB-16. -/
theorem test_rb_unbound :
    after (fun t => (t.ring, t.out, t.fault)) (.rbWrite [0]) { s8 with ring := ⟨false, 0, false, 0, false⟩ }
    = some (⟨false, 0, false, 0, false⟩, [], some .rbUnbound) := by decide

/-- V-FS-3. -/
theorem test_fs_format_iteration_wraps :
    after (fun t => (blockAt t 0, t.fs.isOpen, t.status)) (.fsFormat false) (formatted 0xFFFFFFFF) =
    some (superblock pT 0 false, false, .ok) := by decide +kernel
/-- V-FS-4. -/
theorem test_fs_format_fails :
    after (fun t => (t.out, t.ma.halted, t.ma.lastError, t.status)) (.fsFormat false)
      (answers [false] sT) =
    some ([.blkRead 0 none], true, .formatFailure, .raised .formatFailure) := by decide +kernel
/-- The words of SB(1, 1) and FSB(1, 1, 0, NONE, 1000, 5) under T (95_test_vectors.md section 0). -/
theorem test_layouts :
    superblock pT 1 true =
      [0x42, 0x41, 0x54, 0x54, 0x4F, 0x52, 0x46, 0x53, 1, 0, 0, 0, 1, 0, 0, 0, 1] ++ zeros 15 ∧
    fsbBlock pT ⟨1, 1, 0, nextNone, 1000, 5⟩ =
      [1, 0, 0, 0, 1, 0, 0, 0, 0, 0, 0, 0, 0xFF, 0xFF, 0xFF, 0xFF, 0xE8, 3, 0, 0, 5, 0, 0, 0] ++
        zeros 8 := by decide
/-- V-FS-7. -/
theorem test_fs_create_links :
    after (fun t => (t.out.drop 2, t.fs.seq, t.fs.start, t.status)) (.fsOpen true 0) (oneFile 40) =
    some ([.blkWrite 4 (fsbBlock pT ⟨1, 2, 0, nextNone, 1000, 5⟩) true,
      .blkWrite 1 (fsbBlock pT ⟨1, 1, 40, 4, 1000, 5⟩) true], 2, 4, .okSeq 2) := by decide +kernel
/-- V-FS-8, on a chain of one file that ends at the medium's end. -/
theorem test_fs_create_full :
    after (fun t => (t.fs.isOpen, t.status)) (.fsOpen true 0) (oneFile 448) =
    some (false, .raised .sdWrite) := by decide +kernel
/-- V-FS-11. -/
theorem test_fs_reopen :
    after (fun t => (t.fs, t.status)) (.fsOpen false 1) (oneFile 40) =
    some (⟨true, .reopened, 1, 1, 1, 40, nextNone, 1000, 5, false, 0⟩, .okSeq 1) := by
  decide +kernel
/-- V-FS-12: a file of a prior iteration. -/
theorem test_fs_reopen_prior_iteration :
    after (fun t => (t.fs.isOpen, t.status)) (.fsOpen false 1)
      (setBlock 0 (superblock pT 2 false) (oneFile 40)) =
    some (false, .raised .noExistingFile) := by decide +kernel
/-- V-FS-14 and V-FS-15. -/
theorem test_fs_seek_to_end :
    after (fun t => (t.fs.rdPos, t.status)) (.fsSeek 40) (opened .reopened 40 false) =
    some (40, .ok) := by decide +kernel
theorem test_fs_seek_past_end :
    after (fun t => (t.fs.rdPos, t.status)) (.fsSeek 41) (opened .reopened 40 false) =
    some (0, .raised .seekPastEnd) := by decide +kernel
/-- V-FS-18; and 41_log_filesystem.md R169 with D33: the rest of a block begun before becomes zero. -/
theorem test_fs_write_blocks :
    after (fun t => (t.fs.len, t.fs.dirty, blockAt t 2, blockAt t 3)) (.fsWrite [1, 2, 3, 4])
      (setBlock 3 (List.replicate 32 0x99) (setBlock 2 (run 0 32) (opened .created 30 false))) =
      some (34, true, run 0 30 ++ [1, 2], [3, 4] ++ zeros 30) ∧
    after (fun t => (t.fs.len, blockAt t 2)) (.fsWrite [9])
      (setBlock 2 (run 0x40 32) (opened .created 2 false)) =
      some (3, [0x40, 0x41, 9] ++ zeros 29) := by decide +kernel
/-- V-FS-21. -/
theorem test_fs_write_reopened :
    after (fun t => (t.out, t.fault)) (.fsWrite [0]) (opened .reopened 40 false) =
    some ([], some .appendToReopenedFile) := by decide +kernel
/-- V-FS-17. -/
theorem test_fs_read_truncates :
    after (fun t => (t.fs.rdPos, t.out.length, t.status)) (.fsRead 32)
      (setBlock 3 (run 32 32) (setBlock 2 (run 0 32)
        { opened .reopened 40 false with
          fs := { (opened .reopened 40 false).fs with rdPos := 30 } })) =
    some (40, 2, .okBytes (run 30 10)) := by decide +kernel
/-- 41_log_filesystem.md R171, R172. -/
theorem test_fs_rtc_get :
    after (fun t => t.status) .fsRtcGet (opened .created 40 false) = some (.okRtc 1000 5) := by
  decide +kernel
theorem test_fs_rtc_set :
    after (fun t => (t.fs.rtcS, t.fs.rtcSub, t.fs.dirty, t.out)) (.fsRtcSet 7 8)
      (opened .created 40 false) = some (7, 8, true, []) := by decide +kernel
/-- V-FS-9, and the metadata of a dirty file. -/
theorem test_fs_close_clean :
    after (fun t => (t.fs.isOpen, t.out)) .fsClose (opened .created 40 false) = some (false, []) := by
  decide +kernel
theorem test_fs_close_dirty :
    after (fun t => (t.fs.isOpen, t.fs.dirty, t.out)) .fsClose (opened .created 40 true) =
    some (false, false, [.blkWrite 1 (fsbBlock pT ⟨1, 1, 40, nextNone, 1000, 5⟩) true]) := by
  decide +kernel
/-- V-FS-19. -/
theorem test_fs_size :
    after (fun t => t.status) .fsSizeGet (opened .created 34 true) = some (.okSize 34) := by
  decide +kernel
/-- V-FS-23 and V-FS-22. -/
theorem test_fs_begin_write :
    after (fun t => (t.med.busy, t.med.target, t.fs.len, t.status)) (.fsBeginWrite (run 0 32))
      (opened .created 0 false) = some (true, 2, 0, .ok) := by decide +kernel
theorem test_fs_begin_write_misaligned :
    after (fun t => (t.out, t.fault)) (.fsBeginWrite (run 0 32)) (opened .created 34 true) =
    some ([], some .misalignedAppend) := by decide +kernel
/-- V-FS-24, its last step. -/
theorem test_fs_continue_done :
    after (fun t => (blockAt t 2, t.fs.len, t.fs.dirty, t.status)) .fsContinue
      (writing .done (opened .created 0 false)) =
    some (List.replicate 32 0x77, 32, true, .okDone) := by decide +kernel
theorem test_fs_continue_error :
    after (fun t => (blockAt t 2, t.fs.len, t.med.busy, t.status)) .fsContinue
      (writing .err (opened .created 0 false)) =
    some (List.replicate 32 0xEE, 0, false, .raised .sdWrite) := by decide +kernel
/-- 41_log_filesystem.md R177. -/
theorem test_fs_selftest :
    after (fun t => (t.status, t.fs.isOpen, blockAt t 1, blockAt t 2)) .fsSelftest sT =
    some (.code 0, false, fsbBlock pT ⟨1, 1, 32, nextNone, 1000, 5⟩, run 0 32) := by decide +kernel
/-- 41_log_filesystem.md R176. -/
theorem test_fs_flush :
    after (fun t => (t.fs.isOpen, t.fs.dirty, (decodeFsb (blockAt t 1)).byteLen)) .fsFlush
      { opened .created 40 true with med := sT.med } = some (true, false, 40) := by decide +kernel
theorem test_fs_flush_while_writing :
    after (fun t => (t.fs.dirty, t.out)) .fsFlush (writing .done (opened .created 32 true)) =
    some (true, []) := by decide +kernel

/-- 42_sample_pipeline.md R210. -/
theorem test_pl_begin :
    after (fun t => (t.ring, t.pl.acq, t.pl.phase, t.pl.linkSeq, t.pl.outCurIn)) .plBegin
      { ring8 5 false 2 false with pl := { s8.pl with linkSeq := 5, outCurIn := .live } } =
    some (⟨true, 0, false, 0, false⟩, true, .calibrating, 0, .gnd) := by decide
/-- 42_sample_pipeline.md R216. -/
theorem test_pl_stop :
    after (fun t => (t.pl.acq, t.pl.sdState, t.med.busy)) .plStop
      (writing .done (inMode .usbStore true sT)) = some (false, .idle, true) := by decide +kernel
/-- Program P1, steps 6 and 8. -/
theorem test_cal_done :
    after (fun t => (t.pl.phase, t.pl.outCurGain, t.pl.outCurIn, t.pl.outVoltIn)) .calDone
      { sT with pl := { sT.pl with acq := true, gain := 3 } } =
    some (.measuring, 3, .live, .live) := by decide +kernel
theorem test_drain_link :
    after (fun t => (t.pl.linkSeq, t.out, t.status)) .plDrainLink
      { holding (run 0x14 4) sT with pl := { sT.pl with linkSeq := 1 } } =
    some (2, [.memRead 0 4 (run 0x14 4), .linkTx [1, 0, 4, 0, 0x14, 0x15, 0x16, 0x17]], .sent) := by
  decide +kernel
/-- 42_sample_pipeline.md R213: the counter wraps at its width. -/
theorem test_drain_link_wraps :
    after (fun t => (t.pl.linkSeq, linkOutput t.out)) .plDrainLink
      { holding (run 0x14 4) sT with pl := { sT.pl with linkSeq := 65535 } } =
    some (0, [[0xFF, 0xFF, 4, 0, 0x14, 0x15, 0x16, 0x17]]) := by decide +kernel
/-- Program P1, step 5: fewer than `P` bytes. -/
theorem test_tick_stream_underflow :
    after (fun t => (t.ring.r, t.out, t.status)) .tick
      (inMode .stream true (holding (run 0x10 3) sT)) = some (0, [], .noOp) := by decide +kernel
/-- Program P2, step 4. -/
theorem test_tick_store_begins :
    after (fun t => (t.ring.r, t.out, t.pl.sdState)) .tick
      (inMode .portStore true (holding (run 0 32) (opened .created 0 false))) =
    some (32, [.memRead 0 32 (run 0 32), .blkBegin 2 (run 0 32) true], .writeInProgress) := by
  decide +kernel
/-- Program P3, step 6. -/
theorem test_drain_storage_fails :
    after (fun t => (t.pl.sdState, t.pl.blkIdx, t.fs.len, t.ma.lastError)) .plDrainStorage
      (writing .err (opened .created 0 false)) = some (.idle, 0, 0, .sdWrite) := by decide +kernel
/-- V-EX-8. -/
theorem test_drain_storage_closed :
    after (fun t => (t.pl.sdState, t.ma.lastError, t.out)) .plDrainStorage (writing .done sT) =
    some (.idle, .noError, []) := by decide +kernel

/-- 43_mode_arbiter.md R245, program P2, step 7. -/
theorem test_stop_sampling_portable :
    after (fun t => (t.ma.mode, t.pl.acq, t.fs.isOpen, t.out.getLast?)) .stopSampling
      (inMode .portStore true (opened .created 32 true)) =
    some (.portIdle, false, false, some (.ind (.blink 2))) := by decide +kernel
theorem test_stop_sampling_stream :
    after (fun t => (t.ma.mode, t.pl.acq, t.out)) .stopSampling (inMode .stream true sT) =
    some (.stream, false, []) := by decide +kernel
/-- V-MA-29 and V-MA-31. -/
theorem test_press_starts :
    after (fun t => (t.ma.mode, t.pl.acq, t.fs.seq, t.out.getLast?)) .btnPress
      (inMode .portIdle false (formatted 1)) =
    some (.portStore, true, 1, some (.ind (.blink 1))) := by decide +kernel
theorem test_press_ignored :
    after (fun t => (t.ma.mode, t.pl.acq, t.out)) .btnPress (inMode .usbStore true sT) =
    some (.usbStore, true, []) := by decide +kernel
/-- V-MA-32 and V-MA-33. -/
theorem test_hold_stream :
    after (fun t => (t.ma.mode, t.pl.acq, blockAt t 0, t.out.getLast?)) .btnHold
      (inMode .stream true (formatted 2)) =
    some (.portIdle, false, superblock pT 3 true, some (.ind (.blink 1))) := by decide +kernel
theorem test_hold_fails :
    after (fun t => (t.ma.mode, t.ma.halted, t.ma.lastError, t.out.length)) .btnHold
      (answers [true, false] sT) = some (.usbIdle, true, .formatFailure, 2) := by decide +kernel
/-- V-MA-4 and V-MA-6. -/
theorem test_cp_step_flushes :
    after (fun t => (t.pl.gain, t.ma.rxQ, t.out)) .cpStep
      { sT with ma := { sT.ma with rxQ := [[4, 3, 0, 0, 0], [4, 5, 0, 0, 0]] } } =
    some (3, [], [.linkTx [4, 4]]) := by decide +kernel
theorem test_cp_step_drops :
    after (fun t => (t.ma.rxQ, t.out, t.status)) .cpStep
      { sT with ma := { sT.ma with rxQ := [[0x7F, 0, 0, 0, 0], [4, 5, 0, 0, 0]] } } =
    some ([[4, 5, 0, 0, 0]], [], .dropped) := by decide +kernel
/-- V-RS-2 and V-EX-3. -/
theorem test_ext_reset_keeps_error :
    after (fun t => (t.ma.mode, t.ma.lastError, t.fs.isOpen, t.med == (opened .created 64 true).med))
      .extReset
      { inMode .usbStore true (opened .created 64 true) with
        ma := { sT.ma with mode := .usbStore, lastError := .sdWrite } } =
    some (.usbIdle, .sdWrite, false, true) := by decide +kernel
theorem test_ext_reset_halted :
    after (fun t => (t.ma.halted, t.ma.mode, t.ma.rxQ, t.ma.lastError)) .extReset
      { haltedT with ma := { haltedT.ma with rxQ := [[0]] } } =
    some (false, .usbIdle, [], .formatFailure) := by decide +kernel

/-- V-MA-20 and V-MA-21. -/
theorem test_init_first :
    after (fun t => (t.ma.initialized, t.ma.lastError, t.out)) (.cmdInit 0 0) sT =
    some (true, .noError, [.linkTx [0, 0]]) := by decide +kernel
theorem test_init_again :
    after (fun t => (t.ma.initialized, t.ma.mode, t.pl.acq, t.out)) (.cmdInit 0 0)
      { inMode .stream true sT with
        ma := { sT.ma with mode := .stream, initialized := true, lastError := .sdWrite } } =
    some (true, .usbIdle, false, [.linkTx [0, 8]]) := by decide +kernel
/-- V-MA-24. -/
theorem test_reset_silent :
    after (fun t => (t.ma.mode, t.pl.acq, t.ma.initialized, t.out)) (.cmdReset 0 0)
      (inMode .stream true sT) = some (.usbIdle, false, false, []) := by decide +kernel
/-- V-MA-25 and V-MA-26. -/
theorem test_self_test_passes :
    after (fun t => (t.ring, blockAt t 0, t.out.getLast?)) (.cmdSelfTest 0 0) (formatted 1) =
    some (⟨true, 0, false, 0, false⟩, superblock pT 2 false, some (.linkTx [2, 0])) := by
  decide +kernel
theorem test_self_test_driver_fails :
    after (fun t => t.out) (.cmdSelfTest 0 0) { sT with env := { envT with driverTest := ⟨[5], 0⟩ } } =
    some [.linkTx [2, 5]] := by decide +kernel
/-- V-MA-19. -/
theorem test_read_eeprom :
    after (fun t => t.out) (.cmdReadEeprom 0x10 4)
      { sT with env := { envT with eeprom := ⟨[[1, 2]], 0⟩ } } =
    some [.eepromRead 0x10 4 [1, 2], .linkTx (Config.reply 3 [1, 2])] := by rfl
/-- V-MA-3. -/
theorem test_gain_set :
    after (fun t => (t.pl.gain, t.out)) (.cmdGainSet 0x1FFFF 0) sT =
    some (0xFFFF, [.linkTx [4, 4]]) := by decide +kernel
/-- V-MA-11 and V-MA-12. -/
theorem test_start_storage_reformats :
    after (fun t => (t.ma.mode, t.fs.seq, blockAt t 0, t.out.getLast?)) (.cmdStartStorage 0 0)
      (inMode .portIdle false (formatted 4)) =
    some (.usbStore, 1, superblock pT 5 false, some (.linkTx [5, 5])) := by decide +kernel
theorem test_start_storage_halts :
    after (fun t => (t.ma.halted, t.ma.lastError, linkOutput t.out)) (.cmdStartStorage 0 0)
      (answers [false] (inMode .portIdle false sT)) = some (true, .formatFailure, []) := by
  decide +kernel
/-- V-MA-9. -/
theorem test_start_link_restarts :
    after (fun t => (t.ma.mode, t.pl.linkSeq, t.out)) (.cmdStartLink 0 0)
      { sT with ma := { sT.ma with mode := .stream },
                pl := { sT.pl with acq := true, linkSeq := 5 } } =
    some (.stream, 0, [.ind .pulse, .linkTx [6, 6]]) := by decide +kernel
set_option maxRecDepth 20000 in
/-- Program P4, step 3. -/
theorem test_read_storage :
    after (fun t => linkOutput t.out) (.cmdReadStorage 1 0)
      (setBlock 2 (run 0x60 32) (oneFile 32)) = some [Config.fileChunk 0 (run 0x60 32)] := by rfl
/-- V-MA-34. -/
theorem test_read_storage_missing :
    after (fun t => (t.ma.mode, t.pl.acq, linkOutput t.out)) (.cmdReadStorage 2 0)
      (inMode .stream true (oneFile 32)) = some (.stream, false, []) := by decide +kernel
/-- V-MA-18. -/
theorem test_get_sample_count :
    after (fun t => t.out) (.cmdGetSampleCount 0 0)
      { sT with env := { envT with sampleCount := ⟨[[9]], 0⟩ } } =
    some [.linkTx (Config.reply 8 [9])] := by rfl
/-- V-MA-17. -/
theorem test_get_git_hash :
    after (fun t => t.out) (.cmdGetGitHash 0 0) sT =
    some [.linkTx (Config.reply 9 Config.gitHash)] := by rfl
set_option maxRecDepth 20000 in
/-- V-MA-28, and program P4, step 2. -/
theorem test_get_rtc_missing :
    after (fun t => (t.fs.isOpen, linkOutput t.out)) (.cmdGetRtc 7 0) (oneFile 32) =
    some (false, [Config.reply 0x0A (zeros 8)]) := by rfl
set_option maxRecDepth 20000 in
theorem test_get_rtc :
    after (fun t => (t.fs.isOpen, linkOutput t.out)) (.cmdGetRtc 1 0) (oneFile 32) =
    some (true, [Config.reply 0x0A [0xE8, 3, 0, 0, 5, 0, 0, 0]]) := by rfl
/-- V-MA-16. -/
theorem test_set_rtc :
    after (fun t => t.out) (.cmdSetRtc 1 2) sT =
    some [.rtcSet 0x00010002, .linkTx [0x0B, 0x0B]] := by decide +kernel
/-- V-MA-15. -/
theorem test_get_mode_portable :
    after (fun t => t.out) (.cmdGetModePortable 0 0) (inMode .portStore true sT) =
    some [.linkTx [0x0C, 1]] := by decide +kernel

/-- V-EX-1, V-EX-5, V-EX-6, V-EX-7: what the step does with a message to a halted block and with
refused requests. -/
theorem test_step_message_to_halted :
    ∀ t, step { haltedT with inputs := [.host [4, 3, 0, 0, 0]] } = .next t →
      t.ma.rxQ = [[4, 3, 0, 0, 0]] := by
  rintro t ⟨⟩; rfl
theorem test_step_refuses :
    ∀ bs ∈ [[0xC0], [0x88, 5, 0, 1], [0xA0, 2]], ∀ t,
      step { sT with inputs := [.request bs] } = .next t → t.fault = some .refusedRequest := by
  intro bs hbs
  simp only [List.mem_cons, List.not_mem_nil, or_false] at hbs
  rcases hbs with rfl | rfl | rfl <;> rintro t ⟨⟩ <;> rfl

/-! ### Witnesses: states and operands that meet the hypotheses of the statements of
Certificates/Slice0/Obligations.lean, clause by clause -/

theorem pT_valid : pT.Valid := by decide
theorem default_valid : Params.default.Valid := by decide

/-- A first component known is a pair known. -/
theorem pair_of_fst {α β : Type} {p : α × β} {a : α} (h : p.1 = a) : p = (a, p.2) := by
  rw [← h]

/-- The ring of `sT` meets its invariant. -/
theorem ringInv_sT : RingInv sT := ⟨rfl, by decide, by decide, by decide⟩

theorem ringInv_holding64 : RingInv (holding (run 0 64) sT) :=
  ⟨rfl, by decide, by decide, by decide +kernel⟩

/-- `sT` meets the invariant of every step. -/
theorem inv_sT : sT.Inv where
  params := pT_valid
  ring := ringInv_sT
  linkSeq_lt := by decide
  blkIdx_lt := by decide
  store_wf := by decide
  medium_wf := by decide +kernel
  busy_block := by decide
  rdPos_le := by decide
  start_lt := by decide
  dirty_open := by decide
  halted_error := by decide

theorem inv_haltedT : haltedT.Inv where
  params := pT_valid
  ring := ⟨rfl, by decide, by decide, by decide⟩
  linkSeq_lt := by decide
  blkIdx_lt := by decide
  store_wf := by decide
  medium_wf := by decide +kernel
  busy_block := by decide
  rdPos_le := by decide
  start_lt := by decide
  dirty_open := by decide
  halted_error := by decide

/-- `StepRunsDecodedRequest`. -/
theorem test_hyp_step_runs :
    let s := { sT with inputs := [.request [0xA1, 1, 0, 0, 0, 0], .request [0x89]] }
    s.fault = none ∧ s.inputs = .request (0xA1 :: [1, 0, 0, 0, 0]) :: [.request [0x89]] ∧
      0x80 ≤ (0xA1 : Byte).toNat ∧
      decode s.params (0xA1 :: [1, 0, 0, 0, 0]) = .ok (.fsOpen true 0) := by decide +kernel

/-- `CpStepPerformsHeadMessage`. -/
theorem test_hyp_cp_step :
    let s := { sT with ma := { sT.ma with rxQ := [[4, 3, 0, 0, 0], [1]] } }
    s.ma.halted = false ∧ s.ma.rxQ = [4, 3, 0, 0, 0] :: [[1]] ∧
      decodeMessage s.params [4, 3, 0, 0, 0] = some (.gainSet, 3, 0) ∧
      sT.ma.halted = false ∧ sT.ma.rxQ = [] := by decide +kernel

/-- `StepWithoutOperation`: a message, the last code of the message space, nothing to do, a fault. -/
theorem test_hyp_step_without :
    (let s := { sT with inputs := [.host []] }
     s.fault = none ∧ s.inputs = .host [] :: []) ∧
    (let s := { sT with inputs := [.request [0x7F]] }
     s.fault = none ∧ s.inputs = .request (0x7F :: []) :: [] ∧ (0x7F : Byte).toNat < 0x80) ∧
    (sT.fault = none ∧ sT.inputs = []) ∧
    (setFault .rbUnbound sT).fault = some .rbUnbound := by decide +kernel

/-- `IllegalRequestIsRefused`, clause 1: a code that is not listed, a length one short and one over,
a flag that is not binary. -/
theorem test_hyp_illegal :
    sT.fault = none ∧
    illegalRequest pT 0xFF [] ∧ illegalRequest pT 0x82 [] ∧
    illegalRequest pT 0x88 [1, 0] ∧ illegalRequest pT 0x80 [0] ∧
    illegalRequest pT 0xA0 [2] ∧ illegalRequest pT 0xA1 [0xFF, 0, 0, 0, 0] := by
  simp only [illegalRequest]
  decide +kernel

/-- `IllegalRequestIsRefused`, clause 2. -/
theorem test_hyp_host_code : ∃ t,
    (0x7F : Byte).toNat < 0x80 ∧ step { sT with inputs := [.request [0x7F]] } = .next t :=
  ⟨_, by decide, rfl⟩

/-- `DecodeOfEncode`, a value of full width and the empty data string. -/
theorem test_hyp_decode_of_encode :
    Params.default.Valid ∧
    (Instr.cmdSetRtc 0xFFFF 0xFFFF).wellFormed Params.default = true ∧
    (Instr.rbWrite []).wellFormed Params.default = true := ⟨default_valid, by decide, by decide⟩

/-- `EncodeOfDecode`. -/
theorem test_hyp_encode_of_decode :
    decode pT [0x91, 0xFF, 0xFF] = .ok (.rbRead 0xFFFF) := by decide

/-- `MalformedMessageIsDropped`: an unknown type, and a message one byte short. -/
theorem test_hyp_malformed :
    pT.Valid ∧ sT.ma.halted = false ∧
    ({ sT with ma := { sT.ma with rxQ := [[0x0D, 0, 0, 0, 0]] } } : State).ma.rxQ =
      [0x0D, 0, 0, 0, 0] :: [] ∧
    (∀ c : Command, ¬ isMessageOf pT c [0x0D, 0, 0, 0, 0]) ∧
    (∀ c : Command, ¬ isMessageOf pT c [4, 0, 0, 0]) := by
  refine ⟨pT_valid, rfl, rfl, ?_, ?_⟩ <;> intro c <;> cases c <;> unfold isMessageOf <;> decide

/-- `StepKeepsInv`. -/
theorem test_hyp_step_keeps_inv :
    ∃ s t : State, s.Inv ∧ step s = .next t := ⟨sT, _, inv_sT, rfl⟩

/-- `ArbiterKeepsModeInv`, while acquiring and while not. -/
theorem test_hyp_mode_inv :
    sT.params.Valid ∧ isHarness .btnPress = false ∧ ModeInv sT ∧ ModeInv (inMode .stream true sT) ∧
    ModeInv (inMode .portStore true sT) ∧ ∃ t, exec .btnPress sT = .next t :=
  ⟨pT_valid, rfl, ⟨by decide, by decide, by decide⟩, ⟨by decide, by decide, by decide⟩,
    ⟨by decide, by decide, by decide⟩, _, rfl⟩

/-- `HaltEndsOnlyByReset`. -/
theorem test_hyp_halt :
    Instr.tick ≠ .extReset ∧ haltedT.ma.halted = true ∧ haltedT.Inv ∧
    ∃ t, exec .extReset haltedT = .next t := ⟨by decide, rfl, inv_haltedT, _, rfl⟩

/-- `HistoryOnlyGrows`, also from a state with a recorded fault. -/
theorem test_hyp_history :
    (∃ t, exec .rbInit sT = .next t) ∧ (setFault .rbUnbound sT).fault.isSome = true ∧
    ∃ t, exec .rbInit (setFault .rbUnbound sT) = .next t := ⟨⟨_, rfl⟩, rfl, _, rfl⟩

/-- `RbInitEmptiesRing`, `RbSelftestPasses`. -/
theorem test_hyp_ring_plain : sT.ma.halted = false ∧ 1 ≤ sT.params.ringCapacity := by decide

/-- `RbWriteStoresBytes`, `RingRoundTrip`, `RingIsFifo`: a write that fills the ring. -/
theorem test_hyp_rb_write :
    RingInv sT ∧ sT.ma.halted = false ∧ (run 0 64).length ≤ Machine.free sT ∧ used sT = 0 ∧
    (run 0 64).length ≤ sT.params.ringCapacity := ⟨ringInv_sT, by decide +kernel⟩

/-- `RbReadReturnsBytes`, `RingIsFifo`: a read that empties the ring. -/
theorem test_hyp_rb_read :
    RingInv (holding (run 0 64) sT) ∧ (holding (run 0 64) sT).ma.halted = false ∧
    (64 : U16).toNat ≤ used (holding (run 0 64) sT) := ⟨ringInv_holding64, by decide +kernel⟩

/-- `FailingRingAccessChangesNothing`: one byte too many, one byte too few. -/
theorem test_hyp_ring_fails :
    (let s := holding (run 0 64) sT
     s.ma.halted = false ∧ s.ring.bound = true ∧ Machine.free s < [(0 : Byte)].length) ∧
    sT.ma.halted = false ∧ sT.ring.bound = true ∧ used sT < (1 : U16).toNat := by decide +kernel

/-- `ModelFaultsAreRecorded`, its clauses in order. -/
theorem test_hyp_model_faults :
    (let s := { sT with ring := ⟨false, 0, false, 0, false⟩ }
     s.ma.halted = false ∧ s.ring.bound = false) ∧
    (let s := opened .reopened 40 false
     s.ma.halted = false ∧ s.fs.isOpen = true ∧ s.fs.kind = .reopened) ∧
    (let s := opened .created 1 false
     s.ma.halted = false ∧ s.fs.isOpen = true ∧ s.fs.kind = .created ∧
        s.fs.len % s.params.blockBytes ≠ 0) := by decide +kernel

/-- `UsedAgreesWithCursors`: an empty, a full and a partly filled ring. -/
theorem test_hyp_used :
    RingInv (ring8 0 false 0 false) ∧ RingInv (ring8 4 true 4 false) ∧
    RingInv (ring8 2 true 6 false) ∧ used (ring8 0 false 0 false) = 0 ∧
    used (ring8 4 true 4 false) = 8 ∧ used (ring8 2 true 6 false) < 8 :=
  ⟨⟨rfl, by decide, by decide, by decide⟩, ⟨rfl, by decide, by decide, by decide⟩,
    ⟨rfl, by decide, by decide, by decide⟩, by decide, by decide, by decide⟩

/-- `AbandonedWriteEndsFirst`. -/
theorem test_hyp_abandoned : (writing .done sT).med.busy = true := rfl

/-- `FormatWritesSuperblock`, and the first clause of `HoldReformatsPortable` and its second, in a
mode without a file to close. -/
theorem test_hyp_format :
    pT.Valid ∧ sT.ma.halted = false ∧ sT.med.busy = false ∧ mediumAnswersOk 2 sT ∧
    sT.ma.mode = .usbIdle := ⟨pT_valid, by unfold mediumAnswersOk; decide +kernel⟩

/-- `FormatFailureHalts`, the failed read and the failed write. -/
theorem test_hyp_format_fails :
    (let s := answers [false] sT
     s.params.Valid ∧ s.ma.halted = false ∧ s.med.busy = false ∧
        s.env.mediumOk.peek Config.freeMediumOk 0 = false) ∧
    (let s := answers [true, false] sT
     s.ma.halted = false ∧ s.med.busy = false ∧
        s.env.mediumOk.peek Config.freeMediumOk 0 = true ∧
        s.env.mediumOk.peek Config.freeMediumOk 1 = false) := by decide +kernel

/-- The opening of `oneFile 40` finds its file. -/
theorem openChain_oneFile :
    openChain (oneFile 40) =
      (.ok (1, [(1, ⟨1, 1, 40, nextNone, 1000, 5⟩)]), (openChain (oneFile 40)).2) :=
  pair_of_fst (by decide +kernel)

/-- `ChainIsIncreasing`: a chain of one file, and of none, a medium that answers all the reads a walk can
take, and an opening. -/
theorem test_hyp_chain :
    (∃ t, chainWalk 1 (oneFile 40) =
      (some [(1, ⟨1, 1, 40, nextNone, 1000, 5⟩)], t)) ∧
    (∃ t, chainWalk 2 (oneFile 40) = (some [], t)) ∧
    mediumAnswersOk (oneFile 40).params.mediumBlocks (oneFile 40) ∧
    ∃ u, openChain (oneFile 40) = (.ok (1, [(1, ⟨1, 1, 40, nextNone, 1000, 5⟩)]), u) :=
  ⟨⟨_, pair_of_fst (by decide +kernel)⟩, ⟨_, pair_of_fst (by decide +kernel)⟩,
    by unfold mediumAnswersOk; decide +kernel, _, openChain_oneFile⟩

/-- `CreateFirstFile`. -/
theorem test_hyp_create_first :
    let s := formatted 1
    s.params.Valid ∧ s.ma.halted = false ∧ s.med.busy = false ∧ s.fs.isOpen = false ∧
    mediumAnswersOk 3 s ∧ superblockValid s.params (blockAt s s.params.sbBlock) = true ∧
    (decodeFsb (blockAt s s.params.firstFileBlock)).iteration ≠
      superblockIter (blockAt s s.params.sbBlock) := by
  unfold mediumAnswersOk
  decide +kernel

/-- `CreateLinksPreviousFile`, with a last file that ends just before the medium's last block. -/
theorem test_hyp_create_links :
    let s := oneFile 416
    let c := [(1, (⟨1, 1, 416, nextNone, 1000, 5⟩ : Fsb))]
    s.params.Valid ∧ s.ma.halted = false ∧ openChain s = (.ok (1, c), (openChain s).2) ∧
    c.getLast? = some (1, ⟨1, 1, 416, nextNone, 1000, 5⟩) ∧
    (nextFile s.params c).1 + 1 = s.params.mediumBlocks ∧ mediumAnswersOk 2 (openChain s).2 :=
  ⟨by decide +kernel, rfl, pair_of_fst (by decide +kernel), rfl, by decide +kernel,
    by unfold mediumAnswersOk; decide +kernel⟩

/-- `ReopenTakesChainEntry`, `OpeningOnlyReads` (an opening that succeeds and one with a failed read; a
clean and a dirty file closed first), and the missing sequence number of `OpenErrors`. -/
theorem test_hyp_reopen :
    (oneFile 40).params.Valid ∧ (oneFile 40).ma.halted = false ∧ (oneFile 40).fs.isOpen = false ∧
    (oneFile 40).med.busy = false ∧
    (∃ u, openChain (oneFile 40) = (.ok (1, [(1, ⟨1, 1, 40, nextNone, 1000, 5⟩)]), u)) ∧
    ((1, ⟨1, 1, 40, nextNone, 1000, 5⟩) : Nat × Fsb) ∈
      [(1, (⟨1, 1, 40, nextNone, 1000, 5⟩ : Fsb))] ∧
    (∀ e ∈ [(1, (⟨1, 1, 40, nextNone, 1000, 5⟩ : Fsb))], e.2.seq ≠ 0) ∧
    (∃ u, openChain (answers [true, false] (formatted 1)) = (.err .sdRead, u)) ∧
    after (fun t => t.status) .fsClose (opened .created 40 false) = some .ok ∧
    after (fun t => t.status) .fsClose (opened .created 40 true) = some .ok :=
  ⟨by decide +kernel, rfl, rfl, rfl, ⟨_, openChain_oneFile⟩, by decide, by decide,
    ⟨_, pair_of_fst (by decide +kernel)⟩, by decide +kernel, by decide +kernel⟩

/-- `OpenErrors`: an open that raises, the failed implicit close, the failed superblock read, the
unformatted medium, the failed chain read. -/
theorem test_hyp_open_errors :
    after (fun t => t.status) (.fsOpen true 0) sT = some (.raised .noExistingFile) ∧
    (let s := answers [false] (opened .created 40 true)
     s.params.Valid ∧ s.ma.halted = false ∧ s.fs.isOpen = true ∧ s.fs.dirty = true ∧
        s.med.busy = false ∧ s.fs.start.toNat < s.params.mediumBlocks ∧
        s.env.mediumOk.peek Config.freeMediumOk 0 = false) ∧
    (let s := answers [false] sT
     s.params.Valid ∧ s.ma.halted = false ∧ s.med.busy = false ∧ s.fs.isOpen = false ∧
        s.env.mediumOk.peek Config.freeMediumOk 0 = false) ∧
    (sT.ma.halted = false ∧ sT.med.busy = false ∧ sT.fs.isOpen = false ∧
      sT.env.mediumOk.peek Config.freeMediumOk 0 = true ∧
      superblockValid sT.params (blockAt sT sT.params.sbBlock) = false) ∧
    (let s := answers [true, false] (formatted 1)
     s.params.Valid ∧ s.ma.halted = false ∧ s.fs.isOpen = false ∧ s.med.busy = false ∧
        s.env.mediumOk.peek Config.freeMediumOk 0 = true ∧
        superblockValid s.params (blockAt s s.params.sbBlock) = true ∧
        s.env.mediumOk.peek Config.freeMediumOk 1 = false) :=
  ⟨by decide +kernel, by decide +kernel, by decide +kernel, by decide +kernel, by decide +kernel⟩

/-- `OpenErrors`, after the opening: a medium full to its last block, a failed write of the new
FileStartBlock, a failed write of the forward link. -/
theorem test_hyp_create_errors :
    let file (n : U32) : List (Nat × Fsb) := [(1, ⟨1, 1, n, nextNone, 1000, 5⟩)]
    (let s := oneFile 448
     s.params.Valid ∧ s.ma.halted = false ∧ openChain s = (.ok (1, file 448), (openChain s).2) ∧
       s.params.mediumBlocks = (nextFile s.params (file 448)).1) ∧
    (let s := answers [true, true, false] (oneFile 416)
     s.params.Valid ∧ s.ma.halted = false ∧ openChain s = (.ok (1, file 416), (openChain s).2) ∧
       (nextFile s.params (file 416)).1 < s.params.mediumBlocks ∧
       (openChain s).2.env.mediumOk.peek Config.freeMediumOk 0 = false) ∧
    (let s := answers [true, true, true, false] (oneFile 416)
     s.params.Valid ∧ s.ma.halted = false ∧ openChain s = (.ok (1, file 416), (openChain s).2) ∧
       (file 416).getLast? = some (1, ⟨1, 1, 416, nextNone, 1000, 5⟩) ∧
       (nextFile s.params (file 416)).1 < s.params.mediumBlocks ∧
       (openChain s).2.env.mediumOk.peek Config.freeMediumOk 0 = true ∧
       (openChain s).2.env.mediumOk.peek Config.freeMediumOk 1 = false) :=
  ⟨⟨by decide +kernel, rfl, pair_of_fst (by decide +kernel), by decide +kernel⟩,
    ⟨by decide +kernel, rfl, pair_of_fst (by decide +kernel), by decide +kernel⟩,
    by decide +kernel, rfl, pair_of_fst (by decide +kernel), by decide +kernel⟩

/-- `OpenFileRegisters`: a seek to the end and one past it, the longest size and one more. -/
theorem test_hyp_open_file :
    (let s := opened .reopened 40 false
     s.ma.halted = false ∧ s.fs.isOpen = true ∧ (40 : U32).toNat ≤ s.fs.len ∧
        s.fs.len < (41 : U32).toNat) ∧
    (opened .created (2 ^ 32 - 1) true).fs.len ≤ 2 ^ sT.params.sizeBits - 1 ∧
    2 ^ sT.params.sizeBits - 1 < (opened .created (2 ^ 32) true).fs.len := by decide +kernel

/-- `FileNotOpenRaised`. -/
theorem test_hyp_not_open :
    sT.ma.halted = false ∧ sT.fs.isOpen = false ∧ ∃ n, Instr.fsRead 1 = .fsRead n :=
  ⟨rfl, rfl, 1, rfl⟩

/-- `CloseWritesPendingMetadata`, its clauses in order. -/
theorem test_hyp_close :
    (sT.params.Valid ∧ sT.ma.halted = false ∧ sT.fs.isOpen = false) ∧
    (let s := opened .created 40 false
     s.fs.isOpen = true ∧ s.fs.dirty = false) ∧
    (let s := opened .created 40 true
     s.params.Valid ∧ s.ma.halted = false ∧ s.fs.isOpen = true ∧ s.fs.dirty = true ∧
        s.med.busy = false ∧ s.fs.start.toNat < s.params.mediumBlocks ∧
        s.env.mediumOk.peek Config.freeMediumOk 0 = true) ∧
    (answers [false] (opened .created 40 true)).env.mediumOk.peek Config.freeMediumOk 0 = false := by
  decide +kernel

/-- `FsWriteAppends`: a write that fills the medium's last block from the middle of a block on, and an
empty one. -/
theorem test_hyp_fs_write :
    let s := opened .created 30 false
    s.params.Valid ∧ s.ma.halted = false ∧ s.med.busy = false ∧ s.fs.isOpen = true ∧
    s.fs.kind = .created ∧
    fileOnMedium s.params s.fs.start.toNat s.fs.len (zeros 418).length ∧
    mediumAnswersOk (touchedBlocks s.params s.fs.len (zeros 418).length + 1) s ∧
    fileOnMedium s.params s.fs.start.toNat s.fs.len ([] : Bytes).length := by
  unfold mediumAnswersOk fileOnMedium
  decide +kernel

/-- `FsReadReturnsFileBytes`: a read that asks for more than remains, from a cursor at the end of a
block, and one at the end of the file. -/
theorem test_hyp_fs_read :
    (let s := { opened .reopened 448 false with
        fs := { (opened .reopened 448 false).fs with rdPos := 31 } }
     let m := min (0xFFFF : U16).toNat (s.fs.len - s.fs.rdPos)
     s.params.Valid ∧ s.ma.halted = false ∧ s.med.busy = false ∧ s.fs.isOpen = true ∧
        s.fs.rdPos ≤ s.fs.len ∧ fileOnMedium s.params s.fs.start.toNat s.fs.rdPos m ∧
        mediumAnswersOk (touchedBlocks s.params s.fs.rdPos m) s) ∧
    (let s := { opened .reopened 40 false with
        fs := { (opened .reopened 40 false).fs with rdPos := 40 } }
     s.fs.rdPos ≤ s.fs.len ∧ min (1 : U16).toNat (s.fs.len - s.fs.rdPos) = 0) := by
  unfold mediumAnswersOk fileOnMedium
  decide +kernel

/-- `FsRoundTrip`, with a file of one full block. -/
theorem test_hyp_round_trip :
    pT.Valid ∧ sT.ma.halted = false ∧ sT.med.busy = false ∧ (run 0 32).length < 65536 ∧
    fileOnMedium sT.params sT.params.firstFileBlock 0 (run 0 32).length ∧
    mediumAnswersOk (8 + 2 * (run 0 32).length) sT ∧
    (decodeFsb (blockAt sT sT.params.firstFileBlock)).iteration ≠ nextIteration sT := by
  unfold mediumAnswersOk fileOnMedium
  decide +kernel

/-- `BeginWriteStartsBlock`: at the medium's last block, both answers, and one past it. -/
theorem test_hyp_begin_write :
    (let s := opened .created 416 false
     s.ma.halted = false ∧ s.med.busy = false ∧ s.fs.isOpen = true ∧ s.fs.kind = .created ∧
        s.fs.len % s.params.blockBytes = 0 ∧ (zeros 32).length = s.params.blockBytes ∧
        s.fs.start.toNat + 1 + s.fs.len / s.params.blockBytes + 1 = s.params.mediumBlocks ∧
        s.env.mediumOk.peek Config.freeMediumOk 0 = true ∧
        (answers [false] s).env.mediumOk.peek Config.freeMediumOk 0 = false) ∧
    (let s := opened .created 448 false
     s.fs.len % s.params.blockBytes = 0 ∧
        s.params.mediumBlocks ≤ s.fs.start.toNat + 1 + s.fs.len / s.params.blockBytes) := by
  decide +kernel

/-- `ContinueAdvancesWrite`, its clauses in order. -/
theorem test_hyp_continue :
    (let s := opened .created 0 false
     s.ma.halted = false ∧ s.fs.isOpen = true ∧ s.med.busy = false) ∧
    ∀ a ∈ [StepAnswer.pending, .done, .err],
      let s := writing a (opened .created 0 false)
      s.ma.halted = false ∧ s.fs.isOpen = true ∧ s.med.busy = true ∧
        s.env.stepAnswer.peek Config.freeStep 0 = a := by decide +kernel

/-- `FlushWritesMetadata`, its clauses in order, and its second clause also with a clean file and
while a block write is outstanding. -/
theorem test_hyp_flush :
    (let s := opened .created 40 true
     s.params.Valid ∧ s.ma.halted = false ∧ s.fs.isOpen = true ∧ s.fs.dirty = true ∧
        s.pl.sdState = .idle ∧ s.med.busy = false ∧ s.fs.start.toNat < s.params.mediumBlocks ∧
        s.env.mediumOk.peek Config.freeMediumOk 0 = true ∧
        (answers [false] s).env.mediumOk.peek Config.freeMediumOk 0 = false) ∧
    sT.fs.isOpen = false ∧ (opened .created 40 false).fs.dirty = false ∧
    (writing .done (opened .created 32 true)).pl.sdState = .writeInProgress := by decide +kernel

/-- `FsSelftestPasses`. -/
theorem test_hyp_fs_selftest :
    pT.Valid ∧ sT.ma.halted = false ∧ sT.med.busy = false ∧ sT.params.fsSelftestBytes < 2 ^ 32 ∧
    fileOnMedium sT.params sT.params.firstFileBlock 0 sT.params.fsSelftestBytes ∧
    mediumAnswersOk (8 + 2 * sT.params.fsSelftestBytes) sT ∧
    (decodeFsb (blockAt sT sT.params.firstFileBlock)).iteration ≠ nextIteration sT := by
  unfold mediumAnswersOk fileOnMedium
  decide +kernel

/-- `SessionStartsCalibratesStops`, its conditional clauses. -/
theorem test_hyp_session :
    (let s := inMode .stream true sT
     s.ma.halted = false ∧ s.pl.acq = true ∧ s.pl.phase = .calibrating) ∧
    sT.pl.acq = false ∧
    ({ sT with pl := { sT.pl with acq := true, phase := .measuring } } : State).pl.phase =
      .measuring := by decide +kernel

/-- `TickRoutesByMode`, its clauses in order. -/
theorem test_hyp_tick :
    sT.ma.halted = false ∧ sT.pl.acq = false ∧
    (inMode .stream true sT).ma.mode = .stream ∧ (inMode .usbStore true sT).ma.mode = .usbStore ∧
    (inMode .portStore true sT).ma.mode = .portStore ∧
    (inMode .portIdle true sT).ma.mode = .portIdle ∧ (inMode .portIdle true sT).pl.acq = true := by
  decide +kernel

/-- `LinkDrainSendsFrame`: exactly `P` bytes with the link ready, the link not ready, one byte less. -/
theorem test_hyp_link_drain :
    (let s := inMode .stream true (holding (run 0 4) sT)
     RingInv s ∧ s.ma.halted = false ∧ s.pl.acq = true ∧ s.ma.mode = .stream ∧
        s.env.linkReady.peek Config.freeLinkReady 0 = true ∧ s.params.linkPayload ≤ used s) ∧
    (let s := { sT with env := { envT with linkReady := ⟨[false], 0⟩ } }
     s.env.linkReady.peek Config.freeLinkReady 0 = false) ∧
    used (holding (run 0 3) sT) < sT.params.linkPayload :=
  ⟨⟨⟨rfl, by decide, by decide, by decide +kernel⟩, by decide +kernel⟩, by decide +kernel,
    by decide +kernel⟩

/-- `StorageDrainStartsBlock`: no file, one byte short of a block, exactly a block at the medium's last
block, with both answers, also with an abandoned write outstanding, and a file at the medium's end. -/
theorem test_hyp_storage_drain :
    (sT.pl.sdState = .idle ∧ sT.fs.isOpen = false) ∧
    used (holding (run 0 31) sT) < sT.params.blockBytes ∧
    (let s := inMode .usbStore true (holding (run 0 32) (opened .created 416 false))
     RingInv s ∧ s.ma.halted = false ∧ s.pl.sdState = .idle ∧ s.pl.acq = true ∧
        s.fs.isOpen = true ∧ s.params.blockBytes ≤ used s ∧ s.fs.kind = .created ∧
        s.fs.len % s.params.blockBytes = 0 ∧
        s.fs.start.toNat + 1 + s.fs.len / s.params.blockBytes + 1 = s.params.mediumBlocks ∧
        s.env.mediumOk.peek Config.freeMediumOk 0 = true ∧
        (answers [false] s).env.mediumOk.peek Config.freeMediumOk 0 = false ∧
        ({ s with med := (writing .done s).med } : State).med.busy = true) ∧
    (let s := inMode .usbStore true (holding (run 0 32) (opened .created 448 false))
     RingInv s ∧ s.ma.halted = false ∧ s.pl.sdState = .idle ∧ s.fs.isOpen = true ∧
        s.params.blockBytes ≤ used s ∧ s.fs.kind = .created ∧
        s.fs.len % s.params.blockBytes = 0 ∧
        s.params.mediumBlocks = s.fs.start.toNat + 1 + s.fs.len / s.params.blockBytes) :=
  ⟨by decide +kernel, by decide +kernel,
    ⟨⟨rfl, by decide +kernel, by decide +kernel, by decide +kernel⟩, by decide +kernel⟩,
    ⟨rfl, by decide +kernel, by decide +kernel, by decide +kernel⟩, by decide +kernel⟩

/-- `SequencerAdvancesOneWrite`: no open file, no outstanding write, and the three answers. -/
theorem test_hyp_sequencer :
    (let s := writing .done sT
     s.ma.halted = false ∧ s.pl.sdState = .writeInProgress ∧ s.fs.isOpen = false) ∧
    (let s := { writing .done (opened .created 0 false) with med := sT.med }
     s.pl.sdState = .writeInProgress ∧ s.fs.isOpen = true ∧ s.med.busy = false) ∧
    ∀ a ∈ [StepAnswer.pending, .done, .err],
      let s := inMode .portStore true (writing a (opened .created 0 false))
      s.ma.halted = false ∧ s.pl.sdState = .writeInProgress ∧ s.pl.acq = true ∧
        s.ma.mode = .portStore ∧ s.fs.isOpen = true ∧ s.med.busy = true ∧
        s.env.stepAnswer.peek Config.freeStep 0 = a := by decide +kernel

/-- `StopSamplingStops`: a mode without a file; a store mode with a dirty file, its metadata write done
and failed, also with an abandoned write outstanding; both closes. -/
theorem test_hyp_stop :
    sT.ma.halted = false ∧ sT.ma.mode = .usbIdle ∧
    (let s := inMode .usbStore true (opened .created 40 true)
     s.ma.mode = .usbStore ∧ (s.fs.isOpen && s.fs.dirty) = true ∧ s.params.Valid ∧
       s.fs.start.toNat < s.params.mediumBlocks ∧ s.med.busy = false ∧
       s.env.mediumOk.peek Config.freeMediumOk 0 = true) ∧
    (let s := inMode .portStore true (answers [false] (writing .done (opened .created 40 true)))
     s.ma.mode = .portStore ∧ (s.fs.isOpen && s.fs.dirty) = true ∧ s.med.busy = true ∧
       s.env.mediumOk.peek Config.freeMediumOk 0 = false) ∧
    after (fun v => v.status) .fsClose (opened .created 40 true) = some .ok ∧
    after (fun v => v.status) .fsClose (answers [false] (opened .created 40 true)) =
      some (.raised .sdWrite) := by decide +kernel

/-- `PressTogglesPortableStore`, its clauses in order, with a create that succeeds and one that does
not. -/
theorem test_hyp_press :
    let s := inMode .portIdle false (formatted 1)
    sT.ma.halted = false ∧ sT.ma.mode = .usbIdle ∧
    (inMode .portStore true sT).ma.mode = .portStore ∧ s.ma.halted = false ∧
    s.ma.mode = .portIdle ∧ after (fun u => u.status) (.fsOpen true 0) s = some (.okSeq 1) ∧
    after (fun u => u.status) (.fsOpen true 0) (answers [false] s) = some (.raised .sdRead) := by
  decide +kernel

/-- `HoldReformatsPortable`: after the stop of a store mode, on a medium that answers. -/
theorem test_hyp_hold :
    let s := inMode .portStore true (opened .created 40 true)
    s.params.Valid ∧ s.ma.halted = false ∧ (stopSampling s).med.busy = false ∧
    mediumAnswersOk 2 (stopSampling s) := by
  unfold mediumAnswersOk
  decide +kernel

/-- `PlainCommandsAcknowledge`, `ResettingCommands`, `QueriesReplyWithoutAck`: before the first Init and
after it. -/
theorem test_hyp_commands :
    sT.ma.halted = false ∧ sT.ma.initialized = false ∧
    ({ sT with ma := { sT.ma with initialized := true } } : State).ma.initialized = true := by
  decide +kernel

/-- `StartLinkEntersStream`, both alternatives of its second clause, and a store mode. -/
theorem test_hyp_start_link :
    sT.ma.halted = false ∧ sT.pl.acq = false ∧ (inMode .stream true sT).ma.mode = .stream ∧
    (inMode .portStore true (opened .created 40 true)).pl.acq = true := by decide +kernel

/-- `StartStorageEntersUsbStore`: both portable modes with a medium that answers, and a mode without a
format. -/
theorem test_hyp_start_storage :
    (let s := inMode .portIdle false (formatted 4)
     s.params.Valid ∧ s.ma.halted = false ∧ s.ma.mode = .portIdle ∧ s.pl.acq = false ∧
        s.med.busy = false ∧ mediumAnswersOk 5 s ∧
        (decodeFsb (blockAt s s.params.firstFileBlock)).iteration ≠ nextIteration s) ∧
    (let s := inMode .portStore true (opened .created 40 true)
     let b := stopSampling s
     s.params.Valid ∧ s.ma.halted = false ∧ s.ma.mode = .portStore ∧ s.pl.acq = true ∧
        b.med.busy = false ∧ mediumAnswersOk 5 b ∧
        (decodeFsb (blockAt b s.params.firstFileBlock)).iteration ≠ nextIteration b) ∧
    (sT.ma.mode ≠ .portIdle ∧ sT.ma.mode ≠ .portStore ∧
      after (fun u => u.status) (.fsOpen true 0) sT = some (.raised .noExistingFile)) := by
  unfold mediumAnswersOk
  exact ⟨by decide +kernel, by decide +kernel, by decide +kernel⟩

/-- `GetRtcRepliesTimestamp`, `ReadStorageStreamsFile`: from `Stream`, a file that is there, of 40 bytes
in two chunks, a sequence number that is not, a failed read of either chunk, and a failed open. -/
theorem test_hyp_queries :
    let file : List (Nat × Fsb) := [(1, ⟨1, 1, 40, nextNone, 1000, 5⟩)]
    let o (l : List Bool) := openChain (stopSampling (answers l (inMode .stream true (oneFile 40))))
    let s := inMode .stream true (oneFile 40)
    s.params.Valid ∧ s.ma.halted = false ∧ s.ma.mode = .stream ∧
    o [true, true, true, true] = (.ok (1, file), (o [true, true, true, true]).2) ∧
    fileOnMedium s.params 1 0 40 ∧ (40 + s.params.blockBytes - 1) / s.params.blockBytes = 2 ∧
    mediumAnswersOk 2 (o [true, true, true, true]).2 ∧ (∀ e ∈ file, e.2.seq ≠ 2) ∧
    o [true, true, false] = (.ok (1, file), (o [true, true, false]).2) ∧
    (o [true, true, false]).2.env.mediumOk.peek Config.freeMediumOk 0 = false ∧
    o [true, true, true, false] = (.ok (1, file), (o [true, true, true, false]).2) ∧
    mediumAnswersOk 1 (o [true, true, true, false]).2 ∧
    (o [true, true, true, false]).2.env.mediumOk.peek Config.freeMediumOk 1 = false ∧
    o [false] = (.err .sdRead, (o [false]).2) :=
  ⟨by decide +kernel, rfl, rfl, pair_of_fst (by decide +kernel),
    by unfold fileOnMedium; decide +kernel, by decide, by unfold mediumAnswersOk; decide +kernel,
    by decide, pair_of_fst (by decide +kernel), by decide +kernel, pair_of_fst (by decide +kernel),
    by unfold mediumAnswersOk; decide +kernel, by decide +kernel, pair_of_fst (by decide +kernel)⟩

/-- The same two statements, from a store mode with a dirty file. -/
theorem test_hyp_queries_store :
    let s := inMode .usbStore true (opened .created 40 true)
    let o := openChain (stopSampling s)
    s.params.Valid ∧ s.ma.halted = false ∧ s.ma.mode = .usbStore ∧
    o = (.ok (1, [(1, ⟨1, 1, 40, nextNone, 1000, 5⟩)]), o.2) ∧ mediumAnswersOk 2 o.2 :=
  ⟨by decide +kernel, rfl, rfl, pair_of_fst (by decide +kernel),
    by unfold mediumAnswersOk; decide +kernel⟩

/-- `SelfTestShortCircuits`: a failing and a passing driver test; a format that fails, and a filesystem
test that passes. -/
theorem test_hyp_self_test :
    pT.Valid ∧ sT.ma.halted = false ∧ sT.ma.mode = .usbIdle ∧ sT.med.busy = false ∧
    sT.env.driverTest.peek Config.freeDriverTest 0 = 0 ∧
    ({ sT with env := { envT with driverTest := ⟨[127], 0⟩ } } : State).env.driverTest.peek
      Config.freeDriverTest 0 ≠ 0 ∧
    after (fun f => f.ma.halted) .fsSelftest (answers [true, false] sT) = some true ∧
    after (fun f => (f.ma.halted, f.status)) .fsSelftest sT = some (false, .code 0) ∧
    pT.fsSelftestBytes < 2 ^ 32 ∧ fileOnMedium pT pT.firstFileBlock 0 pT.fsSelftestBytes ∧
    mediumAnswersOk (8 + 2 * pT.fsSelftestBytes) sT ∧
    (decodeFsb (blockAt sT pT.firstFileBlock)).iteration ≠ nextIteration sT := by
  unfold mediumAnswersOk fileOnMedium
  decide +kernel

/-- `AcknowledgmentFlushesQueue`, a result and none. -/
theorem test_hyp_ack :
    pT.Valid ∧ sT.ma.halted = false ∧
    (runCommand .gainSet 3 0 sT).2.ma.halted = false ∧
    (runCommand .gainSet 3 0 sT).1 = .ack 4 ∧
    (runCommand .readStorage 7 0 sT).2.ma.halted = false ∧
    (runCommand .readStorage 7 0 sT).1 = .noAck := by decide +kernel

/-- `CommandModeTransitions`, from a mode that acquires. -/
theorem test_hyp_transitions :
    pT.Valid ∧ ModeInv (inMode .portStore true (opened .created 40 false)) ∧
    (inMode .portStore true (opened .created 40 false)).ma.halted = false ∧
    after (fun t => t.ma.halted) (Command.getRtc.toInstr 1 0)
      (inMode .portStore true (opened .created 40 false)) = some false :=
  ⟨pT_valid, ⟨by decide, by decide, by decide⟩, rfl, by decide +kernel⟩

end Sys2Proof.Tests
end

/-! The state after reset (spec/10_state.md R50, 43_mode_arbiter.md R244,
70_reset_and_hazards.md R342 to R344). -/

namespace Sys2Proof.Machine

/-- The spec's defaults are legal parameters (00_scope.md R9). -/
theorem defaultParams_valid : Params.default.Valid := by decide

/-- After reset the ring is bound and empty, both memories list nothing, no write is outstanding, no
file is open and the block is not halted. -/
theorem reset_inv : State.reset.Inv where
  params := defaultParams_valid
  ring := (RingInv.empty rfl defaultParams_valid.1).1
  linkSeq_lt := Nat.two_pow_pos _
  blkIdx_lt := Nat.two_pow_pos _
  store_wf := ⟨.nil, nofun⟩
  medium_wf := ⟨.nil, nofun⟩
  busy_block := nofun
  rdPos_le := Nat.le_refl 0
  start_lt := nofun
  dirty_open := nofun
  halted_error := nofun

/-- After reset the block is in `UsbIdle` and does not acquire. -/
theorem reset_modeInv : ModeInv State.reset where
  store_acquires h := by rcases h with h | h <;> cases h
  acquires_mode := nofun
  idle_stopped _ := rfl

/-- `EXT_RESET`, halted or not, is the warm reset followed by the new mode's colour, if any
(70_reset_and_hazards.md R344, 43_mode_arbiter.md R248). -/
theorem exec_extReset (s : State) :
    exec .extReset s = .next { warmReset s with
      env := { s.env with color := colorTaken s .usbIdle }
      out := s.out ++ colorEvents s .usbIdle
      status := .ok } := by
  change Host.Outcome.next (answer .ok (showMode s.ma.mode (warmReset s))) = _
  rw [showMode_eq s (warmReset s) (by rw [warmReset_env])]
  rfl

/-- Settles O9: both invariants hold field by field. -/
theorem resetMeetsInvariants : Obligations.ResetMeetsInvariants :=
  ⟨reset_inv, reset_modeInv⟩

/-- Settles O12: the power-on values by computation, `EXT_RESET` as a whole next state. -/
theorem resetValues : Obligations.ResetValues :=
  ⟨⟨rfl, rfl, rfl, rfl, rfl, rfl, rfl⟩, exec_extReset⟩

end Sys2Proof.Machine

/-! The fill of the ring against its cursors (spec/10_state.md R25). -/

namespace Sys2Proof.Machine

/-- The fill is the distance of the extended cursors modulo `2C`: the `2C` added to stay in the
naturals (log 21) does not show. -/
theorem used_eq_extended_emod {s : State} (hr : s.ring.r < s.params.ringCapacity) :
    (used s : Int) = ((extW s : Int) - extR s) % (2 * s.params.ringCapacity) := by
  have hR : extR s ≤ extW s + 2 * s.params.ringCapacity := by
    have := extR_lt hr
    omega
  calc (used s : Int)
      = ((extW s : Int) + 2 * s.params.ringCapacity - extR s) % (2 * s.params.ringCapacity) := by
        simp [used, Nat.cast_sub hR]
    _ = ((extW s : Int) - extR s + 2 * s.params.ringCapacity) % (2 * s.params.ringCapacity) := by
        congr 1
        omega
    _ = ((extW s : Int) - extR s) % (2 * s.params.ringCapacity) := Int.add_emod_right _ _

/-- Modulo `C` the phases do not count: an extended cursor is its cursor. -/
theorem extW_emod (s : State) :
    (extW s : Int) % s.params.ringCapacity = (s.ring.w : Int) % s.params.ringCapacity := by
  unfold extW
  split <;> simp

theorem extR_emod (s : State) :
    (extR s : Int) % s.params.ringCapacity = (s.ring.r : Int) % s.params.ringCapacity := by
  unfold extR
  split <;> simp

/-- A ring that is not full holds the distance of its cursors modulo `C`. -/
theorem used_eq_cursor_emod {s : State} (hr : s.ring.r < s.params.ringCapacity)
    (hu : used s < s.params.ringCapacity) :
    (used s : Int) = ((s.ring.w : Int) - s.ring.r) % s.params.ringCapacity := by
  have hdvd : (s.params.ringCapacity : Int) ∣ 2 * s.params.ringCapacity := Dvd.intro_left 2 rfl
  calc (used s : Int)
      = (used s : Int) % s.params.ringCapacity := (Int.emod_eq_of_lt (by omega) (by omega)).symm
    _ = ((extW s : Int) - extR s) % s.params.ringCapacity := by
        rw [used_eq_extended_emod hr, Int.emod_emod_of_dvd _ hdvd]
    _ = ((s.ring.w : Int) - s.ring.r) % s.params.ringCapacity := by
        rw [Int.sub_emod, extW_emod, extR_emod, ← Int.sub_emod]

/-- In one phase the ring holds less than `C` bytes or, overfull, more. -/
theorem used_ne_capacity_of_same_phase {s : State} (hw : s.ring.w < s.params.ringCapacity)
    (hr : s.ring.r < s.params.ringCapacity) (hp : s.ring.wp = s.ring.rp) :
    used s ≠ s.params.ringCapacity := by
  rw [used_eq hw hr, extW, extR, hp]
  split_ifs <;> omega

/-- In opposite phases the fill is `C` more than the distance of the cursors. -/
theorem used_of_opposite_phases {s : State} (hw : s.ring.w < s.params.ringCapacity)
    (hr : s.ring.r < s.params.ringCapacity) (hp : s.ring.wp ≠ s.ring.rp) :
    used s = s.params.ringCapacity + s.ring.w - s.ring.r := by
  rw [used_eq hw hr, extW, extR, Bool.eq_not_of_ne hp]
  cases s.ring.rp with
  | false =>
    simp only [Bool.not_false, if_true, Bool.false_eq_true, if_false]
    split <;> omega
  | true =>
    simp only [Bool.not_true, if_true, Bool.false_eq_true, if_false]
    split <;> omega

/-- Full is half way round the `2C` extended offsets: the same cursor in the other phase. -/
theorem used_eq_capacity_iff {s : State} (hw : s.ring.w < s.params.ringCapacity)
    (hr : s.ring.r < s.params.ringCapacity) :
    used s = s.params.ringCapacity ↔ s.ring.w = s.ring.r ∧ s.ring.wp ≠ s.ring.rp := by
  by_cases hp : s.ring.wp = s.ring.rp
  · simp [hp, used_ne_capacity_of_same_phase hw hr hp]
  · rw [used_of_opposite_phases hw hr hp]
    constructor
    · exact fun h => ⟨by omega, hp⟩
    · rintro ⟨h, -⟩
      omega

/-- Empty is no distance at all. -/
theorem used_eq_zero_iff {s : State} (hw : s.ring.w < s.params.ringCapacity)
    (hr : s.ring.r < s.params.ringCapacity) : used s = 0 ↔ extW s = extR s := by
  have hR := extR_lt hr
  rw [used_eq hw hr]
  split <;> omega

/-- Settles O23, a clause to a lemma. -/
theorem usedAgreesWithCursors : Obligations.UsedAgreesWithCursors := fun _ h =>
  ⟨used_eq_extended_emod h.r_lt, used_eq_cursor_emod h.r_lt, used_eq_capacity_iff h.w_lt h.r_lt,
    used_eq_zero_iff h.w_lt h.r_lt⟩

end Sys2Proof.Machine

/-! Every operation answers a next state that only appends to the history, keeps a recorded
model fault and leaves the parameters and the requests to come alone (spec/10_state.md R47, R49). -/

namespace Sys2Proof.Machine

/-! ### The operations that read or set a file register -/

/-- Reading the timestamps changes nothing. -/
theorem fsRtcGet_state (s : State) : (fsRtcGet s).2 = s := by
  unfold fsRtcGet
  split_ifs <;> rfl

/-- Reading the size changes nothing. -/
theorem fsSizeGet_state (s : State) : (fsSizeGet s).2 = s := by
  unfold fsSizeGet
  split_ifs <;> rfl

theorem fsOpen_grows (create : Bool) (seq : U32) (s : State) :
    Grows s (fsOpen create seq s).2 := by
  cases create with
  | true => exact fsCreate_grows s
  | false => exact fsReopen_grows seq s

theorem fsSeek_grows (pos : Nat) (s : State) : Grows s (fsSeek pos s).2 := by
  unfold fsSeek
  split_ifs <;> exact .same rfl rfl rfl rfl

theorem fsRtcSet_grows (v sub : U32) (s : State) : Grows s (fsRtcSet v sub s).2 := by
  unfold fsRtcSet
  split_ifs <;> exact .same rfl rfl rfl rfl

theorem fsContinue_grows (s : State) : Grows s (fsContinue s).2 := (fsContinue_step s).grows

theorem fsFlush_grows (s : State) : Grows s (fsFlush s).2 := (fsFlush_step s).grows

theorem calDone_grows (s : State) : Grows s (calDone s) := by
  unfold calDone
  split_ifs <;> exact .same rfl rfl rfl rfl

/-! ### Every operation -/

theorem exec_grows (i : Instr) (s : State) : ∃ t, exec i s = .next t ∧ Grows s t := by
  cases i with
  | cmdInit v1 v2 | cmdReset v1 v2 | cmdSelfTest v1 v2 | cmdReadEeprom v1 v2 | cmdGainSet v1 v2
  | cmdStartStorage v1 v2 | cmdStartLink v1 v2 | cmdReadStorage v1 v2 | cmdGetSampleCount v1 v2
  | cmdGetGitHash v1 v2 | cmdGetRtc v1 v2 | cmdSetRtc v1 v2 | cmdGetModePortable v1 v2 =>
    exact ⟨_, rfl, perform_grows (runCommand_grows _ v1 v2 s)⟩
  | btnPress => exact ⟨_, rfl, serveMode_grows (btnPress_grows s)⟩
  | btnHold => exact ⟨_, rfl, serveMode_grows (btnHold_grows s)⟩
  | stopSampling => exact ⟨_, rfl, serveMode_grows (stopSampling_grows s)⟩
  | cpStep => exact ⟨_, rfl, cpStep_grows s⟩
  | extReset =>
    exact ⟨_, rfl, ((warmReset_grows s).trans (showMode_grows _ _)).trans (answer_grows _ _)⟩
  | rbInit => exact ⟨_, rfl, serve_grows (rbInit_grows s)⟩
  | rbWrite data => exact ⟨_, rfl, serve_grows (rbWrite_grows data s)⟩
  | rbRead len => exact ⟨_, rfl, serve_grows (rbRead_grows len.toNat s)⟩
  | rbSelftest => exact ⟨_, rfl, serve_grows (rbSelftest_grows s)⟩
  | fsFormat portable => exact ⟨_, rfl, serve_grows (fsFormat_grows portable s)⟩
  | fsOpen create seq => exact ⟨_, rfl, serve_grows (fsOpen_grows create seq s)⟩
  | fsSeek pos => exact ⟨_, rfl, serve_grows (fsSeek_grows pos.toNat s)⟩
  | fsWrite data => exact ⟨_, rfl, serve_grows (fsWrite_grows data s)⟩
  | fsRead len => exact ⟨_, rfl, serve_grows (fsRead_grows len.toNat s)⟩
  | fsRtcGet => exact ⟨_, rfl, serve_grows (by rw [fsRtcGet_state]; exact .refl s)⟩
  | fsRtcSet v sub => exact ⟨_, rfl, serve_grows (fsRtcSet_grows v sub s)⟩
  | fsClose => exact ⟨_, rfl, serve_grows (fsClose_grows s)⟩
  | fsSizeGet => exact ⟨_, rfl, serve_grows (by rw [fsSizeGet_state]; exact .refl s)⟩
  | fsBeginWrite data => exact ⟨_, rfl, serve_grows (fsBeginWrite_grows data s)⟩
  | fsContinue => exact ⟨_, rfl, serve_grows (fsContinue_grows s)⟩
  | fsSelftest => exact ⟨_, rfl, serve_grows (fsSelftest_grows s)⟩
  | fsFlush => exact ⟨_, rfl, serve_grows (fsFlush_grows s)⟩
  | plBegin => exact ⟨_, rfl, serve_grows (plBegin_grows s)⟩
  | plStop => exact ⟨_, rfl, serve_grows (.same rfl rfl rfl rfl)⟩
  | calDone => exact ⟨_, rfl, serve_grows (calDone_grows s)⟩
  | tick => exact ⟨_, rfl, serve_grows (tickBody_grows s)⟩
  | plDrainLink => exact ⟨_, rfl, serve_grows (drainLink_grows s)⟩
  | plDrainStorage => exact ⟨_, rfl, serve_grows (drainStorage_grows s)⟩

/-- Settles O14: the one state that `exec` answers has grown. -/
theorem historyOnlyGrows : Obligations.HistoryOnlyGrows := by
  intro i s t hnext
  obtain ⟨u, hu, hg⟩ := exec_grows i s
  cases hu.symm.trans hnext
  exact ⟨hg.out, hg.fault, hg.params, hg.inputs⟩

end Sys2Proof.Machine

/-! Every step keeps the invariant of Safety.lean: every operation does, a host append and a
refused request do not reach what it speaks of (spec/10_state.md R22, R25, R31, R32, R42, R45,
60_exceptions.md R310). -/

namespace Sys2Proof.Machine

/-! ### The operations that set a file register -/

theorem fsOpen_inv {s : State} (create : Bool) (seq : U32) (h : s.Inv) :
    (fsOpen create seq s).2.Inv := by
  cases create with
  | true => exact fsCreate_inv h
  | false => exact fsReopen_inv seq h

/-- An operation that sets nothing but file registers keeps the invariant when it keeps its file
part. -/
theorem State.Inv.setFileRegs {s : State} (h : s.Inv) {f : FileRegs}
    (hf : FileInv { s with fs := f }) : ({ s with fs := f } : State).Inv :=
  { h with
    ring := h.ring.congr rfl rfl, rdPos_le := hf.rdPos_le, start_lt := hf.start_lt,
    dirty_open := hf.dirty_open }

theorem fsSeek_inv {s : State} (pos : Nat) (h : s.Inv) : (fsSeek pos s).2.Inv := by
  have hf := fsSeek_file pos h.file
  revert hf
  unfold fsSeek
  split_ifs
  · exact fun _ => h
  · exact fun _ => h
  · exact h.setFileRegs

theorem fsRtcSet_inv {s : State} (v sub : U32) (h : s.Inv) : (fsRtcSet v sub s).2.Inv := by
  have hf := fsRtcSet_file v sub h.file
  revert hf
  unfold fsRtcSet
  split_ifs
  · exact fun _ => h
  · exact h.setFileRegs

/-! ### Every operation -/

theorem exec_inv (i : Instr) {s : State} (h : s.Inv) : ∃ t, exec i s = .next t ∧ t.Inv := by
  cases i with
  | cmdInit v1 v2 | cmdReset v1 v2 | cmdSelfTest v1 v2 | cmdReadEeprom v1 v2 | cmdGainSet v1 v2
  | cmdStartStorage v1 v2 | cmdStartLink v1 v2 | cmdReadStorage v1 v2 | cmdGetSampleCount v1 v2
  | cmdGetGitHash v1 v2 | cmdGetRtc v1 v2 | cmdSetRtc v1 v2 | cmdGetModePortable v1 v2 =>
    exact ⟨_, rfl, perform_inv h (runCommand_inv _ v1 v2 h)⟩
  | btnPress => exact ⟨_, rfl, serveMode_inv h (btnPress_inv h)⟩
  | btnHold => exact ⟨_, rfl, serveMode_inv h (btnHold_inv h)⟩
  | stopSampling => exact ⟨_, rfl, serveMode_inv h (stopSampling_inv h)⟩
  | cpStep => exact ⟨_, rfl, cpStep_inv h⟩
  | extReset => exact ⟨_, rfl, (showMode_inv _ (warmReset_inv h)).congr rfl⟩
  | rbInit => exact ⟨_, rfl, serve_inv h fun _ => rbInit_inv h⟩
  | rbWrite data => exact ⟨_, rfl, serve_inv h fun _ => rbWrite_inv data h⟩
  | rbRead len => exact ⟨_, rfl, serve_inv h fun _ => rbRead_inv len.toNat h⟩
  | rbSelftest => exact ⟨_, rfl, serve_inv h fun _ => rbSelftest_inv h⟩
  | fsFormat portable => exact ⟨_, rfl, serve_inv h fun _ => fsFormat_inv portable h⟩
  | fsOpen create seq => exact ⟨_, rfl, serve_inv h fun _ => fsOpen_inv create seq h⟩
  | fsSeek pos => exact ⟨_, rfl, serve_inv h fun _ => fsSeek_inv pos.toNat h⟩
  | fsWrite data => exact ⟨_, rfl, serve_inv h fun _ => fsWrite_inv data h⟩
  | fsRead len => exact ⟨_, rfl, serve_inv h fun _ => fsRead_inv len.toNat h⟩
  | fsRtcGet => exact ⟨_, rfl, serve_inv h fun _ => by rw [fsRtcGet_state]; exact h⟩
  | fsRtcSet v sub => exact ⟨_, rfl, serve_inv h fun _ => fsRtcSet_inv v sub h⟩
  | fsClose => exact ⟨_, rfl, serve_inv h fun _ => fsClose_inv h⟩
  | fsSizeGet => exact ⟨_, rfl, serve_inv h fun _ => by rw [fsSizeGet_state]; exact h⟩
  | fsBeginWrite data => exact ⟨_, rfl, serve_inv h fun _ => fsBeginWrite_inv data h⟩
  | fsContinue => exact ⟨_, rfl, serve_inv h fun _ => fsContinue_inv h⟩
  | fsSelftest => exact ⟨_, rfl, serve_inv h fun _ => fsSelftest_inv h⟩
  | fsFlush => exact ⟨_, rfl, serve_inv h fun _ => fsFlush_inv h⟩
  | plBegin => exact ⟨_, rfl, serve_inv h fun _ => plBegin_inv h⟩
  | plStop => exact ⟨_, rfl, serve_inv h fun _ => plStop_inv h⟩
  | calDone => exact ⟨_, rfl, serve_inv h fun _ => calDone_inv h⟩
  | tick => exact ⟨_, rfl, serve_inv h (tickBody_inv h)⟩
  | plDrainLink => exact ⟨_, rfl, serve_inv h fun _ => drainLink_inv h⟩
  | plDrainStorage => exact ⟨_, rfl, serve_inv h (drainStorage_inv h)⟩

/-! ### Every step -/

/-- A host append grows the receive queue, also of a halted block: the error slot stays. -/
theorem hostAppend_inv {s : State} (m : Bytes) (h : s.Inv) : (hostAppend m s).Inv :=
  { h with ring := h.ring.congr rfl rfl, halted_error := h.halted_error }

theorem refuseRequest_inv {s : State} (h : s.Inv) : (refuseRequest s).Inv :=
  (setFault_inv .refusedRequest h).congr rfl

/-- What a step that answers a next state can be: nothing is offered, or the next request is taken
and is a host message, an operation, or no operation at all. -/
theorem step_next_cases {s t : State} (h : step s = .next t) :
    s.fault = none ∧ ((s.inputs = [] ∧ t = s) ∨ ∃ i rest, s.inputs = i :: rest ∧
      ((∃ m, inputAction s.params i = .append m ∧ t = hostAppend m { s with inputs := rest }) ∨
       (∃ op, inputAction s.params i = .run op ∧ exec op { s with inputs := rest } = .next t) ∨
       (∃ why, inputAction s.params i = .refuse why ∧
          t = refuseRequest { s with inputs := rest }))) := by
  unfold step at h
  split at h
  · cases h
  · rename_i hfault
    refine ⟨hfault, ?_⟩
    split at h
    · rename_i hempty
      cases h
      exact .inl ⟨hempty, rfl⟩
    · rename_i i rest hinputs
      refine .inr ⟨i, rest, hinputs, ?_⟩
      split at h
      · rename_i m hm
        cases h
        exact .inl ⟨m, hm, rfl⟩
      · rename_i op hop
        exact .inr (.inl ⟨op, hop, h⟩)
      · rename_i why hwhy
        cases h
        exact .inr (.inr ⟨why, hwhy, rfl⟩)

/-- Settles O10, by what the step can be: each of its kinds keeps the invariant, and taking the
request off the list does not touch it. -/
theorem stepKeepsInv : Obligations.StepKeepsInv := by
  intro s t h hstep
  have taken (rest : List Input) : ({ s with inputs := rest } : State).Inv := h.congr rfl
  obtain ⟨-, ⟨-, rfl⟩ | ⟨-, rest, -, ⟨m, -, rfl⟩ | ⟨op, -, hexec⟩ | ⟨-, -, rfl⟩⟩⟩ :=
    step_next_cases hstep
  · exact h
  · exact hostAppend_inv m (taken rest)
  · obtain ⟨u, hu, hinv⟩ := exec_inv op (taken rest)
    cases hu.symm.trans hexec
    exact hinv
  · exact refuseRequest_inv (taken rest)

end Sys2Proof.Machine

/-! The ring as a queue of bytes (spec/20_memory.md R85): each ring request as a whole next state,
read through its unread bytes. -/

namespace Sys2Proof.Machine

/-! ### The ring requests -/

theorem exec_rbInit {s : State} (hh : s.ma.halted = false) :
    exec .rbInit s = .next { rbInit s with status := .ok } :=
  congrArg Host.Outcome.next (serve_eq hh rfl)

/-- `RB_WRITE` of bytes that fit. -/
theorem exec_rbWrite_fits {data : Bytes} {s : State} (h : RingInv s) (hh : s.ma.halted = false)
    (hlen : data.length ≤ free s) :
    exec (.rbWrite data) s =
      .next { advanceWrite data.length (ringStore data s) with status := .ok } :=
  congrArg Host.Outcome.next (serve_res hh (rbWrite_ok h hlen))

/-- `RB_READ` of bytes that are there. -/
theorem exec_rbRead_served {n : U16} {s : State} (h : RingInv s) (hh : s.ma.halted = false)
    (hn : n.toNat ≤ used s) :
    exec (.rbRead n) s = .next { advanceRead n.toNat { s with
        out := s.out ++
          readTransfers s.params.ringCapacity s.ring.r ((ringBytes s).take n.toNat) } with
      status := .okBytes ((ringBytes s).take n.toNat) } :=
  congrArg Host.Outcome.next (serve_res hh (rbRead_ok h hn))

/-! ### The queue of unread bytes -/

/-- `RB_INIT` empties. -/
theorem ringBytes_rbInit {s : State} (hc : 1 ≤ s.params.ringCapacity) :
    RingInv (rbInit s) ∧ ringBytes (rbInit s) = [] := by
  obtain ⟨hinv, hused⟩ := RingInv.empty (s := rbInit s) rfl hc
  exact ⟨hinv, List.eq_nil_of_length_eq_zero ((ringBytes_length _).trans hused)⟩

/-- A ring in order has room for a byte. -/
theorem RingInv.capacity_pos {s : State} (h : RingInv s) : 1 ≤ s.params.ringCapacity :=
  Nat.one_le_of_lt h.w_lt

/-- Settles O20, a request to a clause: what the operation leaves in the ring stays there when the
status is returned and the transfers are recorded. -/
theorem ringIsFifo : Obligations.RingIsFifo := by
  intro s h hh
  refine ⟨fun data hlen => ?write, fun n hn => ?read, ?init⟩
  case write =>
    obtain ⟨hinv, happended⟩ := ringBytes_write h hlen
    refine ⟨_, exec_rbWrite_fits h hh hlen, hinv.congr rfl rfl, ?_⟩
    rw [← happended]
    exact ringBytes_congr rfl rfl rfl
  case read =>
    obtain ⟨hinv, hleft⟩ := ringBytes_advanceRead h hn
    refine ⟨_, exec_rbRead_served h hh hn, hinv.congr rfl rfl, rfl, ?_⟩
    rw [← hleft]
    exact ringBytes_congr rfl rfl rfl
  case init =>
    obtain ⟨hinv, hempty⟩ := ringBytes_rbInit h.capacity_pos
    refine ⟨_, exec_rbInit hh, hinv.congr rfl rfl, ?_⟩
    rw [← hempty]
    exact ringBytes_congr rfl rfl rfl

end Sys2Proof.Machine

/-! The end of an abandoned pipelined write (spec/20_memory.md R81). -/

namespace Sys2Proof.Machine

/-- With a write outstanding the medium's next state is the old one with that write's block drawn:
one block draw is taken, and the history is as before (log 23). -/
theorem endOutstanding_eq_of_busy {s : State} (hb : s.med.busy = true) :
    endOutstanding s = { s with
      med := { s.med with cells := (endOutstanding s).med.cells, busy := false }
      env := { s.env with block := s.env.block.advance 1 } } := by
  have htape : abandonedTape s = s.env.block.advance 1 := if_pos hb
  have heq := (endOutstanding_eq s).1
  rwa [htape] at heq

/-- The abandoned write's block is the drawn one, cut or filled to a block (log 20); every other byte
of the medium stays. -/
theorem endOutstanding_block_of_busy {s : State} (hb : s.med.busy = true) :
    blockAt (endOutstanding s) s.med.target =
        fit s.params.blockBytes (s.env.block.peek Config.freeBlock 0) ∧
      sameOutsideBlock s.med.target s (endOutstanding s) := by
  have hended := (endOutstanding_eq s).2
  rwa [abandonedEnded, if_pos hb] at hended

/-- Settles O24: the state between is the one in which the outstanding write has been ended, and each
of the three transfers from `s` is that transfer from there. -/
theorem abandonedWriteEndsFirst : Obligations.AbandonedWriteEndsFirst := by
  intro s i d hb
  obtain ⟨hdrawn, hframe⟩ := endOutstanding_block_of_busy hb
  exact ⟨endOutstanding s, endOutstanding_eq_of_busy hb, hdrawn, hframe,
    blkRead_endOutstanding i s, blkWrite_endOutstanding i d s, blkBegin_endOutstanding i d s⟩

end Sys2Proof.Machine

/-! The encoding (spec/30_encoding.md R100 to R102, R113 to R119): each operand shape against its
byte string, the request decoder's answers, and decoder and encoder as inverses of each other. -/

namespace Sys2Proof

/-! ### Values and their bytes -/

/-- A value that fits `n` bytes is read back from them. -/
theorem ofNat_leNat_leBytes {w n : Nat} {v : BitVec w} (hv : v.toNat < 256 ^ n) :
    BitVec.ofNat w (leNat (leBytes n v.toNat)) = v := by
  rw [leNat_leBytes, Nat.mod_eq_of_lt hv, BitVec.ofNat_toNat, BitVec.setWidth_eq]

/-- A byte string no wider than the word it is read into is that word's bytes. -/
theorem leBytes_ofNat_leNat {w n : Nat} {d : Bytes} (hd : d.length = n) (hn : 256 ^ n ≤ 2 ^ w) :
    leBytes n (BitVec.ofNat w (leNat d)).toNat = d := by
  have hlt : leNat d < 2 ^ w := (hd ▸ leNat_lt d).trans_le hn
  rw [BitVec.toNat_ofNat, Nat.mod_eq_of_lt hlt, ← hd, leBytes_leNat]

theorem ofNat_leNat_lt {w n : Nat} {d : Bytes} (hd : d.length = n) :
    (BitVec.ofNat w (leNat d)).toNat < 256 ^ n := by
  rw [BitVec.toNat_ofNat]
  exact (Nat.mod_le _ _).trans_lt (hd ▸ leNat_lt d)

theorem ofNat_leNat_le32 (v : U32) : BitVec.ofNat 32 (leNat (le32 v)) = v :=
  ofNat_leNat_leBytes v.isLt

theorem le32_ofNat_leNat {d : Bytes} (hd : d.length = 4) : le32 (BitVec.ofNat 32 (leNat d)) = d :=
  leBytes_ofNat_leNat hd (by decide)

/-! ### Operand shapes (30_encoding.md R114 to R116) -/

theorem noOperands_eq_ok {ops : Bytes} {i j : Instr} :
    noOperands ops i = .ok j ↔ ops = [] ∧ j = i := by
  unfold noOperands
  cases ops <;> simp [eq_comm]

theorem operand16_eq_ok {ops : Bytes} {k : U16 → Instr} {j : Instr} :
    operand16 ops k = .ok j ↔ ∃ v, ops = leBytes 2 v.toNat ∧ j = k v := by
  unfold operand16
  constructor
  · intro h
    split_ifs at h with hlen
    cases h
    exact ⟨_, (leBytes_ofNat_leNat hlen (by decide)).symm, rfl⟩
  · rintro ⟨v, rfl, rfl⟩
    rw [if_pos (leBytes_length 2 _), ofNat_leNat_leBytes v.isLt]

theorem operand32_eq_ok {ops : Bytes} {k : U32 → Instr} {j : Instr} :
    operand32 ops k = .ok j ↔ ∃ v, ops = le32 v ∧ j = k v := by
  unfold operand32
  constructor
  · intro h
    split_ifs at h with hlen
    cases h
    exact ⟨_, (le32_ofNat_leNat hlen).symm, rfl⟩
  · rintro ⟨v, rfl, rfl⟩
    rw [if_pos (le32_length v), ofNat_leNat_le32]

theorem flagOf_eq_ok {b : Byte} {f : Bool} : flagOf b = .ok f ↔ b = flagByte f := by
  unfold flagOf
  split_ifs <;> cases f <;> simp_all [flagByte]

theorem flagOf_map_eq_ok {b : Byte} {k : Bool → Instr} {j : Instr} :
    (flagOf b).map k = .ok j ↔ ∃ f, b = flagByte f ∧ j = k f := by
  simp only [← flagOf_eq_ok]
  cases flagOf b <;> simp [Except.map, eq_comm]

theorem operandFlag_eq_ok {ops : Bytes} {k : Bool → Instr} {j : Instr} :
    operandFlag ops k = .ok j ↔ ∃ f, ops = [flagByte f] ∧ j = k f := by
  unfold operandFlag
  split
  · simp [flagOf_map_eq_ok]
  · rename_i hne
    constructor
    · nofun
    · rintro ⟨f, rfl, -⟩
      exact absurd rfl (hne _)

theorem operandFlag32_eq_ok {ops : Bytes} {k : Bool → U32 → Instr} {j : Instr} :
    operandFlag32 ops k = .ok j ↔ ∃ f v, ops = flagByte f :: le32 v ∧ j = k f v := by
  unfold operandFlag32
  constructor
  · intro h
    split at h
    · split_ifs at h with hlen
      obtain ⟨f, rfl, rfl⟩ := flagOf_map_eq_ok.1 h
      exact ⟨f, _, by rw [le32_ofNat_leNat hlen], rfl⟩
    · cases h
  · rintro ⟨f, v, rfl, rfl⟩
    simp only [le32_length, if_true, ofNat_leNat_le32]
    exact flagOf_map_eq_ok.2 ⟨f, rfl, rfl⟩

theorem operand32x2_eq_ok {ops : Bytes} {k : U32 → U32 → Instr} {j : Instr} :
    operand32x2 ops k = .ok j ↔ ∃ v w, ops = le32 v ++ le32 w ∧ j = k v w := by
  unfold operand32x2
  constructor
  · intro h
    split_ifs at h with hlen
    cases h
    refine ⟨_, _, ?_, rfl⟩
    rw [le32_ofNat_leNat (by simp [hlen]), le32_ofNat_leNat (by simp [hlen]), List.take_append_drop]
  · rintro ⟨v, w, rfl, rfl⟩
    rw [if_pos (by simp), List.take_left' (le32_length v), List.drop_left' (le32_length v),
      ofNat_leNat_le32, ofNat_leNat_le32]

/-- The announced length is below 65536, because two bytes hold it. -/
theorem operandData_eq_ok {ops : Bytes} {k : Bytes → Instr} {j : Instr} :
    operandData ops k = .ok j ↔
      ∃ d, lengthFits16 d = true ∧ ops = leBytes 2 d.length ++ d ∧ j = k d := by
  unfold operandData
  constructor
  · intro h
    split_ifs at h with hlen
    obtain ⟨htwo, hannounced⟩ := hlen
    cases h
    have htake : (ops.take 2).length = 2 := by simp [htwo]
    have htwoBytes : leBytes 2 (leNat (ops.take 2)) = ops.take 2 := by
      simpa only [htake] using leBytes_leNat (ops.take 2)
    refine ⟨ops.drop 2, ?_, ?_, rfl⟩
    · have hlt := leNat_lt (ops.take 2)
      rw [htake, ← hannounced] at hlt
      exact decide_eq_true hlt
    · rw [hannounced, htwoBytes, List.take_append_drop]
  · rintro ⟨d, hfits, rfl, rfl⟩
    have htwo : (leBytes 2 d.length).length = 2 := leBytes_length _ _
    rw [List.take_left' htwo, List.drop_left' htwo, Laws.EncodedLength.announced hfits]
    simp

theorem operandBlock_eq_ok {p : Params} {ops : Bytes} {k : Bytes → Instr} {j : Instr} :
    operandBlock p ops k = .ok j ↔ ops.length = p.blockBytes ∧ j = k ops := by
  unfold operandBlock
  split_ifs <;> simp_all [eq_comm]

/-! ### Requests -/

/-- A request that stands for `i`: the encoding of a well-formed operation, and nothing that
30_encoding.md R116 refuses. -/
structure RequestOf (p : Params) (code : Byte) (ops : Bytes) (i : Instr) : Prop where
  wellFormed : i.wellFormed p = true
  encodes : encode p i = code :: ops
  legal : ¬ Machine.illegalRequest p code ops

/-- A request is legal when its code is listed, its operand bytes are as many as the row requires
and a flag operand is 0 or 1. -/
theorem not_illegalRequest {p : Params} {code : Byte} {ops : Bytes}
    (hlisted : code.toNat ∈ Machine.listedCodes)
    (hlength : ops.length = Machine.operandBytes p code.toNat ops)
    (hflag : code = 0xA0 ∨ code = 0xA1 → ∃ f, ops.head? = some (flagByte f)) :
    ¬ Machine.illegalRequest p code ops := by
  rintro (hcode | hlen | ⟨hrow, hzero, hone⟩)
  · exact hcode hlisted
  · exact hlen hlength
  · obtain ⟨f, hf⟩ := hflag hrow
    cases f
    · exact hzero hf
    · exact hone hf

/-- What the request decoder can answer, row by row: each row's operands have that row's shape. -/
theorem decodeRequest_requestOf {p : Params} {code : Byte} {ops : Bytes} {i : Instr}
    (h : decodeRequest p code ops = .ok i) : RequestOf p code ops i := by
  unfold decodeRequest at h
  split at h
  -- no operands
  case h_1 | h_2 | h_4 | h_5 | h_6 | h_7 | h_8 | h_10 | h_16 | h_18 | h_19 | h_21 | h_22 | h_23
      | h_24 | h_25 | h_26 | h_27 | h_28 =>
    obtain ⟨rfl, rfl⟩ := noOperands_eq_ok.1 h
    exact ⟨rfl, rfl, not_illegalRequest (by decide) rfl (by simp)⟩
  -- `RB_WRITE`, `FS_WRITE`
  case h_3 | h_14 =>
    obtain ⟨d, hfits, rfl, rfl⟩ := operandData_eq_ok.1 h
    refine ⟨hfits, rfl, not_illegalRequest (by decide) ?_ (by simp)⟩
    have htake : (leBytes 2 d.length ++ d).take 2 = leBytes 2 d.length :=
      List.take_left' (leBytes_length _ _)
    simp [Machine.operandBytes, htake, Laws.EncodedLength.announced hfits]
  -- `RB_READ`, `FS_READ`
  case h_9 | h_15 =>
    obtain ⟨v, rfl, rfl⟩ := operand16_eq_ok.1 h
    exact ⟨rfl, rfl, not_illegalRequest (by decide) rfl (by simp)⟩
  case h_11 => -- `FS_FORMAT`
    obtain ⟨f, rfl, rfl⟩ := operandFlag_eq_ok.1 h
    exact ⟨rfl, rfl, not_illegalRequest (by decide) rfl fun _ => ⟨f, rfl⟩⟩
  case h_12 => -- `FS_OPEN`
    obtain ⟨f, v, rfl, rfl⟩ := operandFlag32_eq_ok.1 h
    exact ⟨rfl, rfl, not_illegalRequest (by decide) rfl fun _ => ⟨f, rfl⟩⟩
  case h_13 => -- `FS_SEEK`
    obtain ⟨v, rfl, rfl⟩ := operand32_eq_ok.1 h
    exact ⟨rfl, rfl, not_illegalRequest (by decide) rfl (by simp)⟩
  case h_17 => -- `FS_RTC_SET`
    obtain ⟨v, w, rfl, rfl⟩ := operand32x2_eq_ok.1 h
    exact ⟨rfl, rfl, not_illegalRequest (by decide) rfl (by simp)⟩
  case h_20 => -- `FS_BEGIN_WRITE`
    obtain ⟨hlen, rfl⟩ := operandBlock_eq_ok.1 h
    exact ⟨decide_eq_true hlen, rfl, not_illegalRequest (by decide) hlen (by simp)⟩
  case h_29 => cases h

/-! ### Host messages -/

/-- A message's bytes against its command and values (30_encoding.md R101, R102). -/
theorem decodeMessage_eq_some {p : Params} {m : Bytes} {c : Command} {v1 v2 : U32} :
    decodeMessage p m = some (c, v1, v2) ↔
      ∃ t vs, m = t :: vs ∧ p.commandOf t = some c ∧ vs.length = p.v1Bytes c + p.v2Bytes c ∧
        BitVec.ofNat 32 (leNat (vs.take (p.v1Bytes c))) = v1 ∧
        BitVec.ofNat 32 (leNat (vs.drop (p.v1Bytes c))) = v2 := by
  unfold decodeMessage
  constructor
  · intro h
    split at h
    · cases h
    · rename_i t vs
      split at h
      · cases h
      · rename_i d hd
        split_ifs at h with hlen
        cases h
        exact ⟨t, vs, rfl, hd, hlen, rfl, rfl⟩
  · rintro ⟨t, vs, rfl, hc, hlen, rfl, rfl⟩
    simp only [hc, hlen, if_true]

theorem v1Bytes_pow_le (p : Params) (c : Command) : 256 ^ p.v1Bytes c ≤ 2 ^ 32 :=
  Nat.pow_le_pow_right (n := 256) (by decide) (p.v1Bytes_le c)

theorem v2Bytes_pow_le (p : Params) (c : Command) : 256 ^ p.v2Bytes c ≤ 2 ^ 32 :=
  Nat.pow_le_pow_right (n := 256) (by decide) (p.v2Bytes_le c)

theorem decodeMessage_encodeMessage {p : Params} (hp : p.Valid) {c : Command} {v1 v2 : U32}
    (hfit : c.valuesFit p v1 v2 = true) :
    decodeMessage p (encodeMessage p c v1 v2) = some (c, v1, v2) := by
  obtain ⟨h1, h2⟩ : v1.toNat < 256 ^ p.v1Bytes c ∧ v2.toNat < 256 ^ p.v2Bytes c := by
    simpa [Command.valuesFit] using hfit
  have hlen : (leBytes (p.v1Bytes c) v1.toNat).length = p.v1Bytes c := leBytes_length _ _
  refine decodeMessage_eq_some.2 ⟨_, _, rfl, Params.commandOf_cmdCode hp c, by simp, ?_, ?_⟩
  · rw [List.take_left' hlen, ofNat_leNat_leBytes h1]
  · rw [List.drop_left' hlen, ofNat_leNat_leBytes h2]

theorem encodeMessage_of_decodeMessage {p : Params} {m : Bytes} {c : Command} {v1 v2 : U32}
    (h : decodeMessage p m = some (c, v1, v2)) :
    c.valuesFit p v1 v2 = true ∧ encodeMessage p c v1 v2 = m := by
  obtain ⟨t, vs, rfl, hc, hlen, rfl, rfl⟩ := decodeMessage_eq_some.1 h
  have htake : (vs.take (p.v1Bytes c)).length = p.v1Bytes c := by simp [hlen]
  have hdrop : (vs.drop (p.v1Bytes c)).length = p.v2Bytes c := by simp [hlen]
  constructor
  · simp only [Command.valuesFit, ofNat_leNat_lt htake, ofNat_leNat_lt hdrop, decide_true,
      Bool.and_true]
  · rw [encodeMessage, leBytes_ofNat_leNat htake (v1Bytes_pow_le p c),
      leBytes_ofNat_leNat hdrop (v2Bytes_pow_le p c), List.take_append_drop,
      Params.cmdCode_of_commandOf hc]

/-- A byte string is a message of `c` exactly when it has the type byte and the length of `c`: its
values, whatever they are, do not matter. -/
theorem decodeMessage_iff_isMessageOf {p : Params} (hp : p.Valid) {m : Bytes} {c : Command} :
    (∃ v1 v2, decodeMessage p m = some (c, v1, v2)) ↔ Machine.isMessageOf p c m := by
  constructor
  · rintro ⟨v1, v2, h⟩
    obtain ⟨t, vs, rfl, hc, hlen, -, -⟩ := decodeMessage_eq_some.1 h
    refine ⟨congrArg some (Params.cmdCode_of_commandOf hc).symm, ?_⟩
    rw [List.length_cons]
    omega
  · rintro ⟨hcode, hlen⟩
    obtain ⟨vs, rfl⟩ := List.head?_eq_some_iff.1 hcode
    rw [List.length_cons] at hlen
    exact ⟨_, _, decodeMessage_eq_some.2
      ⟨_, vs, rfl, Params.commandOf_cmdCode hp c, by omega, rfl, rfl⟩⟩

theorem decodeMessage_eq_none {p : Params} (hp : p.Valid) {m : Bytes}
    (h : ∀ c, ¬ Machine.isMessageOf p c m) : decodeMessage p m = none :=
  Option.eq_none_iff_forall_ne_some.2 fun ⟨c, v1, v2⟩ hm =>
    h c ((decodeMessage_iff_isMessageOf hp).1 ⟨v1, v2, hm⟩)

/-! ### Operations -/

theorem encode_toInstr (p : Params) (c : Command) (v1 v2 : U32) :
    encode p (c.toInstr v1 v2) = encodeMessage p c v1 v2 := by
  cases c <;> rfl

theorem wellFormed_toInstr (p : Params) (c : Command) (v1 v2 : U32) :
    (c.toInstr v1 v2).wellFormed p = c.valuesFit p v1 v2 := by
  cases c <;> rfl

theorem decode_hostCode {p : Params} {code : Byte} {vs : Bytes} {c : Command} {v1 v2 : U32}
    (hcode : isHostCode code = true) (h : decodeMessage p (code :: vs) = some (c, v1, v2)) :
    decode p (code :: vs) = .ok (c.toInstr v1 v2) := by
  simp only [decode, hcode, h, if_true]

theorem decode_requestCode {p : Params} {code : Byte} {ops : Bytes}
    (hcode : isHostCode code = false) : decode p (code :: ops) = decodeRequest p code ops := by
  simp [decode, hcode]

/-- What decodes is a host message of a command, or a request. -/
theorem decode_ok_cases {p : Params} {bs : Bytes} {i : Instr} (h : decode p bs = .ok i) :
    (∃ c v1 v2, decodeMessage p bs = some (c, v1, v2) ∧ i = c.toInstr v1 v2) ∨
      ∃ code ops, bs = code :: ops ∧ decodeRequest p code ops = .ok i := by
  unfold decode at h
  split at h
  · cases h
  · rename_i code ops
    split_ifs at h
    · split at h
      · rename_i c v1 v2 hm
        cases h
        exact .inl ⟨c, v1, v2, hm, rfl⟩
      · cases h
    · exact .inr ⟨code, ops, rfl, h⟩

theorem decode_encodeMessage {p : Params} (hp : p.Valid) (c : Command) {v1 v2 : U32}
    (hfit : c.valuesFit p v1 v2 = true) :
    decode p (encodeMessage p c v1 v2) = .ok (c.toInstr v1 v2) :=
  decode_hostCode (isHostCode_cmdCode hp c) (decodeMessage_encodeMessage hp hfit)

theorem decode_encode {p : Params} {i : Instr} (hp : p.Valid) (hw : i.wellFormed p = true) :
    decode p (encode p i) = .ok i := by
  cases i with
  | cmdInit | cmdReset | cmdSelfTest | cmdReadEeprom | cmdGainSet | cmdStartStorage | cmdStartLink
  | cmdReadStorage | cmdGetSampleCount | cmdGetGitHash | cmdGetRtc | cmdSetRtc
  | cmdGetModePortable => exact decode_encodeMessage hp _ hw
  | btnPress | btnHold | tick | calDone | cpStep | extReset | rbInit | rbSelftest | fsRtcGet
  | fsClose | fsSizeGet | fsContinue | fsSelftest | fsFlush | plBegin | plStop | plDrainLink
  | plDrainStorage | stopSampling => exact noOperands_eq_ok.2 ⟨rfl, rfl⟩
  | rbWrite data | fsWrite data => exact operandData_eq_ok.2 ⟨data, hw, rfl, rfl⟩
  | rbRead len | fsRead len => exact operand16_eq_ok.2 ⟨len, rfl, rfl⟩
  | fsFormat portable => exact operandFlag_eq_ok.2 ⟨portable, rfl, rfl⟩
  | fsOpen create seq => exact operandFlag32_eq_ok.2 ⟨create, seq, rfl, rfl⟩
  | fsSeek pos => exact operand32_eq_ok.2 ⟨pos, rfl, rfl⟩
  | fsRtcSet v sub => exact operand32x2_eq_ok.2 ⟨v, sub, rfl, rfl⟩
  | fsBeginWrite data => exact operandBlock_eq_ok.2 ⟨of_decide_eq_true hw, rfl⟩

theorem encode_of_decode {p : Params} {bs : Bytes} {i : Instr} (h : decode p bs = .ok i) :
    i.wellFormed p = true ∧ encode p i = bs := by
  obtain ⟨c, v1, v2, hm, rfl⟩ | ⟨code, ops, rfl, hr⟩ := decode_ok_cases h
  · rw [wellFormed_toInstr, encode_toInstr]
    exact encodeMessage_of_decodeMessage hm
  · exact ⟨(decodeRequest_requestOf hr).wellFormed, (decodeRequest_requestOf hr).encodes⟩

theorem decode_eq_ok {p : Params} (hp : p.Valid) {bs : Bytes} {i : Instr} :
    decode p bs = .ok i ↔ i.wellFormed p = true ∧ encode p i = bs :=
  ⟨encode_of_decode, fun ⟨hw, he⟩ => he ▸ decode_encode hp hw⟩

/-- Settles O6, operation by operation, each by the shape of its row. -/
theorem decodeOfEncode : Obligations.DecodeOfEncode := fun _ _ => decode_encode

/-- Settles O7: a host message by its command, any other byte string by its row. -/
theorem encodeOfDecode : Obligations.EncodeOfDecode := fun _ _ _ => encode_of_decode

/-- Settles O5: each word is the encoding of its operation. -/
theorem sampleWordsDecode : Obligations.SampleWordsDecode := by
  have word {bs : Bytes} {i : Instr} (hw : i.wellFormed Params.default = true)
      (he : encode Params.default i = bs) : decode Params.default bs = .ok i :=
    (decode_eq_ok Machine.defaultParams_valid).2 ⟨hw, he⟩
  exact ⟨word rfl rfl, word rfl rfl, word rfl rfl, word rfl rfl, word rfl rfl, word rfl rfl⟩

end Sys2Proof

/-! What a step does with the request it takes (spec/30_encoding.md R101, R113, R116, R120;
10_state.md R49). -/

namespace Sys2Proof.Machine

/-! ### The action of a request -/

theorem isHostCode_of_lt {code : Byte} (h : code.toNat < 0x80) : isHostCode code = true :=
  decide_eq_true h

theorem isHostCode_of_le {code : Byte} (h : 0x80 ≤ code.toNat) : isHostCode code = false :=
  decide_eq_false (Nat.not_lt.2 h)

theorem inputAction_hostCode {p : Params} {code : Byte} {vs : Bytes} (h : code.toNat < 0x80) :
    inputAction p (.request (code :: vs)) = .append (code :: vs) := by
  simp [inputAction, actionOf, isHostCode_of_lt h]

theorem inputAction_run {p : Params} {code : Byte} {ops : Bytes} {i : Instr}
    (h : 0x80 ≤ code.toNat) (hd : decodeRequest p code ops = .ok i) :
    inputAction p (.request (code :: ops)) = .run i := by
  simp [inputAction, actionOf, isHostCode_of_le h, hd]

theorem inputAction_refuse {p : Params} {code : Byte} {ops : Bytes} {e : Reject}
    (h : 0x80 ≤ code.toNat) (hd : decodeRequest p code ops = .error e) :
    inputAction p (.request (code :: ops)) = .refuse e := by
  simp [inputAction, actionOf, isHostCode_of_le h, hd]

/-- An illegal request has no row that decodes it. -/
theorem decodeRequest_of_illegal {p : Params} {code : Byte} {ops : Bytes}
    (h : illegalRequest p code ops) : ∃ e, decodeRequest p code ops = .error e := by
  cases hd : decodeRequest p code ops with
  | error e => exact ⟨e, rfl⟩
  | ok i => exact absurd h (decodeRequest_requestOf hd).legal

/-! ### One step, by the action of the request taken -/

section Step

variable {s : State} {input : Input} {rest : List Input}

theorem step_append {m : Bytes} (hf : s.fault = none) (hi : s.inputs = input :: rest)
    (ha : inputAction s.params input = .append m) :
    step s = .next (hostAppend m { s with inputs := rest }) := by
  simp only [step, hf, hi, ha]

theorem step_run {i : Instr} (hf : s.fault = none) (hi : s.inputs = input :: rest)
    (ha : inputAction s.params input = .run i) : step s = exec i { s with inputs := rest } := by
  simp only [step, hf, hi, ha]

theorem step_refuse {why : Reject} (hf : s.fault = none) (hi : s.inputs = input :: rest)
    (ha : inputAction s.params input = .refuse why) :
    step s = .next (refuseRequest { s with inputs := rest }) := by
  simp only [step, hf, hi, ha]

theorem step_waits (hf : s.fault = none) (hi : s.inputs = []) : step s = .next s := by
  simp only [step, hf, hi]

theorem step_faulted {f : Fault} (hf : s.fault = some f) : step s = .fault f := by
  simp only [step, hf]

end Step

/-- `CP_STEP` takes a malformed message off the queue and does nothing else (43_mode_arbiter.md
R240). -/
theorem exec_cpStep_dropped {s : State} {m : Bytes} {q : List Bytes} (hh : s.ma.halted = false)
    (hq : s.ma.rxQ = m :: q) (hm : decodeMessage s.params m = none) :
    exec .cpStep s = .next { s with ma := { s.ma with rxQ := q }, status := .dropped } := by
  simp [exec, execCpStep, cpStep, hh, hq, hm, answer]

/-! ### The statements -/

/-- Settles O4: an illegal request is refused, a host code appends. -/
theorem illegalRequestIsRefused : Obligations.IllegalRequestIsRefused := by
  refine ⟨fun s code ops rest hf hi hcode hill => ?illegal,
    fun s t code vs rest hf hi hcode hstep => ?host⟩
  case illegal =>
    obtain ⟨e, he⟩ := decodeRequest_of_illegal hill
    exact step_refuse hf hi (inputAction_refuse hcode he)
  case host =>
    cases (step_append hf hi (inputAction_hostCode hcode)).symm.trans hstep
    exact hf

/-- Settles O8: the messages by type byte and length, the drop by the failed decoding. -/
theorem malformedMessageIsDropped : Obligations.MalformedMessageIsDropped := fun _ _ _ hp =>
  ⟨fun _ => decodeMessage_iff_isMessageOf hp, fun hh hq hnone =>
    exec_cpStep_dropped hh hq (decodeMessage_eq_none hp hnone)⟩

/-- Settles O1: from code 0x80 on, `decode` is the request decoder that `step` runs. -/
theorem stepRunsDecodedRequest : Obligations.StepRunsDecodedRequest := by
  intro s code ops rest i hf hi hcode hd
  rw [decode_requestCode (isHostCode_of_le hcode)] at hd
  exact step_run hf hi (inputAction_run hcode hd)

/-- Settles O3, a kind of step to a clause. -/
theorem stepWithoutOperation : Obligations.StepWithoutOperation :=
  ⟨fun _ _ _ hf hi => step_append hf hi rfl,
    fun _ _ _ _ hf hi hcode => step_append hf hi (inputAction_hostCode hcode),
    fun _ => step_waits, fun _ _ => step_faulted⟩

end Sys2Proof.Machine

/-! The ring requests one by one (spec/40_ring_buffer.md R140 to R145): binding, a write and a read as
whole next states, the failing accesses, a round trip on an empty ring, and the self-test. -/

namespace Sys2Proof.Machine

/-! ### A write and a read as whole states -/

theorem length_le_capacity {s : State} {n : Nat} (hfit : n ≤ free s) : n ≤ s.params.ringCapacity :=
  hfit.trans (Nat.sub_le _ _)

/-- A write that fits, field by field: the write cursor, the store and the transfers
(40_ring_buffer.md R141, 20_memory.md R77). -/
theorem advanceWrite_ringStore_eq {data : Bytes} {s : State}
    (hw : s.ring.w < s.params.ringCapacity) (hlen : data.length ≤ s.params.ringCapacity) :
    advanceWrite data.length (ringStore data s) = { s with
      ring := { s.ring with
        w := (s.ring.w + data.length) % s.params.ringCapacity
        wp := if s.params.ringCapacity ≤ s.ring.w + data.length then !s.ring.wp else s.ring.wp }
      store := (ringStore data s).store
      out := s.out ++ writeTransfers s.params.ringCapacity s.ring.w data } := by
  have hstored := ringStore_eq data s hw
  generalize ringStore data s = x at hstored
  rw [hstored]
  exact advanceWrite_eq hw hlen

/-- The write adds as many bytes as it stores. -/
theorem used_write {data : Bytes} {s : State} (h : RingInv s) (hfit : data.length ≤ free s) :
    used (advanceWrite data.length (ringStore data s)) = used s + data.length := by
  simpa using congrArg List.length (ringBytes_write h hfit).2

/-- The move of a read cursor keeps the transfers recorded before it (40_ring_buffer.md R142). -/
theorem advanceRead_emitted {len : Nat} {s : State} (es : List Event)
    (hr : s.ring.r < s.params.ringCapacity) (hlen : len ≤ s.params.ringCapacity) :
    advanceRead len { s with out := s.out ++ es } = { s with
      ring := { s.ring with
        r := (s.ring.r + len) % s.params.ringCapacity
        rp := if s.params.ringCapacity ≤ s.ring.r + len then !s.ring.rp else s.ring.rp }
      out := s.out ++ es } :=
  advanceRead_eq (s := { s with out := s.out ++ es }) hr hlen

/-! ### The requests -/

/-- Settles O15: the request is `rbInit`, whose two extended cursors are 0. -/
theorem rbInitEmptiesRing : Obligations.RbInitEmptiesRing := fun _ hh =>
  ⟨exec_rbInit hh, by simp [used, extW, extR]⟩

/-- Settles O16: the whole state, the fill, the bytes written and the bytes kept, each by its law. -/
theorem rbWriteStoresBytes : Obligations.RbWriteStoresBytes := by
  intro s data h hh hfit
  have hlen := length_le_capacity hfit
  refine ⟨_, exec_rbWrite_fits h hh hfit, ?whole, used_write h hfit,
    fun i hi => storeByte_ringStore_at h.w_lt hlen hi,
    fun a ha => storeByte_ringStore_other h.w_lt hlen ha⟩
  case whole => rw [advanceWrite_ringStore_eq h.w_lt hlen]

/-- Settles O17: the read cursor and the transfers of a served read, and the fill it leaves. -/
theorem rbReadReturnsBytes : Obligations.RbReadReturnsBytes := by
  intro s n h hh hn
  refine ⟨_, exec_rbRead_served h hh hn, ?whole, ?fill⟩
  case whole => rw [advanceRead_emitted _ h.r_lt (hn.trans h.used_le)]
  case fill => exact (used_advanceRead (h.congr rfl rfl) hn).1

/-- `RB_WRITE` of more bytes than are free. -/
theorem exec_rbWrite_overflow {data : Bytes} {s : State} (hh : s.ma.halted = false)
    (hb : s.ring.bound = true) (hlen : free s < data.length) :
    exec (.rbWrite data) s = .next { s with status := .raised .overflow } :=
  congrArg Host.Outcome.next (serve_res hh (rbWrite_overflow hb hlen))

/-- `RB_READ` of more bytes than are unread. -/
theorem exec_rbRead_underflow {n : U16} {s : State} (hh : s.ma.halted = false)
    (hb : s.ring.bound = true) (hn : used s < n.toNat) :
    exec (.rbRead n) s = .next { s with status := .raised .underflow } :=
  congrArg Host.Outcome.next (serve_res hh (rbRead_underflow hb hn))

/-- Settles O18: the fill does not depend on the status, so the repetition fails by the same rule. -/
theorem failingRingAccessChangesNothing : Obligations.FailingRingAccessChangesNothing :=
  fun _ hh hb =>
    ⟨fun _ hlen => ⟨exec_rbWrite_overflow hh hb hlen, exec_rbWrite_overflow hh hb hlen⟩,
      fun _ hn => ⟨exec_rbRead_underflow hh hb hn, exec_rbRead_underflow hh hb hn⟩⟩

/-! ### A round trip on an empty ring -/

/-- A write to an empty ring and the read of all it wrote, as a whole state: what was written is all
the ring holds, so the read answers it, and both cursors have moved by its length. -/
theorem rbWrite_rbRead_of_empty {data : Bytes} {s : State} (h : RingInv s) (hempty : used s = 0)
    (hlen : data.length ≤ s.params.ringCapacity) :
    ∃ t u, rbWrite data s = (.ok (), t) ∧ rbRead data.length t = (.ok data, u) ∧ used u = 0 ∧
      u.ring.w = (s.ring.w + data.length) % s.params.ringCapacity ∧
      u.ring.r = (s.ring.r + data.length) % s.params.ringCapacity ∧
      u.store = (ringStore data s).store := by
  have hfit : data.length ≤ free s := by rw [free, hempty]; exact hlen
  obtain ⟨hinv, hbytes⟩ := ringBytes_write h hfit
  rw [List.eq_nil_of_length_eq_zero ((ringBytes_length s).trans hempty), List.nil_append] at hbytes
  have hused := used_write h hfit
  rw [hempty, Nat.zero_add] at hused
  have hread := rbRead_ok hinv hused.ge
  rw [hbytes, List.take_length] at hread
  refine ⟨_, _, rbWrite_ok h hfit, hread, ?fill, ?w, ?r, rfl⟩
  case fill =>
    exact (used_advanceRead (hinv.congr rfl rfl) hused.ge).1.trans
      (Nat.sub_eq_zero_of_le hused.le)
  case w => exact congrArg (fun t => t.ring.w) (advanceWrite_ringStore_eq h.w_lt hlen)
  case r =>
    rw [advanceRead_emitted _ hinv.r_lt (hused.ge.trans hinv.used_le)]
    simp only [advanceWrite_ringStore_eq h.w_lt hlen]

/-- Settles O19: the answers and the cursors of `rbWrite_rbRead_of_empty`. -/
theorem ringRoundTrip : Obligations.RingRoundTrip := by
  intro s data h hempty hlen
  obtain ⟨t, u, hwrite, hread, -, hw, hr, -⟩ := rbWrite_rbRead_of_empty h hempty hlen
  exact ⟨t, u, hwrite, hread, hw, hr⟩

/-! ### The self-test -/

/-- What each piece of the self-test started in `s` hands to the next: no mismatch yet, an empty ring
in order, and the store as it was beyond the ring. -/
structure PassedEmpty (s : State) (r : Bool × State) : Prop where
  passed : r.1 = true
  params : r.2.params = s.params
  inv : RingInv r.2
  empty : used r.2 = 0
  beyond : ∀ a, s.params.ringCapacity ≤ a → storeByte r.2 a = storeByte s a

/-- The write of a string never reaches past the end of the ring. -/
theorem storeByte_ringStore_beyond {data : Bytes} {s : State} (h : RingInv s)
    (hlen : data.length ≤ s.params.ringCapacity) {a : Nat} (ha : s.params.ringCapacity ≤ a) :
    storeByte (ringStore data s) a = storeByte s a :=
  storeByte_ringStore_other h.w_lt hlen fun _ _ =>
    ((Nat.mod_lt _ h.capacity_pos).trans_le ha).ne'

/-- A round trip on an empty ring passes, whatever the store held. -/
theorem PassedEmpty.roundTrip {s : State} {r : Bool × State} {d : Bytes} (h : PassedEmpty s r)
    (hlen : d.length ≤ s.params.ringCapacity) : PassedEmpty s (rbRoundTrip d r.2) := by
  rw [← h.params] at hlen
  have hstep := rbRoundTrip_step d h.inv
  obtain ⟨t, u, hwrite, hread, hused, -, -, hstore⟩ := rbWrite_rbRead_of_empty h.inv h.empty hlen
  have hpass : rbRoundTrip d r.2 = (true, u) := by simp [rbRoundTrip, hwrite, hread]
  rw [hpass] at hstep ⊢
  refine ⟨rfl, hstep.params.trans h.params, hstep.inv h.inv, hused, fun a ha => ?_⟩
  calc storeByte u a
      = storeByte (ringStore d r.2) a := by rw [storeByte, hstore, storeByte]
    _ = storeByte r.2 a := storeByte_ringStore_beyond h.inv hlen (h.params ▸ ha)
    _ = storeByte s a := h.beyond a ha

theorem PassedEmpty.andThen {s : State} {r : Bool × State} {d : Bytes} (h : PassedEmpty s r)
    (hlen : d.length ≤ s.params.ringCapacity) : PassedEmpty s (rbAndThen d r) := by
  rw [rbAndThen, if_pos h.passed]
  exact h.roundTrip hlen

/-- The filler round trips, however many the bound allows. -/
theorem PassedEmpty.fill {s : State} {r : Bool × State} (fuel : Nat) (h : PassedEmpty s r) :
    PassedEmpty s (rbFill fuel r.1 r.2) := by
  induction fuel generalizing r with
  | zero => exact h
  | succ fuel ih =>
    rw [rbFill]
    split
    · exact h
    · exact ih (h.roundTrip (h.params ▸ h.inv.capacity_pos))

theorem rbPattern_length_le (s : State) : (rbPattern s).length ≤ s.params.ringCapacity := by
  simp [rbPattern]

/-- `RB_SELFTEST` from every state: all its round trips pass, and `RB_INIT` follows them. -/
theorem rbSelftest_passes (s : State) (hc : 1 ≤ s.params.ringCapacity) :
    (rbSelftest s).1 = 0 ∧
      ∀ a, s.params.ringCapacity ≤ a → storeByte (rbSelftest s).2 a = storeByte s a := by
  have hpattern := rbPattern_length_le (rbInit s)
  obtain ⟨hinv, hempty⟩ := RingInv.empty (s := rbInit s) rfl hc
  have start : PassedEmpty (rbInit s) (true, rbInit s) := ⟨rfl, rfl, hinv, hempty, fun _ _ => rfl⟩
  have multi := (start.roundTrip (d := [0x5A]) hc).andThen hpattern
  have high := (multi.fill (rbInit s).params.ringCapacity).andThen hpattern
  exact ⟨if_pos high.passed, high.beyond⟩

/-- Settles O21: the result and the bytes beyond the ring by `rbSelftest_passes`, the whole state by
what the ring operations reach. -/
theorem rbSelftestPasses : Obligations.RbSelftestPasses := by
  intro s hh hc
  obtain ⟨hcode, hbeyond⟩ := rbSelftest_passes s hc
  obtain ⟨hring, hstep⟩ := rbSelftest_step s hc
  refine ⟨{ (rbSelftest s).2 with status := .code (rbSelftest s).1 },
    congrArg Host.Outcome.next (serve_eq hh rfl), ?whole, hbeyond⟩
  case whole =>
    rw [hcode]
    have heq := hstep.eq
    rw [hring] at heq
    exact congrArg (fun t : State => { t with status := Status.code 0 }) heq

end Sys2Proof.Machine

/-! The filesystem requests of spec/41_log_filesystem.md: each request as its operation, the registers
of an open file (R167, R171, R172, R175), and the requests that make at most one transfer (R168, R173,
R174, R176). -/

namespace Sys2Proof.Machine

/-! ### A block that was written -/

theorem setBlock_block (i : Nat) (d : Bytes) (s : State) :
    blockAt (setBlock i d s) i = fit s.params.blockBytes d ∧
      sameOutsideBlock i s (setBlock i d s) :=
  ⟨blockAt_setBlock_self i d s, sameOutsideBlock_setBlock i d s⟩

/-- Data of one block is stored uncut. -/
theorem setBlock_wholeBlock {d : Bytes} {s : State} (hd : d.length = s.params.blockBytes)
    (i : Nat) :
    blockAt (setBlock i d s) i = d ∧ sameOutsideBlock i s (setBlock i d s) := by
  have hblock := setBlock_block i d s
  rwa [fit_eq_self hd] at hblock

/-! ### Each request is its operation -/

section Requests

variable {s t : State}

theorem exec_fsFormat {portable : Bool} {r : Res Unit} (hh : s.ma.halted = false)
    (h : fsFormat portable s = (r, t)) :
    exec (.fsFormat portable) s = .next { t with status := r.status fun _ => .ok } :=
  congrArg Host.Outcome.next (serve_res hh h)

theorem exec_fsOpen {create : Bool} {seq : U32} {r : Res U32} (hh : s.ma.halted = false)
    (h : fsOpen create seq s = (r, t)) :
    exec (.fsOpen create seq) s = .next { t with status := r.status .okSeq } :=
  congrArg Host.Outcome.next (serve_res hh h)

theorem exec_fsSeek {pos : U32} {r : Res Unit} (hh : s.ma.halted = false)
    (h : fsSeek pos.toNat s = (r, t)) :
    exec (.fsSeek pos) s = .next { t with status := r.status fun _ => .ok } :=
  congrArg Host.Outcome.next (serve_res hh h)

theorem exec_fsWrite {data : Bytes} {r : Res Unit} (hh : s.ma.halted = false)
    (h : fsWrite data s = (r, t)) :
    exec (.fsWrite data) s = .next { t with status := r.status fun _ => .ok } :=
  congrArg Host.Outcome.next (serve_res hh h)

theorem exec_fsRead {n : U16} {r : Res Bytes} (hh : s.ma.halted = false)
    (h : fsRead n.toNat s = (r, t)) :
    exec (.fsRead n) s = .next { t with status := r.status .okBytes } :=
  congrArg Host.Outcome.next (serve_res hh h)

theorem exec_fsRtcGet {r : Res (U32 × U32)} (hh : s.ma.halted = false)
    (h : fsRtcGet s = (r, t)) :
    exec .fsRtcGet s = .next { t with status := r.status fun x => .okRtc x.1 x.2 } :=
  congrArg Host.Outcome.next (serve_res hh h)

theorem exec_fsRtcSet {v sub : U32} {r : Res Unit} (hh : s.ma.halted = false)
    (h : fsRtcSet v sub s = (r, t)) :
    exec (.fsRtcSet v sub) s = .next { t with status := r.status fun _ => .ok } :=
  congrArg Host.Outcome.next (serve_res hh h)

theorem exec_fsClose {r : Res Unit} (hh : s.ma.halted = false) (h : fsClose s = (r, t)) :
    exec .fsClose s = .next { t with status := r.status fun _ => .ok } :=
  congrArg Host.Outcome.next (serve_res hh h)

theorem exec_fsSizeGet {r : Res Nat} (hh : s.ma.halted = false) (h : fsSizeGet s = (r, t)) :
    exec .fsSizeGet s = .next { t with status := r.status .okSize } :=
  congrArg Host.Outcome.next (serve_res hh h)

theorem exec_fsBeginWrite {data : Bytes} {r : Res Unit} (hh : s.ma.halted = false)
    (h : fsBeginWrite data s = (r, t)) :
    exec (.fsBeginWrite data) s = .next { t with status := r.status fun _ => .ok } :=
  congrArg Host.Outcome.next (serve_res hh h)

theorem exec_fsContinue {r : Res Bool} (hh : s.ma.halted = false) (h : fsContinue s = (r, t)) :
    exec .fsContinue s =
      .next { t with status := r.status fun done => if done then .okDone else .okPending } :=
  congrArg Host.Outcome.next (serve_res hh h)

theorem exec_fsSelftest {r : Res Byte} (hh : s.ma.halted = false) (h : fsSelftest s = (r, t)) :
    exec .fsSelftest s = .next { t with status := r.status .code } :=
  congrArg Host.Outcome.next (serve_res hh h)

theorem exec_fsFlush {a : Status} (hh : s.ma.halted = false) (h : fsFlush s = (a, t)) :
    exec .fsFlush s = .next { t with status := a } :=
  congrArg Host.Outcome.next (serve_eq hh h)

end Requests

/-! ### Registers of an open file -/

section Registers

variable {s : State} (ho : s.fs.isOpen = true)
include ho

theorem fsSeek_inside {pos : Nat} (hpos : pos ≤ s.fs.len) :
    fsSeek pos s = (.ok (), { s with fs := { s.fs with rdPos := pos } }) := by
  simp [fsSeek, ho, hpos]

theorem fsSeek_pastEnd {pos : Nat} (hpos : s.fs.len < pos) :
    fsSeek pos s = (.err .seekPastEnd, s) := by
  simp [fsSeek, ho, hpos]

theorem fsRtcGet_open : fsRtcGet s = (.ok (s.fs.rtcS, s.fs.rtcSub), s) := by
  simp [fsRtcGet, ho]

theorem fsRtcSet_open (v sub : U32) :
    fsRtcSet v sub s =
      (.ok (), { s with fs := { s.fs with rtcS := v, rtcSub := sub, dirty := true } }) := by
  simp [fsRtcSet, ho]

theorem fsSizeGet_fits (hlen : s.fs.len ≤ 2 ^ s.params.sizeBits - 1) :
    fsSizeGet s = (.ok s.fs.len, s) := by
  rw [fsSizeGet, if_neg (by simp [ho]), if_neg (Nat.not_lt.2 hlen)]

theorem fsSizeGet_tooLong (hlen : 2 ^ s.params.sizeBits - 1 < s.fs.len) :
    fsSizeGet s = (.err .fileTooLong, s) := by
  rw [fsSizeGet, if_neg (by simp [ho]), if_pos hlen]

end Registers

/-- Settles O33, a clause to an equation of the operation. -/
theorem openFileRegisters : Obligations.OpenFileRegisters := fun _ hh ho =>
  ⟨fun _ hpos => exec_fsSeek hh (fsSeek_inside ho hpos),
    fun _ hpos => exec_fsSeek hh (fsSeek_pastEnd ho hpos),
    exec_fsRtcGet hh (fsRtcGet_open ho),
    fun v sub => exec_fsRtcSet hh (fsRtcSet_open ho v sub),
    fun hlen => exec_fsSizeGet hh (fsSizeGet_fits ho hlen),
    fun hlen => exec_fsSizeGet hh (fsSizeGet_tooLong ho hlen)⟩

/-! ### The pipelined write -/

/-- `FS_BEGIN_WRITE` at the end of a created file of whole blocks is the medium's `BlkBegin`. -/
theorem fsBeginWrite_of_blkBegin {s t : State} {data : Bytes} {ok : Bool} (ho : s.fs.isOpen = true)
    (hk : s.fs.kind = .created) (hlen : s.fs.len % s.params.blockBytes = 0)
    (h : blkBegin (s.fs.start.toNat + 1 + s.fs.len / s.params.blockBytes) data s = (ok, t)) :
    fsBeginWrite data s = (if ok then .ok () else .err .sdWrite, t) := by
  rw [fsBeginWrite, if_neg (by simp [ho]), if_neg (by simp [hk]), if_neg (by simp [hlen]),
    dataBlk, h]
  cases ok <;> rfl

/-- Settles O39: the three answers of `BlkBegin`; one block of data is stored uncut. -/
theorem beginWriteStartsBlock : Obligations.BeginWriteStartsBlock := by
  intro s data hh hb ho hk hlen hdata
  refine ⟨fun hi hok => ?taken, fun hi hok => ?refused, fun hi => ?outside⟩
  case taken =>
    have h := blkBegin_ok (d := data) hb hi hok
    rw [fit_eq_self hdata] at h
    exact exec_fsBeginWrite hh (fsBeginWrite_of_blkBegin ho hk hlen h)
  case refused =>
    exact exec_fsBeginWrite hh (fsBeginWrite_of_blkBegin ho hk hlen (blkBegin_err hb hi hok))
  case outside =>
    exact exec_fsBeginWrite hh (fsBeginWrite_of_blkBegin ho hk hlen (blkBegin_outside hb hi))

/-- `FS_CONTINUE` on an open file passes the medium's answer on; a block that is done adds to the
file. -/
theorem fsContinue_of_blkStep {s t : State} {a : StepAnswer} (ho : s.fs.isOpen = true)
    (h : blkStep s = (a, t)) :
    fsContinue s = (if a = .err then .err .sdWrite else .ok (a = .done),
      if a = .done then
        { t with fs := { t.fs with len := t.fs.len + t.params.blockBytes, dirty := true } }
      else t) := by
  rw [fsContinue, if_neg (by simp [ho]), h]
  cases a <;> rfl

/-- Settles O40, an answer of `BlkStep` to a clause. -/
theorem continueAdvancesWrite : Obligations.ContinueAdvancesWrite := by
  intro s hh ho
  refine ⟨fun hb => ?idle, fun hb ha => ?pending, fun hb ha => ?done, fun hb ha => ?failed⟩
  case idle => exact exec_fsContinue hh (fsContinue_of_blkStep ho (blkStep_idle hb))
  case pending => exact exec_fsContinue hh (fsContinue_of_blkStep ho (blkStep_pending hb ha))
  case done =>
    exact ⟨_, exec_fsContinue hh (fsContinue_of_blkStep ho (blkStep_done hb ha)), rfl,
      setBlock_block s.med.target s.med.data s⟩
  case failed =>
    exact ⟨_, exec_fsContinue hh (fsContinue_of_blkStep ho (blkStep_err hb ha)), rfl,
      setBlock_block s.med.target _ s⟩

/-! ### Writing the metadata -/

theorem metaFsb_length {s : State} (hp : s.params.Valid) :
    (metaFsb s).length = s.params.blockBytes :=
  fsbBlock_length hp _

/-- Closing a file without pending metadata makes no transfer. -/
theorem fsClose_clean {s : State} (ho : s.fs.isOpen = true) (hd : s.fs.dirty = false) :
    fsClose s = (.ok (), { s with fs := { s.fs with isOpen := false } }) := by
  simp [fsClose, ho, hd]

/-- Settles O35: no file, a clean one, a dirty one whose write succeeds, and one whose write fails. -/
theorem closeWritesPendingMetadata : Obligations.CloseWritesPendingMetadata := by
  intro s hp hh
  refine ⟨fun ho => exec_fsClose hh (fsClose_closed ho),
    fun ho hd => exec_fsClose hh (fsClose_clean ho hd),
    fun ho hd hb hi => ⟨fun hok => ?written, fun hok => ?failed⟩⟩
  case written =>
    exact ⟨_, exec_fsClose hh (fsClose_dirty_ok s hb ho hd hi hok), rfl,
      setBlock_wholeBlock (metaFsb_length hp) s.fs.start.toNat⟩
  case failed =>
    exact ⟨_, exec_fsClose hh (fsClose_dirty_err s hb ho hd hi hok), rfl,
      setBlock_block s.fs.start.toNat _ s⟩

theorem flushEnabled_iff (s : State) : flushEnabled s = true ↔
    s.fs.isOpen = true ∧ s.fs.dirty = true ∧ s.pl.sdState = .idle ∧ s.ma.halted = false := by
  simp [flushEnabled, and_assoc]

/-- An enabled `FS_FLUSH` is the write of the metadata; only a successful one leaves the file
clean. -/
theorem fsFlush_of_blkWrite {s t : State} {ok : Bool} (he : flushEnabled s = true)
    (h : blkWrite s.fs.start.toNat (metaFsb s) s = (ok, t)) :
    fsFlush s = (.ok, if ok then { t with fs := { t.fs with dirty := false } } else t) := by
  rw [fsFlush, if_pos he, h]
  cases ok <;> rfl

theorem fsFlush_disabled {s : State} (he : flushEnabled s = false) : fsFlush s = (.noOp, s) :=
  if_neg (by simp [he])

/-- Settles O41: the two answers of the metadata write, and the disabled flush. -/
theorem flushWritesMetadata : Obligations.FlushWritesMetadata := by
  intro s hp hh
  refine ⟨fun ho hd hidle hb hi => ?enabled, fun hoff => ?disabled⟩
  case enabled =>
    have he := (flushEnabled_iff s).2 ⟨ho, hd, hidle, hh⟩
    refine ⟨fun hok => ?written, fun hok => ?failed⟩
    case written =>
      exact ⟨_, exec_fsFlush hh (fsFlush_of_blkWrite he (blkWrite_ok hb hi hok)), rfl,
        setBlock_wholeBlock (metaFsb_length hp) s.fs.start.toNat⟩
    case failed =>
      exact ⟨_, exec_fsFlush hh (fsFlush_of_blkWrite he (blkWrite_err hb hi hok)), rfl,
        setBlock_block s.fs.start.toNat _ s⟩
  case disabled =>
    refine exec_fsFlush hh (fsFlush_disabled (Bool.eq_false_iff.2 fun he => ?_))
    obtain ⟨ho, hd, hidle, -⟩ := (flushEnabled_iff s).1 he
    simp [ho, hd, hidle] at hoff

end Sys2Proof.Machine

/-! Formatting the medium and moving file bytes (spec/41_log_filesystem.md R162, R164, R169,
R170). -/

namespace Sys2Proof.Machine

/-! ### Formatting -/

/-- A format whose superblock read fails writes nothing (41_log_filesystem.md R162). -/
theorem fsFormat_readError {s : State} (portable : Bool) (hp : s.params.Valid)
    (hb : s.med.busy = false) (h1 : s.env.mediumOk.peek Config.freeMediumOk 0 = false) :
    fsFormat portable s = (.err .formatFailure, halt { s with
      fs := { s.fs with isOpen := false, dirty := false }
      env := mediumTaken 1 s
      out := s.out ++ [.blkRead s.params.sbBlock none] }) := by
  have hread := blkRead_err (s := { s with fs := { s.fs with isOpen := false, dirty := false } })
    hb (Params.sb_lt hp) h1
  simp only [fsFormat, formatMedium, readSB, hread]
  rfl

/-- After a superblock read that succeeds, a format is the write of the next superblock. -/
theorem formatMedium_of_read {s : State} (portable : Bool) (hp : s.params.Valid)
    (hb : s.med.busy = false) (h1 : s.env.mediumOk.peek Config.freeMediumOk 0 = true) :
    formatMedium portable s =
      blkWrite s.params.sbBlock (superblock s.params (nextIteration s) portable) { s with
        fs := { s.fs with isOpen := false, dirty := false }
        env := mediumTaken 1 s
        out := s.out ++ [.blkRead s.params.sbBlock (some (blockAt s s.params.sbBlock))] } := by
  have hread := blkRead_ok (s := { s with fs := { s.fs with isOpen := false, dirty := false } })
    hb (Params.sb_lt hp) h1
  simp only [formatMedium, readSB, hread]
  rfl

/-- A format whose superblock write fails (41_log_filesystem.md R162). -/
theorem fsFormat_writeError {s : State} (portable : Bool) (hp : s.params.Valid)
    (hb : s.med.busy = false) (h1 : s.env.mediumOk.peek Config.freeMediumOk 0 = true)
    (h2 : s.env.mediumOk.peek Config.freeMediumOk 1 = false) :
    fsFormat portable s = (.err .formatFailure, halt
      { setBlock s.params.sbBlock (s.env.block.peek Config.freeBlock 0) s with
        fs := { s.fs with isOpen := false, dirty := false }
        env := { mediumTaken 2 s with block := s.env.block.advance 1 }
        out := s.out ++
          [.blkRead s.params.sbBlock (some (blockAt s s.params.sbBlock)),
           .blkWrite s.params.sbBlock
             (superblock s.params (nextIteration s) portable) false] }) := by
  rw [fsFormat, formatMedium_of_read portable hp hb h1,
    blkWrite_err (by exact hb) (by exact Params.sb_lt hp) (by simpa [mediumTaken] using h2)]
  simp [mediumTaken, setBlock]

/-- Settles O25: the superblock of `fsFormat_ok` fills its block. -/
theorem formatWritesSuperblock : Obligations.FormatWritesSuperblock := by
  intro s portable hp hh hb hok
  exact ⟨_, exec_fsFormat hh (fsFormat_ok s portable hp hb hok), rfl,
    setBlock_wholeBlock (superblock_length hp _ _) s.params.sbBlock⟩

/-- Settles O26, a failing transfer to a clause. -/
theorem formatFailureHalts : Obligations.FormatFailureHalts := fun s portable hp hh hb =>
  ⟨fun h1 => exec_fsFormat hh (fsFormat_readError portable hp hb h1),
    fun h1 h2 => ⟨_, exec_fsFormat hh (fsFormat_writeError portable hp hb h1 h2), rfl,
      setBlock_block s.params.sbBlock _ s⟩⟩

/-! ### File bytes -/

theorem Params.block_pos {p : Params} (h : p.Valid) : 0 < p.blockBytes := by
  have := Params.block_ge h
  omega

/-- Settles O36: the medium's bytes do not depend on the returned status. -/
theorem fsWriteAppends : Obligations.FsWriteAppends := by
  intro s data hp hh hb ho hk hfit hok
  obtain ⟨t, hwrite, hstate, hdata, hbefore, hzero, hafter⟩ :=
    fsWrite_ok s data (Params.block_pos hp) hb ho hk hfit hok
  exact ⟨_, exec_fsWrite hh hwrite,
    congrArg (fun u : State => { u with status := Status.ok }) hstate, hdata, hbefore, hzero, hafter⟩

/-- Settles O37. -/
theorem fsReadReturnsFileBytes : Obligations.FsReadReturnsFileBytes := by
  intro s n hp hh hb ho _ m blocks hfit hok
  exact exec_fsRead hh (fsRead_ok s n.toNat (Params.block_pos hp) hb ho hfit hok)

end Sys2Proof.Machine

/-! Opening a file (spec/41_log_filesystem.md R160, R161, R163, R165, R166): the chain that the walk
answers, the create and the open by number after it, and the errors. -/

namespace Sys2Proof.Machine

/-! ### The chain -/

/-- A walk starts at the first file block with no file found. -/
theorem chainWalk_ok {iter : U32} {s t : State} {c : List (Nat × Fsb)}
    (h : chainWalk iter s = (some c, t)) : ChainOk iter s.params c :=
  chainFrom_ok iter _ _ [] c s t ⟨.nil, nofun⟩ nofun (Nat.le_refl _) h

theorem mediumAnswersOk.mono {m n : Nat} {s : State} (h : mediumAnswersOk n s) (hm : m ≤ n) :
    mediumAnswersOk m s := fun k hk => h k (hk.trans_le hm)

/-- Settles O27: order and ranges by the walk's loop invariant, the entries by what each read
answered, and a walk on a medium that answers by its rising block index. -/
theorem chainIsIncreasing : Obligations.ChainIsIncreasing := by
  refine ⟨fun iter s t c h => ⟨chainWalk_onMedium h, chainWalk_ok h⟩, fun iter s hok => ?returns,
    fun s u iter c h => openChain_onMedium h⟩
  case returns => exact chainFrom_returns iter _ _ [] s (hok.mono (Nat.sub_le _ _))

/-- Rising sequence numbers make the entry with a given number unique (41_log_filesystem.md
R165). -/
theorem ChainOk.find?_seq {iter : U32} {p : Params} {c : List (Nat × Fsb)} (h : ChainOk iter p c)
    {e : Nat × Fsb} (he : e ∈ c) : c.find? (fun x => x.2.seq == e.2.seq) = some e := by
  have hnodup : (c.map fun x => x.2.seq).Nodup :=
    List.pairwise_map.2 (h.1.imp fun hlt => BitVec.ne_of_lt hlt.2)
  obtain ⟨x, hx⟩ : ∃ x, c.find? (fun x => x.2.seq == e.2.seq) = some x :=
    Option.isSome_iff_exists.1 (List.find?_isSome.2 ⟨e, he, by simp⟩)
  have hseq : x.2.seq = e.2.seq := by simpa using List.find?_some hx
  rw [hx, List.inj_on_of_nodup_map hnodup (List.mem_of_find?_eq_some hx) he hseq]

/-! ### Opening by sequence number -/

theorem fsOpen_create (seq : U32) (s : State) : fsOpen true seq s = fsCreate s := rfl

theorem fsOpen_reopen (seq : U32) (s : State) : fsOpen false seq s = fsReopen seq s := rfl

/-- Settles O30: the sequence numbers of a chain rise, so the entry found is the one meant. -/
theorem reopenTakesChainEntry : Obligations.ReopenTakesChainEntry := by
  intro s u iter c b f hh hopen he
  have hfind := (openChain_chain hopen).find?_seq he
  exact exec_fsOpen hh ((fsOpen_reopen f.seq s).trans (fsReopen_ok hopen hfind))

/-! ### Creating a file -/

theorem openChain_params {s u : State} {r : Res (U32 × List (Nat × Fsb))}
    (h : openChain s = (r, u)) : u.params = s.params := by
  have hstep := (openChain_step s).1.params
  rwa [h] at hstep

/-- The next file comes after the last one of the chain (41_log_filesystem.md R163). -/
theorem nextFile_of_last {p : Params} {c : List (Nat × Fsb)} {b : Nat} {f : Fsb}
    (hlast : c.getLast? = some (b, f)) :
    nextFile p c = (b + 1 + (f.byteLen.toNat + p.blockBytes - 1) / p.blockBytes, f.seq + 1) := by
  simp only [nextFile, hlast]

theorem lt_nextFile_of_last {p : Params} {c : List (Nat × Fsb)} {b : Nat} {f : Fsb}
    (hlast : c.getLast? = some (b, f)) : b < (nextFile p c).1 := by
  rw [nextFile_of_last hlast]
  exact Nat.lt_add_right _ (Nat.lt_succ_self b)

/-- The write of the FileStartBlock of a new file after the chain `c`, stamped with the clock
(41_log_filesystem.md R163). -/
def writeNewFsb (iter : U32) (c : List (Nat × Fsb)) (u : State) : Bool × State :=
  let rtc := u.env.rtc.peek Config.freeRtc 0
  blkWrite (nextFile u.params c).1
    (fsbBlock u.params ⟨iter, (nextFile u.params c).2, 0, nextNone, rtc.1, rtc.2⟩)
    { u with env := { u.env with rtc := u.env.rtc.advance 1 } }

section Create

variable {s u t l : State} {iter : U32} {c : List (Nat × Fsb)} {b : Nat} {f : Fsb}

theorem writeNewFsb_ok (hb : u.med.busy = false)
    (hroom : (nextFile u.params c).1 < u.params.mediumBlocks)
    (h1 : u.env.mediumOk.peek Config.freeMediumOk 0 = true) :
    let start := (nextFile u.params c).1
    let rtc := u.env.rtc.peek Config.freeRtc 0
    let fsb := fsbBlock u.params ⟨iter, (nextFile u.params c).2, 0, nextNone, rtc.1, rtc.2⟩
    writeNewFsb iter c u = (true, { setBlock start fsb u with
      env := { mediumTaken 1 u with rtc := u.env.rtc.advance 1 }
      out := u.out ++ [.blkWrite start fsb true] }) :=
  blkWrite_ok (s := { u with env := { u.env with rtc := u.env.rtc.advance 1 } }) hb hroom h1

theorem writeNewFsb_err (hb : u.med.busy = false)
    (hroom : (nextFile u.params c).1 < u.params.mediumBlocks)
    (h1 : u.env.mediumOk.peek Config.freeMediumOk 0 = false) :
    let start := (nextFile u.params c).1
    let rtc := u.env.rtc.peek Config.freeRtc 0
    let fsb := fsbBlock u.params ⟨iter, (nextFile u.params c).2, 0, nextNone, rtc.1, rtc.2⟩
    writeNewFsb iter c u = (false, { setBlock start (u.env.block.peek Config.freeBlock 0) u with
      env := { mediumTaken 1 u with
        rtc := u.env.rtc.advance 1, block := u.env.block.advance 1 }
      out := u.out ++ [.blkWrite start fsb false] }) :=
  blkWrite_err (s := { u with env := { u.env with rtc := u.env.rtc.advance 1 } }) hb hroom h1

theorem linkPrevious_err (hlast : c.getLast? = some (b, f)) (hb : t.med.busy = false)
    (hi : b < t.params.mediumBlocks) (h1 : t.env.mediumOk.peek Config.freeMediumOk 0 = false)
    (start : Nat) :
    let link := fsbBlock t.params { f with next := BitVec.ofNat 32 start }
    linkPrevious c start t = (false, { setBlock b (t.env.block.peek Config.freeBlock 0) t with
      env := { mediumTaken 1 t with block := t.env.block.advance 1 }
      out := t.out ++ [.blkWrite b link false] }) := by
  simp only [linkPrevious, hlast, blkWrite_err hb hi h1]

variable (hopen : openChain s = (.ok (iter, c), u))
include hopen

theorem openChain_notBusy : u.med.busy = false := by
  have hbusy := (openChain_step s).2.2 (iter, c) (by rw [hopen])
  rwa [hopen] at hbusy

/-- A medium that is full to its last block (41_log_filesystem.md R163). -/
theorem fsCreate_full (hfull : u.params.mediumBlocks ≤ (nextFile u.params c).1) :
    fsCreate s = (.err .sdWrite, u) := by
  rw [← nextSlot_eq_nextFile] at hfull
  simp only [fsCreate, hopen]
  exact if_pos hfull

/-- A create whose FileStartBlock is not written. -/
theorem fsCreate_of_blockFails (hroom : (nextFile u.params c).1 < u.params.mediumBlocks)
    (hwrite : writeNewFsb iter c u = (false, t)) : fsCreate s = (.err .sdWrite, t) := by
  rw [writeNewFsb] at hwrite
  rw [← nextSlot_eq_nextFile] at hroom hwrite
  simp only [fsCreate, hopen, if_neg (Nat.not_le.2 hroom), rtcNow_eq, hwrite]

theorem lastBlock_lt (hlast : c.getLast? = some (b, f)) : b < u.params.mediumBlocks :=
  ((openChain_chain hopen).2 _ (List.mem_of_getLast? hlast)).2.2

/-- A create whose FileStartBlock is written and whose forward link is not. -/
theorem fsCreate_of_linkFails (hroom : (nextFile u.params c).1 < u.params.mediumBlocks)
    (hwrite : writeNewFsb iter c u = (true, t))
    (hlink : linkPrevious c (nextFile u.params c).1 t = (false, l)) :
    fsCreate s = (.err .sdWrite, l) := by
  rw [writeNewFsb] at hwrite
  rw [← nextSlot_eq_nextFile] at hroom hwrite hlink
  simp only [fsCreate, hopen, if_neg (Nat.not_le.2 hroom), rtcNow_eq, hwrite, hlink]

end Create

/-- The two blocks that a create after a last file writes: each holds what was stored there, and
every other block stays. -/
theorem blockAt_two_writes {s : State} {i k : Nat} (d e : Bytes) (hik : i ≠ k) :
    blockAt (setBlock k e (setBlock i d s)) i = fit s.params.blockBytes d ∧
      blockAt (setBlock k e (setBlock i d s)) k = fit s.params.blockBytes e ∧
      ∀ j, j ≠ i → j ≠ k → blockAt (setBlock k e (setBlock i d s)) j = blockAt s j :=
  ⟨(blockAt_setBlock_ne e _ hik).trans (blockAt_setBlock_self i d s),
    blockAt_setBlock_self k e (setBlock i d s),
    fun _ hi hk => (blockAt_setBlock_ne e _ hk).trans (blockAt_setBlock_ne d s hi)⟩

/-- Settles O28: the chain is empty, so the first slot is taken and no link is written. -/
theorem createFirstFile : Obligations.CreateFirstFile := by
  intro s seq hp hh hb ho hok hvalid hiter
  have hopen := openChain_empty ho hb hp (hok.mono (by decide)) hvalid hiter
  have hcreate := fsCreate_ok hopen (Params.first_lt hp)
    (fun k hk => by simpa [mediumTaken] using hok (2 + k) (Nat.add_lt_add_left hk 2)) nofun
  refine ⟨_, exec_fsOpen hh ((fsOpen_create seq s).trans hcreate), ?whole,
    setBlock_wholeBlock (s := s) (fsbBlock_length hp _) s.params.firstFileBlock⟩
  case whole =>
    simp only [mediumTaken, Tape.advance_advance, List.append_assoc]
    rfl

/-- Settles O29: the two writes go to different blocks, for the new file starts after the last. -/
theorem createLinksPreviousFile : Obligations.CreateLinksPreviousFile := by
  intro s u seq iter c b f hp hh hopen hlast
  rw [← openChain_params hopen] at hp ⊢
  intro hroom hok p start rtc fsb link
  have hne : c ≠ [] := by rintro rfl; cases hlast
  have hslot : nextSlot u.params c = (start, f.seq + 1) :=
    (nextSlot_eq_nextFile u.params c).trans (nextFile_of_last hlast)
  have hcreate := fsCreate_ok hopen (by rwa [nextSlot_eq_nextFile]) (by rwa [if_neg hne])
    fun e he => ((openChain_chain hopen).2 e he).2.2
  simp only [hlast, if_neg hne, hslot] at hcreate
  have hlt : b < start := by
    have hlt := lt_nextFile_of_last (p := u.params) hlast
    rwa [nextFile_of_last hlast] at hlt
  obtain ⟨hstart, hlinked, hframe⟩ := blockAt_two_writes (s := u) fsb link hlt.ne'
  rw [fit_eq_self (fsbBlock_length hp _)] at hstart hlinked
  exact ⟨_, exec_fsOpen hh ((fsOpen_create seq s).trans hcreate), rfl, hstart, hlinked, hframe⟩

/-! ### What an opening reads -/

/-- A piece of a step that only reads, with a failed read among its events exactly when `failed`. -/
def ReadsWith (failed : Prop) (s t : State) : Prop :=
  ∃ es : List Event, t.out = s.out ++ es ∧ (∀ e ∈ es, ∃ i a, e = .blkRead i a) ∧
    (failed ↔ ∃ i, Event.blkRead i none ∈ es)

theorem ReadsWith.nothing {failed : Prop} (hf : ¬ failed) (s : State) : ReadsWith failed s s :=
  ⟨[], by simp, nofun, by simpa using hf⟩

theorem ReadsWith.congr {p q : Prop} {s t : State} (h : ReadsWith p s t) (hpq : p ↔ q) :
    ReadsWith q s t := by
  rwa [propext hpq] at h

/-- What follows a read that succeeded decides. -/
theorem ReadsWith.trans {p q : Prop} {s t u : State} (h : ReadsWith p s t) (k : ReadsWith q t u)
    (hp : ¬ p) : ReadsWith q s u := by
  obtain ⟨es, hes, hreads, hfailed⟩ := h
  obtain ⟨fs, hfs, hreads', hfailed'⟩ := k
  refine ⟨es ++ fs, by rw [hfs, hes, List.append_assoc], fun e he => ?_, ?_⟩
  · exact (List.mem_append.1 he).elim (hreads e) (hreads' e)
  · simp only [List.mem_append, exists_or, ← hfailed, ← hfailed', hp, false_or]

theorem blkRead_readsWith (i : Nat) {s : State} (hb : s.med.busy = false) :
    ReadsWith ((blkRead i s).1 = none) s (blkRead i s).2 := by
  by_cases hi : i < s.params.mediumBlocks
  · cases hok : s.env.mediumOk.peek Config.freeMediumOk 0
    · rw [blkRead_err hb hi hok]
      exact ⟨_, rfl, by simp, by simp⟩
    · rw [blkRead_ok hb hi hok]
      exact ⟨_, rfl, by simp, by simp⟩
  · rw [blkRead_outside hb (Nat.not_lt.1 hi)]
    exact ⟨_, rfl, by simp, by simp⟩

theorem readSB_readsWith {s : State} (hb : s.med.busy = false) :
    ReadsWith ((readSB s).1 = none) s (readSB s).2 := by
  have hread := blkRead_readsWith s.params.sbBlock hb
  unfold readSB
  rcases hr : blkRead s.params.sbBlock s with ⟨answer, s1⟩
  rw [hr] at hread
  cases answer with
  | none => exact hread.congr (by simp)
  | some d => exact hread.congr (by simp)

theorem chainFrom_readsWith (iter : U32) (fuel b : Nat) (c : List (Nat × Fsb)) {s : State}
    (hb : s.med.busy = false) :
    ReadsWith ((chainFrom iter fuel b c s).1 = none) s (chainFrom iter fuel b c s).2 := by
  induction fuel generalizing b c s with
  | zero => exact .nothing nofun s
  | succ fuel ih =>
    rw [chainFrom]
    split
    · exact .nothing nofun s
    · have hread := blkRead_readsWith b hb
      have hidle := (blkRead_step b s).2
      rcases hr : blkRead b s with ⟨answer, s1⟩
      rw [hr] at hread hidle
      cases answer with
      | none => exact hread.congr (by simp)
      | some d =>
        simp only
        split_ifs with hiter hseq hend
        · exact hread.congr (by simp)
        · exact hread.congr (by simp)
        · exact hread.congr (by simp)
        · exact hread.trans (ih _ _ hidle) nofun

/-- An opening with no file open fails with `SdRead` exactly when one of its reads failed. -/
theorem openChain_readsWith {s : State} (ho : s.fs.isOpen = false) (hb : s.med.busy = false) :
    ReadsWith ((openChain s).1 = .err .sdRead) s (openChain s).2 := by
  have hread := readSB_readsWith hb
  have hidle := (readSB_step s).2
  simp only [openChain, fsClose_closed ho]
  rcases hr : readSB s with ⟨sb, s1⟩
  rw [hr] at hread hidle
  cases sb with
  | none => exact hread.congr (by simp)
  | some sb =>
    simp only
    split
    · exact hread.congr (by simp)
    · have hwalk := chainFrom_readsWith sb.iter (s1.params.mediumBlocks + 1)
        s1.params.firstFileBlock [] hidle
      unfold chainWalk
      rcases hc : chainFrom sb.iter (s1.params.mediumBlocks + 1) s1.params.firstFileBlock [] s1
        with ⟨c, s2⟩
      rw [hc] at hwalk
      cases c with
      | none => exact hread.trans (hwalk.congr (by simp)) nofun
      | some c => exact hread.trans (hwalk.congr (by simp)) nofun

/-! ### The close that an opening begins with -/

/-- An opening that could close the open file goes on as the opening of the closed state
(41_log_filesystem.md R166). -/
theorem openChain_of_close {s t : State} (h : fsClose s = (.ok (), t)) :
    openChain s = openChain t := by
  have hclosed : t.fs.isOpen = false := by
    have hstep := (fsClose_step s).2
    rwa [h] at hstep
  simp only [openChain, h, fsClose_closed hclosed]

theorem fsOpen_of_close {s t : State} (h : fsClose s = (.ok (), t)) (create : Bool) (seq : U32) :
    fsOpen create seq s = fsOpen create seq t := by
  cases create with
  | true => simp only [fsOpen_create, fsCreate, openChain_of_close h]
  | false => simp only [fsOpen_reopen, fsReopen, openChain_of_close h]

theorem fsOpen_step (create : Bool) (seq : U32) (s : State) : FsStep s (fsOpen create seq s).2 := by
  cases create with
  | true => exact fsCreate_step s
  | false => exact fsReopen_step seq s

/-- A filesystem step leaves the ring registers, the arbiter and the pipeline as they are. -/
theorem FsStep.withCore_eq {s t : State} (h : FsStep s t) (a : Status) :
    t.withCore s.ring s.ma s.pl a = { t with status := a } := by
  rw [← h.ring, ← h.ma, ← h.pl]
  rfl

/-- An open does not depend on the status that the last request returned. -/
theorem fsOpen_status (create : Bool) (seq : U32) (a : Status) (s : State) :
    fsOpen create seq { s with status := a } =
      ((fsOpen create seq s).1, { (fsOpen create seq s).2 with status := a }) := by
  rw [← (fsOpen_step create seq s).withCore_eq]
  cases create with
  | true => exact fsCreate_withCore s.ring s.ma s.pl a s
  | false => exact fsReopen_withCore s.ring s.ma s.pl a seq s

/-- Settles O31: the reads and their failure by `ReadsWith`; after a close that succeeds the opening
starts anew, and the close's status is overwritten. -/
theorem openingOnlyReads : Obligations.OpeningOnlyReads := by
  refine ⟨fun s u r ho hb hopen => ?reads, fun s t create seq hh hclose hok => ?closes⟩
  case reads =>
    have heq := (openChain_reads s ho hb).eq
    have hreads := openChain_readsWith ho hb
    rw [hopen] at heq hreads
    exact ⟨heq, hreads⟩
  case closes =>
    rcases hc : fsClose s with ⟨r, s1⟩
    have hma : s1.ma = s.ma := by
      have hstep := (fsClose_step s).1.ma
      rwa [hc] at hstep
    cases (exec_fsClose hh hc).symm.trans hclose
    obtain rfl : r = .ok () := by
      cases r with
      | ok => rfl
      | err | fault => cases hok
    have hh1 : ({ s1 with status := .ok } : State).ma.halted = false := hma ▸ hh
    have hstatus := fsOpen_status create seq .ok s1
    have hfirst := fsOpen_of_close hc create seq
    generalize fsOpen create seq s1 = opened at hfirst hstatus
    obtain ⟨answer, u⟩ := opened
    exact (exec_fsOpen hh hfirst).trans (exec_fsOpen hh1 hstatus).symm

end Sys2Proof.Machine

/-! The errors of an open (spec/41_log_filesystem.md R163, R165, R166, 60_exceptions.md R306). -/

namespace Sys2Proof.Machine

/-! ### Before the chain is known -/

/-- An open fails as its opening does, and leaves the state that the opening left. -/
theorem fsOpen_of_openChain_err {s u : State} {e : Err} (h : openChain s = (.err e, u))
    (create : Bool) (seq : U32) : fsOpen create seq s = (.err e, u) := by
  cases create with
  | true => simp only [fsOpen_create, fsCreate, h]
  | false => simp only [fsOpen_reopen, fsReopen, h]

/-- The implicit close of a dirty file whose metadata write fails (41_log_filesystem.md R166). -/
theorem openChain_closeError {s : State} (hb : s.med.busy = false) (ho : s.fs.isOpen = true)
    (hd : s.fs.dirty = true) (hi : s.fs.start.toNat < s.params.mediumBlocks)
    (h1 : s.env.mediumOk.peek Config.freeMediumOk 0 = false) :
    openChain s = (.err .sdWrite,
      { setBlock s.fs.start.toNat (s.env.block.peek Config.freeBlock 0) s with
        fs := { s.fs with isOpen := false, dirty := false }
        env := { mediumTaken 1 s with block := s.env.block.advance 1 }
        out := s.out ++ [.blkWrite s.fs.start.toNat (metaFsb s) false] }) := by
  simp only [openChain, fsClose_dirty_err s hb ho hd hi h1]

/-- A superblock read that succeeds and a failed read of the first file block. -/
theorem openChain_walkError {s : State} (hp : s.params.Valid) (ho : s.fs.isOpen = false)
    (hb : s.med.busy = false) (h1 : s.env.mediumOk.peek Config.freeMediumOk 0 = true)
    (hvalid : superblockValid s.params (blockAt s s.params.sbBlock) = true)
    (h2 : s.env.mediumOk.peek Config.freeMediumOk 1 = false) :
    openChain s = (.err .sdRead, { s with
      env := mediumTaken 2 s
      out := s.out ++ [.blkRead s.params.sbBlock (some (blockAt s s.params.sbBlock)),
        .blkRead s.params.firstFileBlock none] }) := by
  have hread := blkRead_err (i := s.params.firstFileBlock) (s := { s with
      env := mediumTaken 1 s
      out := s.out ++ [.blkRead s.params.sbBlock (some (blockAt s s.params.sbBlock))] })
    hb (Params.first_lt hp) (by simpa [mediumTaken] using h2)
  simp only [openChain, fsClose_closed ho, readSB, blkRead_ok hb (Params.sb_lt hp) h1, hvalid,
    chainWalk, chainFrom, if_neg (Nat.not_le.2 (Params.first_lt hp)), hread]
  simp [mediumTaken]

/-! ### With the chain known -/

/-- No entry of the chain has the wanted sequence number (41_log_filesystem.md R165). -/
theorem fsReopen_missing {s u : State} {iter seq : U32} {c : List (Nat × Fsb)}
    (hopen : openChain s = (.ok (iter, c), u)) (hnone : ∀ e ∈ c, e.2.seq ≠ seq) :
    fsReopen seq s = (.err .noExistingFile, u) := by
  have hfind : c.find? (fun e => e.2.seq == seq) = none :=
    List.find?_eq_none.2 fun e he => by simpa using hnone e he
  simp only [fsReopen, hopen, hfind]

theorem openChain_closed {s u : State} {r : Res (U32 × List (Nat × Fsb))}
    (h : openChain s = (r, u)) : u.fs.isOpen = false := by
  have hclosed := (openChain_step s).2.1
  rwa [h] at hclosed

/-- An open by number opens its file last, so one that fails leaves none open. -/
theorem fsReopen_err_closed {s t : State} {seq : U32} {e : Err}
    (h : fsReopen seq s = (.err e, t)) : t.fs.isOpen = false := by
  rcases hopen : openChain s with ⟨r, u⟩
  have hclosed := openChain_closed hopen
  cases r with
  | err e' =>
    simp only [fsReopen, hopen] at h
    cases h
    exact hclosed
  | fault f => simp [fsReopen, hopen] at h
  | ok x =>
    obtain ⟨iter, c⟩ := x
    cases hfind : c.find? (fun e => e.2.seq == seq) with
    | none =>
      simp only [fsReopen, hopen, hfind] at h
      cases h
      exact hclosed
    | some entry => simp [fsReopen, hopen, hfind] at h

theorem fsOpen_err_closed {s t : State} {create : Bool} {seq : U32} {e : Err}
    (h : fsOpen create seq s = (.err e, t)) : t.fs.isOpen = false := by
  cases create with
  | true =>
    have hclosed := (fsCreate_result s).2.2 e
    rw [← fsOpen_create seq, h] at hclosed
    exact hclosed rfl
  | false => exact fsReopen_err_closed h

/-- The operations return `raise E` exactly for an error result. -/
theorem Res.eq_err_of_status {r : Res U32} {e : Err} (h : r.status .okSeq = .raised e) :
    r = .err e := by
  cases r with
  | err e' => cases h; rfl
  | ok | fault => cases h

/-- Settles O32: the errors before the chain is known are the opening's, the others those of the
create and of the search. -/
theorem openErrors : Obligations.OpenErrors := by
  intro s create seq hp hh p
  refine ⟨fun t e hnext hraised => ?closed, fun ho hd hb hi h1 => ?close, fun ho hb =>
    ⟨fun h1 => ?superblock, fun h1 hv => ?invalid, fun h1 hv h2 => ?walk⟩,
    fun u hopen => exec_fsOpen hh (fsOpen_of_openChain_err hopen create seq),
    fun u iter c hopen => ?chain⟩
  case closed =>
    generalize hr : fsOpen create seq s = result at *
    obtain ⟨r, u⟩ := result
    cases (exec_fsOpen hh hr).symm.trans hnext
    rw [Res.eq_err_of_status hraised] at hr
    have hclosed : u.fs.isOpen = false := fsOpen_err_closed hr
    exact hclosed
  case close =>
    exact ⟨_, exec_fsOpen hh
      (fsOpen_of_openChain_err (openChain_closeError hb ho hd hi h1) create seq), rfl,
      setBlock_block s.fs.start.toNat _ s⟩
  case superblock =>
    exact exec_fsOpen hh (fsOpen_of_openChain_err
      (openChain_readError ho hb (Params.sb_lt hp) h1) create seq)
  case invalid =>
    exact exec_fsOpen hh (fsOpen_of_openChain_err
      (openChain_invalid ho hb (Params.sb_lt hp) h1 hv) create seq)
  case walk =>
    exact exec_fsOpen hh
      (fsOpen_of_openChain_err (openChain_walkError hp ho hb h1 hv h2) create seq)
  case chain =>
    have hb := openChain_notBusy hopen
    have hpar := openChain_params hopen
    subst p
    rw [← hpar] at hp ⊢
    refine ⟨fun hnone => ?missing, fun hfull => ?full, fun hroom h1 => ?block,
      fun b f hlast hroom h1 h2 => ?link⟩
    case missing =>
      exact exec_fsOpen hh ((fsOpen_reopen seq s).trans (fsReopen_missing hopen hnone))
    case full => exact exec_fsOpen hh ((fsOpen_create seq s).trans (fsCreate_full hopen hfull))
    case block =>
      have hcreate := fsCreate_of_blockFails hopen hroom (writeNewFsb_err hb hroom h1)
      exact ⟨_, exec_fsOpen hh ((fsOpen_create seq s).trans hcreate), rfl,
        setBlock_block (nextFile u.params c).1 _ u⟩
    case link =>
      have hmax := lastBlock_lt hopen hlast
      have hcreate := fsCreate_of_linkFails hopen hroom (writeNewFsb_ok hb hroom h1)
        (linkPrevious_err hlast (by exact hb) (by exact hmax) (by simpa [mediumTaken] using h2) _)
      obtain ⟨hstart, hlinked, hframe⟩ := blockAt_two_writes (s := u) _ _
        (lt_nextFile_of_last (p := u.params) hlast).ne'
      rw [fit_eq_self (fsbBlock_length hp _)] at hstart
      refine ⟨_, exec_fsOpen hh ((fsOpen_create seq s).trans hcreate), ?whole, hstart, hlinked,
        hframe⟩
      case whole =>
        simp only [mediumTaken, Tape.advance_advance, List.append_assoc]
        rfl

end Sys2Proof.Machine

/-! One file from the format to its reading (spec/41_log_filesystem.md R177, R178): what each
operation leaves for the next, on a medium that answers, and the two runs made of them. -/

namespace Sys2Proof.Machine

/-! ### The stages of a file -/

/-- A freshly formatted medium: the superblock of iteration `iter`, no file of it, none open. -/
structure Formatted (p : Params) (iter : U32) (portable : Bool) (s : State) : Prop where
  closed : s.fs.isOpen = false
  sb : blockAt s p.sbBlock = superblock p iter portable
  noFile : (decodeFsb (blockAt s p.firstFileBlock)).iteration ≠ iter

/-- The first file of iteration `iter`, created at the time `rtc`, open and holding `data`; while it
is empty its FileStartBlock says so, afterwards the metadata is pending. -/
structure Writing (p : Params) (iter : U32) (portable : Bool) (rtc : U32 × U32) (data : Bytes)
    (s : State) : Prop where
  regs : s.fs = ⟨true, .created, iter, 1, BitVec.ofNat 32 p.firstFileBlock, data.length, nextNone,
    rtc.1, rtc.2, decide (0 < data.length), 0⟩
  sb : blockAt s p.sbBlock = superblock p iter portable
  fsb : data.length = 0 →
    blockAt s p.firstFileBlock = fsbBlock p ⟨iter, 1, 0, nextNone, rtc.1, rtc.2⟩
  bytes : fileBytes s p.firstFileBlock 0 data.length = data

/-- A medium whose only file of iteration `iter` is its first one, created at the time `rtc`, with
the contents `data`. -/
structure HoldsFile (p : Params) (iter : U32) (portable : Bool) (rtc : U32 × U32) (data : Bytes)
    (s : State) : Prop where
  sb : blockAt s p.sbBlock = superblock p iter portable
  fsb : blockAt s p.firstFileBlock =
    fsbBlock p ⟨iter, 1, BitVec.ofNat 32 data.length, nextNone, rtc.1, rtc.2⟩
  bytes : fileBytes s p.firstFileBlock 0 data.length = data

/-- The registers of that file, opened by its number and read up to `pos`. -/
def reopenedRegs (p : Params) (iter : U32) (rtc : U32 × U32) (len pos : Nat) : FileRegs :=
  ⟨true, .reopened, iter, 1, BitVec.ofNat 32 p.firstFileBlock, len, nextNone, rtc.1, rtc.2, false,
    pos⟩

theorem Formatted.status {p : Params} {iter : U32} {portable : Bool} {s : State}
    (h : Formatted p iter portable s) (a : Status) :
    Formatted p iter portable { s with status := a } :=
  ⟨h.closed, h.sb, h.noFile⟩

/-- The bytes of a file are those of the medium. -/
theorem fileBytes_congr {s t : State} {start o n : Nat}
    (hp : t.params.blockBytes = s.params.blockBytes)
    (h : ∀ i < n, mediumByte t ((start + 1) * s.params.blockBytes + o + i) =
      mediumByte s ((start + 1) * s.params.blockBytes + o + i)) :
    fileBytes t start o n = fileBytes s start o n := by
  rw [fileBytes, fileBytes, hp]
  exact List.map_congr_left fun i hi => h i (List.mem_range.1 hi)

/-- A file whose bytes are those of `data`, one by one. -/
theorem fileBytes_eq_of_getD {s : State} {start o : Nat} {data : Bytes}
    (h : ∀ i < data.length,
      mediumByte s ((start + 1) * s.params.blockBytes + o + i) = data.getD i 0) :
    fileBytes s start o data.length = data := by
  apply List.ext_getElem
  · simp [fileBytes]
  · intro i _ hi
    simp [fileBytes, h i hi, hi]

section Stages

variable {n : Nat} {p : Params} {iter : U32} {portable : Bool} {rtc : U32 × U32} {data : Bytes}
  {s : State}

theorem Writing.status (h : Writing p iter portable rtc data s) (a : Status) :
    Writing p iter portable rtc data { s with status := a } :=
  ⟨h.regs, h.sb, h.fsb, h.bytes⟩

theorem HoldsFile.status (h : HoldsFile p iter portable rtc data s) (a : Status) :
    HoldsFile p iter portable rtc data { s with status := a } :=
  ⟨h.sb, h.fsb, h.bytes⟩

/-- What the medium holds is a matter of its bytes. -/
theorem HoldsFile.congr {t : State} (h : HoldsFile p iter portable rtc data s)
    (hp : t.params = s.params) (hm : ∀ a, mediumByte t a = mediumByte s a) :
    HoldsFile p iter portable rtc data t := by
  have hB : t.params.blockBytes = s.params.blockBytes := by rw [hp]
  exact ⟨(blockAt_congr hB fun _ _ => hm _).trans h.sb,
    (blockAt_congr hB fun _ _ => hm _).trans h.fsb,
    (fileBytes_congr hB fun _ _ => hm _).trans h.bytes⟩

theorem fsFormat_stage (portable : Bool) (hp : p.Valid) (h : Ready (2 + n) p s)
    (hnew : (decodeFsb (blockAt s p.firstFileBlock)).iteration ≠ nextIteration s) :
    ∃ t, fsFormat portable s = (.ok (), t) ∧ Ready n p t ∧
      Formatted p (nextIteration s) portable t ∧ t.env.rtc = s.env.rtc := by
  obtain ⟨t, hformat, hready, hclosed, hsb, hframe, hrtc, -⟩ := fsFormat_ready portable hp h
  refine ⟨t, hformat, hready, ⟨hclosed, hsb, ?_⟩, hrtc⟩
  rwa [hframe p.firstFileBlock (Nat.succ_ne_self _)]

theorem fsCreate_stage (hp : p.Valid) (h : Ready (3 + n) p s) (hs : Formatted p iter portable s) :
    ∃ t, fsCreate s = (.ok 1, t) ∧ Ready n p t ∧
      Writing p iter portable (s.env.rtc.peek Config.freeRtc 0) [] t := by
  obtain ⟨t, hcreate, hready, ⟨hregs, hsb, hfsb⟩, -⟩ :=
    fsCreate_ready hp h hs.closed hs.sb hs.noFile
  exact ⟨t, hcreate, hready, hregs, hsb.trans hs.sb, fun _ => hfsb, rfl⟩

theorem fsWrite_stage (data : Bytes) (hp : p.Valid) (h : Ready (data.length + 1 + n) p s)
    (hs : Writing p iter portable rtc [] s)
    (hroom : fileOnMedium p p.firstFileBlock 0 data.length) :
    ∃ t, fsWrite data s = (.ok (), t) ∧ Ready (1 + n) p t ∧
      Writing p iter portable rtc data t := by
  obtain ⟨t, hwrite, hready, hregs, hframe, hbytes, -⟩ :=
    fsWrite_ready data hp h hs.regs rfl rfl rfl rfl hroom
  refine ⟨t, hwrite, hready, ?regs, ?sb, fun hnone => ?fsb, ?bytes⟩
  case regs => simpa using hregs
  case sb => exact (hframe _ (Nat.le_succ _)).trans hs.sb
  case fsb => exact (hframe _ (Nat.le_refl _)).trans (hs.fsb rfl)
  case bytes =>
    refine fileBytes_eq_of_getD fun i hi => ?_
    rw [hready.params]
    exact hbytes i hi

theorem fsClose_stage (hp : p.Valid) (h : Ready (1 + n) p s)
    (hs : Writing p iter portable rtc data s) :
    ∃ t, fsClose s = (.ok (), t) ∧ Ready n p t ∧ t.fs.isOpen = false ∧
      HoldsFile p iter portable rtc data t := by
  have hclean : decide (0 < data.length) = false →
      blockAt s p.firstFileBlock =
        fsbBlock p ⟨iter, 1, BitVec.ofNat 32 data.length, nextNone, rtc.1, rtc.2⟩ := by
    intro hzero
    have hlen : data.length = 0 := by simpa using hzero
    rw [hs.fsb hlen, hlen]
    rfl
  obtain ⟨t, hclose, hready, hclosed, hframe, hfsb, hbytes, -⟩ :=
    fsClose_ready hp h hs.regs rfl rfl hclean
  refine ⟨t, hclose, hready, hclosed, ?sb, hfsb, ?bytes⟩
  case sb => exact (hframe _ (Nat.succ_ne_self _).symm).trans hs.sb
  case bytes =>
    refine (fileBytes_congr (by rw [hready.params, h.params]) fun i _ => hbytes _ ?_).trans hs.bytes
    rw [h.params]
    omega

theorem fsReopen_stage (hp : p.Valid) (hlen : data.length < 2 ^ 32) (h : Ready (2 + n) p s)
    (hclosed : s.fs.isOpen = false) (hs : HoldsFile p iter portable rtc data s) :
    ∃ t, fsReopen 1 s = (.ok 1, t) ∧ Ready n p t ∧ HoldsFile p iter portable rtc data t ∧
      t.fs = reopenedRegs p iter rtc data.length 0 := by
  obtain ⟨t, hopen, hready, hregs, hbytes, -⟩ := fsReopen_ready hp h hclosed hs.sb hs.fsb rfl rfl
  refine ⟨t, hopen, hready, hs.congr (hready.params.trans h.params.symm) hbytes, hregs.trans ?_⟩
  simpa [reopenedRegs] using hlen

theorem fsRead_stage (hp : p.Valid) (h : Ready (data.length + n) p s)
    (hs : HoldsFile p iter portable rtc data s)
    (hregs : s.fs = reopenedRegs p iter rtc data.length 0)
    (hroom : fileOnMedium p p.firstFileBlock 0 data.length) :
    ∃ t, fsRead data.length s = (.ok data, t) ∧ Ready n p t ∧
      HoldsFile p iter portable rtc data t ∧
      t.fs = reopenedRegs p iter rtc data.length data.length := by
  obtain ⟨t, hread, hready, hafter, hbytes, -⟩ :=
    fsRead_ready data.length hp h hregs rfl rfl rfl rfl hroom
  refine ⟨t, ?_, hready, hs.congr (hready.params.trans h.params.symm) hbytes, hafter⟩
  have hdata := hs.bytes
  rw [fileBytes, h.params] at hdata
  rw [hread]
  exact congrArg (fun d => (Res.ok d, t)) hdata

end Stages

/-! ### The round trip -/

theorem Params.sizeBits_eq {p : Params} (h : p.Valid) : p.sizeBits = 32 := by
  obtain ⟨-, -, -, -, -, -, -, -, -, -, -, hsize, -⟩ := h
  exact hsize

/-- Settles O38: the stages one after the other, each request setting the status in between. -/
theorem fsRoundTrip : Obligations.FsRoundTrip := by
  intro s portable data hp hh hb hlen hroom hok hnew
  have hready : Ready (2 + (3 + (data.length + 1 + (2 + (data.length + 0))))) s.params s :=
    ⟨rfl, hb, hh, hok.mono (by omega)⟩
  obtain ⟨t1, hformat, hready1, hstage1, -⟩ := fsFormat_stage portable hp hready hnew
  obtain ⟨t2, hcreate, hready2, hstage2⟩ :=
    fsCreate_stage hp (hready1.status .ok) (hstage1.status .ok)
  obtain ⟨t3, hwrite, hready3, hstage3⟩ :=
    fsWrite_stage data hp (hready2.status (.okSeq 1)) (hstage2.status (.okSeq 1)) hroom
  obtain ⟨t4, hclose, hready4, hclosed, hfile4⟩ :=
    fsClose_stage hp (hready3.status .ok) (hstage3.status .ok)
  obtain ⟨t5, hopen, hready5, hfile5, hregs5⟩ :=
    fsReopen_stage hp (by omega) (hready4.status .ok) hclosed (hfile4.status .ok)
  obtain ⟨t6, hread, hready6, -, hregs6⟩ :=
    fsRead_stage hp (hready5.status (.okSeq 1)) (hfile5.status (.okSeq 1)) hregs5 hroom
  have hn : (BitVec.ofNat 16 data.length).toNat = data.length := Nat.mod_eq_of_lt hlen
  rw [← hn] at hread
  have hlen6 : t6.fs.len = data.length := by rw [hregs6]; rfl
  have hfits : t6.fs.len ≤ 2 ^ t6.params.sizeBits - 1 := by
    rw [hlen6, hready6.params, Params.sizeBits_eq hp]
    omega
  have hsize := fsSizeGet_fits (s := { t6 with status := .okBytes data })
    (by rw [hregs6]; rfl) hfits
  refine ⟨_, _, _, _, _, _, _, exec_fsFormat hh hformat,
    exec_fsOpen hready1.halted ((fsOpen_create 0 _).trans hcreate), rfl,
    exec_fsWrite hready2.halted hwrite, rfl, exec_fsClose hready3.halted hclose, rfl,
    exec_fsOpen hready4.halted ((fsOpen_reopen 1 _).trans hopen), rfl,
    exec_fsRead hready5.halted hread, rfl,
    exec_fsSizeGet hready6.halted hsize, ?_⟩
  exact congrArg Status.okSize hlen6

/-! ### The self-test -/

theorem fsPattern_length (p : Params) : (fsPattern p).length = p.fsSelftestBytes := by
  simp [fsPattern]

/-- Cutting a number to a byte is taking it modulo 256. -/
theorem fsPattern_eq (p : Params) :
    fsPattern p = (List.range p.fsSelftestBytes).map fun i => BitVec.ofNat 8 (i % 256) := by
  rw [fsPattern, ← List.range_eq_range']
  refine List.map_congr_left fun i _ => BitVec.eq_of_toNat_eq ?_
  simp

/-- The second half of the self-test, on the file that holds the pattern: reopened, read and closed
without a transfer. -/
theorem fsSelftestVerify_passes {n : Nat} {p : Params} {iter : U32} {portable : Bool}
    {rtc : U32 × U32} {s : State} (hp : p.Valid) (hsize : (fsPattern p).length < 2 ^ 32)
    (hroom : fileOnMedium p p.firstFileBlock 0 (fsPattern p).length)
    (h : Ready (2 + ((fsPattern p).length + n)) p s) (hclosed : s.fs.isOpen = false)
    (hs : HoldsFile p iter portable rtc (fsPattern p) s) :
    ∃ t, fsSelftestVerify 1 s = (.ok 0, t) ∧ Ready n p t ∧ t.fs.isOpen = false ∧
      HoldsFile p iter portable rtc (fsPattern p) t := by
  obtain ⟨t, hopen, hready', hfile, hregs⟩ := fsReopen_stage hp hsize h hclosed hs
  obtain ⟨u, hread, hready, hfile, hregs⟩ := fsRead_stage hp hready' hfile hregs hroom
  have hclose : fsClose u = (.ok (), { u with fs := { u.fs with isOpen := false } }) :=
    fsClose_clean (by rw [hregs]; rfl) (by rw [hregs]; rfl)
  refine ⟨{ u with fs := { u.fs with isOpen := false } }, ?_,
    ⟨hready.params, hready.busy, hready.halted, hready.ok⟩, rfl, hfile.congr rfl fun _ => rfl⟩
  simp only [fsSelftestVerify, hopen, hready'.params, hread, hclose, hready.params, if_pos]

/-- The self-test on a medium that answers: it passes and leaves its file closed on the medium. -/
theorem fsSelftest_passes {n : Nat} {p : Params} {s : State} (hp : p.Valid)
    (hsize : (fsPattern p).length < 2 ^ 32)
    (hroom : fileOnMedium p p.firstFileBlock 0 (fsPattern p).length)
    (h : Ready (2 + (3 + ((fsPattern p).length + 1 + (2 + ((fsPattern p).length + n))))) p s)
    (hnew : (decodeFsb (blockAt s p.firstFileBlock)).iteration ≠ nextIteration s) :
    ∃ t, fsSelftest s = (.ok 0, t) ∧ Ready n p t ∧ t.fs.isOpen = false ∧
      HoldsFile p (nextIteration s) p.fsSelftestPortable (s.env.rtc.peek Config.freeRtc 0)
        (fsPattern p) t := by
  obtain ⟨t1, hformat, hready1, hstage1, hrtc⟩ := fsFormat_stage p.fsSelftestPortable hp h hnew
  obtain ⟨t2, hcreate, hready2, hstage2⟩ := fsCreate_stage hp hready1 hstage1
  obtain ⟨t3, hwrite, hready3, hstage3⟩ := fsWrite_stage _ hp hready2 hstage2 hroom
  obtain ⟨t4, hclose, hready4, hclosed, hfile4⟩ := fsClose_stage hp hready3 hstage3
  obtain ⟨t5, hverify, hready5, hclosed5, hfile5⟩ :=
    fsSelftestVerify_passes hp hsize hroom hready4 hclosed hfile4
  refine ⟨t5, ?_, hready5, hclosed5, hrtc ▸ hfile5⟩
  simp only [fsSelftest, h.params, hformat, hcreate, hready2.params, hwrite, hclose, hverify]

/-- Settles O42: the file is the one of `fsSelftest_passes`; a self-test that did not halt reaches
nothing beyond the filesystem. -/
theorem fsSelftestPasses : Obligations.FsSelftestPasses := by
  intro s hp hh hb hsize hroom hok hnew p rtc
  rw [← fsPattern_length] at hsize hroom hok
  obtain ⟨t, htest, hready, hclosed, hfile⟩ :=
    fsSelftest_passes (n := 0) hp hsize hroom ⟨rfl, hb, hh, hok.mono (by omega)⟩ hnew
  obtain ⟨u, r, hstep, -, hreach⟩ := fsSelftest_step s hp
  rw [htest] at hreach
  obtain hreach | hreach := hreach
  · cases hreach
    refine ⟨_, exec_fsSelftest hh htest, ?whole, hclosed, hfile.sb, ?fsb, ?bytes⟩
    case whole => exact congrArg (fun v : State => { v with status := Status.code 0 }) hstep.eq
    case fsb =>
      rw [← fsPattern_length p]
      exact (congrArg decodeFsb hfile.fsb).trans (decodeFsb_fsbBlock p _)
    case bytes =>
      have hbytes := hfile.bytes
      rw [fsPattern_length] at hbytes
      exact hbytes.trans (fsPattern_eq p)
  · cases hreach
    cases hready.halted

end Sys2Proof.Machine

/-! The sample pipeline (spec/42_sample_pipeline.md R210 to R216, R218): the session, the routing of
`TICK`, the link drain and the two states of the storage drain. -/

namespace Sys2Proof.Machine

/-! ### The session -/

theorem calDone_calibrating {s : State} (ha : s.pl.acq = true) (hp : s.pl.phase = .calibrating) :
    calDone s = { s with pl := { s.pl with
      phase := .measuring, outCurGain := s.pl.gain, outCurIn := .live, outVoltIn := .live } } :=
  if_pos ⟨ha, hp⟩

theorem calDone_ignored {s : State} (h : s.pl.acq = false ∨ s.pl.phase = .measuring) :
    calDone s = s := by
  rcases h with h | h <;> simp [calDone, h]

theorem exec_plBegin {s : State} (hh : s.ma.halted = false) :
    exec .plBegin s = .next { plBegin s with status := .ok } :=
  congrArg Host.Outcome.next (serve_eq hh rfl)

theorem exec_plStop {s : State} (hh : s.ma.halted = false) :
    exec .plStop s = .next { plStop s with status := .ok } :=
  congrArg Host.Outcome.next (serve_eq hh rfl)

theorem exec_calDone {s t : State} (hh : s.ma.halted = false) (h : calDone s = t) :
    exec .calDone s = .next { t with status := .ok } :=
  congrArg Host.Outcome.next (serve_eq hh (congrArg (Prod.mk Status.ok) h))

/-- Settles O43: a request to a clause, `CAL_DONE` by its two arms. -/
theorem sessionStartsCalibratesStops : Obligations.SessionStartsCalibratesStops := fun _ hh =>
  ⟨exec_plBegin hh, exec_plStop hh, fun ha hp => exec_calDone hh (calDone_calibrating ha hp),
    fun h => exec_calDone hh (calDone_ignored h)⟩

/-! ### The routing of `TICK` -/

section Routing

variable {s : State}

theorem tickBody_stopped (ha : s.pl.acq = false) : tickBody s = (.noOp, s) := if_pos ha

theorem tickBody_stream (ha : s.pl.acq = true) (hm : s.ma.mode = .stream) :
    tickBody s = drainLink s := by
  simp [tickBody, ha, hm]

theorem tickBody_store (ha : s.pl.acq = true)
    (hm : s.ma.mode = .usbStore ∨ s.ma.mode = .portStore) : tickBody s = drainStorage s := by
  rcases hm with hm | hm <;> simp [tickBody, ha, hm]

theorem tickBody_idle (ha : s.pl.acq = true) (hm : s.ma.mode = .usbIdle ∨ s.ma.mode = .portIdle) :
    tickBody s = (.noOp, s) := by
  rcases hm with hm | hm <;> simp [tickBody, ha, hm]

end Routing

/-- A request is served by what its operation does in the state it meets. -/
theorem serve_congr {f g : State → Status × State} {s : State} (h : f s = g s) :
    serve f s = serve g s := by
  simp only [serve, h]

/-- Settles O44, a mode to a clause. -/
theorem tickRoutesByMode : Obligations.TickRoutesByMode := fun _ hh =>
  ⟨fun ha => congrArg Host.Outcome.next (serve_eq hh (tickBody_stopped ha)),
    fun ha hm => congrArg Host.Outcome.next (serve_congr (tickBody_stream ha hm)),
    fun ha hm => congrArg Host.Outcome.next (serve_congr (tickBody_store ha hm)),
    fun ha hm => congrArg Host.Outcome.next (serve_eq hh (tickBody_idle ha hm))⟩

/-- `PL_DRAIN_LINK` and a `TICK` in `Stream` are the link drain. -/
theorem exec_linkDrain {s t : State} {i : Instr} {a : Status} (hh : s.ma.halted = false)
    (hi : i = .plDrainLink ∨ (i = .tick ∧ s.pl.acq = true ∧ s.ma.mode = .stream))
    (h : drainLink s = (a, t)) : exec i s = .next { t with status := a } := by
  rcases hi with rfl | ⟨rfl, ha, hm⟩
  · exact congrArg Host.Outcome.next (serve_eq hh h)
  · exact congrArg Host.Outcome.next (serve_eq hh ((tickBody_stream ha hm).trans h))

/-- `PL_DRAIN_STORAGE` and a `TICK` in a store mode are the storage drain. -/
theorem exec_storageDrain {s t : State} {i : Instr} {a : Status} (hh : s.ma.halted = false)
    (hi : i = .plDrainStorage ∨
      (i = .tick ∧ s.pl.acq = true ∧ (s.ma.mode = .usbStore ∨ s.ma.mode = .portStore)))
    (h : drainStorage s = (a, t)) : exec i s = .next { t with status := a } := by
  rcases hi with rfl | ⟨rfl, ha, hm⟩
  · exact congrArg Host.Outcome.next (serve_eq hh h)
  · exact congrArg Host.Outcome.next (serve_eq hh ((tickBody_store ha hm).trans h))

/-! ### A served ring read inside a drain -/

/-- The state in which a served ring read of `n` bytes leaves the block (40_ring_buffer.md R142). -/
def ringTaken (n : Nat) (s : State) : State :=
  advanceRead n { s with
    out := s.out ++ readTransfers s.params.ringCapacity s.ring.r ((ringBytes s).take n) }

theorem rbRead_eq_ringTaken {n : Nat} {s : State} (h : RingInv s) (hn : n ≤ used s) :
    rbRead n s = (.ok ((ringBytes s).take n), ringTaken n s) :=
  rbRead_ok h hn

theorem ringBytes_ringTaken {n : Nat} {s : State} (h : RingInv s) (hn : n ≤ used s) :
    ringBytes (ringTaken n s) = (ringBytes s).drop n :=
  (ringBytes_advanceRead (h.congr rfl rfl) hn).2

/-! ### The link drain -/

/-- The state after the link's ready test (60_exceptions.md R330). -/
def linkAsked (s : State) : State :=
  { s with env := { s.env with linkReady := s.env.linkReady.advance 1 } }

theorem drawLinkReady_eq_linkAsked (s : State) :
    drawLinkReady s = (s.env.linkReady.peek Config.freeLinkReady 0, linkAsked s) :=
  drawLinkReady_eq s

theorem drainLink_notReady {s : State}
    (hready : s.env.linkReady.peek Config.freeLinkReady 0 = false) :
    drainLink s = (.noOp, linkAsked s) := by
  simp only [drainLink, drawLinkReady_eq_linkAsked, hready]

theorem drainLink_underflow {s : State} (h : RingInv s) (hn : used s < s.params.linkPayload) :
    drainLink s = (.noOp, linkAsked s) := by
  cases hready : s.env.linkReady.peek Config.freeLinkReady 0
  case false => exact drainLink_notReady hready
  case true =>
    have hread : rbRead (linkAsked s).params.linkPayload (linkAsked s) =
        (.err .underflow, linkAsked s) := rbRead_underflow h.bound hn
    simp only [drainLink, drawLinkReady_eq_linkAsked, hready, hread]

/-- A link that is ready and a payload that is there: one frame is sent. -/
theorem drainLink_sends {s : State} (h : RingInv s)
    (hready : s.env.linkReady.peek Config.freeLinkReady 0 = true)
    (hn : s.params.linkPayload ≤ used s) :
    drainLink s = (.sent,
      { linkTx (linkFrame s.params s.pl.linkSeq ((ringBytes s).take s.params.linkPayload))
          (ringTaken s.params.linkPayload (linkAsked s)) with
        pl := { s.pl with linkSeq := nextLinkSeq s } }) := by
  have hread : rbRead (linkAsked s).params.linkPayload (linkAsked s) =
      (.ok ((ringBytes s).take s.params.linkPayload),
        ringTaken s.params.linkPayload (linkAsked s)) :=
    rbRead_eq_ringTaken (h.congr rfl rfl) hn
  simp only [drainLink, drawLinkReady_eq_linkAsked, hready, hread]
  rfl

/-- The value of a frame's length field (30_encoding.md R108, log 27). -/
theorem frameLength_toNat (p : Params) :
    (frameLength p).toNat =
      if p.linkPayload < 2 ^ 16 then p.linkPayload
      else (Config.freeFrameLength p.linkPayload).toNat := by
  unfold frameLength
  split
  case isTrue hfits => exact Nat.mod_eq_of_lt hfits
  case isFalse => rfl

/-- Settles O45: a drain that sends, and the two that only ask the link. -/
theorem linkDrainSendsFrame : Obligations.LinkDrainSendsFrame := by
  intro s i h hh hi
  refine ⟨fun hready hn => ?sends, fun hnone => ?nothing⟩
  case sends =>
    refine ⟨_, exec_linkDrain hh hi (drainLink_sends h hready hn), ?whole,
      ringBytes_ringTaken (s := linkAsked s) (h.congr rfl rfl) hn⟩
    rw [linkFrame, frameLength_toNat]
    rfl
  case nothing =>
    refine exec_linkDrain hh hi (t := linkAsked s) ?_
    rcases hnone with hready | hn
    · exact drainLink_notReady hready
    · exact drainLink_underflow h hn

/-! ### The storage drain in `Idle` -/

/-- The state in which the medium has ended an abandoned write, if there was one, and holds `cells`
(20_memory.md R81). -/
def writeEnded (cells : Memory) (s : State) : State :=
  { s with
    med := { s.med with cells := cells, busy := false }
    env := { s.env with block := abandonedTape s } }

theorem endOutstanding_eq_writeEnded (s : State) :
    ∃ cells, endOutstanding s = writeEnded cells s ∧ abandonedEnded s (writeEnded cells s) := by
  obtain ⟨heq, hended⟩ := endOutstanding_eq s
  exact ⟨_, heq, heq ▸ hended⟩

theorem drainStorage_noFile {s : State} (hidle : s.pl.sdState = .idle)
    (ho : s.fs.isOpen = false) : drainStorage s = (.noOp, s) := by
  simp only [drainStorage, hidle, drainStorageIdle, if_pos ho]

theorem drainStorage_underflow {s : State} (h : RingInv s) (hidle : s.pl.sdState = .idle)
    (hn : used s < s.params.blockBytes) : drainStorage s = (.noOp, s) := by
  cases ho : s.fs.isOpen
  case false => exact drainStorage_noFile hidle ho
  case true =>
    simp only [drainStorage, hidle, drainStorageIdle, ho, rbRead_underflow h.bound hn,
      Bool.true_eq_false, if_false]

/-- What the storage drain leaves after the medium's answer to `BlkBegin`: the sequencer started, or
the error recorded (42_sample_pipeline.md R214). -/
def drainBegun (ok : Bool) (s : State) : Status × State :=
  match ok with
  | true => (.started, { s with pl := { s.pl with sdState := .writeInProgress } })
  | false => (.failed, { s with ma := { s.ma with lastError := .sdWrite } })

/-- `BlkBegin` of one block's data, which the medium holds uncut. -/
theorem blkBegin_wholeBlock {s : State} {i : Nat} {d : Bytes} (hb : s.med.busy = false)
    (hi : i < s.params.mediumBlocks) (hok : s.env.mediumOk.peek Config.freeMediumOk 0 = true)
    (hd : d.length = s.params.blockBytes) :
    blkBegin i d s = (true, { s with
      med := { s.med with busy := true, target := i, data := d }
      env := mediumTaken 1 s
      out := s.out ++ [.blkBegin i d true] }) := by
  rw [blkBegin_ok hb hi hok, fit_eq_self hd]

/-- With a block of unread bytes and a created file of whole blocks the drain is the medium's
`BlkBegin` of those bytes, asked once the ring read and the end of an abandoned write are done. -/
theorem drainStorage_of_blkBegin {s : State} (h : RingInv s) (hidle : s.pl.sdState = .idle)
    (ho : s.fs.isOpen = true) (hn : s.params.blockBytes ≤ used s) (hk : s.fs.kind = .created)
    (hlen : s.fs.len % s.params.blockBytes = 0) :
    ∃ cells, abandonedEnded s (writeEnded cells s) ∧ ∀ {ok : Bool} {t : State},
      blkBegin (s.fs.start.toNat + 1 + s.fs.len / s.params.blockBytes)
          ((ringBytes s).take s.params.blockBytes)
          (writeEnded cells (ringTaken s.params.blockBytes s)) = (ok, t) →
        drainStorage s = drainBegun ok t := by
  obtain ⟨cells, heq, hended⟩ := endOutstanding_eq_writeEnded (ringTaken s.params.blockBytes s)
  refine ⟨cells, hended, fun {ok t} hbegin => ?_⟩
  rw [← heq, ← blkBegin_endOutstanding] at hbegin
  have hfs := fsBeginWrite_of_blkBegin (s := ringTaken s.params.blockBytes s) ho hk hlen hbegin
  simp only [drainStorage, hidle, drainStorageIdle, ho, Bool.true_eq_false, if_false,
    rbRead_eq_ringTaken h hn, hfs]
  cases ok <;> rfl

/-- Settles O46: nothing to drain, then the three answers of `BlkBegin`; the bytes taken are one
block, so the medium stores them uncut. -/
theorem storageDrainStartsBlock : Obligations.StorageDrainStartsBlock := by
  intro s i h hh hidle hi
  refine ⟨fun hnone => ?nothing, fun ho hn hk hlen => ?block⟩
  case nothing =>
    refine exec_storageDrain hh hi ?_
    rcases hnone with ho | hn
    · exact drainStorage_noFile hidle ho
    · exact drainStorage_underflow h hidle hn
  case block =>
    obtain ⟨cells, hended, hdrain⟩ := drainStorage_of_blkBegin h hidle ho hn hk hlen
    have hleft := ringBytes_ringTaken h hn
    have hblock : ((ringBytes s).take s.params.blockBytes).length = s.params.blockBytes := by
      simpa using hn
    refine ⟨fun hin hok => ?taken, fun hin hok => ?refused, fun hout => ?outside⟩
    case taken =>
      exact ⟨_, exec_storageDrain hh hi (hdrain (blkBegin_wholeBlock rfl hin hok hblock)), rfl,
        hended, hleft⟩
    case refused =>
      exact ⟨_, exec_storageDrain hh hi (hdrain (blkBegin_err rfl hin hok)), rfl, hended, hleft⟩
    case outside =>
      exact ⟨_, exec_storageDrain hh hi (hdrain (blkBegin_outside rfl hout)), rfl, hended, hleft⟩

/-! ### The storage drain in `WriteInProgress` -/

section Sequencer

variable {s t : State} (hw : s.pl.sdState = .writeInProgress)
include hw

theorem drainStorage_closed (ho : s.fs.isOpen = false) :
    drainStorage s = (.failed, { s with pl := { s.pl with sdState := .idle } }) := by
  simp only [drainStorage, hw, drainStorageBusy, fsContinue, if_pos ho]
  rfl

theorem drainStorage_pending (ho : s.fs.isOpen = true) (h : blkStep s = (.pending, t)) :
    drainStorage s = (.pending, t) := by
  simp only [drainStorage, hw, drainStorageBusy, fsContinue_of_blkStep ho h]
  rfl

theorem drainStorage_completed (ho : s.fs.isOpen = true) (h : blkStep s = (.done, t)) :
    drainStorage s = (.completed, { t with
      fs := { t.fs with len := t.fs.len + t.params.blockBytes, dirty := true }
      pl := { t.pl with sdState := .idle, blkIdx := nextBlkIdx t } }) := by
  simp only [drainStorage, hw, drainStorageBusy, fsContinue_of_blkStep ho h]
  rfl

theorem drainStorage_failed (ho : s.fs.isOpen = true) (h : blkStep s = (.err, t)) :
    drainStorage s = (.failed, { t with
      ma := { t.ma with lastError := .sdWrite }
      pl := { t.pl with sdState := .idle } }) := by
  simp only [drainStorage, hw, drainStorageBusy, fsContinue_of_blkStep ho h]
  rfl

end Sequencer

/-- Settles O47: no open file, then an answer of `BlkStep` to a clause. -/
theorem sequencerAdvancesOneWrite : Obligations.SequencerAdvancesOneWrite := by
  intro s i hh hw hi
  refine ⟨fun ho => ?closed, fun ho hb => ?idle, fun ho hb ha => ?pending, fun ho hb ha => ?done,
    fun ho hb ha => ?failed⟩
  case closed => exact exec_storageDrain hh hi (drainStorage_closed hw ho)
  case idle => exact exec_storageDrain hh hi (drainStorage_failed hw ho (blkStep_idle hb))
  case pending => exact exec_storageDrain hh hi (drainStorage_pending hw ho (blkStep_pending hb ha))
  case done =>
    exact ⟨_, exec_storageDrain hh hi (drainStorage_completed hw ho (blkStep_done hb ha)), rfl,
      setBlock_block s.med.target s.med.data s⟩
  case failed =>
    exact ⟨_, exec_storageDrain hh hi (drainStorage_failed hw ho (blkStep_err hb ha)), rfl,
      setBlock_block s.med.target _ s⟩

end Sys2Proof.Machine

/-! The commands of the host as steps of the block: the command processor, the acknowledgment and the
mode colour around a command (spec/43_mode_arbiter.md R240 to R243, R248), then the commands that stop
nothing (R250, R251, R255 to R259, R261, R262). -/

namespace Sys2Proof.Machine

/-! ### The mode colour -/

@[simp] theorem colorEvents_self (s : State) : colorEvents s s.ma.mode = [] := if_pos rfl

@[simp] theorem colorTaken_self (s : State) : colorTaken s s.ma.mode = s.env.color := if_pos rfl

/-! ### A command as a step -/

theorem exec_toInstr (c : Command) (v1 v2 : U32) (s : State) :
    exec (c.toInstr v1 v2) s = .next (perform c (runCommand c v1 v2) s) := by
  cases c <;> rfl

section Commands

variable {s t : State} (c : Command) (v1 v2 : U32)

theorem exec_ack {r : Byte} (h : runCommand c v1 v2 s = (.ack r, t)) (hh : s.ma.halted = false)
    (ht : t.ma.halted = false) (hc : t.env.color = s.env.color) :
    exec (c.toInstr v1 v2) s = .next { t with
      ma := { t.ma with rxQ := [] }
      env := { t.env with color := colorTaken s t.ma.mode }
      out := t.out ++ colorEvents s t.ma.mode ++ [.linkTx [t.params.cmdCode c, r]]
      status := .done } :=
  (exec_toInstr c v1 v2 s).trans (congrArg Host.Outcome.next (perform_ack hh h ht hc))

theorem exec_noAck (h : runCommand c v1 v2 s = (.noAck, t)) (hh : s.ma.halted = false)
    (ht : t.ma.halted = false) (hc : t.env.color = s.env.color) :
    exec (c.toInstr v1 v2) s = .next { t with
      env := { t.env with color := colorTaken s t.ma.mode }
      out := t.out ++ colorEvents s t.ma.mode
      status := .done } :=
  (exec_toInstr c v1 v2 s).trans (congrArg Host.Outcome.next (perform_noAck hh h ht hc))

/-- A command that halted the block answers nothing (60_exceptions.md R310). -/
theorem exec_halting {r : CmdResult} (h : runCommand c v1 v2 s = (r, t))
    (hh : s.ma.halted = false) (ht : t.ma.halted = true) (hc : t.env.color = s.env.color) :
    exec (c.toInstr v1 v2) s = .next { t with
      env := { t.env with color := colorTaken s t.ma.mode }
      out := t.out ++ colorEvents s t.ma.mode
      status := .halted } :=
  (exec_toInstr c v1 v2 s).trans (congrArg Host.Outcome.next (perform_halting hh h ht hc))

/-- An acknowledged command that stays in its mode shows no colour. -/
theorem exec_ack_sameMode {r : Byte} (h : runCommand c v1 v2 s = (.ack r, t))
    (hh : s.ma.halted = false) (ht : t.ma.halted = false) (hc : t.env.color = s.env.color)
    (hm : t.ma.mode = s.ma.mode) :
    exec (c.toInstr v1 v2) s = .next { t with
      ma := { t.ma with rxQ := [] }
      out := t.out ++ [.linkTx [t.params.cmdCode c, r]]
      status := .done } := by
  rw [exec_ack c v1 v2 h hh ht hc, hm, colorEvents_self, colorTaken_self, ← hc, List.append_nil]

/-- A command without acknowledgment that stays in its mode shows no colour. -/
theorem exec_noAck_sameMode (h : runCommand c v1 v2 s = (.noAck, t)) (hh : s.ma.halted = false)
    (ht : t.ma.halted = false) (hc : t.env.color = s.env.color) (hm : t.ma.mode = s.ma.mode) :
    exec (c.toInstr v1 v2) s = .next { t with status := .done } := by
  rw [exec_noAck c v1 v2 h hh ht hc, hm, colorEvents_self, colorTaken_self, ← hc,
    List.append_nil]

end Commands

/-! ### The command processor -/

theorem cpStep_performs {s : State} {m : Bytes} {q : List Bytes} {c : Command} {v1 v2 : U32}
    (hh : s.ma.halted = false) (hq : s.ma.rxQ = m :: q)
    (hm : decodeMessage s.params m = some (c, v1, v2)) :
    cpStep s = perform c (runCommand c v1 v2) { s with ma := { s.ma with rxQ := q } } := by
  simp [cpStep, hh, hq, hm]

theorem cpStep_empty {s : State} (hh : s.ma.halted = false) (hq : s.ma.rxQ = []) :
    cpStep s = { s with status := .noOp } := by
  simp [cpStep, hh, hq, answer]

/-- Settles O2: a queued message is performed as its command, an empty queue is answered. -/
theorem cpStepPerformsHeadMessage : Obligations.CpStepPerformsHeadMessage :=
  ⟨fun _ _ _ c v1 v2 hh hq hm =>
      ⟨_, congrArg Host.Outcome.next (cpStep_performs hh hq hm), exec_toInstr c v1 v2 _⟩,
    fun _ hh hq => congrArg Host.Outcome.next (cpStep_empty hh hq)⟩

/-! ### Commands that acknowledge in their mode -/

/-- The seconds of SetRtc are the two low halves side by side (30_encoding.md R103). -/
theorem secondsOperand_eq (v1 v2 : U32) :
    secondsOperand v1 v2 = v1.truncate 16 ++ v2.truncate 16 := by
  rw [secondsOperand, BitVec.append_def, BitVec.shiftLeftZeroExtend_eq]
  rfl

theorem portable_iff (s : State) :
    portable s = true ↔ s.ma.mode = .portIdle ∨ s.ma.mode = .portStore := by
  simp [portable]

theorem runInit_first {s : State} (hi : s.ma.initialized = false) :
    runInit s = (.ack (s.params.errCode s.ma.lastError),
      { s with ma := { s.ma with initialized := true, lastError := .noError } }) := by
  simp [runInit, hi]

/-- Settles O51, an acknowledged command to a clause. -/
theorem plainCommandsAcknowledge : Obligations.PlainCommandsAcknowledge := by
  intro s v1 v2 hh p
  refine ⟨?gainSet, ?setRtc, ?getModePortable, fun hi => ?init⟩
  case gainSet =>
    exact exec_ack_sameMode .gainSet v1 v2 (t := { s with
      pl := { s.pl with gain := gainOperand v1 } }) rfl hh hh rfl rfl
  case setRtc =>
    refine (exec_ack_sameMode .setRtc v1 v2 rfl hh hh rfl rfl).trans ?_
    rw [← secondsOperand_eq, rtcSet, emit, List.append_assoc]
    rfl
  case getModePortable =>
    have h := exec_ack_sameMode (s := s) .getModePortable v1 v2 rfl hh hh rfl rfl
    simp only [portable_iff] at h
    exact h
  case init => exact exec_ack_sameMode .init v1 v2 (runInit_first hi) hh hh rfl rfl

/-! ### Commands that reset the block -/

theorem runInit_again {s : State} (hi : s.ma.initialized = true) :
    runInit s = (.ack (s.params.errCode s.ma.lastError),
      { warmReset s with ma := ⟨.usbIdle, true, .noError, false, []⟩ }) := by
  simp [runInit, hi]

theorem runReset_eq (s : State) :
    runReset s = (if s.env.resetAck.peek Config.freeResetAck 0 then .ack (s.params.cmdCode .reset)
        else .noAck,
      warmReset { s with env := { s.env with resetAck := s.env.resetAck.advance 1 } }) := by
  rw [runReset, drawResetAck_eq]
  cases s.env.resetAck.peek Config.freeResetAck 0 <;> rfl

/-- Settles O52: a second Init, then Reset by its draw. -/
theorem resettingCommands : Obligations.ResettingCommands := by
  intro s v1 v2 hh p base
  refine ⟨fun hi => ?init, ?reset⟩
  case init => exact exec_ack .init v1 v2 (runInit_again hi) hh rfl rfl
  case reset =>
    have h := runReset_eq s
    cases ha : s.env.resetAck.peek Config.freeResetAck 0
    case true =>
      rw [ha] at h
      exact exec_ack .reset v1 v2 h hh rfl rfl
    case false =>
      rw [ha] at h
      refine (exec_noAck .reset v1 v2 h hh rfl rfl).trans ?_
      rw [if_neg Bool.false_ne_true, List.append_nil]
      rfl

/-! ### Commands that reply without acknowledgment -/

theorem runReadEeprom_eq (v1 v2 : U32) (s : State) :
    let bytes := s.env.eeprom.peek (Config.freeEeprom v1 v2) 0
    runReadEeprom v1 v2 s = (.noAck, { s with
      env := { s.env with eeprom := s.env.eeprom.advance 1 }
      out := s.out ++ [.eepromRead v1 v2 bytes,
        .linkTx (Config.reply (s.params.cmdCode .readEeprom) bytes)] }) := by
  simp [runReadEeprom, eepromRead_eq, linkTx, emit]

theorem runGetSampleCount_eq (s : State) :
    let count := s.env.sampleCount.peek Config.freeSampleCount 0
    runGetSampleCount s = (.noAck, { s with
      env := { s.env with sampleCount := s.env.sampleCount.advance 1 }
      out := s.out ++ [.linkTx (Config.reply (s.params.cmdCode .getSampleCount) count)] }) := by
  simp [runGetSampleCount, drawSampleCount_eq, linkTx, emit]

/-- Settles O53, a query to a clause. -/
theorem queriesReplyWithoutAck : Obligations.QueriesReplyWithoutAck := fun s v1 v2 hh =>
  ⟨exec_noAck_sameMode .readEeprom v1 v2 (runReadEeprom_eq v1 v2 s) hh hh rfl rfl,
    exec_noAck_sameMode .getSampleCount v1 v2 (runGetSampleCount_eq s) hh hh rfl rfl,
    exec_noAck_sameMode .getGitHash v1 v2 rfl hh hh rfl rfl⟩

end Sys2Proof.Machine

/-! The mode and the acquisition bit (spec/43_mode_arbiter.md R244, R264): the invariant as a table of
the modes, every operation but the harness requests against it, and what a command does to the mode,
its acknowledgment and the receive queue (R241, R243). -/

namespace Sys2Proof.Machine

/-! ### The mode invariant by modes -/

/-- What R244 says of the acquisition bit in each mode. -/
def modeAllows (m : Mode) (acq : Bool) : Prop :=
  match m with
  | .usbIdle => acq = false
  | .portIdle => acq = false
  | .usbStore => acq = true
  | .portStore => acq = true
  | .stream => True

theorem modeInv_iff (s : State) : ModeInv s ↔ modeAllows s.ma.mode s.pl.acq := by
  constructor
  · intro h
    cases hm : s.ma.mode with
    | usbIdle => exact h.idle_stopped (.inl hm)
    | portIdle => exact h.idle_stopped (.inr hm)
    | usbStore => exact h.store_acquires (.inl hm)
    | portStore => exact h.store_acquires (.inr hm)
    | stream => trivial
  · intro h
    refine ⟨fun hm => ?store, fun ha => ?acquires, fun hm => ?idle⟩
    case store => rcases hm with hm | hm <;> rw [hm] at h <;> exact h
    case idle => rcases hm with hm | hm <;> rw [hm] at h <;> exact h
    case acquires =>
      rw [ha] at h
      cases hm : s.ma.mode <;> simp_all [modeAllows]

theorem ModeInv.congr {s t : State} (h : ModeInv s) (hm : t.ma.mode = s.ma.mode)
    (ha : t.pl.acq = s.pl.acq) : ModeInv t := by
  rw [modeInv_iff] at h ⊢
  rwa [hm, ha]

/-- The mode a stop ends in is one in which acquisition may rest. -/
theorem modeAllows_stopped (m : Mode) : modeAllows (stoppedMode m) false := by
  cases m <;> trivial

theorem modeInv_of_key {m : Mode} {a : Bool} {q : List Bytes} {t : State} (k : Key m a q t)
    (h : modeAllows m a) : ModeInv t := by
  obtain ⟨hm, ha, -, -⟩ := k
  rw [modeInv_iff, hm, ha]
  exact h

theorem FsStep.modeInv {s t : State} (h : FsStep s t) (k : ModeInv s) : ModeInv t :=
  k.congr (by rw [h.ma]) (by rw [h.pl])

/-! ### The mode through the stop and the self-test -/

theorem stopSampling_mode (s : State) : (stopSampling s).ma.mode = stoppedMode s.ma.mode := by
  rw [(stopSampling_step s).1]

theorem stopSampling_pl (s : State) :
    (stopSampling s).pl = { s.pl with acq := false, sdState := .idle } := by
  rw [(stopSampling_step s).1]

theorem stopSampling_params (s : State) : (stopSampling s).params = s.params := by
  rw [(stopSampling_step s).1]

theorem stopSampling_modeInv (s : State) : ModeInv (stopSampling s) := by
  rw [modeInv_iff, stopSampling_mode, stopSampling_pl]
  exact modeAllows_stopped s.ma.mode

theorem stopIfAcquiring_stopped (s : State) : (stopIfAcquiring s).pl.acq = false := by
  unfold stopIfAcquiring
  split_ifs with ha
  · rw [stopSampling_pl]
  · exact Bool.eq_false_iff.2 ha

theorem rbSelftest_modeInv {s : State} (hp : s.params.Valid) (h : ModeInv s) :
    ModeInv (rbSelftest s).2 := by
  rw [(rbSelftest_step s hp.1).2.eq]
  exact h.congr rfl rfl

theorem fsSelftest_modeInv {s : State} (hp : s.params.Valid) (h : ModeInv s) :
    ModeInv (fsSelftest s).2 := by
  obtain ⟨t, r, ht, -, he⟩ := fsSelftest_step s hp
  rcases he with he | he <;> rw [he]
  · exact ht.modeInv h
  · exact (ht.modeInv h).congr rfl rfl

theorem driverSelfTest_frame (s : State) :
    (driverSelfTest s).2.ma = s.ma ∧ (driverSelfTest s).2.pl = s.pl ∧
      (driverSelfTest s).2.params = s.params := ⟨rfl, rfl, rfl⟩

theorem runSelfTest_modeInv {s : State} (hp : s.params.Valid) : ModeInv (runSelfTest s).2 := by
  have h1 : ModeInv (driverSelfTest (stopSampling s)).2 := (stopSampling_modeInv s).congr rfl rfl
  have p1 : (driverSelfTest (stopSampling s)).2.params.Valid := by
    rw [(driverSelfTest_frame _).2.2, stopSampling_params]
    exact hp
  have h2 := rbSelftest_modeInv p1 h1
  have p2 : (rbSelftest (driverSelfTest (stopSampling s)).2).2.params.Valid := by
    rw [(rbSelftest_step _ p1.1).2.params]
    exact p1
  have h3 := fsSelftest_modeInv p2 h2
  unfold runSelfTest
  simp only
  split_ifs
  · exact h1
  · exact h2
  · split
    · rename_i he
      rw [he] at h3
      split_ifs <;> exact h3
    · rename_i he
      rw [he] at h3
      exact h3

/-! ### The mode through a session start -/

theorem enterStore_modeInv {s : State} (hm : s.ma.mode = .usbStore ∨ s.ma.mode = .portStore) :
    ModeInv (enterStore s) := by
  obtain ⟨t, ht, he, -⟩ := enterStore_step s
  have hmode : (enterStore s).ma.mode = s.ma.mode := by
    rw [he, plBegin_ma, ht.eq]
  have hacq : (enterStore s).pl.acq = true := by rw [he, plBegin_pl]
  rw [modeInv_iff, hmode, hacq]
  rcases hm with hm | hm <;> rw [hm] <;> rfl

theorem runStartStorage_modeInv (s : State) : ModeInv (runStartStorage s).2 := by
  unfold runStartStorage
  simp only
  split_ifs with hm
  · obtain ⟨t, ht, -, he⟩ := fsFormat_step false (stopIfAcquiring s)
    rcases he with he | he <;> rw [he]
    · exact enterStore_modeInv (.inl rfl)
    · rw [modeInv_iff]
      change modeAllows t.ma.mode t.pl.acq
      rw [ht.ma, ht.pl, hm, stopIfAcquiring_stopped]
      rfl
  · exact enterStore_modeInv (.inl rfl)

/-! ### The mode through a command -/

theorem runCommand_modeInv (c : Command) (v1 v2 : U32) {s : State} (hp : s.params.Valid)
    (hh : s.ma.halted = false) (h : ModeInv s) : ModeInv (runCommand c v1 v2 s).2 := by
  cases c with
  | init =>
    cases hi : s.ma.initialized
    · simp only [runCommand, runInit_first hi]
      exact h.congr rfl rfl
    · simp only [runCommand, runInit_again hi]
      exact (modeInv_iff _).2 rfl
  | reset =>
    simp only [runCommand, runReset_eq]
    exact (modeInv_iff _).2 rfl
  | selfTest => exact runSelfTest_modeInv hp
  | startStorage => exact runStartStorage_modeInv s
  | startLink => exact (modeInv_iff _).2 trivial
  | readStorage =>
    have hopen := FsStep.key (fsReopen_step (seqOperand v1) _) (stop_key hh)
    refine modeInv_of_key (q := s.ma.rxQ) ?_ (modeAllows_stopped s.ma.mode)
    simp only [runCommand, runReadStorage]
    split
    · rename_i he
      rw [he] at hopen
      exact FsStep.key (fsClose_step _).1 (streamFile_key _ _ hopen)
    · rename_i he
      rw [he] at hopen
      exact hopen
  | getRtc =>
    have hopen := (fsReopen_step (seqOperand v1) _).modeInv (stopSampling_modeInv s)
    simp only [runCommand, runGetRtc]
    split
    · rename_i u he
      rw [he] at hopen
      have hget := fsRtcGet_state u
      split <;>
      · rename_i hr
        rw [hr] at hget
        exact hopen.congr (congrArg (·.ma.mode) hget) (congrArg (·.pl.acq) hget)
    · rename_i he
      rw [he] at hopen
      exact hopen.congr rfl rfl
  | readEeprom | gainSet | getSampleCount | getGitHash | setRtc | getModePortable =>
    exact h.congr rfl rfl

/-! ### The mode through the pipeline and the ring -/

theorem memWrite_frame (a : Nat) (d : Bytes) (s : State) :
    (memWrite a d s).ma = s.ma ∧ (memWrite a d s).pl = s.pl := by
  rw [memWrite_eq]
  exact ⟨rfl, rfl⟩

theorem rbWrite_frame (data : Bytes) (s : State) :
    (rbWrite data s).2.ma = s.ma ∧ (rbWrite data s).2.pl = s.pl := by
  unfold rbWrite
  split_ifs
  · exact ⟨rfl, rfl⟩
  · exact ⟨rfl, rfl⟩
  · simp only [advanceWrite, ringStore, memWrite_frame, and_self]

theorem rbRead_frame (n : Nat) (s : State) :
    (rbRead n s).2.ma = s.ma ∧ (rbRead n s).2.pl = s.pl := by
  unfold rbRead
  split_ifs
  · exact ⟨rfl, rfl⟩
  · exact ⟨rfl, rfl⟩
  · simp only [advanceRead, ringFetch, memRead_eq, and_self]

theorem fsBeginWrite_pl (data : Bytes) (s : State) : (fsBeginWrite data s).2.pl = s.pl := by
  rcases fsBeginWrite_cases data s with h | ⟨f, -, h⟩
  · exact h.pl
  · rw [h]
    rfl

theorem recordError_frame (e : Err) (s : State) :
    (recordError e s).ma.mode = s.ma.mode ∧ (recordError e s).pl = s.pl := by
  rw [(recordError_file e s).eq]
  exact ⟨rfl, rfl⟩

theorem drainLink_modeInv {s : State} (h : ModeInv s) : ModeInv (drainLink s).2 := by
  have hasked : ModeInv (linkAsked s) := h.congr rfl rfl
  unfold drainLink
  rw [drawLinkReady_eq_linkAsked]
  cases s.env.linkReady.peek Config.freeLinkReady 0 with
  | false => exact hasked
  | true =>
    obtain ⟨hma, hpl⟩ := rbRead_frame (linkAsked s).params.linkPayload (linkAsked s)
    simp only
    rcases hr : rbRead (linkAsked s).params.linkPayload (linkAsked s) with ⟨r, u⟩
    rw [hr] at hma hpl
    have hu : ModeInv u := hasked.congr (congrArg (·.mode) hma) (congrArg (·.acq) hpl)
    cases r with
    | ok d => exact hu.congr rfl rfl
    | err e => exact hu
    | fault f => exact hu

theorem drainStorageIdle_modeInv {s : State} (h : ModeInv s) :
    ModeInv (drainStorageIdle s).2 := by
  unfold drainStorageIdle
  split_ifs
  · exact h
  · obtain ⟨hma, hpl⟩ := rbRead_frame s.params.blockBytes s
    rcases hr : rbRead s.params.blockBytes s with ⟨r, u⟩
    rw [hr] at hma hpl
    have hu : ModeInv u := h.congr (congrArg (·.mode) hma) (congrArg (·.acq) hpl)
    cases r with
    | err e => exact hu
    | fault f => exact hu
    | ok d =>
      have hma := fsBeginWrite_ma d u
      have hpl := fsBeginWrite_pl d u
      simp only
      rcases hw : fsBeginWrite d u with ⟨r, v⟩
      rw [hw] at hma hpl
      have hv : ModeInv v := hu.congr (congrArg (·.mode) hma) (congrArg (·.acq) hpl)
      cases r with
      | ok => exact hv.congr rfl rfl
      | err e =>
        obtain ⟨hmode, hpipe⟩ := recordError_frame e v
        exact hv.congr hmode (congrArg (·.acq) hpipe)
      | fault f => exact hv

theorem drainStorageBusy_modeInv {s : State} (h : ModeInv s) :
    ModeInv (drainStorageBusy s).2 := by
  have hu := (fsContinue_step s).modeInv h
  unfold drainStorageBusy
  split
  · rename_i hr
    rw [hr] at hu
    exact hu
  · rename_i hr
    rw [hr] at hu
    exact hu.congr rfl rfl
  · rename_i e u hr
    rw [hr] at hu
    obtain ⟨hmode, hpipe⟩ := recordError_frame e u
    exact hu.congr hmode (congrArg (·.acq) hpipe)
  · rename_i hr
    rw [hr] at hu
    exact hu

theorem tickBody_modeInv {s : State} (h : ModeInv s) : ModeInv (tickBody s).2 := by
  have hstorage : ModeInv (drainStorage s).2 := by
    unfold drainStorage
    split
    · exact drainStorageIdle_modeInv h
    · exact drainStorageBusy_modeInv h
  unfold tickBody
  split_ifs
  · exact h
  · split
    · exact drainLink_modeInv h
    · exact hstorage
    · exact hstorage
    · exact h
    · exact h

theorem calDone_modeInv {s : State} (h : ModeInv s) : ModeInv (calDone s) := by
  unfold calDone
  split_ifs
  · exact h.congr rfl rfl
  · exact h

/-! ### The mode through the button -/

theorem blinkCurrent_frame (s : State) :
    (blinkCurrent s).ma = s.ma ∧ (blinkCurrent s).pl = s.pl := by
  unfold blinkCurrent
  split_ifs
  · exact ⟨rfl, rfl⟩
  · exact ⟨(nextSeq_step s).ma, (nextSeq_step s).pl⟩

theorem btnPress_modeInv {s : State} (h : ModeInv s) : ModeInv (btnPress s) := by
  unfold btnPress
  split
  · obtain ⟨hma, hpl⟩ := blinkCurrent_frame (enterStore (setMode .portStore s))
    exact (enterStore_modeInv (s := setMode .portStore s) (.inr rfl)).congr
      (congrArg (·.mode) hma) (congrArg (·.acq) hpl)
  · exact stopSampling_modeInv s
  · exact h
  · exact h
  · exact h

theorem btnHold_modeInv (s : State) : ModeInv (btnHold s) := by
  obtain ⟨t, ht, -, he⟩ := fsFormat_step true (stopSampling s)
  unfold btnHold
  rcases he with he | he <;> rw [he]
  · rw [modeInv_iff]
    change t.pl.acq = false
    rw [ht.pl, stopSampling_pl]
  · exact (ht.modeInv (stopSampling_modeInv s)).congr rfl rfl

/-! ### Every operation -/

theorem serve_modeInv {body : State → Status × State} {s : State} (h : ModeInv s)
    (hb : ModeInv (body s).2) : ModeInv (serve body s) := by
  unfold serve
  split_ifs
  · exact h.congr rfl rfl
  · exact hb.congr rfl rfl

theorem showMode_modeInv {s : State} (m : Mode) (h : ModeInv s) : ModeInv (showMode m s) :=
  h.congr (by rw [(showMode_frame m s).1]) (by rw [(showMode_frame m s).2])

theorem serveMode_modeInv {body : State → Status × State} {s : State} (h : ModeInv s)
    (hb : ModeInv (body s).2) : ModeInv (serveMode body s) := by
  unfold serveMode
  split_ifs
  · exact h.congr rfl rfl
  · exact (showMode_modeInv s.ma.mode hb).congr rfl rfl

theorem perform_modeInv (c : Command) (v1 v2 : U32) {s : State} (hp : s.params.Valid)
    (h : ModeInv s) : ModeInv (perform c (runCommand c v1 v2) s) := by
  cases hh : s.ma.halted
  · obtain ⟨hmode, hpl, -⟩ := perform_frame (c := c) (body := runCommand c v1 v2) hh
    exact (runCommand_modeInv c v1 v2 hp hh h).congr hmode (by rw [hpl])
  · rw [perform_halted hh]
    exact h.congr rfl rfl

theorem cpStep_modeInv {s : State} (hp : s.params.Valid) (h : ModeInv s) : ModeInv (cpStep s) := by
  unfold cpStep
  split_ifs
  · exact h.congr rfl rfl
  · split
    · exact h.congr rfl rfl
    · simp only
      split
      · exact h.congr rfl rfl
      · exact perform_modeInv _ _ _ hp (h.congr rfl rfl)

theorem exec_modeInv (i : Instr) {s : State} (hp : s.params.Valid) (hi : isHarness i = false)
    (h : ModeInv s) : ∃ t, exec i s = .next t ∧ ModeInv t := by
  cases i with
  | cmdInit v1 v2 | cmdReset v1 v2 | cmdSelfTest v1 v2 | cmdReadEeprom v1 v2 | cmdGainSet v1 v2
  | cmdStartStorage v1 v2 | cmdStartLink v1 v2 | cmdReadStorage v1 v2 | cmdGetSampleCount v1 v2
  | cmdGetGitHash v1 v2 | cmdGetRtc v1 v2 | cmdSetRtc v1 v2 | cmdGetModePortable v1 v2 =>
    exact ⟨_, rfl, perform_modeInv _ v1 v2 hp h⟩
  | btnPress => exact ⟨_, rfl, serveMode_modeInv h (btnPress_modeInv h)⟩
  | btnHold => exact ⟨_, rfl, serveMode_modeInv h (btnHold_modeInv s)⟩
  | rbWrite data =>
    obtain ⟨hma, hpl⟩ := rbWrite_frame data s
    exact ⟨_, rfl, serve_modeInv h (h.congr (by rw [hma]) (by rw [hpl]))⟩
  | tick => exact ⟨_, rfl, serve_modeInv h (tickBody_modeInv h)⟩
  | calDone => exact ⟨_, rfl, serve_modeInv h (calDone_modeInv h)⟩
  | cpStep => exact ⟨_, rfl, cpStep_modeInv hp h⟩
  | extReset => exact ⟨_, exec_extReset s, (modeInv_iff _).2 rfl⟩
  | fsFlush => exact ⟨_, rfl, serve_modeInv h ((fsFlush_step s).modeInv h)⟩
  | rbInit | rbRead _ | rbSelftest | fsFormat _ | fsOpen _ _ | fsSeek _ | fsWrite _ | fsRead _
  | fsRtcGet | fsRtcSet _ _ | fsClose | fsSizeGet | fsBeginWrite _ | fsContinue | fsSelftest
  | plBegin | plStop | plDrainLink | plDrainStorage | stopSampling => cases hi

/-- Settles O11: the one state that `exec` answers meets the invariant. -/
theorem arbiterKeepsModeInv : Obligations.ArbiterKeepsModeInv := by
  intro i s t hp hi h hnext
  obtain ⟨u, hu, hinv⟩ := exec_modeInv i hp hi h
  cases hu.symm.trans hnext
  exact hinv

/-! ### The acknowledgment and the transitions of a command -/

theorem stoppedMode_eq (m : Mode) : stoppedMode m =
    if m = .usbStore then Mode.usbIdle else if m = .portStore then Mode.portIdle else m := by
  cases m <;> rfl

/-- The end of a command that acknowledges: the acknowledgment after everything else. -/
theorem perform_acknowledges {c : Command} {v1 v2 : U32} {s t : State} {r : Byte}
    (hh : s.ma.halted = false) (h : runCommand c v1 v2 s = (.ack r, t))
    (ht : t.ma.halted = false) :
    (perform c (runCommand c v1 v2) s).ma.rxQ = [] ∧ ∃ es,
      (perform c (runCommand c v1 v2) s).out = s.out ++ es ++ [.linkTx [s.params.cmdCode c, r]] := by
  have hgrows := (runCommand_grows c v1 v2 s).trans (showMode_grows s.ma.mode _)
  have hma := (showMode_frame s.ma.mode (runCommand c v1 v2 s).2).1
  rw [h] at hgrows hma
  obtain ⟨es, hes⟩ := hgrows.out
  have hend : perform c (runCommand c v1 v2) s =
      finishCommand c (.ack r) (showMode s.ma.mode t) := by simp [perform, hh, h]
  simp only at hma hes
  rw [hend, finishCommand, hma, if_neg (by simp [ht])]
  refine ⟨rfl, es, ?_⟩
  rw [hes, ← hgrows.params]
  rfl

/-- The end of a command without acknowledgment keeps the queue that the command left. -/
theorem perform_noAck_rxQ {c : Command} {v1 v2 : U32} {s t : State} (hh : s.ma.halted = false)
    (h : runCommand c v1 v2 s = (.noAck, t)) :
    (perform c (runCommand c v1 v2) s).ma.rxQ = t.ma.rxQ := by
  have hma := (showMode_frame s.ma.mode (runCommand c v1 v2 s).2).1
  rw [h] at hma
  have hend : perform c (runCommand c v1 v2) s =
      finishCommand c .noAck (showMode s.ma.mode t) := by simp [perform, hh, h]
  rw [hend, ← hma, finishCommand]
  split_ifs <;> rfl

theorem queueAfter_of_not_resetting {c : Command} (s : State) (h1 : c ≠ .init) (h2 : c ≠ .reset) :
    queueAfter c s = s.ma.rxQ := by
  cases c with
  | init => exact absurd rfl h1
  | reset => exact absurd rfl h2
  | _ => rfl

/-- Settles O59: the result's kind and range by the command, the acknowledgment by the end of its
step. -/
theorem acknowledgmentFlushesQueue : Obligations.AcknowledgmentFlushesQueue := by
  intro s c v1 v2 hp hh
  refine ⟨_, exec_toInstr c v1 v2 s, fun hrun => ?_⟩
  rcases runCommand_key c v1 v2 hp hh with hhalt | ⟨⟨-, -, hqueue, -⟩, hrange, hnone, hsome⟩
  · rw [hrun] at hhalt
    cases hhalt
  refine ⟨fun r hr => ?ack, fun hr hreset => ?noAck, hnone, hsome⟩
  case ack => exact ⟨hrange r hr, perform_acknowledges hh (Prod.ext hr rfl) hrun⟩
  case noAck =>
    have hinit : c ≠ .init := by
      rintro rfl
      obtain ⟨r, hack⟩ := hsome (by decide)
      rw [hr] at hack
      cases hack
    rw [perform_noAck_rxQ hh (Prod.ext hr rfl), hqueue, queueAfter_of_not_resetting s hinit hreset]

/-- Settles O60: the target of `runCommand_key`, read off for each command. -/
theorem commandModeTransitions : Obligations.CommandModeTransitions := by
  intro s t c v1 v2 hp _ hh hnext hhalt
  cases (exec_toInstr c v1 v2 s).symm.trans hnext
  obtain ⟨hmode, hpl, hhalted⟩ := perform_frame (c := c) (body := runCommand c v1 v2) hh
  rw [hhalted] at hhalt
  have hkey := (runCommand_key c v1 v2 hp hh).resolve_left (by simp [hhalt])
  obtain ⟨⟨hm, ha, -, -⟩, -⟩ := hkey
  rw [hmode, hpl, hm, ha]
  cases c with
  | init => cases hi : s.ma.initialized <;> simp [commandTarget, hi]
  | readStorage | getRtc | selfTest => exact ⟨rfl, stoppedMode_eq s.ma.mode⟩
  | reset | startLink | startStorage | gainSet | setRtc | getModePortable | readEeprom
  | getSampleCount | getGitHash => exact ⟨rfl, rfl⟩

end Sys2Proof.Machine

/-! `STOP_SAMPLING` in every mode (spec/43_mode_arbiter.md R245, R246): the close of a store mode's file,
the next file's number, and the request. -/

namespace Sys2Proof.Machine

/-! ### What a block of the medium depends on -/

theorem blockAt_of_med {s t : State} (hp : t.params = s.params) (hm : t.med = s.med) (i : Nat) :
    blockAt t i = blockAt s i := by
  simp only [blockAt, hp, hm]

theorem sameOutsideBlock_of_med {i : Nat} {s t u : State} (h : sameOutsideBlock i s t)
    (hm : u.med = t.med) : sameOutsideBlock i s u := fun a ha => by
  rw [← h a ha, mediumByte, hm, mediumByte]

/-! ### The pieces of a stop -/

/-- The close of a store mode's file as a whole state. -/
theorem closeAndRecord_whole (s : State) :
    let pending := s.fs.isOpen && s.fs.dirty
    let ok := decide (s.fs.start.toNat < s.params.mediumBlocks) &&
      s.env.mediumOk.peek Config.freeMediumOk 0
    closeAndRecord s = { s with
      ma := { s.ma with lastError := if pending && !ok then .sdWrite else s.ma.lastError }
      fs := { s.fs with isOpen := false, dirty := s.fs.dirty && !s.fs.isOpen }
      med := (fsClose s).2.med
      env := (fsClose s).2.env
      out := s.out ++ if pending then [.blkWrite s.fs.start.toNat (metaFsb s) ok] else [] } := by
  intro pending ok
  obtain ⟨hresult, hstate, -⟩ := fsClose_eq s
  have herror : errorAfter s.ma.lastError ((fsClose s).1.status fun _ => .ok) =
      if pending && !ok then .sdWrite else s.ma.lastError := by
    rw [hresult]
    cases pending && !ok <;> rfl
  rw [closeAndRecord_eq, herror]
  conv_lhs => rw [hstate]

/-- The next file's number is asked for with reads alone, an abandoned write ended first, and then
blinked. -/
theorem blinkNext_whole (s : State) :
    ∃ reads n, blinkNext s = { s with
        med := (blinkNext s).med
        env := (blinkNext s).env
        out := s.out ++ (reads ++ [.ind (.blink n)]) } ∧
      (∀ e ∈ reads, ∃ i a, e = .blkRead i a) ∧
      (s.med.busy = false → (blinkNext s).med = s.med) := by
  have heq := (endOutstanding_eq s).1
  obtain ⟨hstate, reads, hout, hreads⟩ := nextSeq_reads _ (endOutstanding_notBusy s)
  rw [← nextSeq_endOutstanding] at hstate hout
  have hended : (endOutstanding s).out = s.out := by rw [heq]
  rw [hended] at hout
  refine ⟨reads, (nextSeq s).1, ?whole, hreads, fun hb => ?idle⟩
  case whole =>
    have hmore : blinkNext s = { (nextSeq s).2 with
        out := s.out ++ (reads ++ [.ind (.blink (nextSeq s).1)]) } := by
      rw [blinkNext, indicate, emit, hout, List.append_assoc]
    rw [hmore]
    conv_lhs => rw [hstate, heq]
    rw [hstate, heq]
  case idle =>
    change (nextSeq s).2.med = s.med
    rw [hstate, endOutstanding_idle hb]

/-- A stop in a store mode: the close, in `PortStore` the blink, then the idle mode. -/
theorem stopSampling_store {s : State} (hm : s.ma.mode = .usbStore ∨ s.ma.mode = .portStore) :
    let closed := closeAndRecord (plStop s)
    ∃ es, stopSampling s = { closed with
        ma := { closed.ma with mode := stoppedMode s.ma.mode }
        med := (stopSampling s).med
        env := (stopSampling s).env
        out := closed.out ++ es } ∧
      (s.ma.mode = .usbStore → es = []) ∧
      (s.ma.mode = .portStore → ∃ reads n, es = reads ++ [.ind (.blink n)] ∧
        ∀ e ∈ reads, ∃ i a, e = .blkRead i a) ∧
      (closed.med.busy = false → (stopSampling s).med = closed.med) := by
  intro closed
  rcases hm with hm | hm
  · refine ⟨[], ?_, fun _ => rfl, by simp [hm], fun _ => ?_⟩
    · rw [stopSampling_usbStore hm, List.append_nil, hm]
      rfl
    · rw [stopSampling_usbStore hm]
      rfl
  · obtain ⟨reads, n, hblink, hreads, hmed⟩ := blinkNext_whole closed
    refine ⟨reads ++ [.ind (.blink n)], ?_, by simp [hm], fun _ => ⟨reads, n, rfl, hreads⟩, ?_⟩
    · rw [stopSampling_portStore hm, hm]
      conv_lhs => rw [hblink]
      rfl
    · rw [stopSampling_portStore hm]
      exact hmed

/-! ### The request -/

theorem exec_stopSampling {s : State} (hh : s.ma.halted = false) :
    exec .stopSampling s = .next { stopSampling s with
      env := { (stopSampling s).env with color := colorTaken s (stopSampling s).ma.mode }
      out := (stopSampling s).out ++ colorEvents s (stopSampling s).ma.mode
      status := .ok } :=
  congrArg Host.Outcome.next (serveMode_eq hh rfl (stopSampling_step s).2.1)

/-- A request that stays in its mode shows no colour. -/
theorem serveMode_sameMode {body : State → Status × State} {s t : State} {a : Status}
    (hh : s.ma.halted = false) (h : body s = (a, t)) (hc : t.env.color = s.env.color)
    (hm : t.ma.mode = s.ma.mode) : serveMode body s = { t with status := a } := by
  rw [serveMode_eq hh h hc, hm, colorEvents_self, colorTaken_self, ← hc, List.append_nil]

theorem nextCount_step {s : State} (h : s.fs.isOpen = false) : MediumStep s (nextCount s).2 := by
  rw [← nextSeq_eq_nextCount h]
  exact nextSeq_step s

/-- A stop in a store mode against the answer of `FS_CLOSE` and the count after it. -/
theorem exec_stopSampling_of_close {s v : State} (hh : s.ma.halted = false)
    (hv : exec .fsClose (plStop s) = .next v) :
    let err := errorAfter s.ma.lastError v.status
    let next := nextCount v
    (s.ma.mode = .usbStore → exec .stopSampling s = .next { v with
      ma := { s.ma with mode := .usbIdle, lastError := err }
      env := { v.env with color := colorTaken s .usbIdle }
      out := v.out ++ colorEvents s .usbIdle
      status := .ok }) ∧
    (s.ma.mode = .portStore → exec .stopSampling s = .next { next.2 with
      ma := { s.ma with mode := .portIdle, lastError := err }
      env := { next.2.env with color := colorTaken s .portIdle }
      out := next.2.out ++ [.ind (.blink next.1)] ++ colorEvents s .portIdle
      status := .ok }) := by
  have hclosed := (fsClose_step (plStop s)).2
  have hrecord := closeAndRecord_eq (plStop s)
  rcases hc : fsClose (plStop s) with ⟨r, u⟩
  rw [hc] at hclosed hrecord
  cases (exec_fsClose (s := plStop s) hh hc).symm.trans hv
  intro err next
  refine ⟨fun hm => ?usb, fun hm => ?port⟩
  case usb =>
    rw [exec_stopSampling hh, stopSampling_usbStore hm, hrecord]
    rfl
  case port =>
    have hcore : closeAndRecord (plStop s) =
        State.withCore u.ring { s.ma with lastError := err } u.pl u.status
          { u with status := r.status fun _ => .ok } := hrecord
    have hstep := nextCount_step (s := { u with status := r.status fun _ => .ok }) hclosed
    have hblink : blinkNext (closeAndRecord (plStop s)) =
        indicate (.blink next.1) (next.2.withCore u.ring { s.ma with lastError := err } u.pl
          u.status) := by
      rw [blinkNext, nextSeq_eq_nextCount (by rw [hrecord]; exact hclosed), hcore,
        nextCount_withCore]
    rw [exec_stopSampling hh, stopSampling_portStore hm, hblink]
    have hring : next.2.ring = u.ring := by rw [hstep.eq]
    have hpl : next.2.pl = u.pl := hstep.pl
    rw [← hring, ← hpl]
    rfl

/-- Settles O48: the modes without a file, the store modes as whole states, the store modes against
`FS_CLOSE`, and the stop inside other operations. -/
theorem stopSamplingStops : Obligations.StopSamplingStops := by
  intro s hh stopped start pending ok fsb
  refine ⟨fun hm => ?idle, fun hm => ?store, fun v hv => exec_stopSampling_of_close hh hv,
    exec_stopSampling hh⟩
  case idle =>
    have hstop := stopSampling_idle hm
    exact ⟨hstop, congrArg Host.Outcome.next (serveMode_sameMode
      (body := fun s => (.ok, stopSampling s)) hh (congrArg (Prod.mk Status.ok) hstop) rfl rfl)⟩
  case store =>
    intro idle
    have hidle : stoppedMode s.ma.mode = idle := by
      rcases hm with hm | hm <;> simp [idle, hm, stoppedMode]
    obtain ⟨es, hstop, husb, hport, hmed⟩ := stopSampling_store hm
    have hwhole := closeAndRecord_whole (plStop s)
    obtain ⟨-, -, hkeep, hended, hsame, hblock⟩ := fsClose_eq (plStop s)
    have hclosed : (closeAndRecord (plStop s)).med = (fsClose (plStop s)).2.med := by
      rw [closeAndRecord_eq]
    rw [hclosed] at hmed
    refine ⟨_, es, exec_stopSampling hh, ?whole, husb, hport, fun hp hv hlt => ?block,
      fun hb => ?frame⟩
    case whole =>
      rw [stopSampling_mode, hidle]
      have hout : (stopSampling s).out =
          s.out ++ (if pending then [.blkWrite start fsb ok] else []) ++ es := by
        conv_lhs => rw [hstop, hwhole]
        rfl
      rw [hout]
      conv_lhs => rw [hstop, hwhole, hidle]
      rfl
    case block =>
      have hparams := (fsClose_step (plStop s)).1.params
      change blockAt (stopSampling s) start = _
      rw [blockAt_of_med ((stopSampling_params s).trans hparams.symm) (hmed (hended hp))]
      refine (hblock hp hlt).trans ?_
      change fit s.params.blockBytes (if ok = true then fsb else _) = _
      split_ifs
      · exact fit_eq_self (fsbBlock_length hv _)
      · rfl
    case frame =>
      have hidle : (fsClose (plStop s)).2.med.busy = false := by
        cases hp : pending
        · rw [hkeep hp]
          exact hb
        · exact hended hp
      exact ⟨sameOutsideBlock_of_med (hsame hb) (hmed hidle),
        fun hp => (hmed hidle).trans (hkeep hp)⟩

end Sys2Proof.Machine

/-! The session of a store mode and the button (spec/43_mode_arbiter.md R247, R249, R270, R271). -/

namespace Sys2Proof.Machine

/-! ### Starting a session -/

/-- The error slot after `RecordError` (60_exceptions.md R305). -/
theorem recordError_eq (e : Err) (s : State) :
    recordError e s =
      { s with ma := { s.ma with lastError := errorAfter s.ma.lastError (.raised e) } } := by
  cases e <;> rfl

/-- A new session, as `PL_BEGIN` sets it up (42_sample_pipeline.md R210). -/
theorem plBegin_eq (s : State) :
    plBegin s = { s with
      ring := ⟨true, 0, false, 0, false⟩
      pl := ⟨true, .calibrating, s.pl.gain, Config.minGain, .gnd, .gndRef, 0, 0, .idle⟩ } :=
  rfl

/-- `ENTER_STORE` records the error of its create, if it raised one (43_mode_arbiter.md R247). -/
theorem enterStore_of_create {s u : State} {r : Res U32} (h : fsCreate s = (r, u)) :
    enterStore s = plBegin { u with
      ma := { u.ma with lastError := errorAfter u.ma.lastError (r.status .okSeq) } } := by
  unfold enterStore
  rw [h]
  cases r with
  | ok q => rfl
  | err e => exact congrArg plBegin (recordError_eq e u)
  | fault f => rfl

/-- The create inside `ENTER_STORE` is `FS_OPEN 1`, which does not read the mode. -/
theorem enterStore_setMode {s u : State} {r : Res U32} (m : Mode) (h : fsCreate s = (r, u)) :
    enterStore (setMode m s) = { u with
      ring := ⟨true, 0, false, 0, false⟩
      pl := ⟨true, .calibrating, s.pl.gain, Config.minGain, .gnd, .gndRef, 0, 0, .idle⟩
      ma := { s.ma with mode := m, lastError := errorAfter s.ma.lastError (r.status .okSeq) } } := by
  have hstep := fsCreate_step s
  have hcore := fsCreate_withCore s.ring { s.ma with mode := m } s.pl s.status s
  rw [h] at hstep hcore
  rw [enterStore_of_create (s := setMode m s) hcore, plBegin_eq, ← hstep.status]
  rfl

/-! ### `BTN_PRESS` -/

/-- The count of the next file does not depend on the returned status. -/
theorem nextCount_status {s : State} (h : s.fs.isOpen = false) (a : Status) :
    nextCount { s with status := a } =
      ((nextCount s).1, { (nextCount s).2 with status := a }) := by
  rw [← (nextCount_step h).toFs.withCore_eq]
  exact nextCount_withCore s.ring s.ma s.pl a s

section Press

variable {s u : State} (hm : s.ma.mode = .portIdle)
include hm

/-- A press in `PortIdle` whose create succeeds blinks the file's number. -/
theorem btnPress_created {q : U32} (h : fsCreate s = (.ok q, u)) :
    btnPress s = { u with
      ring := ⟨true, 0, false, 0, false⟩
      pl := ⟨true, .calibrating, s.pl.gain, Config.minGain, .gnd, .gndRef, 0, 0, .idle⟩
      ma := { s.ma with mode := .portStore }
      out := u.out ++ [.ind (.blink q)] } := by
  obtain ⟨hopen, -, hseq⟩ := (fsCreate_result s).2.1 q (by rw [h])
  rw [h] at hopen hseq
  have hpress : btnPress s = blinkCurrent (enterStore (setMode .portStore s)) := by
    simp only [btnPress, hm]
  rw [hpress, enterStore_setMode .portStore h, blinkCurrent, if_pos hopen, ← hseq]
  rfl

/-- A press in `PortIdle` whose create fails blinks the next file's number. -/
theorem btnPress_notCreated {e : Err} (h : fsCreate s = (.err e, u)) :
    btnPress s = { (nextCount u).2 with
      ring := ⟨true, 0, false, 0, false⟩
      pl := ⟨true, .calibrating, s.pl.gain, Config.minGain, .gnd, .gndRef, 0, 0, .idle⟩
      ma := { s.ma with mode := .portStore, lastError := errorAfter s.ma.lastError (.raised e) }
      out := (nextCount u).2.out ++ [.ind (.blink (nextCount u).1)] } := by
  have hclosed : u.fs.isOpen = false := fsOpen_err_closed (create := true) (seq := 0) h
  have hpress : btnPress s = blinkCurrent (enterStore (setMode .portStore s)) := by
    simp only [btnPress, hm]
  have hstart : enterStore (setMode .portStore s) =
      u.withCore ⟨true, 0, false, 0, false⟩
        { s.ma with mode := .portStore, lastError := errorAfter s.ma.lastError (.raised e) }
        ⟨true, .calibrating, s.pl.gain, Config.minGain, .gnd, .gndRef, 0, 0, .idle⟩
        (nextCount u).2.status := by
    rw [(nextCount_step hclosed).toFs.status]
    exact enterStore_setMode .portStore h
  rw [hpress, hstart, blinkCurrent, if_neg (by rw [State.withCore, hclosed]; decide), blinkNext,
    nextSeq_eq_nextCount (by exact hclosed), nextCount_withCore]
  rfl

end Press

theorem exec_btnPress {s t : State} (hh : s.ma.halted = false) (h : btnPress s = t)
    (hc : t.env.color = s.env.color) :
    exec .btnPress s = .next { t with
      env := { t.env with color := colorTaken s t.ma.mode }
      out := t.out ++ colorEvents s t.ma.mode
      status := .ok } :=
  congrArg Host.Outcome.next
    (serveMode_eq (body := fun s => (.ok, btnPress s)) hh (congrArg (Prod.mk Status.ok) h) hc)

/-- A press outside the portable modes is ignored. -/
theorem btnPress_ignored {s : State}
    (hm : s.ma.mode = .usbIdle ∨ s.ma.mode = .usbStore ∨ s.ma.mode = .stream) : btnPress s = s := by
  rcases hm with hm | hm | hm <;> simp only [btnPress, hm]

theorem btnPress_portStore {s : State} (hm : s.ma.mode = .portStore) :
    btnPress s = stopSampling s := by
  simp only [btnPress, hm]

/-- Settles O49: ignored, the stop, and the create by its result. -/
theorem pressTogglesPortableStore : Obligations.PressTogglesPortableStore := by
  intro s hh
  refine ⟨fun hm => ?ignored, fun hm => ?stops, fun hm => ?enters⟩
  case ignored =>
    exact congrArg Host.Outcome.next (serveMode_sameMode (body := fun s => (.ok, btnPress s)) hh
      (congrArg (Prod.mk Status.ok) (btnPress_ignored hm)) rfl rfl)
  case stops =>
    have hpress := exec_btnPress hh (btnPress_portStore hm) (stopSampling_step s).2.1
    refine ⟨hpress.trans (exec_stopSampling hh).symm, _, hpress, ?_, ?_, ?_⟩
    · change (stopSampling s).ma.mode = _
      rw [stopSampling_mode, hm]
      rfl
    · change (stopSampling s).pl.acq = _
      rw [stopSampling_pl]
    · change (stopSampling s).fs.isOpen = _
      rw [(stopSampling_step s).2.2.2.2 (.inr hm)]
  case enters =>
    have hstep := fsCreate_step s
    rcases hcreate : fsCreate s with ⟨r, v⟩
    rw [hcreate] at hstep
    have hopen := exec_fsOpen (seq := 0) hh ((fsOpen_create 0 s).trans hcreate)
    obtain ⟨f, m, n, o, hv⟩ : ∃ f m n o, v = { s with fs := f, med := m, env := n, out := o } :=
      ⟨_, _, _, _, hstep.eq⟩
    cases r with
    | ok q =>
      have hpress := exec_btnPress hh (btnPress_created hm hcreate) hstep.color
      refine ⟨_, hpress, ?whole, fun u q' hu hq => ?created, fun u e hu he => ?failed⟩
      case whole =>
        rw [hv]
      case created =>
        cases hopen.symm.trans hu
        cases hq
        exact ⟨rfl, rfl, rfl, rfl⟩
      case failed =>
        cases hopen.symm.trans hu
        cases he
    | err e =>
      have hclosed : v.fs.isOpen = false := fsOpen_err_closed (create := true) (seq := 0) hcreate
      have hcount := nextCount_step hclosed
      have hpress := exec_btnPress hh (btnPress_notCreated hm hcreate)
        (hcount.color.trans hstep.color)
      refine ⟨_, hpress, ?whole, fun u q' hu hq => ?created, fun u e' hu he => ?failed⟩
      case whole =>
        obtain ⟨m', n', o', hw⟩ : ∃ m' n' o',
            (nextCount v).2 = { v with med := m', env := n', out := o' } :=
          ⟨_, _, _, hcount.eq⟩
        rw [hw, hv]
      case created =>
        cases hopen.symm.trans hu
        cases hq
      case failed =>
        cases hopen.symm.trans hu
        cases he
        intro next
        have hnext : next = _ := nextCount_status hclosed (.raised e)
        rw [hnext]
        exact ⟨hcount.fs, by rw [← hclosed, ← hcount.fs], rfl, rfl, rfl⟩
    | fault f => exact absurd (by rw [hcreate]) ((fsCreate_result s).1 f)

/-! ### `BTN_HOLD` -/

/-- A block write that succeeds leaves its data on the medium, cut to a block. -/
theorem blkWrite_true {i : Nat} {d : Bytes} {s t : State} (h : blkWrite i d s = (true, t)) :
    blockAt t i = fit s.params.blockBytes d := by
  rw [blkWrite_endOutstanding] at h
  have hb := endOutstanding_notBusy s
  have hp := (endOutstanding_step s).params
  generalize endOutstanding s = u at h hb hp
  rw [← hp]
  by_cases hi : i < u.params.mediumBlocks
  · cases hok : u.env.mediumOk.peek Config.freeMediumOk 0
    · rw [blkWrite_err hb hi hok] at h
      cases h
    · rw [blkWrite_ok hb hi hok] at h
      cases h
      exact blockAt_setBlock_self i d u
  · rw [blkWrite_outside hb (Nat.not_lt.1 hi)] at h
    cases h

/-- A format that succeeds leaves a superblock of its kind and no write outstanding
(41_log_filesystem.md R162). -/
theorem fsFormat_superblock {portable : Bool} {s t : State} (hp : s.params.Valid)
    (h : fsFormat portable s = (.ok (), t)) :
    (∃ iter, blockAt t s.params.sbBlock = superblock s.params iter portable) ∧
      t.med.busy = false := by
  have hread := (readSB_step { s with fs := { s.fs with isOpen := false, dirty := false } }).1.params
  unfold fsFormat formatMedium at h
  simp only at h
  rcases hr : readSB { s with fs := { s.fs with isOpen := false, dirty := false } } with ⟨r, u⟩
  rw [hr] at h hread
  simp only at h hread
  cases r with
  | none => cases h
  | some sb =>
    simp only at h
    generalize hd : superblock u.params (if sb.valid = true then sb.iter + 1 else 1) portable = d
      at h
    have hbusy := (blkWrite_step u.params.sbBlock d u).2
    rcases hw : blkWrite u.params.sbBlock d u with ⟨ok, v⟩
    rw [hw] at h hbusy
    cases ok with
    | false => cases h
    | true =>
      cases h
      have hblock := blkWrite_true hw
      rw [hread] at hd hblock
      subst hd
      exact ⟨⟨_, hblock.trans (fit_eq_self (superblock_length hp _ _))⟩, hbusy⟩

theorem btnHold_formatted {s t : State} (h : fsFormat true (stopSampling s) = (.ok (), t)) :
    btnHold s = indicate (.blink 1) (setMode .portIdle t) := by
  simp only [btnHold, h]

theorem btnHold_failed {s t : State} {e : Err} (h : fsFormat true (stopSampling s) = (.err e, t)) :
    btnHold s = t := by
  simp only [btnHold, h]

theorem exec_btnHold {s t : State} (hh : s.ma.halted = false) (h : btnHold s = t)
    (hc : t.env.color = s.env.color) :
    exec .btnHold s = .next { t with
      env := { t.env with color := colorTaken s t.ma.mode }
      out := t.out ++ colorEvents s t.ma.mode
      status := .ok } :=
  congrArg Host.Outcome.next
    (serveMode_eq (body := fun s => (.ok, btnHold s)) hh (congrArg (Prod.mk Status.ok) h) hc)

/-- Settles O50: the two results of the format after the stop, then the format on a medium that
answers. -/
theorem holdReformatsPortable : Obligations.HoldReformatsPortable := by
  intro s hp hh
  obtain ⟨hstop, hcolor, ⟨es, hes, -⟩, -⟩ := stopSampling_step s
  have hpb : (stopSampling s).params.Valid := by rwa [stopSampling_params]
  refine ⟨?either, fun hm => stopSampling_idle hm, fun hb hok => ?answers⟩
  case either =>
    obtain ⟨t, ht, hfs, hformat⟩ := fsFormat_step true (stopSampling s)
    obtain ⟨fs, hout, -⟩ := ht.out
    have hpl : t.pl = { s.pl with acq := false, sdState := .idle } :=
      ht.pl.trans (stopSampling_pl s)
    have hring : t.ring = s.ring := by rw [ht.ring, hstop]
    have hstore : t.store = s.store := by rw [ht.store, hstop]
    have hq : t.ma.rxQ = s.ma.rxQ := by rw [ht.ma, hstop]
    have hclosed : t.fs.isOpen = false := by rw [hfs]
    have hcol := ht.color.trans hcolor
    rcases hformat with hformat | hformat
    · refine ⟨_, exec_btnHold hh (btnHold_formatted hformat) hcol, hpl, hring, hstore, hclosed, hq,
        .inr ⟨?_, rfl, ?_, es ++ fs, ?_⟩⟩
      · change t.ma.halted = false
        rw [ht.ma, stopSampling_halted, hh]
      · have hsb := (fsFormat_superblock hpb hformat).1
        rw [stopSampling_params] at hsb
        exact hsb
      · rw [← List.append_assoc, ← hes, ← hout]
        rfl
    · exact ⟨_, exec_btnHold hh (btnHold_failed hformat) hcol, hpl, hring, hstore, hclosed, hq,
        .inl ⟨rfl, rfl⟩⟩
  case answers =>
    intro p sb
    have hformat := fsFormat_ok (stopSampling s) true hpb hb hok
    have hblock := setBlock_wholeBlock (s := stopSampling s)
      (superblock_length hpb (nextIteration (stopSampling s)) true) (stopSampling s).params.sbBlock
    rw [stopSampling_params] at hformat hblock
    refine ⟨_, exec_btnHold hh (btnHold_formatted hformat) hcolor, ?_, hblock⟩
    rw [indicate, emit]
    simp only [setMode, List.append_assoc, List.cons_append, List.nil_append]
    rfl

end Sys2Proof.Machine

/-! The two commands that start a session (spec/43_mode_arbiter.md R252, R253): what the stop before
them leaves, the reformat from a portable mode and the create of the new file. -/

namespace Sys2Proof.Machine

/-! ### What is sent on the link -/

theorem linkOutput_append (es fs : List Event) :
    linkOutput (es ++ fs) = linkOutput es ++ linkOutput fs :=
  List.filterMap_append

/-- Only transmissions count as link output. -/
theorem linkOutput_eq_nil {es : List Event} (h : ∀ e ∈ es, ∀ d, e ≠ .linkTx d) :
    linkOutput es = [] := by
  refine List.filterMap_eq_nil_iff.2 fun e he => ?_
  cases e with
  | linkTx d => exact absurd rfl (h _ he d)
  | _ => rfl

theorem linkOutput_of_medium {es : List Event} (h : ∀ e ∈ es, isMediumEvent e = true) :
    linkOutput es = [] :=
  linkOutput_eq_nil fun e he d hd => by cases hd ▸ h e he

theorem linkOutput_of_store {es : List Event} (h : ∀ e ∈ es, isStoreEvent e = true) :
    linkOutput es = [] :=
  linkOutput_eq_nil fun e he d hd => by cases hd ▸ h e he

theorem linkOutput_colorEvents (s : State) (m : Mode) : linkOutput (colorEvents s m) = [] := by
  unfold colorEvents
  split_ifs <;> rfl

/-! ### The state a session starts from -/

/-- What a command reaches before it starts a session: it may stop and use the filesystem, and it sends
nothing on the link. -/
structure Prepares (s u : State) : Prop where
  eq : u = { s with
    pl := u.pl
    ma := { s.ma with mode := u.ma.mode, lastError := u.ma.lastError }
    fs := u.fs
    med := u.med
    env := u.env
    out := u.out }
  gain : u.pl.gain = s.pl.gain
  color : u.env.color = s.env.color
  out : ∃ es, u.out = s.out ++ es ∧ linkOutput es = []

theorem Prepares.refl (s : State) : Prepares s s :=
  ⟨rfl, rfl, rfl, [], (List.append_nil _).symm, rfl⟩

theorem Prepares.params {s u : State} (h : Prepares s u) : u.params = s.params := by rw [h.eq]

theorem Prepares.halted {s u : State} (h : Prepares s u) : u.ma.halted = s.ma.halted := by rw [h.eq]

theorem Prepares.fs {s u v : State} (h : Prepares s u) (k : FsStep u v) : Prepares s v := by
  obtain ⟨es, hes, hsilent⟩ := h.out
  obtain ⟨fs, hfs, hmedium⟩ := k.out
  refine ⟨?_, (congrArg Pipeline.gain k.pl).trans h.gain, k.color.trans h.color, es ++ fs, ?_, ?_⟩
  · have hv := k.eq
    rw [h.eq] at hv
    rw [hv]
  · rw [hfs, hes, List.append_assoc]
  · rw [linkOutput_append, hsilent, linkOutput_of_medium hmedium]
    rfl

theorem stopSampling_prepares (s : State) : Prepares s (stopSampling s) := by
  obtain ⟨hstate, hcolor, ⟨es, hes, hkind⟩, -⟩ := stopSampling_step s
  refine ⟨?_, by rw [stopSampling_pl], hcolor, es, hes, linkOutput_eq_nil fun e he d => ?_⟩
  · conv_lhs => rw [hstate]
    rw [stopSampling_pl, stopSampling_mode]
  · rcases hkind e he with h | ⟨n, rfl⟩
    · rintro rfl
      cases h
    · rintro ⟨⟩

theorem stopIfAcquiring_prepares (s : State) : Prepares s (stopIfAcquiring s) := by
  unfold stopIfAcquiring
  split_ifs
  · exact stopSampling_prepares s
  · exact .refl s

/-- A stop changes no file register but the two that a close clears. -/
theorem stopSampling_fs (s : State) :
    { (stopSampling s).fs with isOpen := false, dirty := false } =
      { s.fs with isOpen := false, dirty := false } := by
  cases hm : s.ma.mode with
  | usbStore => rw [(stopSampling_step s).2.2.2.2 (.inl hm)]
  | portStore => rw [(stopSampling_step s).2.2.2.2 (.inr hm)]
  | usbIdle => rw [stopSampling_idle (.inl hm), plStop_fs]
  | portIdle => rw [stopSampling_idle (.inr (.inl hm)), plStop_fs]
  | stream => rw [stopSampling_idle (.inr (.inr hm)), plStop_fs]

theorem stopIfAcquiring_fs (s : State) :
    { (stopIfAcquiring s).fs with isOpen := false, dirty := false } =
      { s.fs with isOpen := false, dirty := false } := by
  unfold stopIfAcquiring
  split_ifs
  · exact stopSampling_fs s
  · rfl

theorem stopIfAcquiring_rtc (s : State) : (stopIfAcquiring s).env.rtc = s.env.rtc := by
  unfold stopIfAcquiring
  split_ifs
  · rw [show (stopSampling s).env = _ from stopSampling_draws s]
  · rfl

/-- The modes from which a start finds `PortIdle`. -/
theorem stopIfAcquiring_portIdle (s : State) : (stopIfAcquiring s).ma.mode = .portIdle ↔
    s.ma.mode = .portIdle ∨ (s.ma.mode = .portStore ∧ s.pl.acq = true) := by
  unfold stopIfAcquiring
  split_ifs with ha
  · rw [stopSampling_mode]
    cases s.ma.mode <;> simp [stoppedMode, ha]
  · simp [ha]

/-! ### StartSamplingLink -/

theorem exec_startLink (v1 v2 : U32) {s : State} (hh : s.ma.halted = false) :
    let b := stopIfAcquiring s
    let code := s.params.cmdCode .startLink
    exec (.cmdStartLink v1 v2) s = .next { b with
      ring := ⟨true, 0, false, 0, false⟩
      pl := ⟨true, .calibrating, s.pl.gain, Config.minGain, .gnd, .gndRef, 0, 0, .idle⟩
      ma := { b.ma with mode := .stream, rxQ := [] }
      env := { b.env with color := colorTaken s .stream }
      out := b.out ++ [.ind .pulse] ++ colorEvents s .stream ++ [.linkTx [code, code]]
      status := .done } := by
  intro b code
  have hb := stopIfAcquiring_prepares s
  have hcode : b.params.cmdCode .startLink = code := by rw [hb.params]
  rw [← hcode, ← hb.gain]
  exact exec_ack .startLink v1 v2 rfl hh (hb.halted.trans hh) hb.color

/-- Settles O54: `exec_startLink` with what the stop before it leaves. -/
theorem startLinkEntersStream : Obligations.StartLinkEntersStream := by
  intro s v1 v2 hh code session
  have hexec := exec_startLink v1 v2 hh
  refine ⟨?every, fun hm => ?noFile, fun ha => ?acquiring⟩
  case every =>
    have hb := stopIfAcquiring_prepares s
    obtain ⟨es, hes, -⟩ := hb.out
    refine ⟨_, es, hexec, ?_⟩
    rw [← hes]
    conv_lhs => rw [hb.eq]
  case noFile =>
    have hb : stopIfAcquiring s = { s with pl := (stopIfAcquiring s).pl } := by
      unfold stopIfAcquiring
      split_ifs with ha
      · rw [stopSampling_idle (hm.resolve_left (by simp [ha]))]
        rfl
      · rfl
    refine hexec.trans ?_
    rw [hb]
  case acquiring =>
    have hb : stopIfAcquiring s = stopSampling s := if_pos ha
    rw [hb] at hexec
    exact hexec

/-! ### The blocks that a create leaves alone -/

theorem blockAt_of_sameOutsideBlock {i k : Nat} {s t : State} (hp : t.params = s.params)
    (h : sameOutsideBlock i s t) (hk : k ≠ i) : blockAt t k = blockAt s k := by
  refine blockAt_congr (by rw [hp]) fun j hj => h _ ?_
  rcases Nat.lt_or_gt_of_ne hk with hlt | hgt
  · left
    have hmul := Nat.mul_le_mul_right s.params.blockBytes (Nat.succ_le_of_lt hlt)
    rw [Nat.succ_mul] at hmul
    omega
  · right
    have hmul := Nat.mul_le_mul_right s.params.blockBytes (Nat.succ_le_of_lt hgt)
    rw [Nat.succ_eq_add_one] at hmul
    omega

/-- A block write with no write outstanding reaches its block alone. -/
theorem blkWrite_frame (i : Nat) (d : Bytes) {s : State} (hb : s.med.busy = false) {k : Nat}
    (hk : k ≠ i) : blockAt (blkWrite i d s).2 k = blockAt s k := by
  refine blockAt_of_sameOutsideBlock (blkWrite_step i d s).1.params ?_ hk
  by_cases hi : i < s.params.mediumBlocks
  · cases hok : s.env.mediumOk.peek Config.freeMediumOk 0
    · rw [blkWrite_err hb hi hok]
      exact sameOutsideBlock_setBlock i (s.env.block.peek Config.freeBlock 0) s
    · rw [blkWrite_ok hb hi hok]
      exact sameOutsideBlock_setBlock i d s
  · rw [blkWrite_outside hb (Nat.not_lt.1 hi)]
    exact fun _ _ => rfl

theorem linkPrevious_frame (c : List (Nat × Fsb)) (start : Nat) {s : State}
    (hb : s.med.busy = false) {k : Nat} (hk : ∀ e ∈ c, k ≠ e.1) :
    blockAt (linkPrevious c start s).2 k = blockAt s k := by
  unfold linkPrevious
  split
  · rfl
  · rename_i lb lf hlast
    exact blkWrite_frame _ _ hb (hk _ (List.mem_of_getLast? hlast))

theorem firstFileBlock_le_nextFile {iter : U32} {p : Params} {c : List (Nat × Fsb)}
    (h : ChainOk iter p c) : p.firstFileBlock ≤ (nextFile p c).1 := by
  cases hlast : c.getLast? with
  | none => simp only [nextFile, hlast, le_refl]
  | some l =>
    have hfirst := (h.2 l (List.mem_of_getLast? hlast)).2.1
    exact hfirst.trans (lt_nextFile_of_last hlast).le

/-- A create whose blocks are both written. -/
theorem fsCreate_of_written {s u t l : State} {iter : U32} {c : List (Nat × Fsb)}
    (hopen : openChain s = (.ok (iter, c), u))
    (hroom : (nextFile u.params c).1 < u.params.mediumBlocks)
    (hwrite : writeNewFsb iter c u = (true, t))
    (hlink : linkPrevious c (nextFile u.params c).1 t = (true, l)) :
    ∃ r, fsCreate s = (.ok (nextFile u.params c).2, { l with fs := r }) := by
  rw [writeNewFsb] at hwrite
  rw [← nextSlot_eq_nextFile] at hroom hwrite hlink ⊢
  simp only [fsCreate, hopen, if_neg (Nat.not_le.2 hroom), rtcNow_eq, hwrite, hlink]
  exact ⟨_, rfl⟩

/-- A create with no file to close and no write to end leaves the superblock alone: every block it
writes belongs to a file (41_log_filesystem.md R163, 20_memory.md R82). -/
theorem fsCreate_keeps_superblock {s : State} (ho : s.fs.isOpen = false)
    (hb : s.med.busy = false) :
    blockAt (fsCreate s).2 s.params.sbBlock = blockAt s s.params.sbBlock := by
  have hread := openChain_reads s ho hb
  rcases hopen : openChain s with ⟨r, u⟩
  rw [hopen] at hread
  rw [← hread.blockAt]
  cases r with
  | err e => rw [show fsCreate s = _ from fsOpen_of_openChain_err hopen true 0]
  | fault f => exact absurd (by rw [hopen]) (openChain_noFault s f)
  | ok x =>
    obtain ⟨iter, c⟩ := x
    have hc := openChain_chain hopen
    have hbusy : u.med.busy = false := openChain_notBusy hopen
    have hbelow : s.params.sbBlock < u.params.firstFileBlock := by
      rw [hread.params]
      exact Nat.lt_succ_self _
    rcases Nat.lt_or_ge (nextFile u.params c).1 u.params.mediumBlocks with hroom | hfull
    · have hfsb : blockAt (writeNewFsb iter c u).2 s.params.sbBlock = blockAt u s.params.sbBlock :=
        blkWrite_frame _ _ (s := { u with env := { u.env with rtc := u.env.rtc.advance 1 } })
          hbusy (hbelow.trans_le (firstFileBlock_le_nextFile hc)).ne
      have hended : (writeNewFsb iter c u).2.med.busy = false := (blkWrite_step _ _ _).2
      rcases hwrite : writeNewFsb iter c u with ⟨ok, t⟩
      rw [hwrite] at hfsb hended
      cases ok with
      | false =>
        rw [fsCreate_of_blockFails hopen hroom hwrite]
        exact hfsb
      | true =>
        have hlinked := linkPrevious_frame c (nextFile u.params c).1 hended
          fun e he => (hbelow.trans_le (hc.2 e he).2.1).ne
        rcases hlink : linkPrevious c (nextFile u.params c).1 t with ⟨ok, l⟩
        rw [hlink] at hlinked
        cases ok with
        | false =>
          rw [fsCreate_of_linkFails hopen hroom hwrite hlink]
          exact hlinked.trans hfsb
        | true =>
          obtain ⟨regs, hcreate⟩ := fsCreate_of_written hopen hroom hwrite hlink
          rw [hcreate]
          exact hlinked.trans hfsb
    · rw [fsCreate_full hopen hfull]

/-! ### StartSamplingStorage -/

/-- `ENTER_STORE` in terms of the request `FS_OPEN 1`. -/
theorem enterStore_of_open {s v : State} (m : Mode) (hh : s.ma.halted = false)
    (h : exec (.fsOpen true 0) s = .next v) :
    enterStore (setMode m s) = { v with
      ring := ⟨true, 0, false, 0, false⟩
      pl := ⟨true, .calibrating, s.pl.gain, Config.minGain, .gnd, .gndRef, 0, 0, .idle⟩
      ma := { v.ma with mode := m, lastError := errorAfter v.ma.lastError v.status }
      status := s.status } := by
  have hstep := fsCreate_step s
  rcases hcreate : fsCreate s with ⟨r, w⟩
  rw [hcreate] at hstep
  cases (exec_fsOpen hh ((fsOpen_create 0 s).trans hcreate)).symm.trans h
  rw [enterStore_setMode m hcreate, ← hstep.status, ← hstep.ma]

section StartStorage

variable {s u : State}

/-- The start of a session from the state `u` in which the create finds the block. -/
theorem exec_startStorage_enters {v : State} (v1 v2 : U32) (hh : s.ma.halted = false) (hu : Prepares s u)
    (hrun : runStartStorage s = (ackType .startStorage u, enterStore (setMode .usbStore u)))
    (hopen : exec (.fsOpen true 0) u = .next v) :
    let code := s.params.cmdCode .startStorage
    exec (.cmdStartStorage v1 v2) s = .next { v with
      ring := ⟨true, 0, false, 0, false⟩
      pl := ⟨true, .calibrating, s.pl.gain, Config.minGain, .gnd, .gndRef, 0, 0, .idle⟩
      ma := { v.ma with
        mode := .usbStore, lastError := errorAfter v.ma.lastError v.status, rxQ := [] }
      env := { v.env with color := colorTaken s .usbStore }
      out := v.out ++ colorEvents s .usbStore ++ [.linkTx [code, code]]
      status := .done } := by
  intro code
  have huh := hu.halted.trans hh
  have hstep := fsCreate_step u
  rcases hcreate : fsCreate u with ⟨r, w⟩
  rw [hcreate] at hstep
  have hv := (exec_fsOpen huh ((fsOpen_create 0 u).trans hcreate)).symm.trans hopen
  have hack : ackType .startStorage u = .ack code := by rw [ackType, hu.params]
  rw [hack, enterStore_of_open .usbStore huh hopen, hu.gain] at hrun
  cases hv
  have hrunning : w.ma.halted = false := by rw [hstep.ma, huh]
  have hcode : w.params.cmdCode .startStorage = code := by rw [hstep.params, hu.params]
  refine (exec_ack .startStorage v1 v2 hrun hh hrunning (hstep.color.trans hu.color)).trans ?_
  rw [← hcode]

theorem runStartStorage_plain (hm : (stopIfAcquiring s).ma.mode ≠ .portIdle) :
    runStartStorage s = (ackType .startStorage (stopIfAcquiring s),
      enterStore (setMode .usbStore (stopIfAcquiring s))) := by
  simp only [runStartStorage, if_neg hm]

theorem runStartStorage_formatted (hm : (stopIfAcquiring s).ma.mode = .portIdle)
    (h : fsFormat false (stopIfAcquiring s) = (.ok (), u)) :
    runStartStorage s = (ackType .startStorage u, enterStore (setMode .usbStore u)) := by
  simp only [runStartStorage, if_pos hm, h]

theorem runStartStorage_formatFails {e : Err} (hm : (stopIfAcquiring s).ma.mode = .portIdle)
    (h : fsFormat false (stopIfAcquiring s) = (.err e, u)) :
    runStartStorage s = (.noAck, u) := by
  simp only [runStartStorage, if_pos hm, h]

/-- The state that a format leaves on a medium that answers (41_log_filesystem.md R162). -/
def afterFormat (portable : Bool) (s : State) : State :=
  let sb := superblock s.params (nextIteration s) portable
  { setBlock s.params.sbBlock sb s with
    fs := { s.fs with isOpen := false, dirty := false }
    env := mediumTaken 2 s
    out := s.out ++
      [.blkRead s.params.sbBlock (some (blockAt s s.params.sbBlock)),
       .blkWrite s.params.sbBlock sb true] }

theorem fsFormat_eq_afterFormat {s : State} (portable : Bool) (hp : s.params.Valid)
    (hb : s.med.busy = false) (hok : mediumAnswersOk 2 s) :
    fsFormat portable s = (.ok (), afterFormat portable s) :=
  fsFormat_ok s portable hp hb hok

/-- The create after a format finds no file and takes the first file block (43_mode_arbiter.md R275
c). -/
theorem exec_fsOpen_afterFormat {p : Params} {s : State} (portable : Bool) (hp : p.Valid)
    (hs : s.params = p) (hh : s.ma.halted = false) (hb : s.med.busy = false)
    (hok : mediumAnswersOk 5 s)
    (hnew : (decodeFsb (blockAt s p.firstFileBlock)).iteration ≠ nextIteration s) :
    let sb := superblock p (nextIteration s) portable
    let rtc := s.env.rtc.peek Config.freeRtc 0
    let fsb := fsbBlock p ⟨nextIteration s, 1, 0, nextNone, rtc.1, rtc.2⟩
    ∃ v, exec (.fsOpen true 0) (afterFormat portable s) = .next v ∧
      v = { s with
        fs := ⟨true, .created, nextIteration s, 1, BitVec.ofNat 32 p.firstFileBlock, 0, nextNone,
          rtc.1, rtc.2, false, 0⟩
        med := { s.med with cells := v.med.cells }
        env := { mediumTaken 5 s with rtc := s.env.rtc.advance 1 }
        out := s.out ++
          [.blkRead p.sbBlock (some (blockAt s p.sbBlock)), .blkWrite p.sbBlock sb true,
           .blkRead p.sbBlock (some sb),
           .blkRead p.firstFileBlock (some (blockAt s p.firstFileBlock)),
           .blkWrite p.firstFileBlock fsb true]
        status := .okSeq 1 } ∧
      blockAt v p.sbBlock = sb ∧ blockAt v p.firstFileBlock = fsb ∧
      ∀ i, i ≠ p.sbBlock → i ≠ p.firstFileBlock → blockAt v i = blockAt s i := by
  intro sb rtc fsb
  obtain rfl := hs
  let p := s.params
  have hne : p.firstFileBlock ≠ p.sbBlock := Nat.succ_ne_self _
  have hsb : blockAt (afterFormat portable s) p.sbBlock = sb :=
    (setBlock_wholeBlock (s := s) (superblock_length hp _ _) p.sbBlock).1
  have hother : ∀ i, i ≠ p.sbBlock → blockAt (afterFormat portable s) i = blockAt s i :=
    fun i hi => blockAt_setBlock_ne sb s hi
  obtain ⟨hvalid, hiter⟩ := superblock_fields hp (nextIteration s) portable
  obtain ⟨v, hopen, hv, hfsb, hframe⟩ := createFirstFile (afterFormat portable s) 0 hp hh hb rfl
    (fun k hk => by simpa [afterFormat, mediumTaken] using hok (2 + k) (Nat.add_lt_add_left hk 2))
    ((congrArg (superblockValid p) hsb).trans hvalid)
    (by
      rw [show (afterFormat portable s).params = p from rfl, hsb, hother _ hne, hiter]
      exact hnew)
  rw [show (afterFormat portable s).params = p from rfl] at hv hfsb hframe
  rw [hsb, hiter] at hv hfsb
  rw [hother _ hne] at hv
  have hparams : v.params = p := by rw [hv]
  have hkept : ∀ i, i ≠ p.firstFileBlock → blockAt v i = blockAt (afterFormat portable s) i :=
    fun i => blockAt_of_sameOutsideBlock hparams hframe
  refine ⟨v, hopen, ?whole, (hkept _ hne.symm).trans hsb, hfsb,
    fun i hi hk => (hkept i hk).trans (hother i hi)⟩
  case whole =>
    refine hv.trans ?_
    simp only [afterFormat, mediumTaken, Tape.advance_advance, List.append_assoc]
    rfl

/-- The state of a started session, whatever the create answered. -/
theorem exec_startStorage_session (v1 v2 : U32) (hh : s.ma.halted = false) (hu : Prepares s u)
    (hrun : runStartStorage s = (ackType .startStorage u, enterStore (setMode .usbStore u))) :
    let code := s.params.cmdCode .startStorage
    ∃ t es, exec (.cmdStartStorage v1 v2) s = .next t ∧ t.ma.halted = false ∧
      t = { s with
        ring := ⟨true, 0, false, 0, false⟩
        pl := ⟨true, .calibrating, s.pl.gain, Config.minGain, .gnd, .gndRef, 0, 0, .idle⟩
        ma := { s.ma with mode := .usbStore, lastError := t.ma.lastError, rxQ := [] }
        fs := t.fs
        med := t.med
        env := t.env
        out := s.out ++ es ++ colorEvents s .usbStore ++ [.linkTx [code, code]]
        status := .done } ∧
      linkOutput es = [] ∧ t.med = (fsCreate u).2.med := by
  intro code
  have hv := hu.fs (fsCreate_step u)
  rcases hcreate : fsCreate u with ⟨r, v⟩
  rw [hcreate] at hv
  replace hv : Prepares s v := hv
  have hopen := exec_fsOpen (hu.halted.trans hh) ((fsOpen_create 0 u).trans hcreate)
  obtain ⟨es, hes, hsilent⟩ := hv.out
  refine ⟨_, es, exec_startStorage_enters v1 v2 hh hu hrun hopen, hv.halted.trans hh, ?_, hsilent,
    rfl⟩
  rw [← hes]
  conv_lhs => rw [hv.eq]

end StartStorage

/-- Settles O55: every mode by the result of the format, then the whole state from a portable mode on a
medium that answers, then the create without a format. -/
theorem startStorageEntersUsbStore : Obligations.StartStorageEntersUsbStore := by
  intro s v1 v2 hp hh p code session portable b
  have hb : Prepares s b := stopIfAcquiring_prepares s
  have hportable : b.ma.mode = .portIdle ↔ portable := stopIfAcquiring_portIdle s
  have hpb : b.params.Valid := by rwa [hb.params]
  refine ⟨?every, fun h => ⟨hportable.2 h, fun hbusy hok hnew => ?answers⟩, fun h u hu => ?plain⟩
  case plain =>
    exact exec_startStorage_enters v1 v2 hh hb
      (runStartStorage_plain fun hm => h (hportable.1 hm)) hu
  case every =>
    by_cases hm : b.ma.mode = .portIdle
    · obtain ⟨u, hstep, hfs, hformat | hformat⟩ := fsFormat_step false b
      · obtain ⟨⟨iter, hsb⟩, hbusy⟩ := fsFormat_superblock hpb hformat
        have hparams : u.params = s.params := hstep.params.trans hb.params
        obtain ⟨t, es, hexec, hrunning, ht, hsilent, hmed⟩ := exec_startStorage_session v1 v2 hh
          (hb.fs hstep) (runStartStorage_formatted hm hformat)
        have htp : t.params = (fsCreate u).2.params := by
          rw [ht, (fsCreate_step u).params, hparams]
        have hkeep := fsCreate_keeps_superblock (s := u) (by rw [hfs]) hbusy
        rw [← blockAt_of_med htp hmed, hparams] at hkeep
        rw [hb.params] at hsb
        exact ⟨t, es, hexec, .inl ⟨hrunning, ht, hsilent, fun _ => ⟨iter, hkeep.trans hsb⟩⟩⟩
      · have hu := hb.fs hstep
        obtain ⟨es, hes, hsilent⟩ := hu.out
        refine ⟨_, es ++ colorEvents s .portIdle, exec_halting .startStorage v1 v2
          (runStartStorage_formatFails hm hformat) hh rfl hu.color,
          .inr ⟨rfl, hportable.1 hm, ?_, ?_⟩⟩
        · have hmode : u.ma.mode = .portIdle := by rw [hstep.ma, hm]
          have hpl : u.pl = b.pl := hstep.pl
          have hregs : u.fs = { s.fs with isOpen := false, dirty := false } :=
            hfs.trans (stopIfAcquiring_fs s)
          rw [← List.append_assoc, ← hes, ← hpl, ← hmode, ← hregs]
          conv_lhs => rw [hu.eq]
          rfl
        · rw [linkOutput_append, hsilent, linkOutput_colorEvents]
          rfl
    · obtain ⟨t, es, hexec, hrunning, ht, hsilent, -⟩ := exec_startStorage_session v1 v2 hh hb
        (runStartStorage_plain hm)
      exact ⟨t, es, hexec, .inl ⟨hrunning, ht, hsilent, fun h => absurd (hportable.2 h) hm⟩⟩
  case answers =>
    intro sb rtc fsb
    have hstep := (fsFormat_eq_afterFormat false hpb hbusy (hok.mono (by decide)))
    obtain ⟨v, hopen, hv, hsb, hfsb, hframe⟩ :=
      exec_fsOpen_afterFormat false hp hb.params (hb.halted.trans hh) hbusy hok hnew
    have hrtc : b.env.rtc = s.env.rtc := stopIfAcquiring_rtc s
    rw [hrtc] at hv hfsb
    have hu : Prepares s (afterFormat false b) := by
      obtain ⟨t, ht, -, hresult⟩ := fsFormat_step false b
      rw [hstep] at hresult
      rcases hresult with hresult | hresult
      · cases hresult
        exact hb.fs ht
      · cases hresult
    refine ⟨_, exec_startStorage_enters v1 v2 hh hu
      (runStartStorage_formatted (hportable.2 h) hstep) hopen, ?_, hsb, hfsb, hframe⟩
    conv_lhs => rw [hv]
    rfl

end Sys2Proof.Machine

/-! The commands that read a stored file (spec/43_mode_arbiter.md R254, R260): the timestamp pair and the
stream, from the opening after the stop. -/

namespace Sys2Proof.Machine

/-! ### The opening after the stop -/

section Opened

variable {s u : State} {r : Res (U32 × List (Nat × Fsb))} {iter : U32} {c : List (Nat × Fsb)}

/-- The opening of a file stays in the mode that the stop ended in. -/
theorem openChain_prepares (h : openChain (stopSampling s) = (r, u)) :
    Prepares s u ∧ u.ma = (stopSampling s).ma := by
  have hstep := (openChain_step (stopSampling s)).1
  rw [h] at hstep
  exact ⟨(stopSampling_prepares s).fs hstep, hstep.ma⟩

/-- A command without acknowledgment that went on from the opening after its stop. -/
theorem exec_after_opening (k : Command) (v1 v2 : U32) {t : State} (hh : s.ma.halted = false)
    (h : openChain (stopSampling s) = (r, u)) (hrun : runCommand k v1 v2 s = (.noAck, t))
    (hma : t.ma = u.ma) (hc : t.env.color = u.env.color) :
    exec (k.toInstr v1 v2) s = .next { t with
      env := { t.env with color := colorTaken s (stopSampling s).ma.mode }
      out := t.out ++ colorEvents s (stopSampling s).ma.mode
      status := .done } := by
  obtain ⟨hu, hmu⟩ := openChain_prepares h
  have hrunning : t.ma.halted = false := by rw [hma, hu.halted, hh]
  rw [← hmu, ← hma]
  exact exec_noAck k v1 v2 hrun hh hrunning (hc.trans hu.color)

/-- The file with sequence number `f.seq` is the chain's entry (41_log_filesystem.md R165). -/
theorem fsReopen_entry {s : State} {i : Nat} {f : Fsb} (h : openChain s = (.ok (iter, c), u))
    (he : (i, f) ∈ c) : fsReopen f.seq s = (.ok f.seq, { u with
      fs := ⟨true, .reopened, iter, f.seq, BitVec.ofNat 32 i, f.byteLen.toNat, f.next, f.rtcS,
        f.rtcSub, false, 0⟩ }) :=
  fsReopen_ok h ((openChain_chain h).find?_seq he)

/-! ### GetRtc -/

theorem runGetRtc_opened {v1 q : U32} (h : fsReopen v1 (stopSampling s) = (.ok q, u))
    (ho : u.fs.isOpen = true) :
    runGetRtc v1 s = (.noAck, replyRtc (u.fs.rtcS, u.fs.rtcSub) u) := by
  simp only [runGetRtc, seqOperand, h, fsRtcGet_open ho]

theorem runGetRtc_notOpened {v1 : U32} {e : Err}
    (h : fsReopen v1 (stopSampling s) = (.err e, u)) :
    runGetRtc v1 s = (.noAck, replyRtc (0, 0) u) := by
  simp only [runGetRtc, seqOperand, h]

/-- The reply of GetRtc in the state that the opening left, the file registers aside. -/
theorem exec_getRtc_replies {v1 : U32} (v2 : U32) {x : U32 × U32} {f : FileRegs}
    (hh : s.ma.halted = false) (h : openChain (stopSampling s) = (r, u))
    (hrun : runGetRtc v1 s = (.noAck, replyRtc x { u with fs := f })) :
    exec (.cmdGetRtc v1 v2) s = .next { u with
      fs := f
      env := { u.env with color := colorTaken s (stopSampling s).ma.mode }
      out := u.out ++ [.linkTx (Config.reply (s.params.cmdCode .getRtc) (le32 x.1 ++ le32 x.2))] ++
        colorEvents s (stopSampling s).ma.mode
      status := .done } := by
  have hcode : u.params.cmdCode .getRtc = s.params.cmdCode .getRtc := by
    rw [(openChain_prepares h).1.params]
  rw [← hcode]
  exact exec_after_opening .getRtc v1 v2 hh h hrun rfl rfl

end Opened

/-- Settles O56: the entry of the chain, no such entry, and every failed opening. -/
theorem getRtcRepliesTimestamp : Obligations.GetRtcRepliesTimestamp := by
  intro s v1 v2 hh code b shown
  refine ⟨fun hm => stopSampling_idle hm, fun u iter c hopen => ⟨fun i f he hseq => ?found,
    fun hnone => ?missing⟩, fun u e hopen => ?failed⟩
  case found =>
    subst hseq
    exact exec_getRtc_replies v2 hh hopen (runGetRtc_opened (fsReopen_entry hopen he) rfl)
  case missing =>
    exact exec_getRtc_replies v2 hh hopen (runGetRtc_notOpened (fsReopen_missing hopen hnone))
  case failed =>
    exact exec_getRtc_replies v2 hh hopen
      (runGetRtc_notOpened (fsOpen_of_openChain_err hopen false v1))

/-! ### The stream of a file -/

/-- The events of chunk `k` of a stored file of `n` bytes: its block read, its frame
(43_mode_arbiter.md R254). -/
def chunkEvents (i n : Nat) (u : State) (k : Nat) : List Event :=
  [.blkRead (i + 1 + k) (some (blockAt u (i + 1 + k))),
   .linkTx (Config.fileChunk k (fileBytes u i (k * u.params.blockBytes)
     (min u.params.blockBytes (n - k * u.params.blockBytes))))]

/-- The state of a stream, opened in `u`, of the file `f` at block `i` after `k` chunks. -/
def streamed (iter : U32) (i : Nat) (f : Fsb) (u : State) (k : Nat) : State :=
  { u with
    fs := ⟨true, .reopened, iter, f.seq, BitVec.ofNat 32 i, f.byteLen.toNat, f.next, f.rtcS,
      f.rtcSub, false, min (k * u.params.blockBytes) f.byteLen.toNat⟩
    env := mediumTaken k u
    out := u.out ++ (List.range k).flatMap (chunkEvents i f.byteLen.toNat u) }

/-- What the stream of a file needs of the state that its opening left. -/
structure Streamable (i n : Nat) (u : State) : Prop where
  params : u.params.Valid
  busy : u.med.busy = false
  block : i < u.params.mediumBlocks
  room : fileOnMedium u.params i 0 n

/-- A chunk lies in one block of the file. -/
theorem div_of_chunk {B k m : Nat} (hm : 0 < m) (hB : m ≤ B) : (k * B + m - 1) / B = k :=
  Nat.div_eq_of_lt_le (by omega) (by rw [Nat.add_mul]; omega)

theorem touchedBlocks_chunk {p : Params} {k m : Nat} (hm : 0 < m) (hB : m ≤ p.blockBytes) :
    touchedBlocks p (k * p.blockBytes) m = 1 := by
  rw [touchedBlocks, if_neg (by omega), div_of_chunk hm hB, Nat.mul_div_cancel _ (by omega)]
  omega

/-- The chunks of a file are those that begin before its end. -/
theorem lt_chunks_iff {B n k : Nat} (hB : 0 < B) : k < (n + B - 1) / B ↔ k * B < n := by
  rw [← Nat.succ_le_iff, Nat.le_div_iff_mul_le hB, Nat.succ_mul]
  omega

section OneBlock

variable {s : State} {k m n : Nat} (hB : m ≤ s.params.blockBytes) (hm : 0 < m)
  (hlen : min n (s.fs.len - k * s.params.blockBytes) = m)
  (hpos : s.fs.rdPos = k * s.params.blockBytes) (ho : s.fs.isOpen = true)
  (hb : s.med.busy = false) (hi : s.fs.start.toNat + 1 + k < s.params.mediumBlocks)
include hB hm hlen hpos ho hb hi

/-- A read of `m` bytes that begins with block `k` of the file and does not leave it. -/
theorem fsRead_oneBlock (hok : s.env.mediumOk.peek Config.freeMediumOk 0 = true) :
    fsRead n s = (.ok (fileBytes s s.fs.start.toNat (k * s.params.blockBytes) m), { s with
      fs := { s.fs with rdPos := k * s.params.blockBytes + m }
      env := mediumTaken 1 s
      out := s.out ++ [.blkRead (s.fs.start.toNat + 1 + k)
        (some (blockAt s (s.fs.start.toNat + 1 + k)))] }) := by
  have hblocks := touchedBlocks_chunk (k := k) hm hB
  have hread := fsRead_ok s n (hm.trans_le hB) hb ho
  simp only [hpos, hlen, hblocks] at hread
  refine (hread (fun _ => ?_) fun j hj => ?_).trans ?_
  · rwa [div_of_chunk hm hB]
  · rwa [Nat.lt_one_iff.1 hj]
  · simp [Nat.mul_div_cancel _ (hm.trans_le hB)]

theorem fsRead_oneBlock_err (hok : s.env.mediumOk.peek Config.freeMediumOk 0 = false) :
    fsRead n s = (.err .sdRead, { s with
      env := mediumTaken 1 s, out := s.out ++ [.blkRead (s.fs.start.toNat + 1 + k) none] }) := by
  have hread : readBlocks (k * s.params.blockBytes) m [k] s = (none, { s with
      env := mediumTaken 1 s, out := s.out ++ [.blkRead (s.fs.start.toNat + 1 + k) none] }) := by
    simp only [readBlocks, dataBlk, blkRead_err hb hi hok]
  rw [fsRead, if_neg (by simp [ho])]
  simp only [hpos, hlen, blocksTouched_eq, touchedBlocks_chunk hm hB,
    Nat.mul_div_cancel _ (hm.trans_le hB), List.range'_one, hread]

end OneBlock

/-- A read at the end of the file is no transfer and answers no bytes. -/
theorem fsRead_atEnd {s : State} (n : Nat) (ho : s.fs.isOpen = true) (hpos : s.fs.rdPos = s.fs.len) :
    fsRead n s = (.ok [], s) := by
  rw [fsRead, if_neg (by simp [ho]), ← hpos]
  simp [blocksTouched, readBlocks]

theorem mediumTaken_streamed (iter : U32) (i : Nat) (f : Fsb) (u : State) (k : Nat) :
    mediumTaken 1 (streamed iter i f u k) = mediumTaken (k + 1) u := by
  simp only [streamed, mediumTaken, Tape.advance_advance]

section Stream

variable {i : Nat} {f : Fsb} {u : State} (hs : Streamable i f.byteLen.toNat u) (iter : U32) {k : Nat}
include hs

theorem Streamable.start (k : Nat) : (streamed iter i f u k).fs.start.toNat = i :=
  toNat_ofNat_block hs.params hs.block

/-- The block of a chunk of the file is on the medium. -/
theorem Streamable.chunk_block (hk : k * u.params.blockBytes < f.byteLen.toNat) :
    i + 1 + k < u.params.mediumBlocks := by
  have hroom := hs.room (by omega)
  have hle : k ≤ (0 + f.byteLen.toNat - 1) / u.params.blockBytes :=
    (Nat.le_div_iff_mul_le (Params.block_pos hs.params)).2 (by omega)
  omega

/-- The read of chunk `k`. -/
theorem fsRead_streamed (hk : k * u.params.blockBytes < f.byteLen.toNat)
    (hok : u.env.mediumOk.peek Config.freeMediumOk k = true) :
    fsRead u.params.blockBytes (streamed iter i f u k) =
      (.ok (fileBytes u i (k * u.params.blockBytes)
          (min u.params.blockBytes (f.byteLen.toNat - k * u.params.blockBytes))),
        { streamed iter i f u (k + 1) with
          out := (streamed iter i f u k).out ++
            [.blkRead (i + 1 + k) (some (blockAt u (i + 1 + k)))] }) := by
  have hB := Params.block_pos hs.params
  have hblock := hs.chunk_block hk
  have hstart := hs.start iter k
  refine (fsRead_oneBlock (s := streamed iter i f u k) (Nat.min_le_left _ _)
    (Nat.lt_min.2 ⟨hB, Nat.sub_pos_of_lt hk⟩) rfl (Nat.min_eq_left hk.le) rfl hs.busy
    (by rwa [hstart]) (by simpa [streamed, mediumTaken] using hok)).trans ?_
  have hnext : k * u.params.blockBytes +
      min u.params.blockBytes (f.byteLen.toNat - k * u.params.blockBytes) =
      min ((k + 1) * u.params.blockBytes) f.byteLen.toNat := by
    rw [Nat.add_mul]
    omega
  rw [hstart, mediumTaken_streamed]
  simp only [streamed, hnext]
  rfl

/-- A read of chunk `k` that the medium fails. -/
theorem fsRead_streamed_err (hk : k * u.params.blockBytes < f.byteLen.toNat)
    (hok : u.env.mediumOk.peek Config.freeMediumOk k = false) :
    fsRead u.params.blockBytes (streamed iter i f u k) =
      (.err .sdRead, { streamed iter i f u k with
        env := mediumTaken (k + 1) u
        out := (streamed iter i f u k).out ++ [.blkRead (i + 1 + k) none] }) := by
  have hB := Params.block_pos hs.params
  have hblock := hs.chunk_block hk
  have hstart := hs.start iter k
  refine (fsRead_oneBlock_err (s := streamed iter i f u k) (Nat.min_le_left _ _)
    (Nat.lt_min.2 ⟨hB, Nat.sub_pos_of_lt hk⟩) rfl (Nat.min_eq_left hk.le) rfl hs.busy
    (by rwa [hstart]) (by simpa [streamed, mediumTaken] using hok)).trans ?_
  rw [hstart, mediumTaken_streamed]

/-- One chunk of the stream: its read and its frame. -/
theorem streamFile_chunk (fuel : Nat) (hk : k * u.params.blockBytes < f.byteLen.toNat)
    (hok : u.env.mediumOk.peek Config.freeMediumOk k = true) :
    streamFile (fuel + 1) k (streamed iter i f u k) =
      streamFile fuel (k + 1) (streamed iter i f u (k + 1)) := by
  have hread := fsRead_streamed hs iter hk hok
  have hB := Params.block_pos hs.params
  have hsome : (fileBytes u i (k * u.params.blockBytes)
      (min u.params.blockBytes (f.byteLen.toNat - k * u.params.blockBytes))).isEmpty = false := by
    rw [List.isEmpty_eq_false_iff, ← List.length_pos_iff]
    simp only [fileBytes, List.length_map, List.length_range]
    exact Nat.lt_min.2 ⟨hB, Nat.sub_pos_of_lt hk⟩
  rw [streamFile, show (streamed iter i f u k).params = u.params from rfl, hread]
  simp only [hsome, Bool.false_eq_true, if_false]
  congr 1
  simp [streamed, linkTx, emit, List.range_succ, chunkEvents]

/-- The stream after `k` chunks that the medium answered. -/
theorem streamFile_chunks (fuel : Nat) (hk : ∀ j < k, j * u.params.blockBytes < f.byteLen.toNat)
    (hok : mediumAnswersOk k u) :
    streamFile (k + fuel) 0 (streamed iter i f u 0) = streamFile fuel k (streamed iter i f u k) := by
  induction k generalizing fuel with
  | zero => rw [Nat.zero_add]
  | succ k ih =>
    rw [Nat.add_right_comm, Nat.add_assoc, ih (fuel + 1) (fun j hj => hk j (hj.trans k.lt_succ_self))
      (hok.mono k.le_succ), streamFile_chunk hs iter fuel (hk k k.lt_succ_self) (hok k k.lt_succ_self)]

/-- The whole stream, on a medium that answers. -/
theorem streamFile_whole {chunks fuel : Nat}
    (hc : chunks = (f.byteLen.toNat + u.params.blockBytes - 1) / u.params.blockBytes)
    (hok : mediumAnswersOk chunks u) :
    streamFile (chunks + (fuel + 1)) 0 (streamed iter i f u 0) = streamed iter i f u chunks := by
  have hB := Params.block_pos hs.params
  have hlast : f.byteLen.toNat ≤ chunks * u.params.blockBytes := by
    by_contra hlt
    exact absurd ((lt_chunks_iff hB).2 (Nat.lt_of_not_le hlt)) (by omega)
  have hread : fsRead u.params.blockBytes (streamed iter i f u chunks) =
      (.ok [], streamed iter i f u chunks) := fsRead_atEnd _ rfl (Nat.min_eq_right hlast)
  rw [streamFile_chunks hs iter (fuel + 1) (fun j hj => (lt_chunks_iff hB).1 (hc ▸ hj)) hok,
    streamFile, show (streamed iter i f u chunks).params = u.params from rfl, hread]
  rfl

/-- The stream up to a read that fails. -/
theorem streamFile_failed {j fuel : Nat} (hj : j * u.params.blockBytes < f.byteLen.toNat)
    (hok : mediumAnswersOk j u) (herr : u.env.mediumOk.peek Config.freeMediumOk j = false) :
    streamFile (j + (fuel + 1)) 0 (streamed iter i f u 0) = { streamed iter i f u j with
      env := mediumTaken (j + 1) u
      out := (streamed iter i f u j).out ++ [.blkRead (i + 1 + j) none] } := by
  rw [streamFile_chunks hs iter (fuel + 1)
      (fun x hx => (Nat.mul_le_mul_right _ hx.le).trans_lt hj) hok,
    streamFile, show (streamed iter i f u j).params = u.params from rfl,
    fsRead_streamed_err hs iter hj herr]

end Stream

/-! ### ReadStorageOverLink -/

section ReadStorage

variable {s u : State} {iter : U32} {c : List (Nat × Fsb)} {i : Nat} {f : Fsb}

theorem streamed_zero (iter : U32) (i : Nat) (f : Fsb) (u : State) :
    streamed iter i f u 0 = { u with
      fs := ⟨true, .reopened, iter, f.seq, BitVec.ofNat 32 i, f.byteLen.toNat, f.next, f.rtcS,
        f.rtcSub, false, 0⟩ } := by
  simp [streamed, mediumTaken]

theorem streamable_of_opening (hp : s.params.Valid)
    (hopen : openChain (stopSampling s) = (.ok (iter, c), u)) (he : (i, f) ∈ c)
    (hroom : fileOnMedium u.params i 0 f.byteLen.toNat) : Streamable i f.byteLen.toNat u where
  params := by rwa [(openChain_prepares hopen).1.params]
  busy := openChain_notBusy hopen
  block := ((openChain_chain hopen).2 _ he).2.2
  room := hroom

/-- The stream of an entry of the chain, by the state `t` that it ends in: the file is closed without a
transfer. -/
theorem exec_readStorage_of_stream (v2 : U32) {t : State} (hh : s.ma.halted = false)
    (hopen : openChain (stopSampling s) = (.ok (iter, c), u)) (he : (i, f) ∈ c)
    (ht : streamFile (f.byteLen.toNat / u.params.blockBytes + 2) 0 (streamed iter i f u 0) = t)
    (ho : t.fs.isOpen = true) (hd : t.fs.dirty = false) (hma : t.ma = u.ma)
    (hc : t.env.color = u.env.color) :
    exec (.cmdReadStorage f.seq v2) s = .next { t with
      fs := { t.fs with isOpen := false }
      env := { t.env with color := colorTaken s (stopSampling s).ma.mode }
      out := t.out ++ colorEvents s (stopSampling s).ma.mode
      status := .done } := by
  have hreopen := fsReopen_entry hopen he
  rw [← streamed_zero] at hreopen
  have hrun : runReadStorage f.seq s = (.noAck, { t with fs := { t.fs with isOpen := false } }) := by
    simp only [runReadStorage, seqOperand, hreopen]
    rw [show (streamed iter i f u 0).fs.len = f.byteLen.toNat from rfl,
      show (streamed iter i f u 0).params = u.params from rfl, ht, fsClose_clean ho hd]
  exact exec_after_opening .readStorage f.seq v2 hh hopen hrun hma hc

/-- An opening that fails streams nothing. -/
theorem exec_readStorage_notOpened {r : Res (U32 × List (Nat × Fsb))} {e : Err} {v1 : U32} (v2 : U32)
    (hh : s.ma.halted = false) (hopen : openChain (stopSampling s) = (r, u))
    (h : fsReopen v1 (stopSampling s) = (.err e, u)) :
    exec (.cmdReadStorage v1 v2) s = .next { u with
      env := { u.env with color := colorTaken s (stopSampling s).ma.mode }
      out := u.out ++ colorEvents s (stopSampling s).ma.mode
      status := .done } := by
  have hrun : runReadStorage v1 s = (.noAck, u) := by
    simp only [runReadStorage, seqOperand, h]
  exact exec_after_opening .readStorage v1 v2 hh hopen hrun rfl rfl

end ReadStorage

/-- Settles O57: the whole stream, the stream that a read ends, and the openings that fail. -/
theorem readStorageStreamsFile : Obligations.ReadStorageStreamsFile := by
  intro s v1 v2 hp hh p b color shown
  refine ⟨fun hm => stopSampling_idle hm, fun u iter c hopen => ⟨fun i f he hseq => ?found,
    fun hnone => ?missing⟩, fun u e hopen => ?failed⟩
  case missing => exact exec_readStorage_notOpened v2 hh hopen (fsReopen_missing hopen hnone)
  case failed =>
    exact exec_readStorage_notOpened v2 hh hopen (fsOpen_of_openChain_err hopen false v1)
  case found =>
    subst hseq
    have hparams : p = u.params := (openChain_prepares hopen).1.params.symm
    clear_value p
    subst hparams
    intro n chunks file sent hroom
    have hs := streamable_of_opening hp hopen he hroom
    have hB := Params.block_pos hs.params
    have hfuel : chunks ≤ n / u.params.blockBytes + 1 := by
      rw [← Nat.add_div_right n hB]
      exact Nat.div_le_div_right (Nat.sub_le _ _)
    refine ⟨fun hok => ?whole, fun j hj hok herr => ?ended⟩
    case whole =>
      obtain ⟨x, hx⟩ : ∃ x, n / u.params.blockBytes + 2 = chunks + (x + 1) :=
        ⟨n / u.params.blockBytes + 1 - chunks, by omega⟩
      have hend : min (chunks * u.params.blockBytes) f.byteLen.toNat = f.byteLen.toNat := by
        refine Nat.min_eq_right (Nat.le_of_not_lt fun hlt => ?_)
        exact absurd ((lt_chunks_iff hB).2 hlt) (Nat.lt_irrefl chunks)
      refine (exec_readStorage_of_stream v2 hh hopen he
        ((congrArg (streamFile · 0 _) hx).trans (streamFile_whole hs iter rfl hok))
        rfl rfl rfl rfl).trans ?_
      simp only [streamed, hend]
      rfl
    case ended =>
      obtain ⟨x, hx⟩ : ∃ x, n / u.params.blockBytes + 2 = j + (x + 1) :=
        ⟨n / u.params.blockBytes + 1 - j, by omega⟩
      have hlt : j * u.params.blockBytes < n := (lt_chunks_iff hB).1 hj
      refine (exec_readStorage_of_stream v2 hh hopen he
        ((congrArg (streamFile · 0 _) hx).trans (streamFile_failed hs iter hlt hok herr))
        rfl rfl rfl rfl).trans ?_
      have hend : min (j * u.params.blockBytes) f.byteLen.toNat = j * u.params.blockBytes :=
        Nat.min_eq_left hlt.le
      simp only [streamed, hend]
      rfl

end Sys2Proof.Machine

/-! SelfTest (spec/43_mode_arbiter.md R263): the driver test, the ring test and the filesystem test after
the stop. -/

namespace Sys2Proof.Machine

/-! ### The filesystem test, by its format -/

/-- A filesystem test whose format fails ends there (41_log_filesystem.md R177). -/
theorem fsSelftest_of_formatFails {s t : State} {e : Err}
    (h : fsFormat s.params.fsSelftestPortable s = (.err e, t)) :
    fsSelftest s = (.ok (t.params.errCode e), t) := by
  simp only [fsSelftest, h]

/-- After its format, the filesystem test reaches nothing beyond the filesystem. -/
theorem fsSelftest_step_of_formatted {s t : State} (hp : t.params.Valid)
    (h : fsFormat s.params.fsSelftestPortable s = (.ok (), t)) : FsStep t (fsSelftest s).2 := by
  have hcreate := fsCreate_step t
  have hresult := fsCreate_result t
  simp only [fsSelftest, h]
  rcases hu : fsCreate t with ⟨q | e | f, u⟩ <;> rw [hu] at hcreate hresult
  case err | fault => exact hcreate
  case ok =>
    have hwrite := fsWrite_step (fsPattern u.params) u (.inl (hresult.2.1 q rfl).2.1)
    rcases hv : fsWrite (fsPattern u.params) u with ⟨⟨⟩ | e | f, v⟩ <;>
      simp only [hv] at hcreate hwrite ⊢
    case err => exact hcreate.trans (hwrite.trans (fsClose_step v).1)
    case fault => exact hcreate.trans hwrite
    case ok =>
      have hclose := hcreate.trans (hwrite.trans (fsClose_step v).1)
      rcases hw : fsClose v with ⟨⟨⟩ | e | f, w⟩ <;> simp only [hw] at hclose ⊢
      case err | fault => exact hclose
      case ok =>
        have hpw : w.params.Valid := by rwa [hclose.params]
        exact hclose.trans (fsSelftestVerify_step q w hpw).1

/-- On a running block without an outstanding write, the filesystem test halts the block exactly when a
transfer of its format fails (60_exceptions.md R310). -/
theorem fsSelftest_halted_iff {s : State} (hp : s.params.Valid) (hh : s.ma.halted = false)
    (hb : s.med.busy = false) :
    (fsSelftest s).2.ma.halted = true ↔
      s.env.mediumOk.peek Config.freeMediumOk 0 = false ∨
        s.env.mediumOk.peek Config.freeMediumOk 1 = false := by
  rcases h1 : s.env.mediumOk.peek Config.freeMediumOk 0
  · rw [fsSelftest_of_formatFails (fsFormat_readError _ hp hb h1)]
    exact iff_of_true rfl (.inl rfl)
  rcases h2 : s.env.mediumOk.peek Config.freeMediumOk 1
  · rw [fsSelftest_of_formatFails (fsFormat_writeError _ hp hb h1 h2)]
    exact iff_of_true rfl (.inr rfl)
  · have hok : mediumAnswersOk 2 s := fun k hk => by
      obtain rfl | rfl : k = 0 ∨ k = 1 := by omega
      exacts [h1, h2]
    have hformat := fsFormat_eq_afterFormat s.params.fsSelftestPortable hp hb hok
    have hstep :=
      fsSelftest_step_of_formatted (t := afterFormat s.params.fsSelftestPortable s) hp hformat
    rw [hstep.ma]
    exact iff_of_false (Bool.eq_false_iff.1 hh) (by simp)

/-- Whatever the filesystem test does, it leaves the mode, sends nothing on the link, and a halt of it
is the one of a failed format. -/
theorem fsSelftest_reaches {s : State} (hp : s.params.Valid) (hh : s.ma.halted = false) :
    ∃ x t, fsSelftest s = (.ok x, t) ∧ t.params = s.params ∧ t.ma.mode = s.ma.mode ∧
      t.env.color = s.env.color ∧ linkOutput t.out = linkOutput s.out ∧
      (t.ma.halted = true → t.ma.lastError = .formatFailure) := by
  obtain ⟨t, x, hstep, -, htest⟩ := fsSelftest_step s hp
  obtain ⟨es, hes, hmedium⟩ := hstep.out
  have hsilent : linkOutput t.out = linkOutput s.out := by
    rw [hes, linkOutput_append, linkOutput_of_medium hmedium, List.append_nil]
  have hmode : t.ma.mode = s.ma.mode := congrArg Arbiter.mode hstep.ma
  rcases htest with htest | htest
  · refine ⟨x, t, htest, hstep.params, hmode, hstep.color, hsilent, fun hhalt => ?_⟩
    rw [hstep.ma, hh] at hhalt
    cases hhalt
  · exact ⟨x, halt t, htest, hstep.params, hmode, hstep.color, hsilent, fun _ => rfl⟩

/-! ### The tests before it -/

/-- The state that the stop and the driver test of a SelfTest leave. -/
def driverTested (s : State) : State :=
  { stopSampling s with
    env := { (stopSampling s).env with driverTest := s.env.driverTest.advance 1 } }

theorem driverTested_params (s : State) : (driverTested s).params = s.params := stopSampling_params s

theorem driverSelfTest_stopped (s : State) : driverSelfTest (stopSampling s) =
    ((s.env.driverTest.peek Config.freeDriverTest 0).zeroExtend 8, driverTested s) := by
  have hdraws : (stopSampling s).env.driverTest = s.env.driverTest := by
    rw [show (stopSampling s).env = _ from stopSampling_draws s]
  rw [driverSelfTest_eq, hdraws]
  rfl

/-- What the ring test of a SelfTest leaves as the stop and the driver test left it, with nothing sent
on the link. -/
structure RingTested (s r : State) : Prop where
  params : r.params = s.params
  ma : r.ma = (stopSampling s).ma
  med : r.med = (stopSampling s).med
  env : r.env = (driverTested s).env
  out : linkOutput r.out = linkOutput s.out

theorem rbSelftest_ringTested {s : State} (hc : 1 ≤ s.params.ringCapacity) :
    RingTested s (rbSelftest (driverTested s)).2 := by
  have hstop := stopSampling_prepares s
  obtain ⟨es, hes, hsilent⟩ := hstop.out
  have hstep := (rbSelftest_step (driverTested s) (by rwa [driverTested_params])).2
  obtain ⟨fs, hfs, hstore⟩ := hstep.out
  refine ⟨?params, ?ma, ?med, ?env, ?out⟩
  case params => rw [hstep.eq]; exact hstop.params
  case ma => rw [hstep.eq]; rfl
  case med => rw [hstep.eq]; rfl
  case env => rw [hstep.eq]; rfl
  case out =>
    rw [hfs, linkOutput_append, linkOutput_of_store hstore, List.append_nil]
    change linkOutput (stopSampling s).out = _
    rw [hes, linkOutput_append, hsilent, List.append_nil]

/-! ### The command -/

section SelfTest

variable {s t : State} {x : Byte}

/-- A driver test that fails ends the command with its result. -/
theorem runSelfTest_driverFails (h : s.env.driverTest.peek Config.freeDriverTest 0 ≠ 0) :
    runSelfTest s =
      (.ack ((s.env.driverTest.peek Config.freeDriverTest 0).zeroExtend 8), driverTested s) := by
  have hcode : (s.env.driverTest.peek Config.freeDriverTest 0).zeroExtend 8 ≠ 0 := by bv_omega
  simp only [runSelfTest, driverSelfTest_stopped, if_pos hcode]

/-- Past the driver test and the ring test, the command's result is the filesystem test's. -/
theorem runSelfTest_driverPasses (hc : 1 ≤ s.params.ringCapacity)
    (h : s.env.driverTest.peek Config.freeDriverTest 0 = 0)
    (ht : fsSelftest (rbSelftest (driverTested s)).2 = (.ok x, t)) :
    runSelfTest s = (if t.ma.halted then .noAck else .ack x, t) := by
  have hring := (rbSelftest_passes (driverTested s) (by rwa [driverTested_params])).1
  rw [runSelfTest, driverSelfTest_stopped, h]
  simp only [hring, ht]
  cases t.ma.halted <;> rfl

end SelfTest

/-- The whole self-test on a medium that answers, from the state that the ring test leaves. -/
theorem fsSelftest_of_ringTested {s r t : State} {x : Byte} (hp : s.params.Valid)
    (hh : s.ma.halted = false) (hr : RingTested s r) (ht : fsSelftest r = (.ok x, t))
    (hb : (driverTested s).med.busy = false) (hsize : s.params.fsSelftestBytes < 2 ^ 32)
    (hroom : fileOnMedium s.params s.params.firstFileBlock 0 s.params.fsSelftestBytes)
    (hok : mediumAnswersOk (8 + 2 * s.params.fsSelftestBytes) (driverTested s))
    (hnew : (decodeFsb (blockAt (driverTested s) s.params.firstFileBlock)).iteration ≠
      nextIteration (driverTested s)) : t.ma.halted = false ∧ x = 0 := by
  have hparams : r.params = (driverTested s).params := hr.params.trans (driverTested_params s).symm
  have hblock := blockAt_of_med hparams hr.med
  have hiter : nextIteration r = nextIteration (driverTested s) := by
    simp only [nextIteration, hblock, hparams]
  have hrunning : r.ma.halted = false := by rw [hr.ma, (stopSampling_prepares s).halted, hh]
  have hanswers : mediumAnswersOk (8 + 2 * s.params.fsSelftestBytes) r := by
    rwa [mediumAnswersOk, hr.env]
  rw [← hblock, ← hiter] at hnew
  rw [← fsPattern_length] at hsize hroom hanswers
  obtain ⟨u, htest, hready, -⟩ := fsSelftest_passes (n := 0) hp hsize hroom
    ⟨hr.params, by rw [hr.med]; exact hb, hrunning, hanswers.mono (by omega)⟩ hnew
  cases ht.symm.trans htest
  exact ⟨hready.halted, rfl⟩

/-- Settles O58: the filesystem test runs on the state `r` that the ring test leaves. -/
theorem selfTestShortCircuits : Obligations.SelfTestShortCircuits := by
  intro s v1 v2 hp hh p code driver stop b color shown
  have hb : b = driverTested s := rfl
  clear_value b
  subst hb
  have hstop := stopSampling_prepares s
  have hbh : (driverTested s).ma.halted = false := hstop.halted.trans hh
  refine ⟨fun hm => stopSampling_idle hm, fun hd => ?driverFails, fun hd => ?driverPasses⟩
  case driverFails =>
    have hcode : (driverTested s).params.cmdCode .selfTest = code := by rw [driverTested_params]
    rw [← hcode]
    exact exec_ack .selfTest v1 v2 (runSelfTest_driverFails hd) hh hbh hstop.color
  case driverPasses =>
    have hc : 1 ≤ (driverTested s).params.ringCapacity := by rw [driverTested_params]; exact hp.1
    have hr := rbSelftest_ringTested hp.1
    set r := (rbSelftest (driverTested s)).2
    have hpr : r.params.Valid := by rwa [hr.params]
    have hrh : r.ma.halted = false := by rw [hr.ma]; exact hbh
    obtain ⟨x, t, htest, hparams, hmode, hcolor, hsilent, herror⟩ := fsSelftest_reaches hpr hrh
    have hrun := runSelfTest_driverPasses hp.1 hd htest
    have hlink : linkOutput t.out = linkOutput s.out := hsilent.trans hr.out
    have hcolor' : t.env.color = s.env.color := by rw [hcolor, hr.env]; exact hstop.color
    have hmode' : t.ma.mode = (driverTested s).ma.mode := by rw [hmode, hr.ma]; rfl
    refine ⟨r, { t with status := .code x }, ?ring, rfl, hr.med, exec_fsSelftest hrh htest, ?iff,
      fun hhalt => ⟨herror hhalt, hlink, ?halted⟩, fun hrunning => ⟨hlink, x, rfl, ?acked⟩,
      fun hbusy hsize hroom hok hnew => ?passes⟩
    case ring =>
      refine congrArg Host.Outcome.next (serve_eq hbh ?_)
      rw [← (rbSelftest_passes (driverTested s) hc).1]
    case iff =>
      intro hbusy
      have hiff := fsSelftest_halted_iff hpr hrh (by rw [hr.med]; exact hbusy)
      rwa [htest, hr.env] at hiff
    case halted =>
      have hexec := exec_halting .selfTest v1 v2 hrun hh hhalt hcolor'
      rwa [hmode'] at hexec
    case acked =>
      have hcode : t.params.cmdCode .selfTest = code := by rw [hparams, hr.params]
      rw [show t.ma.halted = false from hrunning] at hrun
      have hexec := exec_ack .selfTest v1 v2 hrun hh hrunning hcolor'
      rwa [hmode', hcode] at hexec
    case passes =>
      obtain ⟨hrunning, rfl⟩ := fsSelftest_of_ringTested hp hh hr htest hbusy hsize hroom hok hnew
      exact ⟨hrunning, rfl⟩

end Sys2Proof.Machine

/-! The exceptions of spec/60_exceptions.md: a file operation without an open file (R301), the model
faults that an operation records (R320), and the halt (R310, R311). -/

namespace Sys2Proof.Machine

/-! ### Operations without an open file -/

section NotOpen

variable {s : State} (ho : s.fs.isOpen = false)
include ho

theorem fsSeek_notOpen (pos : Nat) : fsSeek pos s = (.err .fileNotOpen, s) := if_pos ho

theorem fsWrite_notOpen (data : Bytes) : fsWrite data s = (.err .fileNotOpen, s) := if_pos ho

theorem fsRead_notOpen (n : Nat) : fsRead n s = (.err .fileNotOpen, s) := if_pos ho

theorem fsRtcGet_notOpen : fsRtcGet s = (.err .fileNotOpen, s) := if_pos ho

theorem fsRtcSet_notOpen (v sub : U32) : fsRtcSet v sub s = (.err .fileNotOpen, s) := if_pos ho

theorem fsSizeGet_notOpen : fsSizeGet s = (.err .fileNotOpen, s) := if_pos ho

theorem fsBeginWrite_notOpen (data : Bytes) : fsBeginWrite data s = (.err .fileNotOpen, s) :=
  if_pos ho

theorem fsContinue_notOpen : fsContinue s = (.err .fileNotOpen, s) := if_pos ho

end NotOpen

/-- Settles O34: the eight requests, each by its operation without an open file. -/
theorem fileNotOpenRaised : Obligations.FileNotOpenRaised := by
  intro s i hh ho hi
  rcases hi with ⟨pos, rfl⟩ | ⟨data, rfl⟩ | ⟨n, rfl⟩ | rfl | ⟨v, sub, rfl⟩ | rfl | ⟨data, rfl⟩ | rfl
  · exact exec_fsSeek hh (fsSeek_notOpen ho pos.toNat)
  · exact exec_fsWrite hh (fsWrite_notOpen ho data)
  · exact exec_fsRead hh (fsRead_notOpen ho n.toNat)
  · exact exec_fsRtcGet hh (fsRtcGet_notOpen ho)
  · exact exec_fsRtcSet hh (fsRtcSet_notOpen ho v sub)
  · exact exec_fsSizeGet hh (fsSizeGet_notOpen ho)
  · exact exec_fsBeginWrite hh (fsBeginWrite_notOpen ho data)
  · exact exec_fsContinue hh (fsContinue_notOpen ho)

/-! ### Model faults of an operation -/

theorem exec_rbWrite_unbound (data : Bytes) {s : State} (hh : s.ma.halted = false)
    (hb : s.ring.bound = false) :
    exec (.rbWrite data) s =
      .next { s with fault := some .rbUnbound, status := .faulted .rbUnbound } :=
  congrArg Host.Outcome.next (serve_res hh (rbWrite_unbound hb))

theorem exec_rbRead_unbound (n : U16) {s : State} (hh : s.ma.halted = false)
    (hb : s.ring.bound = false) :
    exec (.rbRead n) s =
      .next { s with fault := some .rbUnbound, status := .faulted .rbUnbound } :=
  congrArg Host.Outcome.next (serve_res hh (rbRead_unbound hb))

section Append

variable (data : Bytes) {s : State} (ho : s.fs.isOpen = true)
include ho

/-- An append to a reopened file, as bytes (41_log_filesystem.md R169). -/
theorem fsWrite_reopened (hk : s.fs.kind = .reopened) :
    fsWrite data s = (.fault .appendToReopenedFile, setFault .appendToReopenedFile s) := by
  rw [fsWrite, if_neg (by simp [ho]), if_pos hk]

/-- An append to a reopened file, as a block (41_log_filesystem.md R173). -/
theorem fsBeginWrite_reopened (hk : s.fs.kind = .reopened) :
    fsBeginWrite data s = (.fault .appendToReopenedFile, setFault .appendToReopenedFile s) := by
  rw [fsBeginWrite, if_neg (by simp [ho]), if_pos hk]

/-- A block append to a file whose length is no multiple of a block (41_log_filesystem.md R173). -/
theorem fsBeginWrite_misaligned (hk : s.fs.kind = .created)
    (hlen : s.fs.len % s.params.blockBytes ≠ 0) :
    fsBeginWrite data s = (.fault .misalignedAppend, setFault .misalignedAppend s) := by
  rw [fsBeginWrite, if_neg (by simp [ho]), if_neg (by simp [hk]), if_pos hlen]

end Append

/-- Settles O22, a model fault to a clause. -/
theorem modelFaultsAreRecorded : Obligations.ModelFaultsAreRecorded := fun _ hh =>
  ⟨fun data hb => exec_rbWrite_unbound data hh hb,
    fun n hb => exec_rbRead_unbound n hh hb,
    fun data ho hk => ⟨exec_fsWrite hh (fsWrite_reopened data ho hk),
      exec_fsBeginWrite hh (fsBeginWrite_reopened data ho hk)⟩,
    fun data ho hk hlen => exec_fsBeginWrite hh (fsBeginWrite_misaligned data ho hk hlen)⟩

/-! ### The halt -/

theorem cpStep_halted {s : State} (hh : s.ma.halted = true) :
    cpStep s = { s with status := .noAnswer } := by
  simp [cpStep, hh, answer]

/-- Every operation but the reset is served, performed as a command or the command processor's step,
and each of the three passes a halted block by (60_exceptions.md R310). -/
theorem exec_halted {i : Instr} {s : State} (hi : i ≠ .extReset) (hh : s.ma.halted = true) :
    exec i s = .next { s with status := .noAnswer } := by
  cases i with
  | extReset => exact absurd rfl hi
  | cmdInit _ _ | cmdReset _ _ | cmdSelfTest _ _ | cmdReadEeprom _ _ | cmdGainSet _ _
  | cmdStartStorage _ _ | cmdStartLink _ _ | cmdReadStorage _ _ | cmdGetSampleCount _ _
  | cmdGetGitHash _ _ | cmdGetRtc _ _ | cmdSetRtc _ _ | cmdGetModePortable _ _ =>
    exact congrArg Host.Outcome.next (perform_halted hh)
  | cpStep => exact congrArg Host.Outcome.next (cpStep_halted hh)
  | btnPress | btnHold | stopSampling => exact congrArg Host.Outcome.next (serveMode_halted hh)
  | rbInit | rbWrite _ | rbRead _ | rbSelftest | fsFormat _ | fsOpen _ _ | fsSeek _ | fsWrite _
  | fsRead _ | fsRtcGet | fsRtcSet _ _ | fsClose | fsSizeGet | fsBeginWrite _ | fsContinue
  | fsSelftest | fsFlush | plBegin | plStop | calDone | tick | plDrainLink | plDrainStorage =>
    exact congrArg Host.Outcome.next (serve_halted hh)

/-- `EXT_RESET` leaves the arbiter of the warm reset: not halted, not initialized, in `UsbIdle`, its
error slot kept (60_exceptions.md R311). -/
theorem exec_extReset_arbiter (s : State) : ∃ t, exec .extReset s = .next t ∧
    t.params = s.params ∧ t.ma = ⟨.usbIdle, false, s.ma.lastError, false, []⟩ :=
  ⟨_, exec_extReset s, rfl, rfl⟩

/-- The first Init acknowledges with the error slot (43_mode_arbiter.md R250). -/
theorem exec_cmdInit_first (v1 v2 : U32) {s : State} (hh : s.ma.halted = false)
    (hi : s.ma.initialized = false) : ∃ t, exec (.cmdInit v1 v2) s = .next t ∧
      t.out = s.out ++ [.linkTx [s.params.cmdCode .init, s.params.errCode s.ma.lastError]] :=
  ⟨_, exec_ack_sameMode .init v1 v2 (runInit_first hi) hh hh rfl rfl, rfl⟩

/-- Settles O13: a halted block keeps `FormatFailure` in its error slot (`State.Inv`), the reset keeps
the slot and ends the halt, and the first Init reports it. -/
theorem haltEndsOnlyByReset : Obligations.HaltEndsOnlyByReset := by
  refine ⟨fun i s hi hh => exec_halted hi hh, fun s => ?ends, rfl, ?reports⟩
  case ends =>
    obtain ⟨t, hexec, -, hma⟩ := exec_extReset_arbiter s
    exact ⟨t, hexec, by rw [hma], by rw [hma]⟩
  case reports =>
    intro s t v1 v2 hinv hh hexec
    obtain ⟨u, hu, hparams, hma⟩ := exec_extReset_arbiter s
    cases hu.symm.trans hexec
    have hreport := exec_cmdInit_first v1 v2 (s := t) (by rw [hma]) (by rw [hma])
    rwa [hma, hparams, hinv.halted_error hh] at hreport

end Sys2Proof.Machine
